-- ==== Sys2Proof/Word.lean ====
section
/-!
DEFINITION. The bit-vector types of the IF2240: bytes as they travel on the ports and in cells (spec 11), and the
16-bit and 32-bit numbers the part holds whole (sequence numbers, check values, title codes, counters).
-/
namespace Sys2Proof

/-- One byte of a frame, an entry or a cell. -/
abbrev Byte := BitVec 8

/-- A 16-bit number: sequence number, day, room address, check value. -/
abbrev Half := BitVec 16

/-- A 32-bit number: folio number, title code, counter. -/
abbrev Word := BitVec 32

end Sys2Proof
end

