-- ==== Sys2Proof/Syntax.lean ====
section
/-!
DEFINITION. The commands of the IF2240: one constructor of `Instr` for each row of spec/opcode_table.json.
The table gives the rows no operands; the operands are those of the event the row's rule describes (log 2).
-/
namespace Sys2Proof

/-- The two service paths (spec 01). -/
inductive PathId where
  | a
  | b
  deriving DecidableEq, Repr, Inhabited

/-- The other path. -/
def PathId.other : PathId → PathId
  | .a => .b
  | .b => .a

/-- The two tables (spec 03). -/
inductive TableId where
  | channel
  | offer
  deriving DecidableEq, Repr

/-- Key parity: the half of a key context (spec 02). -/
inductive Parity where
  | even
  | odd
  deriving DecidableEq, Repr

/-- The shares of one minute of the timebase, each taken whole by the block that owns it (R123). `preview` is the
preview minute of the record with that sequence number (R89); the windows of all BOUGHT records are one share,
since R92 gives their order. -/
inductive MinuteTaker where
  | clock
  | keys
  | watchdog
  | lock
  | windows
  | preview (seq : Half)
  deriving DecidableEq, Repr

/-- The commands. `args` of a set port command are the bytes of the frame after the command byte, complete bytes
only, however many there are (R155). `address` and `payload` of a message are the fields of its line frame (11).
`order` of a second or a minute is the order in which the blocks take the minute, if it is one (log 5). -/
inductive Instr where
  /-- CELL_ARRIVES (R1): the strobe that is a cell's 128th byte, first-byte mark low. -/
  | cellArrives (path : PathId) (byte : Byte)
  /-- CELL_TAKE (R13). -/
  | cellTake (path : PathId)
  /-- ENGINE_COMPLETE (R27). -/
  | engineComplete
  /-- CELL_LEAVES (R16). -/
  | cellLeaves (path : PathId)
  /-- SLOT_WRITE_COMPLETE (R134). -/
  | slotWriteComplete
  /-- SET_FRAME_START (R154): SSEL falls. -/
  | setFrameStart
  /-- SET_FRAME_DISCARDED (R155): SSEL rises on a frame of these complete bytes while BUSY is set. -/
  | setFrameDiscarded (frame : List Byte)
  /-- UNKNOWN_COMMAND (R155): a frame whose command byte names no command. -/
  | unknownCommand (code : Byte) (args : List Byte)
  /-- NOP (R156). -/
  | nop (args : List Byte)
  /-- READ_STATUS (R164). -/
  | readStatus (args : List Byte)
  /-- CLEAR_FLAGS (R162). -/
  | clearFlags (args : List Byte)
  /-- SET_MASKS (R163). -/
  | setMasks (args : List Byte)
  /-- SELECT (R4). -/
  | select (args : List Byte)
  /-- READ_PATH (R19). -/
  | readPath (args : List Byte)
  /-- ENGINE_TEST (R32). -/
  | engineTest (args : List Byte)
  /-- READ_CHANNEL (R57). -/
  | readChannel (args : List Byte)
  /-- READ_OFFER (R58). -/
  | readOffer (args : List Byte)
  /-- TABLE_TEST (R55). -/
  | tableTest (args : List Byte)
  /-- ORDER (R93). -/
  | order (args : List Byte)
  /-- READ_FOLIO (R80). -/
  | readFolio (args : List Byte)
  /-- READ_RECORD (R103). -/
  | readRecord (args : List Byte)
  /-- ENTER_PIN (R109). -/
  | enterPin (args : List Byte)
  /-- SET_PIN (R111). -/
  | setPin (args : List Byte)
  /-- SET_CEILING (R112). -/
  | setCeiling (args : List Byte)
  /-- RELOCK (R114). -/
  | relock (args : List Byte)
  /-- SET_ROOM (R141). -/
  | setRoom (args : List Byte)
  /-- READ_TIME (R129). -/
  | readTime (args : List Byte)
  /-- RESET (R158). -/
  | reset (args : List Byte)
  /-- RESET_TAKES_EFFECT (R159). -/
  | resetTakesEffect
  /-- LINE_IDLE_DETECTED (R143): the line has been idle for three character times. -/
  | lineIdleDetected
  /-- LINE_FRAME_IGNORED (R144): a run of characters with silence after it, and the marks the receiver gave it. -/
  | lineFrameIgnored (bytes : List Byte) (framingError tooLong : Bool)
  /-- LINE_UNKNOWN_KIND (R146). -/
  | lineUnknownKind (address : Half) (kind : Byte) (payload : List Byte)
  /-- REPLY_TRANSMIT_START (R147). -/
  | replyTransmitStart
  /-- REPLY_TRANSMIT_END (R147). -/
  | replyTransmitEnd
  /-- POLL (R148). -/
  | poll (address : Half) (payload : List Byte)
  /-- TIME (R126). -/
  | time (address : Half) (payload : List Byte)
  /-- KEY (R35). -/
  | key (address : Half) (payload : List Byte)
  /-- KEY_CLEAR (R36). -/
  | keyClear (address : Half) (payload : List Byte)
  /-- TABLE_ENTRY (R47). -/
  | tableEntry (address : Half) (payload : List Byte)
  /-- TABLE_COMMIT (R48). -/
  | tableCommit (address : Half) (payload : List Byte)
  /-- CHECK_IN (R62). -/
  | checkIn (address : Half) (payload : List Byte)
  /-- CHECK_OUT (R64). -/
  | checkOut (address : Half) (payload : List Byte)
  /-- HOLD (R65). -/
  | hold (address : Half) (payload : List Byte)
  /-- PACKAGES (R66). -/
  | packages (address : Half) (payload : List Byte)
  /-- COLLECT (R99). -/
  | collect (address : Half) (payload : List Byte)
  /-- RELEASE (R100). -/
  | release (address : Half) (payload : List Byte)
  /-- VOID (R77). -/
  | void (address : Half) (payload : List Byte)
  /-- LOCK (R117). -/
  | lock (address : Half) (payload : List Byte)
  /-- SECOND_TICK (R123). -/
  | secondTick (order : List MinuteTaker)
  /-- MINUTE_OF_THE_TIMEBASE (R123). -/
  | minuteOfTheTimebase (order : List MinuteTaker)
  /-- MIDNIGHT_DAY_CHANGE (R125): the property clock's share of a minute at minute 1439. -/
  | midnightDayChange
  /-- PREVIEW_LAPSE (R90): the preview minute that ends the preview of this record, under CONFIRM. -/
  | previewLapse (seq : Half)
  /-- AUTO_CHARGE (R91): the preview minute that ends the preview of this record, under AUTO. -/
  | autoCharge (seq : Half)
  /-- WINDOW_END (R92): the last window minute of this record. -/
  | windowEnd (seq : Half)
  /-- KEY_LIFE_EXPIRY (R37): the last minute of this key half's life. -/
  | keyLifeExpiry (context : Nat) (parity : Parity)
  /-- UNLOCK_EXPIRY (R115): the last minute of an unlock. -/
  | unlockExpiry
  /-- LOCKOUT_END (R115): the last minute of a lockout. -/
  | lockoutEnd
  /-- WATCHDOG_EXPIRY (R150): the last minute of the watchdog. -/
  | watchdogExpiry
  /-- SCAN_STEP (R52). -/
  | scanStep (table : TableId)
  /-- LIVE_TABLE_UPSET (R46): the bytes that stand in the live entry after the upset. -/
  | liveTableUpset (table : TableId) (index : Nat) (entry : List Byte)
  /-- POWER_LOSS (R137). -/
  | powerLoss
  /-- POWER_ON_RESET (R138). -/
  | powerOnReset
  /-- PIN_RESET (R137): RESETN is taken low. -/
  | pinReset
  /-- START_UP_CHECK_COMPLETE (R138). -/
  | startUpCheckComplete
  /-- CELL_INPUT_STROBE (R1): a byte strobed into a path's cell input, with the level of the first-byte mark. -/
  | cellInputStrobe (path : PathId) (mark : Bool) (byte : Byte)
  /-- LINE_CHARACTER_ARRIVES (R143): a character, and whether its stop bit was found low. -/
  | lineCharacterArrives (byte : Byte) (stopLow : Bool)
  /-- PIN_RESET_RELEASE (R138): RESETN returns high. -/
  | pinResetRelease
  deriving DecidableEq, Repr

end Sys2Proof
end

