-- ==== Sys2Proof/Config.lean ====
section
/-!
DEFINITION. What the spec leaves open and the model leaves free. The part has no configurable figures: every
capacity of spec 00 is fixed and stands in Machine/Params.lean.
-/
namespace Sys2Proof

/-- FREE VALUE (log 6): which path judges first when one event is handed to both paths and both may ask the log.
The spec says that both judge within the event and gives no order. The argument is the model's counter
`State.choice`, which advances at each use, so nothing ties one choice to another. -/
opaque Config.judgesFirst : Nat → PathId

end Sys2Proof
end

