-- ==== Sys2Proof/WellFormed.lean ====
section
/-!
DEFINITION. Which commands describe an event that can reach the part: the checks on a command's operands alone.
-/
namespace Sys2Proof

/-- The command codes of the set port (spec 11, the command table). -/
def setCodes : List Byte :=
  [0x00, 0x01, 0x02, 0x03, 0x10, 0x11, 0x12, 0x18, 0x19, 0x1A, 0x20, 0x21, 0x22, 0x30, 0x31, 0x32, 0x33, 0x40, 0x41,
   0x7F]

/-- The message kinds of the line port, the three reply kinds included (spec 11, the kind table). -/
def lineKinds : List Byte :=
  [0x01, 0x02, 0x03, 0x04, 0x05, 0x06, 0x10, 0x11, 0x12, 0x13, 0x14, 0x15, 0x16, 0x17, 0x80, 0x81, 0x82]

/-- A line frame carries at most 120 payload bytes (spec 00, Capacities). -/
def payloadFits (payload : List Byte) : Bool := payload.length ≤ 120

/-- The number of entries of a table (spec 00, Capacities). -/
def TableId.size : TableId → Nat
  | .channel => 64
  | .offer => 32

/-- The bytes of an entry's canonical form (R45). -/
def TableId.entryBytes : TableId → Nat
  | .channel => 19
  | .offer => 28

/-- The operands of a command are those of an event that can reach the part. -/
def Instr.wellFormed : Instr → Bool
  | .cellArrives _ _ => true
  | .cellTake _ => true
  | .engineComplete => true
  | .cellLeaves _ => true
  | .slotWriteComplete => true
  | .setFrameStart => true
  | .setFrameDiscarded frame => !frame.isEmpty
  | .unknownCommand code _ => !setCodes.contains code
  | .nop _ => true
  | .readStatus _ => true
  | .clearFlags _ => true
  | .setMasks _ => true
  | .select _ => true
  | .readPath _ => true
  | .engineTest _ => true
  | .readChannel _ => true
  | .readOffer _ => true
  | .tableTest _ => true
  | .order _ => true
  | .readFolio _ => true
  | .readRecord _ => true
  | .enterPin _ => true
  | .setPin _ => true
  | .setCeiling _ => true
  | .relock _ => true
  | .setRoom _ => true
  | .readTime _ => true
  | .reset _ => true
  | .resetTakesEffect => true
  | .lineIdleDetected => true
  | .lineFrameIgnored bytes _ _ => !bytes.isEmpty && bytes.length ≤ 126
  | .lineUnknownKind _ kind payload => !lineKinds.contains kind && payloadFits payload
  | .replyTransmitStart => true
  | .replyTransmitEnd => true
  | .poll _ payload => payloadFits payload
  | .time _ payload => payloadFits payload
  | .key _ payload => payloadFits payload
  | .keyClear _ payload => payloadFits payload
  | .tableEntry _ payload => payloadFits payload
  | .tableCommit _ payload => payloadFits payload
  | .checkIn _ payload => payloadFits payload
  | .checkOut _ payload => payloadFits payload
  | .hold _ payload => payloadFits payload
  | .packages _ payload => payloadFits payload
  | .collect _ payload => payloadFits payload
  | .release _ payload => payloadFits payload
  | .void _ payload => payloadFits payload
  | .lock _ payload => payloadFits payload
  | .secondTick _ => true
  | .minuteOfTheTimebase _ => true
  | .midnightDayChange => true
  | .previewLapse _ => true
  | .autoCharge _ => true
  | .windowEnd _ => true
  | .keyLifeExpiry context _ => context < 16
  | .unlockExpiry => true
  | .lockoutEnd => true
  | .watchdogExpiry => true
  | .scanStep _ => true
  | .liveTableUpset table index entry => index < table.size && entry.length == table.entryBytes
  | .powerLoss => true
  | .powerOnReset => true
  | .pinReset => true
  | .startUpCheckComplete => true
  | .cellInputStrobe _ _ _ => true
  | .lineCharacterArrives _ _ => true
  | .pinResetRelease => true

end Sys2Proof
end

