-- ==== Sys2Proof/Decode.lean ====
section
/-!
DEFINITION. The commands that a word spells by the bits of spec/opcode_table.json. The table gives no row any bits
(the part takes events and frames, not instruction words), so no word spells a command.
-/
namespace Sys2Proof

/-- The command whose row of the opcode table has the bits `w`: none, for no row of the table has bits. -/
def decodeTableWord (_nbits _w : Nat) : Option Instr := none

end Sys2Proof
end

