-- ==== Sys2Proof/Machine/State.lean ====
section
/-!
DEFINITION. The state of the IF2240: every block's state as spec 00's block table lists it and the chapters define
it, the queue of waiting commands, and the values right after power-on reset. Values that follow from others (path
state, MUTE, ATTN, the effective ceiling, the half-full mark) are computed in Machine/Ops.lean and Flags.lean.
-/
namespace Sys2Proof.Machine

/-- Supply and reset: whether the part runs (R124, R137, R138). -/
inductive Phase where
  /-- VDD is not applied. -/
  | off
  /-- RESETN is held low. -/
  | inReset
  /-- RESETN is high again and the slot write that was in flight has not completed yet (R138). -/
  | released
  /-- The start-up check runs. -/
  | checking
  /-- The start-up check is complete: the ports answer and the timebase counts. -/
  | running
  deriving DecidableEq, Repr

/-! ### Service paths (spec 01) -/

/-- The mute reasons, in the order in which they are tested (R8). -/
inductive MuteReason where
  | noService
  | tableFault
  | rating
  | notEntitled
  | keyAbsent
  deriving DecidableEq, Repr

/-- The five path states (R11). -/
inductive PathState where
  | unselected
  | passing
  | descrambling
  | previewing
  | muted (reason : MuteReason)
  deriving DecidableEq, Repr

/-- The purchase log's answers (R85). -/
inductive Answer where
  | none
  | preview
  | bought
  deriving DecidableEq, Repr

/-- A cell: 128 bytes, 8 of header and 120 of payload (spec 00, Terms). -/
abbrev Cell := List Byte

/-- How a cell leaves the output (R13, R14). -/
inductive Leaving where
  | unchanged
  | descrambled
  | fill
  deriving DecidableEq, Repr

/-- Where the cell in progress stands (R13, R14). -/
inductive Stage where
  /-- Its request waits for the engine; `selectTaken`: an accepted SELECT came after its taking (R14). -/
  | waiting (selectTaken : Bool)
  /-- It is in the engine; `discard`: the RESET command took effect meanwhile, so its result is dropped (R21). -/
  | serving (discard : Bool)
  /-- It is leaving the output. -/
  | leaving (how : Leaving)
  deriving DecidableEq, Repr

/-- The cell in progress: as received until it leaves, then the 128 bytes that leave. -/
structure Progress where
  cell : Cell
  stage : Stage
  deriving DecidableEq, Repr

/-- One service path. -/
structure Path where
  /-- The bytes of the cell being assembled, the first-byte one included; none when no cell is begun (R1). -/
  assembly : Option (List Byte)
  /-- Queued cells, oldest first (R3). -/
  fifo : List Cell
  progress : Option Progress
  /-- The selected channel index, or NONE (R4). -/
  selected : Option Nat
  /-- The state that reasons 1 to 4 left at the last judging (R8 to R11). -/
  admitted : PathState
  keyAbsent : Bool
  /-- The title code last asked about (R9). -/
  title : Word
  /-- The answer then given (R9). -/
  answer : Answer
  starvation : Nat
  taken : Word
  descrambled : Word
  fills : Word
  misses : Word
  syncErrors : Word
  overflows : Word
  deriving DecidableEq, Repr

/-! ### Engine and key table (spec 02) -/

/-- The three requesters of the engine (R23). -/
inductive Requester where
  | path (p : PathId)
  | test
  deriving DecidableEq, Repr

/-- The arguments of an ENGINE_TEST whose request waits (R32). -/
structure TestRequest where
  key : BitVec 64
  tag : Nat
  count : Nat
  stamp : Word
  index : Nat
  word : List Byte
  deriving DecidableEq, Repr

/-- What the engine was given to recover (R22). -/
inductive Work where
  /-- A path's cell: its 120 received payload bytes, 15 words of 8. -/
  | cell (p : PathId) (payload : List Byte)
  /-- A test: its word index and its one received word. -/
  | test (index : Nat) (word : List Byte)
  deriving DecidableEq, Repr

/-- What the engine holds while SERVING (R22). -/
structure Service where
  work : Work
  key : BitVec 64
  acc : BitVec 40
  position : Nat
  tag : Nat
  count : Nat
  stamp : Word
  deriving DecidableEq, Repr

/-- The engine and its arbiter. IDLE is `serving = none`; a path's waiting request is its cell in progress. -/
structure Engine where
  serving : Option Service
  lastServed : Requester
  testWaiting : Option TestRequest
  deriving DecidableEq, Repr

/-- One half of a key context; an EMPTY half has key 0 and life 0 (R34). -/
inductive KeyHalf where
  | empty
  | loaded (key : BitVec 64) (life : Nat)
  deriving DecidableEq, Repr

structure KeyContext where
  even : KeyHalf
  odd : KeyHalf
  deriving DecidableEq, Repr

/-! ### Table store and scan monitor (spec 03) -/

inductive CommitOutcome where
  | none
  | accepted
  | missing
  | mismatch
  deriving DecidableEq, Repr

/-- A scan pass in progress (R52). -/
structure Scan where
  position : Nat
  crc : Half
  diagnostic : Bool
  deriving DecidableEq, Repr

/-- One table: live and pending copies, and the scan monitor's state for it. A STOPPED scan is `scan = none`. -/
structure Table where
  live : List (List Byte)
  pending : List (List Byte)
  written : List Bool
  check : Half
  generation : Byte
  bad : Bool
  outcome : CommitOutcome
  scan : Option Scan
  diagHeld : Bool
  deriving DecidableEq, Repr

/-! ### Folio unit (spec 04) -/

/-- The result codes of both ports (spec 11). -/
inductive ResultCode where
  | ok
  | pending
  | badArg
  | unknownCommand
  | folioClosed
  | folioHeld
  | folioOpen
  | wrongFolio
  | noOffer
  | locked
  | already
  | logFull
  | credit
  | offlineLimit
  | tableFault
  | badPin
  | lockout
  | noPin
  | notBilled
  | notFound
  deriving DecidableEq, Repr

/-- CLOSED, OPEN, HELD (R61). -/
inductive FolioState where
  | closed
  | opened
  | held
  deriving DecidableEq, Repr

inductive Policy where
  | confirm
  | auto
  deriving DecidableEq, Repr

/-- The folio record (spec 04, "The folio record"); amounts in cents. -/
structure Folio where
  number : Word
  state : FolioState
  creditLimit : Nat
  dailyCap : Nat
  taxRate : Nat
  packages : Byte
  policy : Policy
  allowance : Nat
  total : Nat
  daySpend : Nat
  offlineSpend : Nat
  capMark : Bool
  deriving DecidableEq, Repr

/-! ### Purchase log (spec 05) -/

inductive Origin where
  | preview
  | order
  deriving DecidableEq, Repr

/-- Record states; the window stands in BOUGHT only and the decline code in DECLINED only (spec 05). -/
inductive RecordState where
  | preview
  | bought (window : Nat)
  | ended
  | lapsed
  | declined (code : ResultCode)
  | voided
  deriving DecidableEq, Repr

structure Charge where
  list : Nat
  tax : Nat
  billed : Nat
  waived : Nat
  day : Half
  minute : Nat
  deriving DecidableEq, Repr

/-- A purchase record; `slot` is the record slot it occupies (R132), which neither port reports. -/
structure Record where
  seq : Half
  folio : Word
  title : Word
  origin : Origin
  rating : Nat
  limit : Nat
  used : Nat
  state : RecordState
  charge : Option Charge
  collected : Bool
  released : Bool
  slot : Nat
  deriving DecidableEq, Repr

/-! ### Lock unit (spec 06) and time (spec 07) -/

/-- Four decimal digits, one a byte (spec 11). -/
structure Pin where
  d0 : Byte
  d1 : Byte
  d2 : Byte
  d3 : Byte
  deriving DecidableEq, Repr

inductive LockState where
  | locked
  | unlocked
  | lockout
  deriving DecidableEq, Repr

/-- The lock record (spec 06, "The lock record"). -/
structure Lock where
  hard : Nat
  guest : Nat
  pin : Option Pin
  unlockMinutes : Nat
  state : LockState
  minutes : Nat
  length : Nat
  wrong : Nat
  lockouts : Nat
  deriving DecidableEq, Repr

/-- The property clock (spec 07); `set` is its mark. -/
structure Clock where
  day : Half
  minute : Nat
  set : Bool
  deriving DecidableEq, Repr

/-! ### Record store (spec 08) -/

/-- What a slot's image holds (R131). A lock image has `minutes = 0`: the slot does not hold the minutes. -/
inductive SlotImage where
  | free
  | record (r : Record)
  | folio (f : Folio) (nextSeq : Half)
  | lock (l : Lock)
  | config (room : Half)
  deriving DecidableEq, Repr

/-- A slot: its stored CRC agrees with its image, or it is damaged (R131, log 11). -/
inductive Slot where
  | intact (image : SlotImage)
  | damaged
  deriving DecidableEq, Repr

/-- The write in flight (R134); `releases`: it began after the acceptance of the command that waits on its slot. -/
structure SlotWrite where
  slot : Nat
  image : SlotImage
  releases : Bool
  deriving DecidableEq, Repr

structure Store where
  slots : List Slot
  dirty : List Nat
  write : Option SlotWrite
  damagedCount : Nat
  deriving DecidableEq, Repr

/-! ### Line port (spec 09) -/

inductive Receiver where
  | waiting
  | idle
  | receiving (bytes : List Byte) (tooLong framingError : Bool)
  | deaf
  deriving DecidableEq, Repr

/-- A reply frame, less its length and check value, which follow from it (spec 11). -/
structure LineReply where
  address : Half
  kind : Byte
  payload : List Byte
  deriving DecidableEq, Repr

/-- The reply waiting to be sent or being sent (R147). -/
inductive Transmit where
  | none
  | waiting (reply : LineReply)
  | sending (reply : LineReply)
  deriving DecidableEq, Repr

structure Line where
  receiver : Receiver
  transmit : Transmit
  online : Bool
  watchdog : Nat
  setting : Nat
  errors : Word
  deriving DecidableEq, Repr

/-! ### Set port (spec 10) -/

/-- A reply of the set port: echoed command code, result, data (R154). -/
structure Reply where
  code : Byte
  result : ResultCode
  data : List Byte
  deriving DecidableEq, Repr

/-- The command that waits for a slot write (R135). The figures of an ORDER's reply are those of its acceptance
(R95). -/
inductive Waiting where
  | order (seq : Half) (slot billed waived window : Nat)
  | setPin
  | setCeiling
  | setRoom
  deriving DecidableEq, Repr

/-- BUSY and its cause (R157). -/
inductive Busy where
  | clear
  | engine
  | store (w : Waiting)
  | reset
  deriving DecidableEq, Repr

/-- What a frame captured at its beginning (R154). `replaced`: the slot no longer holds that same placement (R156).
`driven`: the port answered when the frame began (R153). -/
structure Capture where
  presence : Byte
  reply : Option Reply
  replaced : Bool
  driven : Bool
  deriving DecidableEq, Repr

/-- The frame in progress. -/
inductive Frame where
  /-- SSEL is high. -/
  | idle
  /-- A frame has begun. -/
  | begun (c : Capture)
  /-- A reset came during the frame, which is not taken when SSEL rises (R160). -/
  | abandoned
  deriving DecidableEq, Repr

structure SetPort where
  frame : Frame
  slot : Option Reply
  ready : Bool
  busy : Busy
  discards : Word
  deriving DecidableEq, Repr

/-! ### Status unit (spec 11) -/

/-- The flags and masks, bits numbered as spec 11 numbers them. -/
structure Status where
  detail : BitVec 20
  combined : BitVec 6
  detailMask : BitVec 20
  attnMask : BitVec 6
  deriving DecidableEq, Repr

/-- The whole part, and the queue of the commands that wait. -/
structure State where
  phase : Phase
  pathA : Path
  pathB : Path
  engine : Engine
  keys : List KeyContext
  channels : Table
  offers : Table
  folio : Folio
  log : List Record
  nextSeq : Half
  previewed : List Word
  lock : Lock
  seconds : Nat
  clock : Clock
  store : Store
  room : Half
  line : Line
  port : SetPort
  status : Status
  /-- The model's own: counts the uses of the free value `Config.judgesFirst` (log 6). -/
  choice : Nat
  /-- The commands that wait, first in first out. -/
  pending : List Instr
  deriving DecidableEq, Repr

/-- The part has no fault: no event of the spec stops it, so the type has no constructor (log 2). -/
inductive Fault where
  deriving DecidableEq, Repr

/-- Why a step is refused. -/
inductive Refusal where
  /-- Raised by an arm of `exec` whose command has no meaning yet: no arm is left. Safe. -/
  | notModelled (mnemonic : String)
  deriving DecidableEq, Repr

/-! ### Values after reset -/

/-- A path after power-on or pin reset (R20). -/
def Path.reset : Path where
  assembly := none
  fifo := []
  progress := none
  selected := none
  admitted := .unselected
  keyAbsent := false
  title := 0
  answer := .none
  starvation := 0
  taken := 0
  descrambled := 0
  fills := 0
  misses := 0
  syncErrors := 0
  overflows := 0

/-- A table of `n` entries of `k` bytes after power-on or pin reset (R59). -/
def Table.reset (n k : Nat) : Table where
  live := List.replicate n (List.replicate k 0)
  pending := List.replicate n (List.replicate k 0)
  written := List.replicate n false
  check := 0
  generation := 0
  bad := false
  outcome := .none
  scan := none
  diagHeld := false

/-- The folio record given for a damaged folio slot (R81). -/
def Folio.default : Folio where
  number := 0
  state := .closed
  creditLimit := 0
  dailyCap := 0
  taxRate := 0
  packages := 0
  policy := .confirm
  allowance := 0
  total := 0
  daySpend := 0
  offlineSpend := 0
  capMark := false

/-- The lock record given for a damaged lock slot (R121). -/
def Lock.default : Lock where
  hard := 0
  guest := 0
  pin := none
  unlockMinutes := 120
  state := .locked
  minutes := 0
  length := 0
  wrong := 0
  lockouts := 0

/-- The slots as delivered (R131). -/
def Store.delivered : List Slot :=
  List.replicate 48 (.intact .free) ++
    [.intact (.folio Folio.default 0), .intact (.lock Lock.default), .intact (.config 0)]

/-- The part right after power-on reset, its slots as delivered and its start-up check begun (log 16). The working
copies hold the values of damaged slots until the check has rebuilt them (log 12). -/
def State.reset : State where
  phase := .checking
  pathA := Path.reset
  pathB := Path.reset
  engine := { serving := none, lastServed := .test, testWaiting := none }
  keys := List.replicate 16 { even := .empty, odd := .empty }
  channels := Table.reset 64 19
  offers := Table.reset 32 28
  folio := Folio.default
  log := []
  nextSeq := 0
  previewed := []
  lock := Lock.default
  seconds := 0
  clock := { day := 0, minute := 0, set := false }
  store := { slots := Store.delivered, dirty := [], write := none, damagedCount := 0 }
  room := 0
  line := { receiver := .waiting, transmit := .none, online := false, watchdog := 0, setting := 10, errors := 0 }
  port := { frame := .idle, slot := none, ready := false, busy := .clear, discards := 0 }
  status := { detail := 0, combined := 0, detailMask := 0, attnMask := 0b111111 }
  choice := 0
  pending := []

end Sys2Proof.Machine
end

