-- ==== Sys2Proof/Machine/Params.lean ====
section
/-!
DEFINITION. The capacities and ranges of spec 00 ("Capacities and ranges") and the slot numbers of R131.
-/
namespace Sys2Proof.Machine

/-- Cells a path's FIFO holds. -/
abbrev fifoDepth : Nat := 4
/-- Bytes of a cell. -/
abbrev cellBytes : Nat := 128
/-- The sync mark (R2). -/
abbrev syncMark : Byte := 0xB8
/-- The tag of a fill cell. -/
abbrev fillTag : Nat := 4095
/-- The key-starvation threshold (R17). -/
abbrev starvationLimit : Nat := 16
/-- The longest key life (R35). -/
abbrev maxLife : Nat := 1440
/-- Records the log holds (R98). -/
abbrev logCapacity : Nat := 48
/-- Records at which the log is near full (R83). -/
abbrev logNearFull : Nat := 40
/-- Title codes the previewed-title set holds (R87). -/
abbrev previewedCapacity : Nat := 32
/-- The folio slot (R131). -/
abbrev folioSlot : Nat := 48
/-- The lock slot (R131). -/
abbrev lockSlot : Nat := 49
/-- The configuration slot (R131). -/
abbrev configSlot : Nat := 50
/-- The broadcast address (R144). -/
abbrev broadcastAddress : Half := 0xFFFF
/-- Bytes of a set frame that are kept (R153). -/
abbrev setFrameBytes : Nat := 48
/-- Payload bytes of a line frame (R144). -/
abbrev maxPayload : Nat := 120
/-- Characters of a line frame (R143). -/
abbrev maxLineFrame : Nat := 126

end Sys2Proof.Machine
end

