-- ==== Sys2Proof/Machine/Operands.lean ====
section
/-!
DEFINITION. Every operand form: numbers in frames and entries (most significant byte first, spec 11 "Formats"),
the fields of a cell's header, of channel and offer entries, and of PIN arguments, and the clamps of the rules.
-/
namespace Sys2Proof.Machine

/-! ### Numbers in bytes -/

/-- The number that byte `i` of a run holds. -/
def byteAt (bs : List Byte) (i : Nat) : Nat := (bs.getD i 0).toNat

/-- The number that `n` bytes from byte `i` hold, most significant byte first (11). -/
def natAt (bs : List Byte) (i n : Nat) : Nat :=
  ((bs.drop i).take n).foldl (fun a b => a * 256 + b.toNat) 0

/-- `x` in `n` bytes, most significant byte first (11). -/
def be : Nat → Nat → List Byte
  | 0, _ => []
  | n + 1, x => BitVec.ofNat 8 (x / 256 ^ n) :: be n x

/-- A mark as a byte of a reply. -/
def flagByte (b : Bool) : Byte := if b then 1 else 0

/-- A path argument: 0 A, 1 B (11). -/
def pathArg (n : Nat) : Option PathId :=
  if n = 0 then some .a else if n = 1 then some .b else none

/-- A table argument: 0 channel, 1 offer (11). -/
def tableArg (n : Nat) : Option TableId :=
  if n = 0 then some .channel else if n = 1 then some .offer else none

/-- A parity field: 0 EVEN, 1 ODD (11). -/
def parityArg (n : Nat) : Option Parity :=
  if n = 0 then some .even else if n = 1 then some .odd else none

/-- A value clamped from above. -/
def clampTo (top x : Nat) : Nat := min x top

/-- A value clamped to a range. -/
def clampIn (low top x : Nat) : Nat := max low (min x top)

/-! ### Cells (11, "Cell header") -/

def cellTag (c : Cell) : Nat := byteAt c 1 * 16 + byteAt c 2 / 16
def cellCount (c : Cell) : Nat := byteAt c 2 % 16
def cellScrambled (c : Cell) : Bool := (c.getD 3 0).getLsbD 7
def cellParity (c : Cell) : Parity := if (c.getD 3 0).getLsbD 6 then .odd else .even
def cellStamp (c : Cell) : Word := BitVec.ofNat 32 (natAt c 4 4)
def cellPayload (c : Cell) : List Byte := c.drop 8

/-- The received header with the scrambled flag clear, before a plain payload (R14). -/
def descrambledCell (c : Cell) (plain : List Byte) : Cell :=
  c.take 3 ++ [c.getD 3 0 &&& 0x7F] ++ (c.drop 4).take 4 ++ plain

/-- A fill cell: tag 4095, everything else zero (R15; header B8 FF F0 00 00 00 00 00). -/
def fillCell : Cell := [0xB8, 0xFF, 0xF0, 0, 0, 0, 0, 0] ++ List.replicate 120 0

/-! ### Channel and offer entries (R42 to R45; layouts in 11) -/

inductive ServiceClass where
  | empty
  | clear
  | included
  | package
  | title
  deriving DecidableEq, Repr

/-- The class a code is read as: a code that is none of the five is EMPTY (R42). -/
def ServiceClass.ofCode (n : Nat) : ServiceClass :=
  if n = 1 then .clear else if n = 2 then .included else if n = 3 then .package else if n = 4 then .title else .empty

def ServiceClass.code : ServiceClass → Byte
  | .empty => 0
  | .clear => 1
  | .included => 2
  | .package => 3
  | .title => 4

/-- A channel entry's fields as stored, the class as read. -/
structure ChannelEntry where
  cls : ServiceClass
  tag : Nat
  rating : Nat
  context : Nat
  package : Nat
  offer : Nat
  label : List Byte
  deriving DecidableEq, Repr

def channelEntry (bs : List Byte) : ChannelEntry where
  cls := ServiceClass.ofCode (byteAt bs 0)
  tag := natAt bs 1 2
  rating := byteAt bs 3
  context := byteAt bs 4
  package := byteAt bs 5
  offer := byteAt bs 6
  label := (bs.drop 7).take 12

/-- An offer entry's fields as stored; `valid` as R43 judges it. -/
structure OfferEntry where
  valid : Bool
  title : Word
  rating : Nat
  price : Nat
  preview : Nat
  window : Nat
  label : List Byte
  deriving DecidableEq, Repr

def offerEntry (bs : List Byte) : OfferEntry where
  valid := byteAt bs 0 == 1 && natAt bs 1 4 != 0
  title := BitVec.ofNat 32 (natAt bs 1 4)
  rating := byteAt bs 5
  price := natAt bs 6 4
  preview := byteAt bs 10
  window := byteAt bs 11
  label := (bs.drop 12).take 16

/-- The price taken, in cents (R44). -/
def OfferEntry.takenPrice (o : OfferEntry) : Nat := clampTo 99999 o.price

/-- The preview limit taken, in minutes (R44). -/
def OfferEntry.takenPreview (o : OfferEntry) : Nat := clampTo 15 o.preview

/-- The window taken, in hours (R44). -/
def OfferEntry.takenWindow (o : OfferEntry) : Nat := clampIn 1 48 o.window

/-- The entry bytes READ_CHANNEL returns: as stored, an unknown class code as EMPTY (R57). -/
def ChannelEntry.reported (e : ChannelEntry) (bs : List Byte) : List Byte := e.cls.code :: bs.drop 1

/-- The entry bytes READ_OFFER returns: 28 zero bytes for an empty offer, else as it would be taken (R58). -/
def OfferEntry.reported (o : OfferEntry) : List Byte :=
  if o.valid then
    [1] ++ be 4 o.title.toNat ++ be 1 o.rating ++ be 4 o.takenPrice ++ be 1 o.takenPreview ++ be 1 o.takenWindow
      ++ o.label
  else List.replicate 28 0

/-! ### PIN arguments (R108) -/

inductive PinArg where
  | none
  | digits (p : Pin)
  | outOfForm
  deriving DecidableEq, Repr

/-- The PIN argument in the four bytes from byte `i`: four 0xFF bytes are none, any other byte above 9 is out of
form (R108). -/
def pinArg (bs : List Byte) (i : Nat) : PinArg :=
  let p : Pin := { d0 := bs.getD i 0, d1 := bs.getD (i + 1) 0, d2 := bs.getD (i + 2) 0, d3 := bs.getD (i + 3) 0 }
  if p = { d0 := 0xFF, d1 := 0xFF, d2 := 0xFF, d3 := 0xFF } then .none
  else if p.d0.toNat ≤ 9 && p.d1.toNat ≤ 9 && p.d2.toNat ≤ 9 && p.d3.toNat ≤ 9 then .digits p
  else .outOfForm

/-- The PIN an argument in form names. -/
def PinArg.pin : PinArg → Option Pin
  | .digits p => some p
  | .none => Option.none
  | .outOfForm => Option.none

/-! ### Result and state codes (11) -/

def ResultCode.code : ResultCode → Byte
  | .ok => 0x00
  | .pending => 0x01
  | .badArg => 0x03
  | .unknownCommand => 0x04
  | .folioClosed => 0x10
  | .folioHeld => 0x11
  | .folioOpen => 0x12
  | .wrongFolio => 0x13
  | .noOffer => 0x20
  | .locked => 0x21
  | .already => 0x22
  | .logFull => 0x23
  | .credit => 0x24
  | .offlineLimit => 0x25
  | .tableFault => 0x26
  | .badPin => 0x30
  | .lockout => 0x31
  | .noPin => 0x32
  | .notBilled => 0x40
  | .notFound => 0x41

def PathState.code : PathState → Byte
  | .unselected => 0
  | .passing => 1
  | .descrambling => 2
  | .previewing => 3
  | .muted _ => 4

/-- The mute reason field: 0 unless the state is MUTED. -/
def PathState.reasonCode : PathState → Byte
  | .muted .noService => 1
  | .muted .tableFault => 2
  | .muted .rating => 3
  | .muted .notEntitled => 4
  | .muted .keyAbsent => 5
  | .unselected => 0
  | .passing => 0
  | .descrambling => 0
  | .previewing => 0

def Answer.code : Answer → Byte
  | .none => 0
  | .preview => 1
  | .bought => 2

def RecordState.code : RecordState → Byte
  | .preview => 0
  | .bought _ => 1
  | .ended => 2
  | .lapsed => 3
  | .declined _ => 4
  | .voided => 5

def Origin.code : Origin → Byte
  | .preview => 0
  | .order => 1

def FolioState.code : FolioState → Byte
  | .closed => 0
  | .opened => 1
  | .held => 2

def Policy.code : Policy → Byte
  | .confirm => 0
  | .auto => 1

def LockState.code : LockState → Byte
  | .locked => 0
  | .unlocked => 1
  | .lockout => 2

def CommitOutcome.code : CommitOutcome → Byte
  | .none => 0
  | .accepted => 1
  | .missing => 2
  | .mismatch => 3

/-! ### Check values (spec 00, Conventions) -/

/-- One bit of the CRC-16 with polynomial x^16 + x^12 + x^5 + 1. -/
def crcShift (r : Half) : Half := if r.msb then (r <<< 1) ^^^ 0x1021 else r <<< 1

/-- One byte, most significant bit first, no reflection. -/
def crcByte (r : Half) (b : Byte) : Half :=
  crcShift (crcShift (crcShift (crcShift (crcShift (crcShift (crcShift (crcShift
    (r ^^^ (b.setWidth 16 <<< 8)))))))))

/-- The register after a run of bytes. -/
def crcFold (r : Half) (bs : List Byte) : Half := bs.foldl crcByte r

/-- The check value of a run of bytes; the register starts at 0xFFFF and is not inverted. -/
def crc16 (bs : List Byte) : Half := crcFold 0xFFFF bs

end Sys2Proof.Machine
end

