-- ==== Sys2Proof/Machine/Flags.lean ====
section
/-!
DEFINITION. The status unit: detail flags, combined flags, masks and the ATTN line (spec 11, R161 to R164).
-/
namespace Sys2Proof.Machine

/-- The six groups, in the order of their combined flag bits (11). -/
inductive Group where
  | line
  | table
  | path
  | store
  | lock
  | bill
  deriving DecidableEq, Repr

/-- The twenty detail flags, in bit order (11). -/
inductive DetailFlag where
  | lineLost
  | lineBack
  | channelMismatch
  | offerMismatch
  | commitRejected
  | diagMismatch
  | keyStarvedA
  | keyStarvedB
  | overflowA
  | overflowB
  | damagedSlot
  | folioSlotLost
  | lockoutStarted
  | unlockExpired
  | charged
  | windowEnded
  | capReached
  | logNearFull
  | checkedIn
  | checkedOut
  deriving DecidableEq, Repr

/-- The bit of a detail flag (11). -/
def DetailFlag.bit : DetailFlag → Nat
  | .lineLost => 0
  | .lineBack => 1
  | .channelMismatch => 2
  | .offerMismatch => 3
  | .commitRejected => 4
  | .diagMismatch => 5
  | .keyStarvedA => 6
  | .keyStarvedB => 7
  | .overflowA => 8
  | .overflowB => 9
  | .damagedSlot => 10
  | .folioSlotLost => 11
  | .lockoutStarted => 12
  | .unlockExpired => 13
  | .charged => 14
  | .windowEnded => 15
  | .capReached => 16
  | .logNearFull => 17
  | .checkedIn => 18
  | .checkedOut => 19

/-- The group of a detail flag (11, the flag table). -/
def DetailFlag.group : DetailFlag → Group
  | .lineLost => .line
  | .lineBack => .line
  | .channelMismatch => .table
  | .offerMismatch => .table
  | .commitRejected => .table
  | .diagMismatch => .table
  | .keyStarvedA => .path
  | .keyStarvedB => .path
  | .overflowA => .path
  | .overflowB => .path
  | .damagedSlot => .store
  | .folioSlotLost => .store
  | .lockoutStarted => .lock
  | .unlockExpired => .lock
  | .charged => .bill
  | .windowEnded => .bill
  | .capReached => .bill
  | .logNearFull => .bill
  | .checkedIn => .bill
  | .checkedOut => .bill

/-- A group's combined flag as a mark. -/
def Group.mark : Group → BitVec 6
  | .line => 0b000001
  | .table => 0b000010
  | .path => 0b000100
  | .store => 0b001000
  | .lock => 0b010000
  | .bill => 0b100000

/-- The detail flags of a group as marks. -/
def Group.details : Group → BitVec 20
  | .line => 0x00003
  | .table => 0x0003C
  | .path => 0x003C0
  | .store => 0x00C00
  | .lock => 0x03000
  | .bill => 0xFC000

/-- A detail flag as a mark. -/
def DetailFlag.mark (f : DetailFlag) : BitVec 20 := 1#20 <<< f.bit

/-- A block reports an event: the detail flag is set, and its group's combined flag unless masked (R161). -/
def Status.report (st : Status) (f : DetailFlag) : Status :=
  { st with
    detail := st.detail ||| f.mark
    combined := if st.detailMask.getLsbD f.bit then st.combined else st.combined ||| f.group.mark }

/-- A group's mark if the group holds a set detail flag with a clear mask, else no mark. -/
def Status.liveMark (st : Status) (g : Group) : BitVec 6 :=
  if st.detail &&& ~~~st.detailMask &&& g.details = 0 then 0 else g.mark

/-- The groups that hold a set unmasked detail flag. -/
def Status.live (st : Status) : BitVec 6 :=
  st.liveMark .line ||| st.liveMark .table ||| st.liveMark .path ||| st.liveMark .store ||| st.liveMark .lock |||
    st.liveMark .bill

/-- CLEAR_FLAGS, step 1: each named detail flag is cleared (R162). -/
def Status.clearDetails (st : Status) (named : BitVec 20) : Status := { st with detail := st.detail &&& ~~~named }

/-- CLEAR_FLAGS, step 2: a named combined flag is cleared unless its group is live (R162). -/
def Status.clearCombined (st : Status) (named : BitVec 6) : Status :=
  { st with combined := st.combined &&& ~~~(named &&& ~~~st.live) }

/-- The combined flags whose clearing is refused (R162). -/
def Status.refusedMarks (st : Status) (named : BitVec 6) : BitVec 6 := st.combined &&& named &&& st.live

/-- SET_MASKS: both masks replaced, and each group now live has its combined flag set (R163). -/
def Status.setMasks (st : Status) (detailMask : BitVec 20) (attnMask : BitVec 6) : Status :=
  let st' : Status := { st with detailMask := detailMask, attnMask := attnMask }
  { st' with combined := st'.combined ||| st'.live }

/-- The ATTN line is asserted (R164). -/
def Status.attn (st : Status) : Bool := st.combined &&& st.attnMask != 0

/-- The status unit takes a report (R161). -/
def report (f : DetailFlag) (s : State) : State := { s with status := s.status.report f }

end Sys2Proof.Machine
end

