-- ==== Sys2Proof/Machine/Ops.lean ====
section
/-!
DEFINITION. The named operations that the blocks share: the paths, tables and key halves by name; values derived
from the state; listing a slot and beginning its write; placing a reply; and the end of an event, at which the
record store begins a write and the RESET command may take effect.
-/
namespace Sys2Proof.Machine

/-! ### Parts by name -/

def State.path (s : State) : PathId → Path
  | .a => s.pathA
  | .b => s.pathB

def State.setPath (s : State) (p : PathId) (x : Path) : State :=
  match p with
  | .a => { s with pathA := x }
  | .b => { s with pathB := x }

def State.table (s : State) : TableId → Table
  | .channel => s.channels
  | .offer => s.offers

def State.setTable (s : State) (t : TableId) (x : Table) : State :=
  match t with
  | .channel => { s with channels := x }
  | .offer => { s with offers := x }

/-- The live channel entry at an index, read as it stands (R46); an index outside the table reads as EMPTY. -/
def State.channelAt (s : State) (i : Nat) : ChannelEntry := channelEntry (s.channels.live.getD i [])

/-- The live offer entry at an index, read as it stands (R46); an index above 31 reads as empty (R8, R42). -/
def State.offerAt (s : State) (i : Nat) : OfferEntry := offerEntry (s.offers.live.getD i [])

def KeyContext.half (c : KeyContext) : Parity → KeyHalf
  | .even => c.even
  | .odd => c.odd

def KeyContext.setHalf (c : KeyContext) (p : Parity) (h : KeyHalf) : KeyContext :=
  match p with
  | .even => { c with even := h }
  | .odd => { c with odd := h }

/-- A key half by context and parity; a context above 15 counts as EMPTY (R14). -/
def State.keyHalf (s : State) (context : Nat) (parity : Parity) : KeyHalf :=
  match s.keys[context]? with
  | some c => c.half parity
  | none => .empty

/-- The part is out of reset: cells are taken, scans step (R20). -/
def Phase.awake : Phase → Bool
  | .off => false
  | .inReset => false
  | .released => true
  | .checking => true
  | .running => true

/-! ### Derived values -/

/-- The path state (R11): what the last judging left, with the key-absent mark as reason 5 (R8, R10). -/
def Path.state (p : Path) : PathState :=
  match p.admitted with
  | .descrambling => if p.keyAbsent then .muted .keyAbsent else .descrambling
  | .previewing => if p.keyAbsent then .muted .keyAbsent else .previewing
  | .unselected => .unselected
  | .passing => .passing
  | .muted r => .muted r

/-- The MUTE line is asserted (R12). -/
def Path.muteLine (p : Path) : Bool :=
  match p.state with
  | .unselected => true
  | .muted _ => true
  | .passing => false
  | .descrambling => false
  | .previewing => false

/-- The FIFO's half-full mark (R3). -/
def Path.halfFull (p : Path) : Bool := 2 ≤ p.fifo.length

/-- The cell at the output while it leaves (R16). -/
def Path.outgoing (p : Path) : Option Cell :=
  match p.progress with
  | some ⟨c, .leaving _⟩ => some c
  | some ⟨_, .waiting _⟩ => none
  | some ⟨_, .serving _⟩ => none
  | none => none

/-- The output strobe that carries byte `n` of the cell leaving: the byte on the data lines and the first-byte mark, high
on the first byte; 128 strobes a cell, and none while no cell leaves (R16, log 17). -/
def Path.outputStrobe (p : Path) (n : Nat) : Option (Byte × Bool) :=
  if n < cellBytes then p.outgoing.map (fun c => (c.getD n 0, decide (n = 0))) else none

/-- The path is PREVIEWING this title (R11, R89). -/
def Path.previews (p : Path) (title : Word) : Bool := p.state == .previewing && p.title == title

/-- The effective ceiling E (R107). -/
def Lock.ceiling (l : Lock) : Nat := if l.state = .unlocked then l.hard else min l.guest l.hard

/-- The folio is open to viewing: OPEN or HELD (R61). -/
def Folio.isOpen (f : Folio) : Bool := f.state != .closed

/-- The record belongs to the current folio (R61). -/
def Record.current (r : Record) (f : Folio) : Bool := f.isOpen && r.folio == f.number

def Record.isPreview (r : Record) : Bool := r.state == .preview

def Record.isBought (r : Record) : Bool :=
  match r.state with
  | .bought _ => true
  | .preview => false
  | .ended => false
  | .lapsed => false
  | .declined _ => false
  | .voided => false

/-- A state other than PREVIEW and BOUGHT (R101). -/
def Record.final (r : Record) : Bool := !r.isPreview && !r.isBought

/-- Every record except a PREVIEW record is reportable (R84). -/
def Record.reportable (r : Record) : Bool := !r.isPreview

/-- The window minutes remaining, 0 outside BOUGHT (R103). -/
def Record.window (r : Record) : Nat :=
  match r.state with
  | .bought w => w
  | .preview => 0
  | .ended => 0
  | .lapsed => 0
  | .declined _ => 0
  | .voided => 0

/-- LTXE is high while the part transmits (R147). -/
def Line.ltxe (l : Line) : Bool :=
  match l.transmit with
  | .sending _ => true
  | .waiting _ => false
  | .none => false

/-! ### The record store: images, listing, writes (R131 to R136) -/

/-- The smallest multiple of 15 at or above the window minutes (R136). -/
def storedWindow (w : Nat) : Nat := (w + 14) / 15 * 15

/-- A record as its slot stores it (R136). -/
def Record.stored (r : Record) : Record :=
  match r.state with
  | .bought w => { r with state := .bought (storedWindow w) }
  | .preview => r
  | .ended => r
  | .lapsed => r
  | .declined _ => r
  | .voided => r

/-- The lock record as its slot stores it: without the minutes remaining (R107). -/
def Lock.stored (l : Lock) : Lock := { l with minutes := 0 }

/-- The image of a slot from the working copy as it stands (R131, R134). -/
def captureImage (s : State) (k : Nat) : SlotImage :=
  if k = folioSlot then .folio s.folio s.nextSeq
  else if k = lockSlot then .lock s.lock.stored
  else if k = configSlot then .config s.room
  else
    match s.log.find? (fun r => r.slot == k) with
    | some r => .record r.stored
    | none => .free

/-- A block lists a slot: it joins the tail of the dirty list unless it is listed already (R133). -/
def listSlot (k : Nat) (s : State) : State :=
  if k ∈ s.store.dirty then s else { s with store := { s.store with dirty := s.store.dirty ++ [k] } }

/-- The slot that a waiting command waits on (R135). -/
def Waiting.slot : Waiting → Nat
  | .order _ slot _ _ _ => slot
  | .setPin => lockSlot
  | .setCeiling => lockSlot
  | .setRoom => configSlot

/-- A write of slot `k` that begins now releases the command that waits on that slot (R135). -/
def Busy.waitsOn (b : Busy) (k : Nat) : Bool :=
  match b with
  | .store w => w.slot == k
  | .clear => false
  | .engine => false
  | .reset => false

/-- When a slot is listed and no write is in flight, the write of the head slot begins (R134). -/
def startWrite (s : State) : State :=
  match s.store.write, s.store.dirty with
  | none, k :: rest =>
    { s with
      store := { s.store with
        dirty := rest
        write := some { slot := k, image := captureImage s k, releases := s.port.busy.waitsOn k } } }
  | none, [] => s
  | some _, _ => s

/-- The folio record becomes `f`; the folio slot is listed when that changes it (R61, R136). -/
def setFolio (f : Folio) (s : State) : State :=
  if f = s.folio then s else listSlot folioSlot { s with folio := f }

/-! ### Replies of the set port (R156, R157) -/

/-- A frame in progress learns that the slot no longer holds what it captured (R156). -/
def Frame.replace : Frame → Frame
  | .begun c => .begun { c with replaced := true }
  | .idle => .idle
  | .abandoned => .abandoned

/-- A reply is placed in the slot and REPLY_READY is set (R156). -/
def placeReply (code : Byte) (result : ResultCode) (data : List Byte) (s : State) : State :=
  { s with
    port := { s.port with
      slot := some { code := code, result := result, data := data }
      ready := true
      frame := s.port.frame.replace } }

/-- BUSY takes a value (R157). -/
def setBusy (b : Busy) (s : State) : State := { s with port := { s.port with busy := b } }

/-- A command is accepted that waits for a write begun after its acceptance (R135): a write already in flight does
not release it, its reply is PENDING and BUSY has cause STORE. -/
def acceptStore (w : Waiting) (code : Byte) (data : List Byte) (s : State) : State :=
  let st := { s.store with write := s.store.write.map (fun x => { x with releases := false }) }
  placeReply code .pending data (setBusy (.store w) { s with store := st })

/-- The lock report (R108; layout in 11). -/
def lockReport (l : Lock) : List Byte :=
  [l.state.code] ++ be 1 l.minutes ++ be 1 (3 - l.wrong) ++ [flagByte l.pin.isSome] ++ be 1 l.hard ++ be 1 l.guest
    ++ be 1 l.ceiling ++ be 1 l.lockouts

/-- The waiting command is released: its final reply is placed and BUSY clears (R95, R113, R141, R157). -/
def finishWaiting (w : Waiting) (s : State) : State :=
  let s := setBusy .clear s
  match w with
  | .order seq _ billed waived window =>
    placeReply 0x20 .ok (be 2 seq.toNat ++ be 3 billed ++ be 3 waived ++ be 2 window) s
  | .setPin => placeReply 0x31 .ok (lockReport s.lock) s
  | .setCeiling => placeReply 0x32 .ok (lockReport s.lock) s
  | .setRoom => placeReply 0x40 .ok (be 2 s.room.toNat) s

/-! ### The RESET command taking effect, and the end of an event (R159) -/

/-- A path at the RESET command's effect (R21): a granted cell stays in the engine, its result to be dropped; every
other cell is discarded; the six counts stand. -/
def Path.resetCommand (p : Path) : Path :=
  { p with
    assembly := none
    fifo := []
    progress :=
      match p.progress with
      | some ⟨c, .serving _⟩ => some ⟨c, .serving true⟩
      | some ⟨_, .waiting _⟩ => none
      | some ⟨_, .leaving _⟩ => none
      | none => none
    selected := none
    admitted := .unselected
    keyAbsent := false
    title := 0
    answer := .none
    starvation := 0 }

/-- The lock record at the RESET command's effect (R122). -/
def Lock.resetCommand (l : Lock) : Lock :=
  match l.state with
  | .unlocked => { l with state := .locked, minutes := 0 }
  | .lockout => { l with minutes := l.length }
  | .locked => l

/-- The RESET command takes effect (R159): the paths, the lock record (listed when an unlock ends, R122), the reply
slot, REPLY_READY and BUSY. -/
def resetEffect (s : State) : State :=
  let s' : State := { s with
    pathA := s.pathA.resetCommand
    pathB := s.pathB.resetCommand
    lock := s.lock.resetCommand
    port := { s.port with slot := none, ready := false, busy := .clear, frame := s.port.frame.replace } }
  if s.lock.state = .unlocked then listSlot lockSlot s' else s'

/-- The RESET command waits and nothing is left to write (R159). -/
def State.resetDue (s : State) : Bool :=
  s.port.busy == .reset && s.store.dirty.isEmpty && s.store.write.isNone

/-- The end of an event that may have listed slots: the store begins a write (R134), and the RESET command takes
effect when the event leaves nothing to write (R159, log 7). -/
def endEvent (s : State) : State :=
  let s := startWrite s
  if s.resetDue then startWrite (resetEffect s) else s

end Sys2Proof.Machine
end

