-- ==== Sys2Proof/Machine/Folio.lean ====
section
/-!
DEFINITION. The folio unit's charge arithmetic (spec 04, R67 to R72) and its small changes: day change (R75) and the
return of the headend (R76).
-/
namespace Sys2Proof.Machine

/-- The tax on a list price, rounded half up to the cent (R68). -/
def taxOf (price rate : Nat) : Nat := (price * rate + 5000) / 10000

/-- The billed amount of a full charge under the daily cap (R69). -/
def Folio.billed (f : Folio) (full : Nat) : Nat :=
  if f.dailyCap = 0 then full else min full (f.dailyCap - f.daySpend)

/-- The folio unit's answer to a charge request (R67). -/
inductive ChargeAnswer where
  | refused (code : ResultCode)
  | granted (f : Folio) (c : Charge)
  deriving DecidableEq, Repr

/-- The folio record after a grant that bills `b` and waives `v` (R72). -/
def Folio.charged (f : Folio) (online : Bool) (b v : Nat) : Folio :=
  { f with
    total := f.total + b
    daySpend := f.daySpend + b
    offlineSpend := if online then f.offlineSpend else f.offlineSpend + b
    capMark := f.capMark || decide (0 < v) }

/-- The stages of a charge (R67 to R72): state, tax, charge, cap, credit, offline. -/
def chargeRequest (price : Nat) (s : State) : ChargeAnswer :=
  let f := s.folio
  match f.state with
  | .closed => .refused .folioClosed
  | .held => .refused .folioHeld
  | .opened =>
    let tax := taxOf price f.taxRate
    let full := price + tax
    let billed := f.billed full
    if f.creditLimit < f.total + billed then .refused .credit
    else if !s.line.online && f.allowance < f.offlineSpend + billed then .refused .offlineLimit
    else
      .granted (f.charged s.line.online billed (full - billed))
        { list := price, tax := tax, billed := billed, waived := full - billed
          day := s.clock.day, minute := s.clock.minute }

/-- A grant moves the folio record, and a waived amount sets CAP_REACHED (R72). -/
def grantCharge (f : Folio) (c : Charge) (s : State) : State :=
  setFolio f (if 0 < c.waived then report .capReached s else s)

/-- A day change: the day spend becomes 0 (R75). -/
def dayChange (s : State) : State := setFolio { s.folio with daySpend := 0 } s

/-- The headend's return: the offline spend becomes 0 (R76). -/
def offlineSpendReset (s : State) : State := setFolio { s.folio with offlineSpend := 0 } s

end Sys2Proof.Machine
end

