-- ==== Sys2Proof/Machine/LogCore.lean ====
section
/-!
DEFINITION. The purchase log's records: finding them, creating one (R83, R132) and answering a path's request, which
may start a preview (R85 to R87).
-/
namespace Sys2Proof.Machine

/-- The record with a sequence number (R77: compared as a plain number). -/
def State.recordOf (s : State) (seq : Half) : Option Record := s.log.find? (fun r => r.seq == seq)

/-- The first number not in use at or after `q`; `n` numbers in use can be passed over (R83). -/
def firstFree : Nat → Half → List Half → Half
  | 0, q, _ => q
  | n + 1, q, used => if q ∈ used then firstFree n (q + 1) used else q

/-- The sequence number that the next record takes (R83). -/
def State.newSeq (s : State) : Half := firstFree s.log.length s.nextSeq (s.log.map (·.seq))

/-- The free record slot with the lowest number (R132). -/
def State.newSlot (s : State) : Nat :=
  ((List.range logCapacity).find? (fun k => !(s.log.map (·.slot)).contains k)).getD 0

/-- A record is created at the tail of the log (R83): the folio slot is listed for the next sequence number, then
the record's slot; LOG_NEAR_FULL at 40 or more records. -/
def createRecord (title : Word) (origin : Origin) (rating limit : Nat) (state : RecordState) (charge : Option Charge)
    (s : State) : State :=
  let r : Record :=
    { seq := s.newSeq, folio := s.folio.number, title := title, origin := origin, rating := rating, limit := limit
      used := 0, state := state, charge := charge, collected := false, released := false, slot := s.newSlot }
  let s' := listSlot r.slot (listSlot folioSlot { s with nextSeq := r.seq + 1, log := s.log ++ [r] })
  if logNearFull ≤ s'.log.length then report .logNearFull s' else s'

/-- The BOUGHT record of the current folio that carries a title. -/
def State.boughtRecord (s : State) (title : Word) : Option Record :=
  s.log.find? (fun r => r.isBought && r.current s.folio && r.title == title)

/-- The PREVIEW record of the current folio that carries a title. -/
def State.previewRecord (s : State) (title : Word) : Option Record :=
  s.log.find? (fun r => r.isPreview && r.current s.folio && r.title == title)

/-- The log's answer to a path: the state after it, the answer, and whether a preview was started. -/
structure Asked where
  state : State
  answer : Answer
  created : Bool

/-- The conditions for a free preview, beside answers 1 and 2 not holding (R86). -/
def State.mayPreview (s : State) (title : Word) (index : Nat) : Bool :=
  s.folio.state == .opened && !s.previewed.contains title && decide (s.previewed.length < previewedCapacity)
    && decide (s.log.length < logCapacity) && (s.offerAt index).valid && (s.offerAt index).title == title
    && decide (0 < (s.offerAt index).takenPreview)

/-- The log answers a path's request for a title, found at an offer index (R85, R86). -/
def ask (title : Word) (index : Nat) (s : State) : Asked :=
  if (s.boughtRecord title).isSome then { state := s, answer := .bought, created := false }
  else if s.log.any (fun r => r.isPreview && r.current s.folio && r.title == title && decide (r.used < r.limit)) then
    { state := s, answer := .preview, created := false }
  else if s.mayPreview title index then
    let o := s.offerAt index
    let s' := createRecord title .preview o.rating o.takenPreview .preview none s
    { state := { s' with previewed := s'.previewed ++ [title] }, answer := .preview, created := true }
  else { state := s, answer := .none, created := false }

end Sys2Proof.Machine
end

