-- ==== Sys2Proof/Machine/Admission.lean ====
section
/-!
DEFINITION. How a path judges admission (spec 01, R7 to R11), and how an event is handed to both paths (R7, R88).
-/
namespace Sys2Proof.Machine

/-- A judging: the state after it, and the title of the record it created, if it created one. -/
structure Judged where
  state : State
  created : Option Word

/-- Reasons 1 to 4 leave the path in a state. -/
def enterState (p : PathId) (st : PathState) (s : State) : State := s.setPath p { s.path p with admitted := st }

/-- Reason 1 (R8). -/
def State.noService (s : State) (e : ChannelEntry) : Bool :=
  e.cls == .empty || (e.cls == .title && (decide (31 < e.offer) || !(s.offerAt e.offer).valid))

/-- Reason 2 (R8). -/
def State.tableFaulty (s : State) (e : ChannelEntry) : Bool :=
  e.cls != .clear && (s.channels.bad || (e.cls == .title && s.offers.bad))

/-- The service's rating: a TITLE entry has its offer's (R8). -/
def State.ratingOf (s : State) (e : ChannelEntry) : Nat :=
  if e.cls = .title then (s.offerAt e.offer).rating else e.rating

/-- The state a class that needs no purchase gets: entitled or not (R9, R11). -/
def entitledState (entitled : Bool) : PathState := if entitled then .descrambling else .muted .notEntitled

/-- The state a TITLE entry gets from the log's answer (R9, R11). -/
def Answer.pathState : Answer → PathState
  | .bought => .descrambling
  | .preview => .previewing
  | .none => .muted .notEntitled

/-- One judging of one path (R7 to R9). A path in UNSELECTED does not judge. -/
def judgeOnce (p : PathId) (s : State) : Judged :=
  match (s.path p).selected with
  | none => { state := s, created := none }
  | some i =>
    let e := s.channelAt i
    if s.noService e then { state := enterState p (.muted .noService) s, created := none }
    else if s.tableFaulty e then { state := enterState p (.muted .tableFault) s, created := none }
    else if s.lock.ceiling < s.ratingOf e then { state := enterState p (.muted .rating) s, created := none }
    else
      match e.cls with
      | .empty => { state := enterState p (.muted .noService) s, created := none }
      | .clear => { state := enterState p .passing s, created := none }
      | .included => { state := enterState p (entitledState s.folio.isOpen) s, created := none }
      | .package =>
        let entitled := s.folio.isOpen && decide (e.package ≤ 7) && s.folio.packages.getLsbD e.package
        { state := enterState p (entitledState entitled) s, created := none }
      | .title =>
        let t := (s.offerAt e.offer).title
        let r := ask t e.offer s
        { state := r.state.setPath p
            { r.state.path p with title := t, answer := r.answer, admitted := r.answer.pathState }
          created := if r.created then some t else none }

/-- The path shows a title: its entry is TITLE and the live offer at its offer index carries the title (R88). -/
def State.shows (s : State) (p : PathId) (title : Word) : Bool :=
  match (s.path p).selected with
  | none => false
  | some i =>
    let e := s.channelAt i
    e.cls == .title && (s.offerAt e.offer).title == title

/-- The path shows a title (R88), or stands PREVIEWING it though an upset has taken the title from its entry. Where the
title's preview ends both judge: a path is PREVIEWING only while its preview lasts (R11; the model's reading, log 9). -/
def State.followsPreview (s : State) (p : PathId) (title : Word) : Bool :=
  s.shows p title
    || ((s.path p).selected.isSome && (s.path p).admitted == .previewing && (s.path p).title == title)

/-- A path judges; a record it creates is handed to the other path, which finds it (R86, R88). -/
def judge (p : PathId) (s : State) : State :=
  let r := judgeOnce p s
  match r.created with
  | none => r.state
  | some t => if r.state.shows p.other t then (judgeOnce p.other r.state).state else r.state

/-- The offer index of a path's selected entry, if the entry is of class TITLE, so that its judging may ask the log. -/
def State.titleOffer (s : State) (p : PathId) : Option Nat :=
  match (s.path p).selected with
  | none => none
  | some i => if (s.channelAt i).cls = .title then some (s.channelAt i).offer else none

/-- A path's selected entry is of class TITLE. -/
def State.onTitle (s : State) (p : PathId) : Bool := (s.titleOffer p).isSome

/-- The order of two judgings can matter: both paths may ask the log, with different offers. -/
def State.contends (s : State) : Bool := s.onTitle .a && s.onTitle .b && s.titleOffer .a != s.titleOffer .b

/-- An event of admission handed to both paths (R7). Where both may ask the log with different offers, which one
judges first is a free value (log 6); otherwise the order cannot matter. -/
def judgeBoth (s : State) : State :=
  if s.contends then
    let first := Config.judgesFirst s.choice
    judge first.other (judge first { s with choice := s.choice + 1 })
  else judge .b (judge .a s)

/-- A judging whose rule says that it starts no preview: where R86 would start one, the log answers NONE. -/
def judgeNoPreview (p : PathId) (s : State) : State :=
  let r := judgeOnce p s
  match r.created with
  | none => r.state
  | some t => s.setPath p { s.path p with title := t, answer := .none, admitted := Answer.none.pathState }

/-- The path judges without a preview if it shows the title. -/
def judgeNoPreviewIfShown (title : Word) (p : PathId) (s : State) : State :=
  if s.shows p title then judgeNoPreview p s else s

/-- The title of a record whose end or void starts no preview, handed to both paths (R88): a window's end, after which
the paths are answered NONE (R92, log 10), and the VOID of an ENDED record, which changes no path (R79, log 27). -/
def handEndedTitle (title : Word) (s : State) : State :=
  judgeNoPreviewIfShown title .b (judgeNoPreviewIfShown title .a s)

/-- The paths that an event reaches judge. -/
def judgeReached (a b : Bool) (s : State) : State :=
  if a then
    if b then judgeBoth s else judge .a s
  else if b then judge .b s
  else s

/-- A title code handed to both paths: those that show it judge (R88). -/
def handTitle (title : Word) (s : State) : State := judgeReached (s.shows .a title) (s.shows .b title) s

/-- The title code of a record that leaves PREVIEW handed to both paths: those that show it judge (R88), and those
PREVIEWING it (R11, log 9). -/
def handPreviewEnd (title : Word) (s : State) : State :=
  judgeReached (s.followsPreview .a title) (s.followsPreview .b title) s

end Sys2Proof.Machine
end

