-- ==== Sys2Proof/Machine/Engine.lean ====
section
/-!
DEFINITION. The descrambling engine and its arbiter, the keystream computation and the key table (spec 02).
-/
namespace Sys2Proof.Machine

/-! ### The keystream computation (R28 to R31) -/

/-- Key word k(i mod 4), k0 the most significant sixteen bits (R28). -/
def keyWord (key : BitVec 64) (i : Nat) : Half := (key >>> (48 - 16 * (i % 4))).setWidth 16

/-- The seed A0 (R29). -/
def seed (stamp : Word) (count tag : Nat) : BitVec 40 :=
  BitVec.ofNat 40 (stamp.toNat * 65536 + 4096 * count + tag)

/-- The accumulator moved forward for word `i` (R30). -/
def accStep (key : BitVec 64) (i : Nat) (a : BitVec 40) : BitVec 40 :=
  let m : Half := a.setWidth 16 ^^^ keyWord key i
  a + m.setWidth 40 * (keyWord key (i + 1)).setWidth 40 + 1

/-- Keystream lane `j` (R31 step 1). -/
def keyLane (a : BitVec 40) (j : Nat) : Half := (a >>> (8 * j)).setWidth 16

/-- Received lane `j` of a word (R31 step 2). -/
def receivedLane (word : List Byte) (j : Nat) : Half :=
  BitVec.ofNat 16 (byteAt word (2 * j) + 256 * byteAt word (2 * j + 1))

/-- Plain lane `j` of word `i` (R31 steps 3 and 4). -/
def plainLane (key : BitVec 64) (i : Nat) (a : BitVec 40) (word : List Byte) (j : Nat) : Half :=
  receivedLane word ((j + (i + (keyWord key 3).toNat) % 4) % 4) ^^^ keyLane a j

/-- A lane's two bytes, the low one first (R31 step 5). -/
def laneBytes (l : Half) : List Byte := [l.setWidth 8, (l >>> 8).setWidth 8]

/-- The plain word `i` from the accumulator reached for it (R31). -/
def plainWord (key : BitVec 64) (i : Nat) (a : BitVec 40) (word : List Byte) : List Byte :=
  laneBytes (plainLane key i a word 0) ++ laneBytes (plainLane key i a word 1) ++
    laneBytes (plainLane key i a word 2) ++ laneBytes (plainLane key i a word 3)

/-- The accumulator after `n` words from word `i` (R30). -/
def accRun (key : BitVec 64) : Nat → Nat → BitVec 40 → BitVec 40
  | 0, _, a => a
  | n + 1, i, a => accRun key n (i + 1) (accStep key i a)

/-- The plain bytes of `n` received words from word `i` on, the accumulator moving from word to word (R27, R30). -/
def recoverWords (key : BitVec 64) : Nat → Nat → BitVec 40 → List Byte → List Byte
  | 0, _, _, _ => []
  | n + 1, i, a, payload =>
    let a' := accStep key i a
    plainWord key i a' (payload.take 8) ++ recoverWords key n (i + 1) a' (payload.drop 8)

/-- The plain payload of a grant, words before the step position being plain already (R22, R27). -/
def Service.plainPayload (sv : Service) (payload : List Byte) : List Byte :=
  payload.take (8 * sv.position) ++
    recoverWords sv.key (15 - sv.position) sv.position sv.acc (payload.drop (8 * sv.position))

/-- The plain word of a test: the accumulator moves through word `index`, and that word is recovered (R33). -/
def Service.plainTest (sv : Service) (index : Nat) (word : List Byte) : List Byte :=
  plainWord sv.key index (accRun sv.key (index + 1 - sv.position) sv.position sv.acc) word

/-! ### Key halves and key misses (R14, R17, R38) -/

/-- The key half of a path's cell, by the entry then standing at the selected index and the cell's parity. A path in
UNSELECTED, an entry whose class has no key context and a context above 15 count as EMPTY (R14, R38); that a CLEAR
entry, left by an upset, does so at the taking too is the model's choice (log 20). -/
def State.lookupHalf (s : State) (p : PathId) (c : Cell) : KeyHalf :=
  match (s.path p).selected with
  | none => .empty
  | some i =>
    let e := s.channelAt i
    match e.cls with
    | .empty => .empty
    | .clear => .empty
    | .included => s.keyHalf e.context (cellParity c)
    | .package => s.keyHalf e.context (cellParity c)
    | .title => s.keyHalf e.context (cellParity c)

/-- A path's starvation flag. -/
def starvedFlag : PathId → DetailFlag
  | .a => .keyStarvedA
  | .b => .keyStarvedB

/-- A path's overflow flag. -/
def overflowFlag : PathId → DetailFlag
  | .a => .overflowA
  | .b => .overflowB

/-- A key miss (R14, R17): the cell leaves as a fill cell and the key-miss count rises. The key-absent mark and the
starvation counter follow unless a SELECT came between the cell's taking and its grant. -/
def missCell (p : PathId) (selectTaken : Bool) (s : State) : State :=
  let x := s.path p
  let x1 : Path := { x with misses := x.misses + 1, progress := some { cell := fillCell, stage := .leaving .fill } }
  if selectTaken then s.setPath p x1
  else
    let s1 := s.setPath p { x1 with keyAbsent := true, starvation := min starvationLimit (x.starvation + 1) }
    if x.starvation + 1 = starvationLimit then report (starvedFlag p) s1 else s1

/-! ### The arbiter (R23 to R25) -/

/-- The order of preference after the last-served mark (R24). -/
def preference : Requester → List Requester
  | .path .a => [.path .b, .test, .path .a]
  | .path .b => [.test, .path .a, .path .b]
  | .test => [.path .a, .path .b, .test]

/-- A requester waits for the engine (R23). -/
def State.waits (s : State) : Requester → Bool
  | .test => s.engine.testWaiting.isSome
  | .path p =>
    match (s.path p).progress with
    | some ⟨_, .waiting _⟩ => true
    | some ⟨_, .serving _⟩ => false
    | some ⟨_, .leaving _⟩ => false
    | none => false

/-- The engine enters SERVING at word 0, its accumulator at the seed (R22, R25). -/
def beginService (work : Work) (key : BitVec 64) (tag count : Nat) (stamp : Word) : Service :=
  { work := work, key := key, acc := seed stamp count tag, position := 0, tag := tag, count := count, stamp := stamp }

/-- A grant to a path's waiting cell (R25): its half is read once more, and EMPTY completes the grant at once. -/
def grantCell (p : PathId) (c : Cell) (selectTaken : Bool) (s : State) : State :=
  let s := { s with engine := { s.engine with lastServed := .path p } }
  match s.lookupHalf p c with
  | .empty => missCell p selectTaken s
  | .loaded key _ =>
    let sv := beginService (.cell p (cellPayload c)) key (cellTag c) (cellCount c) (cellStamp c)
    let s := { s with engine := { s.engine with serving := some sv } }
    s.setPath p { s.path p with progress := some { cell := c, stage := .serving false } }

/-- A grant to the waiting test (R33). -/
def grantTest (t : TestRequest) (s : State) : State :=
  { s with
    engine :=
      { serving := some (beginService (.test t.index t.word) t.key t.tag t.count t.stamp)
        lastServed := .test
        testWaiting := none } }

/-- A grant: the last-served mark becomes the requester (R24). -/
def grant (r : Requester) (s : State) : State :=
  match r with
  | .test =>
    match s.engine.testWaiting with
    | some t => grantTest t s
    | none => s
  | .path p =>
    match (s.path p).progress with
    | some ⟨c, .waiting selectTaken⟩ => grantCell p c selectTaken s
    | some ⟨_, .serving _⟩ => s
    | some ⟨_, .leaving _⟩ => s
    | none => s

/-- The arbiter grants while the engine is IDLE and a requester waits: a grant that misses its key leaves the engine
IDLE, and the next waiting requester is granted at that same completion (R24, R25). At most three wait. -/
def arbitrate : Nat → State → State
  | 0, s => s
  | n + 1, s =>
    if s.engine.serving.isSome then s
    else
      match (preference s.engine.lastServed).find? s.waits with
      | none => s
      | some r => arbitrate n (grant r s)

/-! ### The key table (R35 to R37) -/

/-- One half of one context takes a value; a context above 15 is no context. -/
def State.setHalf (s : State) (context : Nat) (parity : Parity) (h : KeyHalf) : State :=
  match s.keys[context]? with
  | some c => { s with keys := s.keys.set context (c.setHalf parity h) }
  | none => s

/-- KEY(context, parity, key, life): the life is clamped to 1–1440 (R35). -/
def keyMessage (args : List Byte) (s : State) : State :=
  match parityArg (byteAt args 1) with
  | none => s
  | some p =>
    s.setHalf (byteAt args 0) p (.loaded (BitVec.ofNat 64 (natAt args 2 8)) (clampIn 1 maxLife (natAt args 10 2)))

/-- KEY_CLEAR(context) (R36). -/
def keyClearMessage (args : List Byte) (s : State) : State :=
  { s with keys := s.keys.set (byteAt args 0) { even := .empty, odd := .empty } }

/-- A half's share of a minute: the life falls by one, and at 0 the half empties (R37). -/
def KeyHalf.minute : KeyHalf → KeyHalf
  | .empty => .empty
  | .loaded key life => if life ≤ 1 then .empty else .loaded key (life - 1)

/-- The key table's share of a minute (R37). -/
def keysMinute (s : State) : State :=
  { s with keys := s.keys.map (fun c => { even := c.even.minute, odd := c.odd.minute }) }

/-! ### ENGINE_TEST (R32) and the engine's completion (R27) -/

/-- ENGINE_TEST: the arguments are checked; in range, the test posts its request and BUSY is set with cause ENGINE
(R32). -/
def engineTestCommand (args : List Byte) (s : State) : State :=
  let tag := natAt args 8 2
  let count := byteAt args 10
  let index := byteAt args 15
  if 4094 < tag ∨ 15 < count ∨ 14 < index then placeReply 0x12 .badArg [] s
  else
    let t : TestRequest :=
      { key := BitVec.ofNat 64 (natAt args 0 8), tag := tag, count := count
        stamp := BitVec.ofNat 32 (natAt args 11 4), index := index, word := (args.drop 16).take 8 }
    let s := placeReply 0x12 .pending [] (setBusy .engine s)
    arbitrate 3 { s with engine := { s.engine with testWaiting := some t } }

/-- The result of a path's grant (R27): the plain cell leaves; a cell whose path was reset meanwhile is dropped,
raising no count (R21, R41). -/
def finishCell (p : PathId) (plain : List Byte) (s : State) : State :=
  match (s.path p).progress with
  | some ⟨c, .serving false⟩ =>
    s.setPath p
      { s.path p with progress := some { cell := descrambledCell c plain, stage := .leaving .descrambled } }
  | some ⟨_, .serving true⟩ => s.setPath p { s.path p with progress := none }
  | some ⟨_, .waiting _⟩ => s
  | some ⟨_, .leaving _⟩ => s
  | none => s

/-- The result of a test's grant: the reply becomes OK and BUSY clears (R27, R33). -/
def finishTest (index : Nat) (plain : List Byte) (s : State) : State :=
  placeReply 0x12 .ok (be 1 index ++ plain) (setBusy .clear s)

/-- The engine completes its grant, returns to IDLE, and the arbiter grants the next request (R27). In IDLE nothing
completes. -/
def completeGrant (s : State) : State :=
  match s.engine.serving with
  | none => s
  | some sv =>
    let s := { s with engine := { s.engine with serving := none } }
    match sv.work with
    | .cell p payload => arbitrate 3 (finishCell p (sv.plainPayload payload) s)
    | .test index word => arbitrate 3 (finishTest index (sv.plainTest index word) s)

/-- ENGINE_COMPLETE (R27). -/
def execEngineComplete (s : State) : Host.Outcome State Fault Refusal := .next (completeGrant s)

end Sys2Proof.Machine
end

