-- ==== Sys2Proof/Machine/LockUnit.lean ====
section
/-!
DEFINITION. The lock unit (spec 06): the PIN commands (R108 to R114), the timers (R115), the LOCK message (R117) and
check-in and check-out (R118, R119).
-/
namespace Sys2Proof.Machine

/-- The lock record takes a new content: the lock slot is listed when a field it holds changes, and both paths judge
when the effective ceiling changes (R107). The lock slot is listed before the slots of a preview that this judging
starts (the model's choice, log 31). -/
def applyLock (l : Lock) (s : State) : State :=
  let s' : State := { s with lock := l }
  let s' := if l.stored = s.lock.stored then s' else listSlot lockSlot s'
  if l.ceiling = s.lock.ceiling then s' else judgeBoth s'

/-- The length of a lockout after `n` lockouts (R110). -/
def lockoutLength (n : Nat) : Nat := min 240 (15 * 2 ^ n)

/-- The record after a wrong attempt (R110). -/
def Lock.wrongAttempt (l : Lock) : Lock :=
  if l.wrong + 1 < 3 then { l with wrong := l.wrong + 1 }
  else
    { l with
      state := .lockout
      minutes := lockoutLength l.lockouts
      length := lockoutLength l.lockouts
      lockouts := min 5 (l.lockouts + 1)
      wrong := 0 }

/-- A wrong attempt: counted, or a lockout starts and is reported (R110). -/
def countWrong (s : State) : State :=
  let s' := applyLock s.lock.wrongAttempt s
  if s.lock.wrong + 1 < 3 then s' else report .lockoutStarted s'

/-- An unlock ends (R111, R114, R119). -/
def Lock.endUnlock (l : Lock) : Lock :=
  match l.state with
  | .unlocked => { l with state := .locked, minutes := 0 }
  | .locked => l
  | .lockout => l

/-- A reply to one of the four PIN commands: it carries the lock report as the record stands (R108). -/
def lockReply (code : Byte) (result : ResultCode) (s : State) : State := placeReply code result (lockReport s.lock) s

/-- The tests of R108 for a command with these PIN arguments; `required`: none is out of form too (ENTER_PIN). -/
def pinRefusal (s : State) (args : List PinArg) (required : Bool) : Option ResultCode :=
  if s.folio.state = .closed then some .folioClosed
  else if args.contains .outOfForm || (required && args.contains .none) then some .badArg
  else if s.lock.state = .lockout then some .lockout
  else none

/-- The record after the right PIN (R109). -/
def Lock.unlock (l : Lock) : Lock :=
  { l with state := .unlocked, minutes := l.unlockMinutes, wrong := 0, lockouts := 0, length := 0 }

/-- ENTER_PIN(PIN) (R109). -/
def enterPinCommand (args : List Byte) (s : State) : State :=
  let entered := pinArg args 0
  match pinRefusal s [entered] true with
  | some code => lockReply 0x30 code s
  | none =>
    match s.lock.pin with
    | none => lockReply 0x30 .noPin s
    | some pin =>
      if entered.pin = some pin then lockReply 0x30 .ok (endEvent (applyLock s.lock.unlock s))
      else lockReply 0x30 .badPin (endEvent (countWrong s))

/-- An accepted SET_PIN or SET_CEILING (R113): the record takes its content, the lock slot is listed even when no
field changed, and the command waits for a write of it. -/
def acceptLock (w : Waiting) (code : Byte) (l : Lock) (s : State) : State :=
  let s := listSlot lockSlot (applyLock l s)
  endEvent (acceptStore w code (lockReport s.lock) s)

/-- The record with a new PIN; without one an unlock ends (R111). -/
def Lock.withPin (l : Lock) (pin : Option Pin) : Lock :=
  if pin.isNone then { l.endUnlock with pin := none } else { l with pin := pin }

/-- SET_PIN(old, new) (R111). -/
def setPinCommand (args : List Byte) (s : State) : State :=
  let old := pinArg args 0
  let new := pinArg args 4
  match pinRefusal s [old, new] false with
  | some code => lockReply 0x31 code s
  | none =>
    match s.lock.pin with
    | none => acceptLock .setPin 0x31 (s.lock.withPin new.pin) s
    | some pin =>
      if old.pin = some pin then acceptLock .setPin 0x31 ({ s.lock with wrong := 0 }.withPin new.pin) s
      else lockReply 0x31 .badPin (endEvent (countWrong s))

/-- SET_CEILING(level, PIN) (R112). -/
def setCeilingCommand (args : List Byte) (s : State) : State :=
  let level := clampTo 7 (byteAt args 0)
  let given := pinArg args 1
  match pinRefusal s [given] false with
  | some code => lockReply 0x32 code s
  | none =>
    match s.lock.pin with
    | none => acceptLock .setCeiling 0x32 { s.lock with guest := level } s
    | some pin =>
      if given.pin = some pin then acceptLock .setCeiling 0x32 { s.lock with guest := level, wrong := 0 } s
      else lockReply 0x32 .badPin (endEvent (countWrong s))

/-- RELOCK (R114). -/
def relockCommand (_args : List Byte) (s : State) : State :=
  if s.folio.state = .closed then lockReply 0x33 .folioClosed s
  else lockReply 0x33 .ok (endEvent (applyLock s.lock.endUnlock s))

/-! ### Timers (R115) -/

/-- The last minute of an unlock (R115). -/
def expireUnlock (s : State) : State :=
  applyLock { s.lock with state := .locked, minutes := 0 } (report .unlockExpired s)

/-- The last minute of a lockout (R115). -/
def endLockout (s : State) : State := applyLock { s.lock with state := .locked, minutes := 0, length := 0 } s

/-- The lock unit's share of a minute (R115). An unlock of one minute, begun or begun again just before it, ends at it,
though R116 says that such an unlock does not expire (the model's reading, log 35). -/
def lockMinute (s : State) : State :=
  match s.lock.state with
  | .locked => s
  | .unlocked => if s.lock.minutes ≤ 1 then expireUnlock s else { s with lock := { s.lock with minutes := s.lock.minutes - 1 } }
  | .lockout => if s.lock.minutes ≤ 1 then endLockout s else { s with lock := { s.lock with minutes := s.lock.minutes - 1 } }

/-! ### The headend (R117 to R119) -/

/-- The record after clear-PIN (R117). -/
def Lock.cleared (l : Lock) : Lock :=
  { l with pin := none, state := .locked, minutes := 0, length := 0, wrong := 0, lockouts := 0 }

/-- LOCK(hard ceiling, clear-PIN) (R117). -/
def lockMessage (args : List Byte) (s : State) : State × ResultCode :=
  let clear := byteAt args 1
  let l := { s.lock with hard := clampTo 7 (byteAt args 0) }
  if 1 < clear then (s, .badArg)
  else if clear = 1 then (applyLock l.cleared s, .ok)
  else (applyLock l s, .ok)

/-- The lock record at check-in (R118). -/
def Lock.checkIn (l : Lock) (hard guest minutes : Nat) : Lock :=
  { l.cleared with hard := clampTo 7 hard, guest := clampTo 7 guest, unlockMinutes := clampIn 1 240 minutes }

/-- The lock record at check-out (R119). -/
def Lock.checkOut (l : Lock) : Lock := { l.endUnlock with pin := none }

end Sys2Proof.Machine
end

