-- ==== Sys2Proof/Machine/Log.lean ====
section
/-!
DEFINITION. The purchase log's changes: state changes and removals (R84, R88, R101), preview minutes and their end
(R89 to R91), windows (R92), check-out (R97), collection and release (R99, R100) and the void (R77 to R79).
-/
namespace Sys2Proof.Machine

/-- The record with the same sequence number takes this content. -/
def replaceRecord (r : Record) (s : State) : State :=
  { s with log := s.log.map (fun x => if x.seq = r.seq then r else x) }

/-- The record leaves the log: its slot is freed and listed (R101, R132), and an ORDER that waits for it is released
(R95, R135). -/
def removeRecord (r : Record) (s : State) : State :=
  let s := listSlot r.slot { s with log := s.log.filter (fun x => x.seq != r.seq) }
  match s.port.busy with
  | .store (.order seq slot billed waived window) =>
    if seq = r.seq then finishWaiting (.order seq slot billed waived window) s else s
  | .store .setPin => s
  | .store .setCeiling => s
  | .store .setRoom => s
  | .clear => s
  | .engine => s
  | .reset => s

/-- A record takes a new content that lists its slot; released and final, it leaves the log (R84, R101). -/
def settleRecord (r : Record) (s : State) : State :=
  let s := listSlot r.slot (replaceRecord r s)
  if r.released && r.final then removeRecord r s else s

/-- A record's state changes, and its title code is handed to both paths (R84, R88). A released record that becomes
final leaves the log before the paths judge, so that a log of 48 then has room for a preview (the model's choice, log
34). -/
def changeRecord (r : Record) (s : State) : State := handTitle r.title (settleRecord r s)

/-- A record leaves PREVIEW, and its title code is handed to both paths (R84, R88, R11); as in `changeRecord`, it has
left the log, if it leaves it, before they judge (the model's choice, log 34). -/
def leavePreview (r : Record) (s : State) : State := handPreviewEnd r.title (settleRecord r s)

/-! ### Preview minutes (R89 to R91) -/

/-- The valid live offer entry with the lowest index that carries a title (R91). -/
def State.offerOf (s : State) (title : Word) : Option OfferEntry :=
  ((List.range 32).map s.offerAt).find? (fun o => o.valid && o.title == title)

/-- A preview ends under AUTO: the log asks for a charge (R91). -/
def endAuto (r : Record) (s : State) : State :=
  match s.offerOf r.title with
  | none => leavePreview { r with state := .declined .noOffer } s
  | some o =>
    if s.offers.bad then leavePreview { r with state := .declined .tableFault } s
    else
      match chargeRequest o.takenPrice s with
      | .refused code => leavePreview { r with state := .declined code } s
      | .granted f c =>
        leavePreview { r with state := .bought (o.takenWindow * 60), charge := some c }
          (report .charged (grantCharge f c s))

/-- A preview ends under CONFIRM: the record lapses (R90). -/
def endConfirm (r : Record) (s : State) : State := leavePreview { r with state := .lapsed } s

/-- The preview minute of a record that some path is PREVIEWING (R89): its slot is listed, and at the limit the
preview ends by the folio's policy. -/
def countPreview (r : Record) (s : State) : State :=
  let r' := { r with used := r.used + 1 }
  let s := listSlot r.slot (replaceRecord r' s)
  if r'.used < r'.limit then s
  else
    match s.folio.policy with
    | .confirm => endConfirm r' s
    | .auto => endAuto r' s

/-- The record is in PREVIEW and at least one path is PREVIEWING its title (R89). -/
def State.countsPreview (s : State) (r : Record) : Bool :=
  r.isPreview && (s.pathA.previews r.title || s.pathB.previews r.title)

/-- One record's share of a minute: its preview minute (R89). -/
def previewMinute (seq : Half) (s : State) : State :=
  match s.recordOf seq with
  | some r => if s.countsPreview r then countPreview r s else s
  | none => s

/-! ### Windows (R92) -/

/-- A window reaches 0: the paths that show the title ask again and are answered NONE, without a preview of a title
bought before it was ever previewed (R92; over R86 by log 10). -/
def endWindow (r : Record) (s : State) : State :=
  handEndedTitle r.title (settleRecord { r with state := .ended } (report .windowEnded s))

/-- One record's window falls by one minute; its slot is listed at a multiple of 15 (R92, R136). -/
def windowMinute (seq : Half) (s : State) : State :=
  match s.recordOf seq with
  | none => s
  | some r =>
    if r.isBought then
      let w := r.window - 1
      if w = 0 then endWindow r s
      else
        let s := replaceRecord { r with state := .bought w } s
        if w % 15 = 0 then listSlot r.slot s else s
    else s

/-! ### Check-out (R97) -/

/-- An active record ended or lapsed without a charge (R97, R105). -/
def Record.closed (r : Record) : Record :=
  match r.state with
  | .preview => { r with state := .lapsed }
  | .bought _ => { r with state := .ended }
  | .ended => r
  | .lapsed => r
  | .declined _ => r
  | .voided => r

/-- Every active record ends, in log order (R97). The paths judge once, at the end of the event. -/
def closeLog (s : State) : State :=
  s.log.foldl (fun s r => if r.final then s else settleRecord r.closed s) s

/-! ### Collection (R99, R100, R104) -/

/-- A record report, 24 bytes (11). An absent charge reports 0 (R99). -/
def Record.report (r : Record) : List Byte :=
  let c := r.charge.getD { list := 0, tax := 0, billed := 0, waived := 0, day := 0, minute := 0 }
  be 2 r.seq.toNat ++ be 4 r.folio.toNat ++ be 4 r.title.toNat ++ [r.state.code] ++ be 3 c.list ++ be 2 c.tax
    ++ be 3 c.billed ++ be 2 c.day.toNat ++ be 2 c.minute ++ be 1 r.used

/-- The records after the one that carries a sequence number; the whole log when none carries it (R99). -/
def afterSeq (seq : Half) (log : List Record) : List Record :=
  if log.any (fun r => r.seq == seq) then (log.dropWhile (fun r => r.seq != seq)).drop 1 else log

/-- The reportable, unreleased records from where a COLLECT begins (R99); 65535 names no place. -/
def State.collectable (s : State) (after : Half) : List Record :=
  (if after = 0xFFFF then s.log else afterSeq after s.log).filter (fun r => r.reportable && !r.released)

/-- COLLECT: up to four records are reported and their collected marks set; no slot is listed (R99). The reply kind
is RECORDS. -/
def collectRecords (after : Half) (s : State) : State × List Byte :=
  let all := s.collectable after
  let taken := all.take 4
  let seqs := taken.map (·.seq)
  ({ s with log := s.log.map (fun r => if seqs.contains r.seq then { r with collected := true } else r) },
    be 1 taken.length ++ [flagByte (decide (4 < all.length))] ++ (taken.map Record.report).flatten)

/-- One collected record is released: listed if its mark was clear, removed if final (R100, R101). -/
def releaseRecord (r : Record) (s : State) : State :=
  if r.collected then
    let r' := { r with released := true }
    if r.released then s else settleRecord r' s
  else s

/-- The records from the oldest through the one that carries a sequence number (R100). -/
def throughSeq (seq : Half) : List Record → List Record
  | [] => []
  | r :: rest => if r.seq = seq then [r] else r :: throughSeq seq rest

/-- RELEASE (R100). -/
def releaseThrough (seq : Half) (s : State) : State × ResultCode :=
  if (s.recordOf seq).isNone then (s, .notFound)
  else ((throughSeq seq s.log).foldl (fun s r => releaseRecord r s) s, .ok)

/-- Reportable records whose collected mark is clear (R104). -/
def State.uncollected (s : State) : Nat := (s.log.filter (fun r => r.reportable && !r.collected)).length

/-! ### Void (R77 to R79) -/

/-- The folio after a void of a charge (R78). -/
def Folio.refunded (f : Folio) (billed : Nat) (sameDay : Bool) : Folio :=
  { f with
    total := f.total - billed
    daySpend := if sameDay then f.daySpend - billed else f.daySpend }

/-- An accepted VOID: the refund, the folio slot, then the record, its slot and its title handed to the paths (R78, R84,
R88). The title of a BOUGHT record may start a preview (R79, R86); that of an ENDED one starts none, since its VOID
changes no path (R79, log 27). -/
def voidRecord (r : Record) (s : State) : State :=
  let billed := (r.charge.map (·.billed)).getD 0
  let sameDay := (r.charge.map (·.day)) == some s.clock.day
  let s := listSlot folioSlot { s with folio := s.folio.refunded billed sameDay }
  if r.isBought then changeRecord { r with state := .voided } s
  else handEndedTitle r.title (settleRecord { r with state := .voided } s)

/-- VOID (R77). -/
def voidSeq (seq : Half) (s : State) : State × ResultCode :=
  if s.folio.state = .closed then (s, .wrongFolio)
  else
    match s.recordOf seq with
    | none => (s, .notFound)
    | some r =>
      if r.folio ≠ s.folio.number then (s, .wrongFolio)
      else
        match r.state with
        | .voided => (s, .already)
        | .preview => (s, .notBilled)
        | .lapsed => (s, .notBilled)
        | .declined _ => (s, .notBilled)
        | .bought _ => (voidRecord r s, .ok)
        | .ended => (voidRecord r s, .ok)

/-! ### ORDER (R93 to R95) -/

/-- An ORDER refused at once: a reply with no data. -/
def refuseOrder (code : ResultCode) (s : State) : State := placeReply 0x20 code [] s

/-- An ORDER that passed every check (R94, R95): the charge is granted, the record made BOUGHT, the paths told, and
the command waits for a write of the record's slot. -/
def acceptOrder (o : OfferEntry) (f : Folio) (c : Charge) (s : State) : State :=
  let window := o.takenWindow * 60
  let s := grantCharge f c s
  match s.previewRecord o.title with
  | some r =>
    let s := settleRecord { r with state := .bought window, charge := some c } s
    endEvent (handPreviewEnd o.title (acceptStore (.order r.seq r.slot c.billed c.waived window) 0x20 [] s))
  | none =>
    let seq := s.newSeq
    let slot := s.newSlot
    let s := createRecord o.title .order o.rating o.takenPreview (.bought window) (some c) s
    endEvent (handTitle o.title (acceptStore (.order seq slot c.billed c.waived window) 0x20 [] s))

/-- ORDER: the nine checks in order (R93). -/
def orderCommand (args : List Byte) (s : State) : State :=
  let index := byteAt args 0
  let o := s.offerAt index
  if 31 < index then refuseOrder .badArg s
  else if s.folio.state = .closed then refuseOrder .folioClosed s
  else if s.folio.state = .held then refuseOrder .folioHeld s
  else if s.offers.bad then refuseOrder .tableFault s
  else if !o.valid then refuseOrder .noOffer s
  else if s.lock.ceiling < o.rating then refuseOrder .locked s
  else if (s.boughtRecord o.title).isSome then refuseOrder .already s
  else if (s.previewRecord o.title).isNone && decide (logCapacity ≤ s.log.length) then refuseOrder .logFull s
  else
    match chargeRequest o.takenPrice s with
    | .refused code => refuseOrder code s
    | .granted f c => acceptOrder o f c s

end Sys2Proof.Machine
end

