-- ==== Sys2Proof/Machine/Minute.lean ====
section
/-!
DEFINITION. The timebase and the property clock (spec 07), and the minute, which every block that counts minutes
takes as its own rule states (R123). The blocks' shares of a minute are also commands of their own (log 4).
-/
namespace Sys2Proof.Machine

/-! ### The property clock (R125, R126, R129) -/

/-- The property clock passes minute 1439 into the next day, and announces a day change (R125). -/
def midnight (s : State) : State :=
  dayChange { s with clock := { s.clock with minute := 0, day := s.clock.day + 1 } }

/-- The property clock's share of a minute (R125). -/
def clockMinute (s : State) : State :=
  if 1439 ≤ s.clock.minute then midnight s
  else { s with clock := { s.clock with minute := s.clock.minute + 1 } }

/-- TIME(day, minute) (R126). -/
def timeMessage (args : List Byte) (s : State) : State :=
  let day : Half := BitVec.ofNat 16 (natAt args 0 2)
  let s' : State := { s with clock := { day := day, minute := clampTo 1439 (natAt args 2 2), set := true } }
  if day = s.clock.day then s' else dayChange s'

/-- READ_TIME (R129). -/
def readTimeCommand (_args : List Byte) (s : State) : State :=
  placeReply 0x41 .ok (be 2 s.clock.day.toNat ++ be 2 s.clock.minute ++ [flagByte s.clock.set]) s

/-! ### The watchdog (R150) -/

/-- The watchdog reaches 0 (R150). -/
def goOffline (s : State) : State :=
  report .lineLost { s with line := { s.line with watchdog := 0, online := false } }

/-- The line port's share of a minute (R150). -/
def watchdogMinute (s : State) : State :=
  if s.line.online then
    if s.line.watchdog ≤ 1 then goOffline s
    else { s with line := { s.line with watchdog := s.line.watchdog - 1 } }
  else s

/-! ### The minute (R123) -/

/-- The windows' share of a minute: every record BOUGHT when the minute comes, in log order (R92). -/
def windowsMinute (bought : List Half) (s : State) : State := bought.foldl (fun s seq => windowMinute seq s) s

/-- The records that were BOUGHT when the minute came; one that becomes BOUGHT at it is not counted down (R92). -/
def State.boughtSeqs (s : State) : List Half := (s.log.filter Record.isBought).map (·.seq)

/-- One share of a minute. -/
def takeMinute (bought : List Half) (s : State) : MinuteTaker → State
  | .clock => clockMinute s
  | .keys => keysMinute s
  | .watchdog => watchdogMinute s
  | .lock => lockMinute s
  | .windows => windowsMinute bought s
  | .preview seq => previewMinute seq s

/-- Every share of a minute: the blocks', and one for each record that is PREVIEW when the minute comes. One created
within the minute gets no preview minute at it (the model's choice, log 30). -/
def State.takers (s : State) : List MinuteTaker :=
  [.clock, .keys, .watchdog, .lock, .windows] ++
    (s.log.filter Record.isPreview).map (fun r => .preview r.seq)

/-- The shares in the order asked for, each once, and those not asked for after them (log 5). -/
def agenda : List MinuteTaker → List MinuteTaker → List MinuteTaker
  | [], rest => rest
  | t :: order, rest => if t ∈ rest then t :: agenda order (rest.erase t) else agenda order rest

/-- A minute of the timebase: the count passes to 0 and every share is taken once (R123); the shares are those of the
records that stand when it comes (log 5, log 30). -/
def minute (order : List MinuteTaker) (s : State) : State :=
  (agenda order s.takers).foldl (takeMinute s.boughtSeqs) { s with seconds := 0 }

/-- One second (R123): it is a minute when the count stands at 59. -/
def second (order : List MinuteTaker) (s : State) : State :=
  if 59 ≤ s.seconds then minute order s else { s with seconds := s.seconds + 1 }

/-- The part runs, so that the timebase counts (R124). -/
def whenRunning (f : State → State) (s : State) : State := if s.phase = .running then endEvent (f s) else s

/-- SECOND_TICK (R123). -/
def execSecondTick (order : List MinuteTaker) (s : State) : Host.Outcome State Fault Refusal :=
  .next (whenRunning (second order) s)

/-- MINUTE_OF_THE_TIMEBASE (R123): the seconds left before it pass in the same step (log 3). -/
def execMinuteOfTheTimebase (order : List MinuteTaker) (s : State) : Host.Outcome State Fault Refusal :=
  .next (whenRunning (minute order) s)

/-! ### Single shares of a minute, at their last minute (log 4) -/

/-- MIDNIGHT_DAY_CHANGE (R125): only a clock at minute 1439 passes midnight. -/
def execMidnightDayChange (s : State) : Host.Outcome State Fault Refusal :=
  .next (whenRunning (fun s => if 1439 ≤ s.clock.minute then midnight s else s) s)

/-- The preview minute of a record that ends its preview under a policy (R90, R91). -/
def lastPreviewMinute (policy : Policy) (seq : Half) (s : State) : State :=
  match s.recordOf seq with
  | some r =>
    if s.countsPreview r && decide (r.limit ≤ r.used + 1) && s.folio.policy == policy then countPreview r s else s
  | none => s

/-- PREVIEW_LAPSE (R90). -/
def execPreviewLapse (seq : Half) (s : State) : Host.Outcome State Fault Refusal :=
  .next (whenRunning (lastPreviewMinute .confirm seq) s)

/-- AUTO_CHARGE (R91). -/
def execAutoCharge (seq : Half) (s : State) : Host.Outcome State Fault Refusal :=
  .next (whenRunning (lastPreviewMinute .auto seq) s)

/-- The last window minute of a record (R92). -/
def lastWindowMinute (seq : Half) (s : State) : State :=
  match s.recordOf seq with
  | some r => if r.isBought && decide (r.window ≤ 1) then endWindow r s else s
  | none => s

/-- WINDOW_END (R92). -/
def execWindowEnd (seq : Half) (s : State) : Host.Outcome State Fault Refusal :=
  .next (whenRunning (lastWindowMinute seq) s)

/-- The last minute of one key half's life (R37). -/
def expireHalf (context : Nat) (parity : Parity) (s : State) : State :=
  match s.keyHalf context parity with
  | .loaded _ life => if life ≤ 1 then s.setHalf context parity .empty else s
  | .empty => s

/-- KEY_LIFE_EXPIRY (R37). -/
def execKeyLifeExpiry (context : Nat) (parity : Parity) (s : State) : Host.Outcome State Fault Refusal :=
  .next (whenRunning (expireHalf context parity) s)

/-- UNLOCK_EXPIRY (R115). -/
def execUnlockExpiry (s : State) : Host.Outcome State Fault Refusal :=
  .next (whenRunning (fun s => if s.lock.state = .unlocked ∧ s.lock.minutes ≤ 1 then expireUnlock s else s) s)

/-- LOCKOUT_END (R115). -/
def execLockoutEnd (s : State) : Host.Outcome State Fault Refusal :=
  .next (whenRunning (fun s => if s.lock.state = .lockout ∧ s.lock.minutes ≤ 1 then endLockout s else s) s)

/-- WATCHDOG_EXPIRY (R150). -/
def execWatchdogExpiry (s : State) : Host.Outcome State Fault Refusal :=
  .next (whenRunning (fun s => if s.line.online ∧ s.line.watchdog ≤ 1 then goOffline s else s) s)

end Sys2Proof.Machine
end

