-- ==== Sys2Proof/Machine/Tables.lean ====
section
/-!
DEFINITION. The table store and the scan monitor (spec 03): entry writes and commits (R47 to R50), the scan and its
passes (R52, R53, R56), TABLE_TEST (R55), the reads (R57, R58) and the upset of a live entry (R46).
-/
namespace Sys2Proof.Machine

/-- The check value of a run of entries (R45). The bytes are those sent, also where the class byte or the validity of
an entry makes it EMPTY or empty and other bytes are not zero (the model's reading of R45, log 39). -/
def entriesCheck (entries : List (List Byte)) : Half := crc16 entries.flatten

/-- TABLE_ENTRY(table, index, entry bytes) (R47). -/
def tableEntryMessage (args : List Byte) (s : State) : State :=
  let index := byteAt args 1
  let entry := args.drop 2
  match tableArg (byteAt args 0) with
  | none => s
  | some t =>
    if t.size ≤ index ∨ entry.length ≠ t.entryBytes then s
    else
      let x := s.table t
      s.setTable t { x with pending := x.pending.set index entry, written := x.written.set index true }

/-- A pass begins at entry 0 (R52); a held diagnostic request is released and makes it diagnostic, folding one byte
0xFF first (R55, R56). -/
def Table.beginPass (x : Table) : Table :=
  { x with
    scan := some
      { position := 0, crc := if x.diagHeld then crcByte 0xFFFF 0xFF else 0xFFFF, diagnostic := x.diagHeld }
    diagHeld := false }

/-- Stage 1 of a commit of `n` entries: all of them are written, and the table has as many (R48). -/
def Table.complete (x : Table) (size n : Nat) : Bool := decide (n ≤ size) && (x.written.take n).all (fun w => w)

/-- The live table an accepted commit of `n` entries makes (R49). -/
def Table.committed (x : Table) (size bytes n : Nat) : List (List Byte) :=
  x.pending.take n ++ List.replicate (size - n) (List.replicate bytes 0)

/-- An abandoned diagnostic pass holds its request again (R55). -/
def Table.abandonPass (x : Table) : Table :=
  { x with diagHeld := x.diagHeld || (x.scan.map (·.diagnostic)).getD false }

/-- An accepted commit of the first `n` pending entries (R49, R50, R55). -/
def Table.accept (x : Table) (size bytes n : Nat) : Table :=
  let live := x.committed size bytes n
  ({ x.abandonPass with
      live := live
      generation := if live = x.live then x.generation else x.generation + 1
      check := entriesCheck live
      written := List.replicate size false
      bad := false
      outcome := .accepted } : Table).beginPass

/-- TABLE_COMMIT(table, count, check value) (R48): rejected for a missing entry, then for the check value, else
accepted and handed to both paths. -/
def tableCommitMessage (args : List Byte) (s : State) : State :=
  let n := byteAt args 1
  let check := BitVec.ofNat 16 (natAt args 2 2)
  match tableArg (byteAt args 0) with
  | none => s
  | some t =>
    let x := s.table t
    if !x.complete t.size n then report .commitRejected (s.setTable t { x with outcome := .missing })
    else if entriesCheck (x.pending.take n) ≠ check then
      report .commitRejected (s.setTable t { x with outcome := .mismatch })
    else judgeBoth (s.setTable t (x.accept t.size t.entryBytes n))

/-- A table's mismatch flag (R53). -/
def mismatchFlag : TableId → DetailFlag
  | .channel => .channelMismatch
  | .offer => .offerMismatch

/-- The end of a pass (R53, R56): an ordinary pass sets or clears table-bad, and a change of it is handed to both
paths; a diagnostic pass only reports a difference. A new pass begins. -/
def endPass (t : TableId) (crc : Half) (diagnostic : Bool) (s : State) : State :=
  let x := s.table t
  let differs := crc != x.check
  if diagnostic then
    let s := s.setTable t x.beginPass
    if differs then report .diagMismatch s else s
  else
    let s := s.setTable t ({ x with bad := differs } : Table).beginPass
    let s := if differs then report (mismatchFlag t) s else s
    if differs = x.bad then s else judgeBoth s

/-- One scan step: the live entry at the position is folded, and the last one ends the pass (R52). -/
def scanStep (t : TableId) (s : State) : State :=
  let x := s.table t
  match x.scan with
  | none => s
  | some sc =>
    let crc := crcFold sc.crc (x.live.getD sc.position [])
    if t.size ≤ sc.position + 1 then endEvent (endPass t crc sc.diagnostic s)
    else s.setTable t { x with scan := some { sc with position := sc.position + 1, crc := crc } }

/-- SCAN_STEP (R52). -/
def execScanStep (table : TableId) (s : State) : Host.Outcome State Fault Refusal :=
  .next (if s.phase.awake then scanStep table s else s)

/-- An upset leaves these bytes in a live entry (R46); paths do not judge. -/
def upset (t : TableId) (index : Nat) (entry : List Byte) (s : State) : State :=
  if index < t.size ∧ entry.length = t.entryBytes then
    let x := s.table t
    s.setTable t { x with live := x.live.set index entry }
  else s

/-- LIVE_TABLE_UPSET (R46). While RESETN is low, or without supply, it has no effect (the model's choice, log 33). -/
def execLiveTableUpset (table : TableId) (index : Nat) (entry : List Byte) (s : State) :
    Host.Outcome State Fault Refusal :=
  .next (if s.phase.awake then upset table index entry s else s)

/-- TABLE_TEST(table): the diagnostic request becomes held (R55). -/
def tableTestCommand (args : List Byte) (s : State) : State :=
  match tableArg (byteAt args 0) with
  | none => placeReply 0x1A .badArg [] s
  | some t => placeReply 0x1A .ok [] (s.setTable t { s.table t with diagHeld := true })

/-- The three table fields of a read (R57, R58). -/
def Table.fields (x : Table) : List Byte := [x.generation, flagByte x.bad, x.outcome.code]

/-- READ_CHANNEL(index) (R57). -/
def readChannelCommand (args : List Byte) (s : State) : State :=
  let i := byteAt args 0
  if 63 < i then placeReply 0x18 .badArg [] s
  else
    placeReply 0x18 .ok
      (be 1 i ++ (s.channelAt i).reported (s.channels.live.getD i []) ++ s.channels.fields) s

/-- READ_OFFER(index) (R58). -/
def readOfferCommand (args : List Byte) (s : State) : State :=
  let i := byteAt args 0
  if 31 < i then placeReply 0x19 .badArg [] s
  else placeReply 0x19 .ok (be 1 i ++ (s.offerAt i).reported ++ s.offers.fields) s

end Sys2Proof.Machine
end

