-- ==== Sys2Proof/Machine/LinePort.lean ====
section
/-!
DEFINITION. The line port (spec 09): the receiver (R143), the checks of a frame (R144, R145), the messages and their
replies (R146 to R148), presence (R149), and the owners' messages of the folio unit (R62 to R66).
-/
namespace Sys2Proof.Machine

/-! ### Line frames (R144; layout in 11) -/

/-- A frame of a kind: address, kind, length, payload, check value (11). -/
def lineFrameBytes (address : Half) (kind : Byte) (payload : List Byte) : List Byte :=
  let body := be 2 address.toNat ++ [kind] ++ be 1 payload.length ++ payload
  body ++ be 2 (crc16 body).toNat

/-- The bytes of a reply frame on LTXD (R147). -/
def LineReply.bytes (r : LineReply) : List Byte := lineFrameBytes r.address r.kind r.payload

/-- What checks 1 and 2 of R144 find in a frame. -/
inductive FrameCheck where
  /-- Ignored; `counted`: the line error count rises. -/
  | ignored (counted : Bool)
  | sound (address : Half) (kind : Byte) (payload : List Byte)
  deriving DecidableEq, Repr

/-- Check 1: the shape (R144). -/
def shapeSound (bytes : List Byte) (tooLong framingError : Bool) : Bool :=
  !tooLong && !framingError && decide (6 ≤ bytes.length) && decide (byteAt bytes 3 ≤ maxPayload)
    && decide (bytes.length = 6 + byteAt bytes 3)

/-- Checks 1 and 2 (R144). -/
def checkFrame (bytes : List Byte) (tooLong framingError : Bool) : FrameCheck :=
  if !shapeSound bytes tooLong framingError then .ignored framingError
  else if (crc16 (bytes.take (bytes.length - 2))).toNat ≠ natAt bytes (bytes.length - 2) 2 then .ignored true
  else .sound (BitVec.ofNat 16 (natAt bytes 0 2)) (bytes.getD 2 0) ((bytes.drop 4).take (byteAt bytes 3))

/-! ### The folio unit's messages (R62 to R66) -/

/-- The folio record that an accepted CHECK_IN opens (R62, R63). -/
def checkInFolio (args : List Byte) (policy : Policy) : Folio where
  number := BitVec.ofNat 32 (natAt args 0 4)
  state := .opened
  creditLimit := clampTo 9999999 (natAt args 4 4)
  dailyCap := clampTo 999999 (natAt args 8 4)
  taxRate := clampTo 3000 (natAt args 12 2)
  packages := args.getD 14 0
  policy := policy
  allowance := clampTo 99999 (natAt args 16 4)
  total := 0
  daySpend := 0
  offlineSpend := 0
  capMark := false

/-- A policy field: 0 CONFIRM, 1 AUTO (11). -/
def policyArg (n : Nat) : Option Policy :=
  if n = 0 then some .confirm else if n = 1 then some .auto else none

/-- An accepted CHECK_IN (R63, R118): folio, previewed-title set, lock record, CHECKED_IN, both paths. The lock slot is
listed before the slot of a preview that the judging starts (the model's choice, log 31). -/
def acceptCheckIn (args : List Byte) (policy : Policy) (s : State) : State :=
  let l := s.lock.checkIn (byteAt args 20) (byteAt args 21) (natAt args 22 2)
  let s := listSlot lockSlot
    (listSlot folioSlot { s with folio := checkInFolio args policy, previewed := [], lock := l })
  judgeBoth (report .checkedIn s)

/-- CHECK_IN (R62). -/
def checkInMessage (args : List Byte) (s : State) : State × ResultCode :=
  if s.folio.isOpen then (s, .folioOpen)
  else
    match policyArg (byteAt args 15) with
    | none => (s, .badArg)
    | some policy => if natAt args 0 4 = 0 then (s, .badArg) else (acceptCheckIn args policy s, .ok)

/-- The lock record at check-out: the lock slot is listed when a field changed (R119), though R64 names no such condition
(the model's reading, log 40). -/
def lockCheckOut (s : State) : State :=
  let s' := { s with lock := s.lock.checkOut }
  if s.lock.checkOut.stored = s.lock.stored then s' else listSlot lockSlot s'

/-- An accepted CHECK_OUT (R64, R97, R119): the folio slot, the changed records' slots in log order, the lock slot;
then both paths judge. -/
def acceptCheckOut (s : State) : State :=
  let s := listSlot folioSlot { s with folio := { s.folio with packages := 0, state := .closed } }
  judgeBoth (report .checkedOut (lockCheckOut (closeLog s)))

/-- CHECK_OUT (R64). -/
def checkOutMessage (_args : List Byte) (s : State) : State × ResultCode :=
  if s.folio.isOpen then (acceptCheckOut s, .ok) else (s, .folioClosed)

/-- A change of the folio state or the package mask, handed to both paths (R65, R66). -/
def folioEvent (f : Folio) (s : State) : State := if f = s.folio then s else judgeBoth (setFolio f s)

/-- HOLD(on or off) (R65). In CLOSED an argument that is neither is answered BAD_ARG; R65 gives no order of the two
tests (the model's choice, log 28). -/
def holdMessage (args : List Byte) (s : State) : State × ResultCode :=
  let on := byteAt args 0
  if 1 < on then (s, .badArg)
  else if s.folio.state = .closed then (s, .folioClosed)
  else (folioEvent { s.folio with state := if on = 1 then .held else .opened } s, .ok)

/-- PACKAGES(mask) (R66). -/
def packagesMessage (args : List Byte) (s : State) : State × ResultCode :=
  if s.folio.state = .closed then (s, .folioClosed)
  else (folioEvent { s.folio with packages := args.getD 0 0 } s, .ok)

/-! ### Messages and replies (R146 to R148) -/

/-- A reply's kind and payload. -/
abbrev ReplyBody := Byte × List Byte

/-- ACK: the kind answered and the result (R147). -/
def ack (kind : Byte) (r : ResultCode) : ReplyBody := (0x80, [kind, r.code])

/-- The STATUS payload as it stands (R148; layout in 11). -/
def State.statusPayload (s : State) : List Byte :=
  [s.folio.state.code] ++ be 4 s.folio.number.toNat ++ be 4 s.folio.total ++ be 4 s.folio.daySpend
    ++ be 1 s.uncollected ++ be 1 s.log.length ++ be 1 s.store.damagedCount ++ be 4 s.line.errors.toNat
    ++ [s.lock.state.code, s.channels.generation, s.offers.generation]

/-- A message kind: how it is meant to be sent, the payload bytes of its fixed arguments, and what its owner does,
with the reply an addressed one gets (R146). -/
structure MessageKind where
  broadcast : Bool
  needs : Nat
  act : List Byte → State → State × ReplyBody

/-- An owner that gives no result: the reply is ACK(OK) (R146). -/
def silently (kind : Byte) (f : List Byte → State → State) (args : List Byte) (s : State) : State × ReplyBody :=
  (f args s, ack kind .ok)

/-- An owner whose result is the ACK's. -/
def acked (kind : Byte) (f : List Byte → State → State × ResultCode) (args : List Byte) (s : State) :
    State × ReplyBody :=
  ((f args s).1, ack kind (f args s).2)

/-- POLL is answered with STATUS; its setting was taken at the presence update (R148). -/
def pollMessage (_args : List Byte) (s : State) : State × ReplyBody := (s, (0x81, s.statusPayload))

/-- COLLECT is answered with RECORDS (R99). -/
def collectMessage (args : List Byte) (s : State) : State × ReplyBody :=
  let r := collectRecords (BitVec.ofNat 16 (natAt args 0 2)) s
  (r.1, (0x82, r.2))

/-- RELEASE (R100). -/
def releaseMessage (args : List Byte) (s : State) : State × ResultCode :=
  releaseThrough (BitVec.ofNat 16 (natAt args 0 2)) s

/-- VOID (R77). -/
def voidMessage (args : List Byte) (s : State) : State × ResultCode := voidSeq (BitVec.ofNat 16 (natAt args 0 2)) s

/-- The kinds of message (11), the three reply kinds not among them. -/
def messageKind (kind : Byte) : Option MessageKind :=
  if kind = 0x01 then some { broadcast := false, needs := 1, act := pollMessage }
  else if kind = 0x02 then some { broadcast := true, needs := 4, act := silently kind timeMessage }
  else if kind = 0x03 then some { broadcast := true, needs := 12, act := silently kind keyMessage }
  else if kind = 0x04 then some { broadcast := true, needs := 1, act := silently kind keyClearMessage }
  else if kind = 0x05 then some { broadcast := true, needs := 2, act := silently kind tableEntryMessage }
  else if kind = 0x06 then some { broadcast := true, needs := 4, act := silently kind tableCommitMessage }
  else if kind = 0x10 then some { broadcast := false, needs := 24, act := acked kind checkInMessage }
  else if kind = 0x11 then some { broadcast := false, needs := 0, act := acked kind checkOutMessage }
  else if kind = 0x12 then some { broadcast := false, needs := 1, act := acked kind holdMessage }
  else if kind = 0x13 then some { broadcast := false, needs := 1, act := acked kind packagesMessage }
  else if kind = 0x14 then some { broadcast := false, needs := 2, act := collectMessage }
  else if kind = 0x15 then some { broadcast := false, needs := 2, act := acked kind releaseMessage }
  else if kind = 0x16 then some { broadcast := false, needs := 2, act := acked kind voidMessage }
  else if kind = 0x17 then some { broadcast := false, needs := 2, act := acked kind lockMessage }
  else none

/-- ACK, STATUS and RECORDS: another room's reply (R144, check 3). -/
def replyKind (kind : Byte) : Bool := kind == 0x80 || kind == 0x81 || kind == 0x82

/-- The presence update of a valid addressed frame with a watchdog setting (R149): the watchdog restarts, and the
return from OFFLINE sets LINE_BACK and the offline spend to 0. -/
def bringOnline (setting : Nat) (s : State) : State :=
  let t := { s with line := { s.line with setting := setting, watchdog := setting, online := true } }
  if s.line.online then t else offlineSpendReset (report .lineBack t)

/-- The watchdog setting an addressed frame leaves: a POLL's clamped argument, else the last one (R148, R149). -/
def State.settingAfter (s : State) (kind : Byte) (payload : List Byte) : Nat :=
  if kind = 0x01 ∧ 1 ≤ payload.length then clampIn 1 60 (byteAt payload 0) else s.line.setting

/-- The owner's act and the reply of an addressed frame (R146). -/
def addressedAct (kind : Byte) (payload : List Byte) (s : State) : State × ReplyBody :=
  match messageKind kind with
  | none => (s, ack kind .unknownCommand)
  | some m => if payload.length < m.needs then (s, ack kind .badArg) else m.act payload s

/-- A valid addressed frame (R146, R147, R149): presence, the owner, and the reply, which waits; the receiver is
DEAF. -/
def addressedFrame (address : Half) (kind : Byte) (payload : List Byte) (s : State) : State :=
  let r := addressedAct kind payload (bringOnline (s.settingAfter kind payload) s)
  let reply : LineReply := { address := address, kind := r.2.1, payload := r.2.2 }
  endEvent { r.1 with line := { r.1.line with receiver := .deaf, transmit := .waiting reply } }

/-- A broadcast frame (R146): only a broadcast kind with all its fixed arguments is handed to its owner. -/
def broadcastFrame (kind : Byte) (payload : List Byte) (s : State) : State :=
  match messageKind kind with
  | none => s
  | some m => if m.broadcast && decide (m.needs ≤ payload.length) then endEvent (m.act payload s).1 else s

/-- Checks 3 and 4, and the handling of a valid frame (R144, R146). -/
def soundFrame (address : Half) (kind : Byte) (payload : List Byte) (s : State) : State :=
  if replyKind kind then s
  else if address = broadcastAddress then broadcastFrame kind payload s
  else if address = s.room ∧ s.room ≠ 0 then addressedFrame address kind payload s
  else s

/-- A frame lost to damage (R145). -/
def countLineError (s : State) : State := { s with line := { s.line with errors := s.line.errors + 1 } }

/-- The receiver takes a state. -/
def setReceiver (r : Receiver) (s : State) : State := { s with line := { s.line with receiver := r } }

/-- A frame has arrived (R143, R144): the receiver returns to IDLE and the checks decide. -/
def frameArrives (bytes : List Byte) (tooLong framingError : Bool) (s : State) : State :=
  let s := setReceiver .idle s
  match checkFrame bytes tooLong framingError with
  | .ignored counted => if counted then countLineError s else s
  | .sound address kind payload => soundFrame address kind payload s

/-! ### The receiver (R143) -/

/-- A character joins the frame being received; beyond the 126th it is discarded and the frame marked (R143). The low
stop bit of a discarded character still marks a framing error (the model's choice, log 32). -/
def joinFrame (bytes : List Byte) (tooLong framingError : Bool) (b : Byte) (stopLow : Bool) : Receiver :=
  if maxLineFrame ≤ bytes.length then .receiving bytes true (framingError || stopLow)
  else .receiving (bytes ++ [b]) tooLong (framingError || stopLow)

/-- A character arrives on LRXD (R143). -/
def characterArrives (b : Byte) (stopLow : Bool) (s : State) : State :=
  match s.line.receiver with
  | .waiting => s
  | .idle => setReceiver (.receiving [b] false stopLow) s
  | .receiving bytes tooLong framingError => setReceiver (joinFrame bytes tooLong framingError b stopLow) s
  | .deaf => s

/-- The part runs: the line port follows R143 (R151). -/
def whenLineRuns (f : State → State) (s : State) : State := if s.phase = .running then f s else s

/-- LINE_CHARACTER_ARRIVES (R143). -/
def execLineCharacterArrives (byte : Byte) (stopLow : Bool) (s : State) : Host.Outcome State Fault Refusal :=
  .next (whenLineRuns (characterArrives byte stopLow) s)

/-- Three character times of silence (R143). -/
def lineIdle (s : State) : State :=
  match s.line.receiver with
  | .waiting => setReceiver .idle s
  | .idle => s
  | .receiving bytes tooLong framingError => frameArrives bytes tooLong framingError s
  | .deaf => s

/-- LINE_IDLE_DETECTED (R143). -/
def execLineIdleDetected (s : State) : Host.Outcome State Fault Refusal := .next (whenLineRuns lineIdle s)

/-- A whole run of characters and the silence after it (R143, log 3): taken as a frame from IDLE; in RECEIVING it is
the end of the frame assembled if that is the same frame; in WAITING its characters are discarded and the silence
ends the wait; a DEAF receiver takes none. -/
def wholeFrame (bytes : List Byte) (tooLong framingError : Bool) (s : State) : State :=
  match s.line.receiver with
  | .waiting => setReceiver .idle s
  | .idle => frameArrives bytes tooLong framingError s
  | .receiving got tl fe =>
    if got = bytes ∧ tl = tooLong ∧ fe = framingError then frameArrives bytes tooLong framingError s else s
  | .deaf => s

/-- LINE_FRAME_IGNORED (R144): the frame that these characters make; the checks decide what is ignored and counted. -/
def execLineFrameIgnored (bytes : List Byte) (framingError tooLong : Bool) (s : State) :
    Host.Outcome State Fault Refusal :=
  .next (whenLineRuns
    (wholeFrame (bytes.take maxLineFrame) (tooLong || decide (maxLineFrame < bytes.length)) framingError) s)

/-- A message frame, shape and check value right, arrives (R143, R144): the row of a message names it. A payload
above 120 bytes makes a frame that is too long. -/
def messageFrame (address : Half) (kind : Byte) (payload : List Byte) (s : State) : State :=
  let bytes := lineFrameBytes address kind payload
  wholeFrame (bytes.take maxLineFrame) (decide (maxLineFrame < bytes.length)) false s

/-! ### Sending the reply (R147) -/

/-- The turnaround is over: LTXE is raised (R147). -/
def startReply (s : State) : State :=
  match s.line.transmit with
  | .waiting r => { s with line := { s.line with transmit := .sending r } }
  | .none => s
  | .sending _ => s

/-- REPLY_TRANSMIT_START (R147). -/
def execReplyTransmitStart (s : State) : Host.Outcome State Fault Refusal := .next (whenLineRuns startReply s)

/-- The reply's last character has left: LTXE falls and the receiver waits for the line to be idle (R147). -/
def endReply (s : State) : State :=
  match s.line.transmit with
  | .sending _ => { s with line := { s.line with transmit := .none, receiver := .waiting } }
  | .none => s
  | .waiting _ => s

/-- REPLY_TRANSMIT_END (R147). -/
def execReplyTransmitEnd (s : State) : Host.Outcome State Fault Refusal := .next (whenLineRuns endReply s)

end Sys2Proof.Machine
end

