-- ==== Sys2Proof/Machine/LineMessages.lean ====
section
/-!
DEFINITION. The meanings of the line port's message rows: the arrival of a frame of the row's kind, which R144 and
R146 check and hand to the message's owner (Machine/LinePort.lean, `messageKind`).
-/
namespace Sys2Proof.Machine

/-- POLL (R148). -/
def execPoll (address : Half) (payload : List Byte) (s : State) : Host.Outcome State Fault Refusal :=
  .next (whenLineRuns (messageFrame address 0x01 payload) s)

/-- TIME (R126). -/
def execTime (address : Half) (payload : List Byte) (s : State) : Host.Outcome State Fault Refusal :=
  .next (whenLineRuns (messageFrame address 0x02 payload) s)

/-- KEY (R35). -/
def execKey (address : Half) (payload : List Byte) (s : State) : Host.Outcome State Fault Refusal :=
  .next (whenLineRuns (messageFrame address 0x03 payload) s)

/-- KEY_CLEAR (R36). -/
def execKeyClear (address : Half) (payload : List Byte) (s : State) : Host.Outcome State Fault Refusal :=
  .next (whenLineRuns (messageFrame address 0x04 payload) s)

/-- TABLE_ENTRY (R47). -/
def execTableEntry (address : Half) (payload : List Byte) (s : State) : Host.Outcome State Fault Refusal :=
  .next (whenLineRuns (messageFrame address 0x05 payload) s)

/-- TABLE_COMMIT (R48). -/
def execTableCommit (address : Half) (payload : List Byte) (s : State) : Host.Outcome State Fault Refusal :=
  .next (whenLineRuns (messageFrame address 0x06 payload) s)

/-- CHECK_IN (R62). -/
def execCheckIn (address : Half) (payload : List Byte) (s : State) : Host.Outcome State Fault Refusal :=
  .next (whenLineRuns (messageFrame address 0x10 payload) s)

/-- CHECK_OUT (R64). -/
def execCheckOut (address : Half) (payload : List Byte) (s : State) : Host.Outcome State Fault Refusal :=
  .next (whenLineRuns (messageFrame address 0x11 payload) s)

/-- HOLD (R65). -/
def execHold (address : Half) (payload : List Byte) (s : State) : Host.Outcome State Fault Refusal :=
  .next (whenLineRuns (messageFrame address 0x12 payload) s)

/-- PACKAGES (R66). -/
def execPackages (address : Half) (payload : List Byte) (s : State) : Host.Outcome State Fault Refusal :=
  .next (whenLineRuns (messageFrame address 0x13 payload) s)

/-- COLLECT (R99). -/
def execCollect (address : Half) (payload : List Byte) (s : State) : Host.Outcome State Fault Refusal :=
  .next (whenLineRuns (messageFrame address 0x14 payload) s)

/-- RELEASE (R100). -/
def execRelease (address : Half) (payload : List Byte) (s : State) : Host.Outcome State Fault Refusal :=
  .next (whenLineRuns (messageFrame address 0x15 payload) s)

/-- VOID (R77). -/
def execVoid (address : Half) (payload : List Byte) (s : State) : Host.Outcome State Fault Refusal :=
  .next (whenLineRuns (messageFrame address 0x16 payload) s)

/-- LOCK (R117). -/
def execLock (address : Half) (payload : List Byte) (s : State) : Host.Outcome State Fault Refusal :=
  .next (whenLineRuns (messageFrame address 0x17 payload) s)

/-- LINE_UNKNOWN_KIND (R146): a frame of this kind. -/
def execLineUnknownKind (address : Half) (kind : Byte) (payload : List Byte) (s : State) :
    Host.Outcome State Fault Refusal :=
  .next (whenLineRuns (messageFrame address kind payload) s)

end Sys2Proof.Machine
end

