-- ==== Sys2Proof/Machine/Power.lean ====
section
/-!
DEFINITION. Power loss, power-on reset and pin reset (R20, R34, R40, R59, R124, R130, R137, R138, R142, R151, R160,
R165).
-/
namespace Sys2Proof.Machine

/-- A frame in progress is abandoned by a reset, and stays so until SSEL rises (R160). -/
def Frame.abandon : Frame → Frame
  | .begun _ => .abandoned
  | .abandoned => .abandoned
  | .idle => .idle

/-- Everything volatile at its value after power-on or pin reset, a frame in progress abandoned (R160, log 21); the
slots stand, and so do the queue of commands and the model's own counter, which are no part of the hardware. -/
def volatileReset (s : State) : State :=
  { State.reset with
    store := { slots := s.store.slots, dirty := [], write := none, damagedCount := 0 }
    port := { State.reset.port with frame := s.port.frame.abandon }
    choice := s.choice
    pending := s.pending }

/-- The slot of a write that power loss cuts off is damaged (R137). -/
def tearWrite (st : Store) : List Slot :=
  match st.write with
  | some w => st.slots.set w.slot .damaged
  | none => st.slots

/-- Power is lost (R137): the write in flight is torn, and everything but the slots is lost (log 15); a frame
that SSEL still holds low stays abandoned until the pin rises (R160, log 21). -/
def losePower (s : State) : State :=
  { volatileReset { s with store := { s.store with slots := tearWrite s.store } } with phase := .off }

/-- POWER_LOSS (R137). -/
def execPowerLoss (s : State) : Host.Outcome State Fault Refusal := .next (losePower s)

/-- VDD is applied: power-on reset, at whose end the start-up check begins (R138). A part still powered loses its
power first (log 15). The check begins also where RESETN was low without supply: the pin's level is forgotten with the
supply (the model's choice, log 41). -/
def applyPower (s : State) : State := { losePower s with phase := .checking }

/-- POWER_ON_RESET (R138). -/
def execPowerOnReset (s : State) : Host.Outcome State Fault Refusal := .next (applyPower s)

/-- RESETN is taken low (R137, R160): everything volatile is reset, a write in flight goes on to its completion and
releases nothing. -/
def takeReset (s : State) : State :=
  let t := volatileReset s
  { t with
    phase := .inReset
    store := { t.store with write := s.store.write.map (fun w => { w with releases := false }) } }

/-- PIN_RESET (R137). Without supply there is nothing to reset. -/
def execPinReset (s : State) : Host.Outcome State Fault Refusal := .next (if s.phase = .off then s else takeReset s)

/-- RESETN returns high: the start-up check begins, after any slot write in flight has completed (R138). -/
def releaseReset (s : State) : State :=
  { s with phase := if s.store.write.isSome then .released else .checking }

/-- PIN_RESET_RELEASE (R138). -/
def execPinResetRelease (s : State) : Host.Outcome State Fault Refusal :=
  .next (if s.phase = .inReset then releaseReset s else s)

end Sys2Proof.Machine
end

