-- ==== Sys2Proof/Machine/Paths.lean ====
section
/-!
DEFINITION. The service paths: the cell input stage (R1 to R3), SELECT (R4), the taking of cells (R13, R14), the
cell output (R16) and READ_PATH (R19).
-/
namespace Sys2Proof.Machine

/-! ### Cells at the input (R1 to R3) -/

/-- A complete cell is checked and queued, or dropped and counted (R2, R3). -/
def cellComplete (p : PathId) (c : Cell) (s : State) : State :=
  let x := { s.path p with assembly := none }
  if c.getD 0 0 ≠ syncMark then s.setPath p { x with syncErrors := x.syncErrors + 1 }
  else if fifoDepth ≤ x.fifo.length then
    report (overflowFlag p) (s.setPath p { x with overflows := x.overflows + 1 })
  else s.setPath p { x with fifo := x.fifo ++ [c] }

/-- A byte strobed into the cell input (R1). A byte with the mark high begins a cell, discarding an incomplete one;
with the mark low it joins the cell begun, which its 128th byte completes, or is ignored. -/
def inputStrobe (p : PathId) (mark : Bool) (b : Byte) (s : State) : State :=
  let x := s.path p
  if s.phase.awake then
    match mark, x.assembly with
    | true, none => s.setPath p { x with assembly := some [b] }
    | true, some _ => s.setPath p { x with assembly := some [b], syncErrors := x.syncErrors + 1 }
    | false, none => s
    | false, some bs =>
      if cellBytes ≤ bs.length + 1 then cellComplete p (bs ++ [b]) s
      else s.setPath p { x with assembly := some (bs ++ [b]) }
  else s

/-- CELL_INPUT_STROBE (R1). -/
def execCellInputStrobe (path : PathId) (mark : Bool) (byte : Byte) (s : State) : Host.Outcome State Fault Refusal :=
  .next (inputStrobe path mark byte s)

/-- CELL_ARRIVES (R1): the strobe of a cell's 128th byte, whose first-byte mark is low. -/
def execCellArrives (path : PathId) (byte : Byte) (s : State) : Host.Outcome State Fault Refusal :=
  .next (inputStrobe path false byte s)

/-! ### Taking a cell (R13, R14) -/

/-- The cell leaves in a given way (R13, R15). -/
def leaveCell (p : PathId) (c : Cell) (how : Leaving) (s : State) : State :=
  s.setPath p { s.path p with progress := some { cell := c, stage := .leaving how } }

/-- A scrambled cell reaches the key check at its taking (R14). A path whose state an upset has left behind its entry
sends its cells here although the entry is now CLEAR, and counts a key miss (the model's choice, log 20). -/
def keyCheck (p : PathId) (c : Cell) (s : State) : State :=
  match s.lookupHalf p c with
  | .empty => missCell p false s
  | .loaded _ _ =>
    arbitrate 3 (s.setPath p
      { s.path p with
        starvation := 0, keyAbsent := false, progress := some { cell := c, stage := .waiting false } })

/-- The treatment of a taken cell of the selected service, by the path's state (R13). The state that stands decides also
after an upset has put the entry above the ceiling or out of entitlement and before a judging, though the list that
closes R14 would bar program then (the model's reading, log 38). -/
def treatCell (p : PathId) (c : Cell) (s : State) : State :=
  match (s.path p).state with
  | .unselected => s
  | .muted .keyAbsent => if cellScrambled c then keyCheck p c s else leaveCell p fillCell .fill s
  | .muted .noService => leaveCell p fillCell .fill s
  | .muted .tableFault => leaveCell p fillCell .fill s
  | .muted .rating => leaveCell p fillCell .fill s
  | .muted .notEntitled => leaveCell p fillCell .fill s
  | .passing => leaveCell p c .unchanged s
  | .descrambling => if cellScrambled c then keyCheck p c s else leaveCell p c .unchanged s
  | .previewing => if cellScrambled c then keyCheck p c s else leaveCell p c .unchanged s

/-- The cell belongs to the selected service (R13): the entry is not EMPTY and carries the cell's tag, which is not
that of a fill cell. -/
def State.ofService (s : State) (p : PathId) (c : Cell) : Bool :=
  match (s.path p).selected with
  | none => false
  | some i =>
    let e := s.channelAt i
    e.cls != .empty && cellTag c == e.tag && cellTag c != fillTag

/-- A path takes its head cell when no cell is in progress (R13); a cell of another service is discarded. -/
def takeCell (p : PathId) (s : State) : State :=
  let x := s.path p
  match x.progress, x.fifo with
  | none, c :: rest =>
    let s := s.setPath p { x with fifo := rest, taken := x.taken + 1 }
    if s.ofService p c then treatCell p c s else s
  | none, [] => s
  | some _, _ => s

/-- CELL_TAKE (R13). -/
def execCellTake (path : PathId) (s : State) : Host.Outcome State Fault Refusal :=
  .next (if s.phase.awake then takeCell path s else s)

/-! ### Leaving the output (R16, R18) -/

/-- A cell has left: its progress ends, and the descrambled or fill count rises (R13, R14, R15, R18). -/
def cellLeft (p : PathId) (s : State) : State :=
  let x := s.path p
  match x.progress with
  | some ⟨_, .leaving .unchanged⟩ => s.setPath p { x with progress := none }
  | some ⟨_, .leaving .descrambled⟩ => s.setPath p { x with progress := none, descrambled := x.descrambled + 1 }
  | some ⟨_, .leaving .fill⟩ => s.setPath p { x with progress := none, fills := x.fills + 1 }
  | some ⟨_, .waiting _⟩ => s
  | some ⟨_, .serving _⟩ => s
  | none => s

/-- CELL_LEAVES (R16). -/
def execCellLeaves (path : PathId) (s : State) : Host.Outcome State Fault Refusal := .next (cellLeft path s)

/-! ### SELECT (R4, R6) and READ_PATH (R19) -/

/-- A cell that waits for the engine learns that a SELECT was accepted since its taking (R14). -/
def Progress.afterSelect (g : Progress) : Progress :=
  match g.stage with
  | .waiting _ => { g with stage := .waiting true }
  | .serving _ => g
  | .leaving _ => g

/-- An accepted SELECT before the judging (R4): the selection, the starvation counter, the key-absent mark and the
kept title and answer. -/
def Path.select (x : Path) (selected : Option Nat) : Path :=
  { x with
    selected := selected
    admitted := .unselected
    starvation := 0
    keyAbsent := false
    title := 0
    answer := .none
    progress := x.progress.map Progress.afterSelect }

/-- SELECT(path, index or NONE) (R4). -/
def selectCommand (args : List Byte) (s : State) : State :=
  let index := byteAt args 1
  match pathArg (byteAt args 0) with
  | none => placeReply 0x10 .badArg [] s
  | some p =>
    if index = 0xFF then placeReply 0x10 .ok [] (s.setPath p ((s.path p).select none))
    else if 63 < index then placeReply 0x10 .badArg [] s
    else placeReply 0x10 .ok [] (endEvent (judge p (s.setPath p ((s.path p).select (some index)))))

/-- The tag READ_PATH reports (R19). -/
def State.reportedTag (s : State) (p : PathId) : Nat :=
  match (s.path p).selected with
  | none => fillTag
  | some i => if (s.channelAt i).cls = .empty then fillTag else (s.channelAt i).tag

/-- READ_PATH's marks byte (11): half-full, cell in progress, waiting for the engine, key-absent. -/
def Path.marks (x : Path) (waits : Bool) : Byte :=
  BitVec.ofNat 8 (x.halfFull.toNat + 2 * x.progress.isSome.toNat + 4 * waits.toNat + 8 * x.keyAbsent.toNat)

/-- READ_PATH's reply data (R19; layout in 11). The title and the answer are present only for a TITLE entry. The index
byte of a path whose selection is NONE is 0xFF, as in SELECT's argument (the model's reading, log 36). That the answer
is absent with the title code, and so 0, while the entry is not TITLE is the model's reading too (log 37). -/
def State.pathReport (s : State) (p : PathId) : List Byte :=
  let x := s.path p
  let title := if s.onTitle p then x.title.toNat else 0
  let answer := if s.onTitle p then x.answer.code else 0
  be 1 (x.selected.getD 0xFF) ++ [x.state.code, x.state.reasonCode] ++ be 2 (s.reportedTag p) ++ be 4 title
    ++ [answer] ++ be 1 x.fifo.length ++ [x.marks (s.waits (.path p))] ++ be 1 x.starvation
    ++ be 4 x.taken.toNat ++ be 4 x.descrambled.toNat ++ be 4 x.fills.toNat ++ be 4 x.misses.toNat
    ++ be 4 x.syncErrors.toNat ++ be 4 x.overflows.toNat

/-- READ_PATH(path) (R19). -/
def readPathCommand (args : List Byte) (s : State) : State :=
  match pathArg (byteAt args 0) with
  | none => placeReply 0x11 .badArg [] s
  | some p => placeReply 0x11 .ok (s.pathReport p) s

end Sys2Proof.Machine
end

