-- ==== Sys2Proof/Machine/StoreUnit.lean ====
section
/-!
DEFINITION. The record store's events: the completion of a slot write (R134, R135), the RESET command taking effect
(R159), SET_ROOM (R141), and the start-up check's rebuild of the working copies (R105, R121, R138 to R140).
-/
namespace Sys2Proof.Machine

/-! ### Completion of a write (R134, R135) -/

/-- The slot holds the captured image (R134). -/
def storeImage (w : SlotWrite) (s : State) : State :=
  { s with store := { s.store with slots := s.store.slots.set w.slot (.intact w.image), write := none } }

/-- A completion is handed to the command that waits on the slot, if the write began after its acceptance (R135). -/
def releaseWaiting (w : SlotWrite) (s : State) : State :=
  match s.port.busy with
  | .store c => if w.releases && c.slot == w.slot then finishWaiting c s else s
  | .clear => s
  | .engine => s
  | .reset => s

/-- Once RESETN is high, the completion of the write it was released with begins the start-up check (R138). -/
def beginCheck (s : State) : State :=
  match s.phase with
  | .released => { s with phase := .checking }
  | .off => s
  | .inReset => s
  | .checking => s
  | .running => s

/-- The write in flight completes; the next begins in the same event (R134). -/
def completeWrite (s : State) : State :=
  match s.store.write with
  | none => s
  | some w => endEvent (beginCheck (releaseWaiting w (storeImage w s)))

/-- SLOT_WRITE_COMPLETE (R134). -/
def execSlotWriteComplete (s : State) : Host.Outcome State Fault Refusal := .next (completeWrite s)

/-- The event at which the RESET command takes effect (R159): the completion of the last write, or, with none in
flight, the moment at which the store stands idle (log 7). -/
def resetEvent (s : State) : State :=
  if s.port.busy = .reset ∧ s.store.dirty = [] then
    match s.store.write with
    | some _ => completeWrite s
    | none => endEvent s
  else s

/-- RESET_TAKES_EFFECT (R159). -/
def execResetTakesEffect (s : State) : Host.Outcome State Fault Refusal := .next (resetEvent s)

/-! ### SET_ROOM (R141) -/

/-- SET_ROOM(address). -/
def setRoomCommand (args : List Byte) (s : State) : State :=
  let address : Half := BitVec.ofNat 16 (natAt args 0 2)
  if address = broadcastAddress then placeReply 0x40 .badArg [] s
  else if s.folio.isOpen then placeReply 0x40 .folioOpen [] s
  else endEvent (acceptStore .setRoom 0x40 [] (listSlot configSlot { s with room := address }))

/-! ### The start-up check (R138 to R140) -/

/-- The codes a DECLINED record can hold (spec 05, "Purchase records"). -/
def RecordState.legal : RecordState → Bool
  | .bought w => 1 ≤ w && w ≤ 2880
  | .declined code => [.folioHeld, .credit, .offlineLimit, .noOffer, .tableFault].contains code
  | .preview => true
  | .ended => true
  | .lapsed => true
  | .voided => true

/-- The states of a record that carries a charge: it enters BOUGHT with one and keeps it (R84). -/
def RecordState.charged : RecordState → Bool
  | .bought _ => true
  | .ended => true
  | .voided => true
  | .preview => false
  | .lapsed => false
  | .declined _ => false

/-- The fields of a charge: a price and a tax in their ranges, both amounts of their sum, a minute of the day (R44, R68,
R69, R125). -/
def Charge.legal (c : Charge) : Bool :=
  c.list ≤ 99999 && c.tax ≤ 30000 && c.billed + c.waived == c.list + c.tax && c.minute ≤ 1439

/-- Every field of a record image holds a value that a record can hold (R131; ranges of spec 05, log 11): the charge is
present exactly in the states that carry one, and its folio number is that of a folio once opened (R62). -/
def Record.legal (r : Record) : Bool :=
  r.title != 0 && r.folio != 0 && r.rating ≤ 255 && r.limit ≤ 15 && r.used ≤ 15 && r.state.legal
    && r.charge.isSome == r.state.charged && r.charge.all Charge.legal

/-- Every field of a folio image holds a value that the folio record can hold (R131; ranges of spec 04, log 11): the
number is 0 only where no folio has been opened. -/
def Folio.legal (f : Folio) : Bool :=
  (f.number != 0 || f.state == .closed) && f.creditLimit ≤ 9999999 && f.dailyCap ≤ 999999 && f.taxRate ≤ 3000 && f.allowance ≤ 99999 && f.total ≤ 9999999
    && f.offlineSpend ≤ 99999

/-- A PIN is four decimal digits. -/
def Pin.legal (p : Pin) : Bool := p.d0.toNat ≤ 9 && p.d1.toNat ≤ 9 && p.d2.toNat ≤ 9 && p.d3.toNat ≤ 9

/-- The lockout length goes with the lock state: 15, 30, 60, 120 or 240 in LOCKOUT, 0 otherwise (spec 06). -/
def Lock.lengthLegal (l : Lock) : Bool :=
  if l.state = .lockout then [15, 30, 60, 120, 240].contains l.length else l.length == 0

/-- Every field of a lock image holds a value that the lock record can hold (R131; ranges of spec 06), UNLOCKED only
with a PIN (R107). -/
def Lock.legal (l : Lock) : Bool :=
  l.hard ≤ 7 && l.guest ≤ 7 && 1 ≤ l.unlockMinutes && l.unlockMinutes ≤ 240 && l.wrong ≤ 2 && l.lockouts ≤ 5
    && l.lengthLegal && l.pin.all Pin.legal && (l.state != .unlocked || l.pin.isSome)

/-- The records of the record slots from slot `k` on, with the slots found damaged: a slot that is damaged, whose
image no record can hold (R131, log 11), or that repeats the sequence number of a lower slot (R140). -/
def readRecords : Nat → List Slot → List Record → List Record × List Nat
  | _, [], kept => (kept, [])
  | k, .intact (.record r) :: rest, kept =>
    if !r.legal || kept.any (fun x => x.seq == r.seq) then
      let (records, bad) := readRecords (k + 1) rest kept
      (records, k :: bad)
    else readRecords (k + 1) rest (kept ++ [{ r with slot := k }])
  | k, .intact .free :: rest, kept => readRecords (k + 1) rest kept
  | k, _ :: rest, kept =>
    let (records, bad) := readRecords (k + 1) rest kept
    (records, k :: bad)

/-- Sequence a comes after sequence b in wrap order (R140). -/
def comesAfter (a b : Half) : Bool := 1 ≤ (a - b).toNat && (a - b).toNat ≤ 32767

/-- The next sequence number rebuilt from the records, when the folio slot is damaged (R140). -/
def rebuiltNext (seqs : List Half) : Half :=
  match seqs.filter (fun a => seqs.all (fun b => !comesAfter b a)) with
  | [a] => a + 1
  | _ => if seqs.isEmpty then 0 else BitVec.ofNat 16 (seqs.foldl (fun m q => max m q.toNat) 0) + 1

/-- A record's distance back from the next sequence number, 0 taken as 65,536 (R140). -/
def distanceBack (next seq : Half) : Nat := if next = seq then 65536 else (next - seq).toNat

/-- A record takes its place by distance, the greatest first (R140). -/
def insertByDistance (next : Half) (r : Record) : List Record → List Record
  | [] => [r]
  | x :: rest =>
    if distanceBack next x.seq < distanceBack next r.seq then r :: x :: rest
    else x :: insertByDistance next r rest

/-- The log order of the rebuilt records (R140). -/
def logOrder (next : Half) (records : List Record) : List Record :=
  records.foldr (insertByDistance next) []

/-- A rebuilt record at the end of the check (R105, R140): the record as it stands in the log, or none when it
leaves, and whether its slot is listed. -/
def Record.rebuilt (r : Record) (f : Folio) : Option Record × Bool :=
  if r.final then if r.released then (none, true) else (some r, false)
  else if r.current f then (some r, false)
  else if r.released then (none, true)
  else (some r.closed, true)

/-- The title codes of the records of the current folio whose origin is PREVIEW, each once (R105); all of them, also
where an earlier stay under the same number brings more than the 32 of R87 (the model's choice, log 29). -/
def rebuiltTitles (f : Folio) : List Record → List Word
  | [] => []
  | r :: rest =>
    let titles := rebuiltTitles f rest
    if r.current f && r.origin == .preview && !titles.contains r.title then r.title :: titles else titles

/-- The lock record rebuilt from its slot (R121): an unlock ends, a lockout begins again at its full length. -/
def Lock.rebuilt (l : Lock) : Lock :=
  match l.state with
  | .unlocked => { l with state := .locked, minutes := 0 }
  | .lockout => { l with minutes := l.length }
  | .locked => { l with minutes := 0 }

/-- The folio record and next sequence number of the folio slot, or none when it is damaged. -/
def Store.folioImage (st : Store) : Option (Folio × Half) :=
  match st.slots[folioSlot]? with
  | some (.intact (.folio f next)) => if f.legal then some (f, next) else none
  | _ => none

/-- The lock record of the lock slot, or none when it is damaged. -/
def Store.lockImage (st : Store) : Option Lock :=
  match st.slots[lockSlot]? with
  | some (.intact (.lock l)) => if l.legal then some l else none
  | _ => none

/-- The room address of the configuration slot, or none when it is damaged; the broadcast address, which SET_ROOM
refuses (R141), is none that the working copy can hold. -/
def Store.configImage (st : Store) : Option Half :=
  match st.slots[configSlot]? with
  | some (.intact (.config room)) => if room = broadcastAddress then none else some room
  | _ => none

/-- The damaged slots in slot-number order, duplicates among the record slots included (R138, R140). -/
def Store.damagedSlots (st : Store) : List Nat :=
  (readRecords 0 (st.slots.take logCapacity) []).2
    ++ (if st.folioImage.isNone then [folioSlot] else [])
    ++ (if st.lockImage.isNone then [lockSlot] else [])
    ++ (if st.configImage.isNone then [configSlot] else [])

/-- A flag is reported when its condition holds. -/
def reportIf (b : Bool) (f : DetailFlag) (s : State) : State := if b then report f s else s

/-- Slots are listed one after the other. -/
def listSlots (ks : List Nat) (s : State) : State := ks.foldl (fun s k => listSlot k s) s

/-- The working copies that the start-up check rebuilds from the slots (R81, R105, R121, R138 to R140), before the
slots are listed. -/
def rebuildCopies (s : State) : State :=
  let records := (readRecords 0 (s.store.slots.take logCapacity) []).1
  let folio := (s.store.folioImage.map (·.1)).getD Folio.default
  let next := (s.store.folioImage.map (·.2)).getD (rebuiltNext (records.map (·.seq)))
  let log := (logOrder next records).filterMap (fun r => (r.rebuilt folio).1)
  { s with
    phase := .running
    folio := folio
    nextSeq := next
    log := log
    previewed := rebuiltTitles folio log
    lock := (s.store.lockImage.getD Lock.default).rebuilt
    room := s.store.configImage.getD 0
    store := { s.store with damagedCount := s.store.damagedSlots.length } }

/-- The slots of the records that the rebuild changes or removes, in log order (R105, log 13). -/
def changedSlots (s : State) : List Nat :=
  let records := (readRecords 0 (s.store.slots.take logCapacity) []).1
  let folio := (s.store.folioImage.map (·.1)).getD Folio.default
  let next := (s.store.folioImage.map (·.2)).getD (rebuiltNext (records.map (·.seq)))
  ((logOrder next records).filter (fun r => (r.rebuilt folio).2)).map (·.slot)

/-- The lock slot is listed when the slot held an unlock (R121). -/
def Store.heldUnlock (st : Store) : Bool :=
  match st.lockImage with
  | some l => l.state == .unlocked
  | none => false

/-- Start-up check complete (R138): the working copies, the flags, then the slots: the damaged ones, the log's and
the lock's. -/
def completeCheck (s : State) : State :=
  let t := rebuildCopies s
  let t := reportIf (decide (0 < t.store.damagedCount)) .damagedSlot t
  let t := reportIf s.store.folioImage.isNone .folioSlotLost t
  let t := reportIf (decide (logNearFull ≤ t.log.length)) .logNearFull t
  let t := listSlots (s.store.damagedSlots ++ changedSlots s) t
  endEvent (if s.store.heldUnlock then listSlot lockSlot t else t)

/-- START_UP_CHECK_COMPLETE (R138). -/
def execStartUpCheckComplete (s : State) : Host.Outcome State Fault Refusal :=
  .next (if s.phase = .checking then completeCheck s else s)

end Sys2Proof.Machine
end

