-- ==== Sys2Proof/Machine/SetPort.lean ====
section
/-!
DEFINITION. The set port (spec 10): frames and what they return (R153, R154), the judging of a frame at its end
(R155), delivery (R156), the commands that read and change the status unit (R162 to R164), READ_FOLIO (R80),
READ_RECORD (R103), RESET (R158), and the table of commands (11).
-/
namespace Sys2Proof.Machine

/-! ### What a frame returns (R153, R154) -/

/-- The presence byte (R154; bits in 11). -/
def State.presence (s : State) : Byte :=
  BitVec.ofNat 8
    (128 * s.status.attn.toNat + 64 * s.port.ready.toNat + 32 * (s.port.busy != .clear).toNat
      + 16 * s.line.online.toNat + 8 * s.folio.isOpen.toNat + 4 * (s.lock.state == .unlocked).toNat
      + 2 * (s.channels.bad || s.offers.bad).toNat + s.store.write.isSome.toNat)

/-- A frame begins (R154): the presence byte and the reply slot are captured. During the start-up check the port does
not drive (R153); a frame that begins while RESETN is low is abandoned (log 21). -/
def frameStart (s : State) : State :=
  match s.phase with
  | .off => s
  | .inReset => { s with port := { s.port with frame := .abandoned } }
  | .released =>
    { s with port := { s.port with
        frame := .begun { presence := s.presence, reply := s.port.slot, replaced := false, driven := false } } }
  | .checking =>
    { s with port := { s.port with
        frame := .begun { presence := s.presence, reply := s.port.slot, replaced := false, driven := false } } }
  | .running =>
    { s with port := { s.port with
        frame := .begun { presence := s.presence, reply := s.port.slot, replaced := false, driven := true } } }

/-- SET_FRAME_START (R154). -/
def execSetFrameStart (s : State) : Host.Outcome State Fault Refusal := .next (frameStart s)

/-- The bytes of a reply, in the order in which they are sent (R154). -/
def Reply.bytes (r : Reply) : List Byte := r.code :: r.result.code :: r.data

/-- The byte a frame returns while byte `n` is clocked: the presence byte, the captured reply, then 0x00; nothing
while the port does not drive (R153, R154). -/
def Capture.byteOut (c : Capture) (n : Nat) : Option Byte :=
  if c.driven then
    some (if n = 0 then c.presence else ((c.reply.map Reply.bytes).getD []).getD (n - 1) 0)
  else none

/-! ### The end of a frame (R153, R155, R156) -/

/-- The frame is over: SSEL is high. -/
def closeFrame (s : State) : State := { s with port := { s.port with frame := .idle } }

/-- A frame of `n` bytes clocked out every byte of a captured reply that the slot still holds (R156). -/
def Frame.delivers (f : Frame) (n : Nat) : Bool :=
  match f with
  | .begun c =>
    match c.reply with
    | some r => c.driven && !c.replaced && decide (1 + r.bytes.length ≤ n)
    | none => false
  | .idle => false
  | .abandoned => false

/-- Delivery clears REPLY_READY; the reply stays in the slot (R156). -/
def deliver (n : Nat) (s : State) : State :=
  if s.port.frame.delivers n then { s with port := { s.port with ready := false } } else s

/-- A frame with this command code is discarded while BUSY stands; RESET is taken with cause STORE (R155, R158). -/
def Busy.discardsFrame (b : Busy) (code : Byte) : Bool :=
  match b with
  | .clear => false
  | .store _ => code != 0x7F
  | .engine => true
  | .reset => true

/-- A frame discarded unread (R155). -/
def discardFrame (s : State) : State := { s with port := { s.port with discards := s.port.discards + 1 } }

/-- A command of the table: its code, the argument bytes it needs, and what it does with the bytes after the command
byte. -/
structure SetCommand where
  code : Byte
  needs : Nat
  run : List Byte → State → State

/-- The taking of a command whose code names it (R155, cases 3 and 4). -/
def SetCommand.take (c : SetCommand) (args : List Byte) (s : State) : State :=
  if args.length < c.needs then placeReply c.code .badArg [] s else c.run args s

/-- A frame's code and kept argument bytes judged at its end, in a part that runs (R155): discarded while BUSY, else
first the delivery and then the taking (R156). -/
def judgeFrame (code : Byte) (args : List Byte) (take : List Byte → State → State) (s : State) : State :=
  if s.port.busy.discardsFrame code then closeFrame (discardFrame s)
  else take args (closeFrame (deliver (1 + args.length) s))

/-- A frame begins if none has: a command row standing alone is a whole frame with nothing between (log 3). -/
def openFrame (s : State) : State :=
  match s.port.frame with
  | .idle => frameStart s
  | .begun _ => s
  | .abandoned => s

/-- A frame of a command byte and argument bytes ends: of 48 bytes at most (R153), taken only by a part that runs and
not when a reset came during it (R153, R160). -/
def frameEnd (code : Byte) (args : List Byte) (take : List Byte → State → State) (s : State) : State :=
  let s := openFrame s
  if s.port.frame ≠ .abandoned ∧ s.phase = .running then judgeFrame code (args.take (setFrameBytes - 1)) take s
  else closeFrame s

/-! ### Status unit commands (R162 to R164) -/

/-- READ_STATUS (R164). -/
def readStatusCommand (_args : List Byte) (s : State) : State :=
  placeReply 0x01 .ok
    (be 4 s.status.detail.toNat ++ be 1 s.status.combined.toNat ++ be 4 s.status.detailMask.toNat
      ++ be 1 s.status.attnMask.toNat ++ be 4 s.port.discards.toNat) s

/-- CLEAR_FLAGS(detail flags, combined flags) (R162, R74). -/
def clearFlagsCommand (args : List Byte) (s : State) : State :=
  let details : BitVec 20 := BitVec.ofNat 20 (natAt args 0 4)
  let marks : BitVec 6 := BitVec.ofNat 6 (byteAt args 4)
  let st := s.status.clearDetails details
  let st' := st.clearCombined marks
  let s := { s with status := st' }
  let s := if details.getLsbD DetailFlag.capReached.bit then setFolio { s.folio with capMark := false } s else s
  placeReply 0x02 .ok (be 1 st'.combined.toNat ++ be 1 (st.refusedMarks marks).toNat) (endEvent s)

/-- SET_MASKS(detail mask, ATTN mask) (R163). -/
def setMasksCommand (args : List Byte) (s : State) : State :=
  let st := s.status.setMasks (BitVec.ofNat 20 (natAt args 0 4)) (BitVec.ofNat 6 (byteAt args 4))
  placeReply 0x03 .ok (be 4 st.detailMask.toNat ++ be 1 st.attnMask.toNat) { s with status := st }

/-! ### Billing reads (R80, R103) -/

/-- READ_FOLIO's reply data (R80; layout in 11). The cap remaining is present while the cap is above 0. -/
def State.folioReport (s : State) : List Byte :=
  let f := s.folio
  be 4 f.number.toNat ++ [f.state.code] ++ be 4 f.creditLimit ++ be 4 f.dailyCap ++ be 2 f.taxRate ++ be 4 f.allowance
    ++ [f.policy.code, f.packages] ++ be 4 f.total ++ be 4 f.daySpend ++ be 4 f.offlineSpend
    ++ be 4 (f.creditLimit - f.total) ++ be 4 (if f.dailyCap = 0 then 0 else f.dailyCap - f.daySpend)
    ++ [flagByte f.capMark, flagByte s.line.online]

/-- READ_FOLIO (R80). -/
def readFolioCommand (_args : List Byte) (s : State) : State := placeReply 0x21 .ok s.folioReport s

/-- The decline code field: 0 outside DECLINED (R103). -/
def RecordState.declineCode : RecordState → Byte
  | .declined code => code.code
  | .preview => 0
  | .bought _ => 0
  | .ended => 0
  | .lapsed => 0
  | .voided => 0

/-- A record as READ_RECORD reports it (R103; layout in 11). -/
def Record.readReport (r : Record) : List Byte :=
  let c := r.charge.getD { list := 0, tax := 0, billed := 0, waived := 0, day := 0, minute := 0 }
  be 2 r.seq.toNat ++ be 4 r.folio.toNat ++ be 4 r.title.toNat ++ [r.origin.code] ++ be 1 r.rating ++ be 1 r.limit
    ++ be 1 r.used ++ [r.state.code] ++ be 3 c.list ++ be 2 c.tax ++ be 3 c.billed ++ be 3 c.waived
    ++ be 2 c.day.toNat ++ be 2 c.minute ++ be 2 r.window ++ [r.state.declineCode]
    ++ be 1 (r.collected.toNat + 2 * r.released.toNat)

/-- READ_RECORD(position) (R103). -/
def readRecordCommand (args : List Byte) (s : State) : State :=
  let position := byteAt args 0
  if 47 < position then placeReply 0x22 .badArg [] s
  else
    match s.log[position]? with
    | none => placeReply 0x22 .notFound (be 1 s.log.length) s
    | some r => placeReply 0x22 .ok (be 1 s.log.length ++ be 2 s.nextSeq.toNat ++ r.readReport) s

/-! ### NOP and RESET (R156, R158) -/

/-- NOP places no reply (R156). -/
def nopCommand (_args : List Byte) (s : State) : State := s

/-- RESET (R158): a command in flight with cause STORE loses its reply; the slot holds RESET PENDING and BUSY has
cause RESET. With nothing to write it takes effect at once (R159). -/
def resetCommand (_args : List Byte) (s : State) : State :=
  endEvent (setBusy .reset (placeReply 0x7F .pending [] s))

/-! ### The command table (11) -/

/-- The command that a code names, with the argument bytes it needs (11); none for a code that names none. -/
def setCommand (code : Byte) : Option SetCommand :=
  if code = 0x00 then some { code := code, needs := 0, run := nopCommand }
  else if code = 0x01 then some { code := code, needs := 0, run := readStatusCommand }
  else if code = 0x02 then some { code := code, needs := 5, run := clearFlagsCommand }
  else if code = 0x03 then some { code := code, needs := 5, run := setMasksCommand }
  else if code = 0x10 then some { code := code, needs := 2, run := selectCommand }
  else if code = 0x11 then some { code := code, needs := 1, run := readPathCommand }
  else if code = 0x12 then some { code := code, needs := 24, run := engineTestCommand }
  else if code = 0x18 then some { code := code, needs := 1, run := readChannelCommand }
  else if code = 0x19 then some { code := code, needs := 1, run := readOfferCommand }
  else if code = 0x1A then some { code := code, needs := 1, run := tableTestCommand }
  else if code = 0x20 then some { code := code, needs := 1, run := orderCommand }
  else if code = 0x21 then some { code := code, needs := 0, run := readFolioCommand }
  else if code = 0x22 then some { code := code, needs := 1, run := readRecordCommand }
  else if code = 0x30 then some { code := code, needs := 4, run := enterPinCommand }
  else if code = 0x31 then some { code := code, needs := 8, run := setPinCommand }
  else if code = 0x32 then some { code := code, needs := 5, run := setCeilingCommand }
  else if code = 0x33 then some { code := code, needs := 0, run := relockCommand }
  else if code = 0x40 then some { code := code, needs := 2, run := setRoomCommand }
  else if code = 0x41 then some { code := code, needs := 0, run := readTimeCommand }
  else if code = 0x7F then some { code := code, needs := 0, run := resetCommand }
  else none

/-- The taking of whatever command a code names (R155, cases 2 to 4). -/
def takeCommand (code : Byte) (args : List Byte) (s : State) : State :=
  match setCommand code with
  | none => placeReply code .unknownCommand [] s
  | some c => c.take args s

/-- A set port frame of a command byte and argument bytes ends (R155). -/
def setFrame (code : Byte) (args : List Byte) (s : State) : State := frameEnd code args (takeCommand code) s

end Sys2Proof.Machine
end

