-- ==== Sys2Proof/Machine/SetCommands.lean ====
section
/-!
DEFINITION. The meanings of the set port's rows: the end of a frame with the row's command code, which R155 judges
and hands to the command's owner (Machine/SetPort.lean, `setCommand`).
-/
namespace Sys2Proof.Machine

/-- NOP (R156). -/
def execNop (args : List Byte) (s : State) : Host.Outcome State Fault Refusal :=
  .next (setFrame 0x00 args s)

/-- READ_STATUS (R164). -/
def execReadStatus (args : List Byte) (s : State) : Host.Outcome State Fault Refusal :=
  .next (setFrame 0x01 args s)

/-- CLEAR_FLAGS (R162). -/
def execClearFlags (args : List Byte) (s : State) : Host.Outcome State Fault Refusal :=
  .next (setFrame 0x02 args s)

/-- SET_MASKS (R163). -/
def execSetMasks (args : List Byte) (s : State) : Host.Outcome State Fault Refusal :=
  .next (setFrame 0x03 args s)

/-- SELECT (R4). -/
def execSelect (args : List Byte) (s : State) : Host.Outcome State Fault Refusal :=
  .next (setFrame 0x10 args s)

/-- READ_PATH (R19). -/
def execReadPath (args : List Byte) (s : State) : Host.Outcome State Fault Refusal :=
  .next (setFrame 0x11 args s)

/-- ENGINE_TEST (R32). -/
def execEngineTest (args : List Byte) (s : State) : Host.Outcome State Fault Refusal :=
  .next (setFrame 0x12 args s)

/-- READ_CHANNEL (R57). -/
def execReadChannel (args : List Byte) (s : State) : Host.Outcome State Fault Refusal :=
  .next (setFrame 0x18 args s)

/-- READ_OFFER (R58). -/
def execReadOffer (args : List Byte) (s : State) : Host.Outcome State Fault Refusal :=
  .next (setFrame 0x19 args s)

/-- TABLE_TEST (R55). -/
def execTableTest (args : List Byte) (s : State) : Host.Outcome State Fault Refusal :=
  .next (setFrame 0x1A args s)

/-- ORDER (R93). -/
def execOrder (args : List Byte) (s : State) : Host.Outcome State Fault Refusal :=
  .next (setFrame 0x20 args s)

/-- READ_FOLIO (R80). -/
def execReadFolio (args : List Byte) (s : State) : Host.Outcome State Fault Refusal :=
  .next (setFrame 0x21 args s)

/-- READ_RECORD (R103). -/
def execReadRecord (args : List Byte) (s : State) : Host.Outcome State Fault Refusal :=
  .next (setFrame 0x22 args s)

/-- ENTER_PIN (R109). -/
def execEnterPin (args : List Byte) (s : State) : Host.Outcome State Fault Refusal :=
  .next (setFrame 0x30 args s)

/-- SET_PIN (R111). -/
def execSetPin (args : List Byte) (s : State) : Host.Outcome State Fault Refusal :=
  .next (setFrame 0x31 args s)

/-- SET_CEILING (R112). -/
def execSetCeiling (args : List Byte) (s : State) : Host.Outcome State Fault Refusal :=
  .next (setFrame 0x32 args s)

/-- RELOCK (R114). -/
def execRelock (args : List Byte) (s : State) : Host.Outcome State Fault Refusal :=
  .next (setFrame 0x33 args s)

/-- SET_ROOM (R141). -/
def execSetRoom (args : List Byte) (s : State) : Host.Outcome State Fault Refusal :=
  .next (setFrame 0x40 args s)

/-- READ_TIME (R129). -/
def execReadTime (args : List Byte) (s : State) : Host.Outcome State Fault Refusal :=
  .next (setFrame 0x41 args s)

/-- RESET (R158). -/
def execReset (args : List Byte) (s : State) : Host.Outcome State Fault Refusal :=
  .next (setFrame 0x7F args s)

/-- UNKNOWN_COMMAND (R155): a frame with this command byte. -/
def execUnknownCommand (code : Byte) (args : List Byte) (s : State) : Host.Outcome State Fault Refusal :=
  .next (setFrame code args s)

/-- SET_FRAME_DISCARDED (R155): a frame of these bytes ends, discarded while BUSY is set. A frame with no complete
byte is over and changes nothing (R153). -/
def execSetFrameDiscarded (frame : List Byte) (s : State) : Host.Outcome State Fault Refusal :=
  match frame with
  | [] => .next (closeFrame s)
  | code :: args => .next (setFrame code args s)

end Sys2Proof.Machine
end

