-- ==== Sys2Proof/Machine/Dispatch.lean ====
section
/-!
DEFINITION. The dispatch: one arm for each command, one direct call of its meaning.
-/
namespace Sys2Proof.Machine

def exec (i : Instr) (s : State) : Host.Outcome State Fault Refusal :=
  match i with
  | .cellArrives path byte => Sys2Proof.Machine.execCellArrives path byte s
  | .cellTake path => Sys2Proof.Machine.execCellTake path s
  | .engineComplete => Sys2Proof.Machine.execEngineComplete s
  | .cellLeaves path => Sys2Proof.Machine.execCellLeaves path s
  | .slotWriteComplete => Sys2Proof.Machine.execSlotWriteComplete s
  | .setFrameStart => Sys2Proof.Machine.execSetFrameStart s
  | .setFrameDiscarded frame => Sys2Proof.Machine.execSetFrameDiscarded frame s
  | .unknownCommand code args => Sys2Proof.Machine.execUnknownCommand code args s
  | .nop args => Sys2Proof.Machine.execNop args s
  | .readStatus args => Sys2Proof.Machine.execReadStatus args s
  | .clearFlags args => Sys2Proof.Machine.execClearFlags args s
  | .setMasks args => Sys2Proof.Machine.execSetMasks args s
  | .select args => Sys2Proof.Machine.execSelect args s
  | .readPath args => Sys2Proof.Machine.execReadPath args s
  | .engineTest args => Sys2Proof.Machine.execEngineTest args s
  | .readChannel args => Sys2Proof.Machine.execReadChannel args s
  | .readOffer args => Sys2Proof.Machine.execReadOffer args s
  | .tableTest args => Sys2Proof.Machine.execTableTest args s
  | .order args => Sys2Proof.Machine.execOrder args s
  | .readFolio args => Sys2Proof.Machine.execReadFolio args s
  | .readRecord args => Sys2Proof.Machine.execReadRecord args s
  | .enterPin args => Sys2Proof.Machine.execEnterPin args s
  | .setPin args => Sys2Proof.Machine.execSetPin args s
  | .setCeiling args => Sys2Proof.Machine.execSetCeiling args s
  | .relock args => Sys2Proof.Machine.execRelock args s
  | .setRoom args => Sys2Proof.Machine.execSetRoom args s
  | .readTime args => Sys2Proof.Machine.execReadTime args s
  | .reset args => Sys2Proof.Machine.execReset args s
  | .resetTakesEffect => Sys2Proof.Machine.execResetTakesEffect s
  | .lineIdleDetected => Sys2Proof.Machine.execLineIdleDetected s
  | .lineFrameIgnored bytes framingError tooLong => Sys2Proof.Machine.execLineFrameIgnored bytes framingError tooLong s
  | .lineUnknownKind address kind payload => Sys2Proof.Machine.execLineUnknownKind address kind payload s
  | .replyTransmitStart => Sys2Proof.Machine.execReplyTransmitStart s
  | .replyTransmitEnd => Sys2Proof.Machine.execReplyTransmitEnd s
  | .poll address payload => Sys2Proof.Machine.execPoll address payload s
  | .time address payload => Sys2Proof.Machine.execTime address payload s
  | .key address payload => Sys2Proof.Machine.execKey address payload s
  | .keyClear address payload => Sys2Proof.Machine.execKeyClear address payload s
  | .tableEntry address payload => Sys2Proof.Machine.execTableEntry address payload s
  | .tableCommit address payload => Sys2Proof.Machine.execTableCommit address payload s
  | .checkIn address payload => Sys2Proof.Machine.execCheckIn address payload s
  | .checkOut address payload => Sys2Proof.Machine.execCheckOut address payload s
  | .hold address payload => Sys2Proof.Machine.execHold address payload s
  | .packages address payload => Sys2Proof.Machine.execPackages address payload s
  | .collect address payload => Sys2Proof.Machine.execCollect address payload s
  | .release address payload => Sys2Proof.Machine.execRelease address payload s
  | .void address payload => Sys2Proof.Machine.execVoid address payload s
  | .lock address payload => Sys2Proof.Machine.execLock address payload s
  | .secondTick order => Sys2Proof.Machine.execSecondTick order s
  | .minuteOfTheTimebase order => Sys2Proof.Machine.execMinuteOfTheTimebase order s
  | .midnightDayChange => Sys2Proof.Machine.execMidnightDayChange s
  | .previewLapse seq => Sys2Proof.Machine.execPreviewLapse seq s
  | .autoCharge seq => Sys2Proof.Machine.execAutoCharge seq s
  | .windowEnd seq => Sys2Proof.Machine.execWindowEnd seq s
  | .keyLifeExpiry context parity => Sys2Proof.Machine.execKeyLifeExpiry context parity s
  | .unlockExpiry => Sys2Proof.Machine.execUnlockExpiry s
  | .lockoutEnd => Sys2Proof.Machine.execLockoutEnd s
  | .watchdogExpiry => Sys2Proof.Machine.execWatchdogExpiry s
  | .scanStep table => Sys2Proof.Machine.execScanStep table s
  | .liveTableUpset table index entry => Sys2Proof.Machine.execLiveTableUpset table index entry s
  | .powerLoss => Sys2Proof.Machine.execPowerLoss s
  | .powerOnReset => Sys2Proof.Machine.execPowerOnReset s
  | .pinReset => Sys2Proof.Machine.execPinReset s
  | .startUpCheckComplete => Sys2Proof.Machine.execStartUpCheckComplete s
  | .cellInputStrobe path mark byte => Sys2Proof.Machine.execCellInputStrobe path mark byte s
  | .lineCharacterArrives byte stopLow => Sys2Proof.Machine.execLineCharacterArrives byte stopLow s
  | .pinResetRelease => Sys2Proof.Machine.execPinResetRelease s

end Sys2Proof.Machine
end

