-- ==== Sys2Proof/Safety.lean ====
section
/-!
DEFINITION. What statements about the part say: when a port takes a command or a message, the state that a reply
leaves, and the invariants that every step keeps. Each conjunct names the rule of the spec it formalises.
-/
namespace Sys2Proof.Machine

/-! ### When a command or a message is taken -/

/-- The set port takes the command of a frame that ends now (R153, R155, R160). -/
abbrev State.takesCommand (s : State) : Prop :=
  s.phase = .running ∧ s.port.frame ≠ .abandoned ∧ s.port.busy = .clear

/-- The line port takes the frame that arrives now (R143, R151). -/
abbrev State.takesMessage (s : State) : Prop := s.phase = .running ∧ s.line.receiver = .idle

/-- An address under which a frame is addressed to this room (R144, check 4). -/
abbrev State.answersTo (s : State) (address : Half) : Prop :=
  address = s.room ∧ address ≠ 0 ∧ address ≠ broadcastAddress

/-- Every event that can have listed slots has ended: a listed slot has a write in flight before it (R134), and a
waiting RESET command has something left to wait for (R159). -/
def State.settled (s : State) : Bool :=
  (s.store.dirty.isEmpty || s.store.write.isSome) && !s.resetDue

/-- A slot waits in the dirty list, or its write has begun with the image of the working copy as it stands
(R133, R134). -/
def State.listed (s : State) (k : Nat) : Prop :=
  k ∈ s.store.dirty ∨ ∃ w, s.store.write = some w ∧ w.slot = k ∧ w.image = captureImage s k

/-- The state in which the set port has ended its frame and holds this reply, unread (R156). -/
def State.replied (s : State) (code : Byte) (result : ResultCode) (data : List Byte) : State :=
  { s with
    port := { s.port with
      frame := .idle, slot := some { code := code, result := result, data := data }, ready := true } }

/-- A frame of `n` bytes that ends now delivers the reply it captured, at its own beginning or, standing alone, at this
event (R156, log 3). -/
def State.delivers (s : State) (n : Nat) : Bool := (openFrame s).port.frame.delivers (min setFrameBytes n)

/-- The state in which the set port has ended a frame of `n` bytes and delivered what it captured (R156). -/
def State.frameOver (s : State) (n : Nat) : State :=
  { s with port := { s.port with frame := .idle, ready := s.port.ready && !s.delivers n } }

/-- The rows whose event is the end of a set port frame: the frame's command byte and the bytes after it (11). -/
def setPortFrame : Instr → Option (Byte × List Byte)
  | .setFrameDiscarded (code :: args) => some (code, args)
  | .unknownCommand code args => some (code, args)
  | .nop args => some (0x00, args)
  | .readStatus args => some (0x01, args)
  | .clearFlags args => some (0x02, args)
  | .setMasks args => some (0x03, args)
  | .select args => some (0x10, args)
  | .readPath args => some (0x11, args)
  | .engineTest args => some (0x12, args)
  | .readChannel args => some (0x18, args)
  | .readOffer args => some (0x19, args)
  | .tableTest args => some (0x1A, args)
  | .order args => some (0x20, args)
  | .readFolio args => some (0x21, args)
  | .readRecord args => some (0x22, args)
  | .enterPin args => some (0x30, args)
  | .setPin args => some (0x31, args)
  | .setCeiling args => some (0x32, args)
  | .relock args => some (0x33, args)
  | .setRoom args => some (0x40, args)
  | .readTime args => some (0x41, args)
  | .reset args => some (0x7F, args)
  | _ => none

/-- The rows whose event is the arrival of a line frame with a good shape and check value: address, kind and payload
(11). -/
def linePortFrame : Instr → Option (Half × Byte × List Byte)
  | .lineUnknownKind address kind payload => some (address, kind, payload)
  | .poll address payload => some (address, 0x01, payload)
  | .time address payload => some (address, 0x02, payload)
  | .key address payload => some (address, 0x03, payload)
  | .keyClear address payload => some (address, 0x04, payload)
  | .tableEntry address payload => some (address, 0x05, payload)
  | .tableCommit address payload => some (address, 0x06, payload)
  | .checkIn address payload => some (address, 0x10, payload)
  | .checkOut address payload => some (address, 0x11, payload)
  | .hold address payload => some (address, 0x12, payload)
  | .packages address payload => some (address, 0x13, payload)
  | .collect address payload => some (address, 0x14, payload)
  | .release address payload => some (address, 0x15, payload)
  | .void address payload => some (address, 0x16, payload)
  | .lock address payload => some (address, 0x17, payload)
  | _ => none

/-- The state in which the line port holds this reply, waiting to be sent, and is DEAF (R147). -/
def State.replying (s : State) (address : Half) (kind : Byte) (payload : List Byte) : State :=
  { s with
    line := { s.line with
      receiver := .deaf, transmit := .waiting { address := address, kind := kind, payload := payload } } }

/-! ### Frames of events of admission -/

/-- `t` with everything that an event of admission can change put back as in `s`: the paths, the log, the next
sequence number, the previewed-title set, the store, the status unit and the model's counter of free choices. -/
def State.withAdmissionOf (t s : State) : State :=
  { t with
    pathA := s.pathA, pathB := s.pathB, log := s.log, nextSeq := s.nextSeq, previewed := s.previewed
    store := s.store, status := s.status, choice := s.choice }

/-! ### What the rules of admission compute -/

/-- A BOUGHT record of the current folio carries the title (R85, answer 1). -/
def State.hasBought (s : State) (title : Word) : Prop :=
  ∃ r ∈ s.log, (∃ w, r.state = .bought w) ∧ s.folio.state ≠ .closed ∧ r.folio = s.folio.number ∧ r.title = title

/-- A PREVIEW record of the current folio carries the title with minutes left (R85, answer 2). -/
def State.hasPreview (s : State) (title : Word) : Prop :=
  ∃ r ∈ s.log, r.state = .preview ∧ s.folio.state ≠ .closed ∧ r.folio = s.folio.number ∧ r.title = title ∧
    r.used < r.limit

/-- Every condition of R86 for a title found at an offer index. -/
def State.startsPreview (s : State) (title : Word) (index : Nat) : Prop :=
  s.folio.state = .opened ∧ ¬s.hasBought title ∧ ¬s.hasPreview title ∧ title ∉ s.previewed ∧
    s.previewed.length < 32 ∧ s.log.length < 48 ∧ (s.offerAt index).valid = true ∧ (s.offerAt index).title = title ∧
    0 < min (s.offerAt index).preview 15

/-- Reason 1 of R8 for the entry at an index. -/
def State.isNoService (s : State) (i : Nat) : Prop :=
  (s.channelAt i).cls = .empty ∨
    (s.channelAt i).cls = .title ∧ (31 < (s.channelAt i).offer ∨ (s.offerAt (s.channelAt i).offer).valid = false)

/-- Reason 2 of R8. -/
def State.isTableFault (s : State) (i : Nat) : Prop :=
  (s.channelAt i).cls ≠ .clear ∧ (s.channels.bad = true ∨ (s.channelAt i).cls = .title ∧ s.offers.bad = true)

/-- Reason 3 of R8. -/
def State.isOverCeiling (s : State) (i : Nat) : Prop :=
  s.lock.ceiling <
    if (s.channelAt i).cls = .title then (s.offerAt (s.channelAt i).offer).rating else (s.channelAt i).rating

/-- A judging of the entry asks the log (R8, R9). -/
def State.asksLog (s : State) (i : Nat) : Prop :=
  (s.channelAt i).cls = .title ∧ ¬s.isNoService i ∧ ¬s.isTableFault i ∧ ¬s.isOverCeiling i

open Classical in
/-- The state that reasons 1 to 4 leave a path on the entry at an index, given the log's answer (R8, R9, R11). -/
noncomputable def State.judgedState (s : State) (i : Nat) (answer : Answer) : PathState :=
  if s.isNoService i then .muted .noService
  else if s.isTableFault i then .muted .tableFault
  else if s.isOverCeiling i then .muted .rating
  else
    match (s.channelAt i).cls with
    | .empty => .muted .noService
    | .clear => .passing
    | .included => if s.folio.state = .closed then .muted .notEntitled else .descrambling
    | .package =>
      if s.folio.state ≠ .closed ∧ (s.channelAt i).package ≤ 7 ∧
          s.folio.packages.getLsbD (s.channelAt i).package = true then .descrambling
      else .muted .notEntitled
    | .title =>
      match answer with
      | .bought => .descrambling
      | .preview => .previewing
      | .none => .muted .notEntitled

/-- A path stands as a judging leaves it (R7 to R11): in the state of the reasons of R8, with the title asked about and
the log's answer kept where it was asked: no preview that R86 would start is left to start (R9, R85, R86). -/
def State.pathJudged (s : State) (p : PathId) : Prop :=
  ∀ i, (s.path p).selected = some i →
    (¬s.asksLog i → (s.path p).admitted = s.judgedState i .none) ∧
    (s.asksLog i →
      (s.path p).title = (s.offerAt (s.channelAt i).offer).title ∧
      (s.path p).admitted = s.judgedState i (s.path p).answer ∧
      ((s.path p).answer = .bought ↔ s.hasBought (s.path p).title) ∧
      ((s.path p).answer = .preview ↔ ¬s.hasBought (s.path p).title ∧ s.hasPreview (s.path p).title) ∧
      ¬s.startsPreview (s.path p).title (s.channelAt i).offer)

/-- A path stands as a judging that starts no preview leaves it (R79, R92): in the state of the reasons of R8, with the
title asked about and answer 1, 2 or 4 of R85 kept where it was asked. -/
def State.pathRecalled (s : State) (p : PathId) : Prop :=
  ∀ i, (s.path p).selected = some i →
    (¬s.asksLog i → (s.path p).admitted = s.judgedState i .none) ∧
    (s.asksLog i →
      (s.path p).title = (s.offerAt (s.channelAt i).offer).title ∧
      (s.path p).admitted = s.judgedState i (s.path p).answer ∧
      ((s.path p).answer = .bought ↔ s.hasBought (s.path p).title) ∧
      ((s.path p).answer = .preview ↔ ¬s.hasBought (s.path p).title ∧ s.hasPreview (s.path p).title))

/-- Both paths stand as judgings leave them. -/
def State.judgedAfresh (s : State) : Prop := ∀ p, s.pathJudged p

/-- The path's entry is TITLE and its live offer carries the title (R88). -/
def State.showsTitle (s : State) (p : PathId) (title : Word) : Prop :=
  ∃ i, (s.path p).selected = some i ∧ (s.channelAt i).cls = .title ∧
    (s.offerAt (s.channelAt i).offer).title = title

/-- The path shows the title (R88), or stands PREVIEWING it (R11, log 9). -/
def State.showsOrPreviews (s : State) (p : PathId) (title : Word) : Prop :=
  s.showsTitle p title ∨
    (s.path p).selected ≠ none ∧ (s.path p).admitted = .previewing ∧ (s.path p).title = title

/-- The number is in no record, and every number from the next sequence number up to it is in one (R83). -/
def State.firstUnused (s : State) (q : Half) : Prop :=
  (∀ x ∈ s.log, x.seq ≠ q) ∧
    ∃ n, q = s.nextSeq + BitVec.ofNat 16 n ∧ ∀ m, m < n → ∃ x ∈ s.log, x.seq = s.nextSeq + BitVec.ofNat 16 m

/-- What the removal of the records with these numbers leaves of the set port (R95, R157): an ORDER that waits for one of
them is answered OK with its figures and BUSY clears; otherwise the port stands. -/
def State.portAfterRemoval (s t : State) (gone : Half → Prop) : Prop :=
  (∀ seq slot billed waived window, s.port.busy = .store (.order seq slot billed waived window) → gone seq →
    t.port = { s.port with
      slot := some
        { code := 0x20, result := .ok, data := be 2 seq.toNat ++ be 3 billed ++ be 3 waived ++ be 2 window }
      ready := true, busy := .clear, frame := s.port.frame.replace }) ∧
  ((∀ seq slot billed waived window, s.port.busy = .store (.order seq slot billed waived window) → ¬gone seq) →
    t.port = s.port)

/-- Some path is PREVIEWING the title, so that its PREVIEW record counts a minute (R89). -/
def State.watched (s : State) (title : Word) : Bool :=
  decide (s.pathA.state = .previewing ∧ s.pathA.title = title ∨ s.pathB.state = .previewing ∧ s.pathB.title = title)

/-- What the engine's completion leaves before the arbiter grants again (R27): the plain cell leaving, or the cell of a
path that was reset dropped (R14, R21), or the test answered OK and BUSY clear (R33); and the engine IDLE. -/
def State.engineDone (s : State) : State :=
  let idle := { s.engine with serving := none }
  match s.engine.serving with
  | none => s
  | some sv =>
    match sv.work with
    | .cell p payload =>
      match (s.path p).progress with
      | some ⟨c, .serving false⟩ =>
        { s.setPath p { s.path p with
            progress := some
              ⟨c.take 3 ++ [c.getD 3 0 &&& 0x7F] ++ (c.drop 4).take 4 ++ sv.plainPayload payload,
                .leaving .descrambled⟩ } with engine := idle }
      | some ⟨_, .serving true⟩ => { s.setPath p { s.path p with progress := none } with engine := idle }
      | _ => { s with engine := idle }
    | .test index word =>
      { s with
        engine := idle
        port := { s.port with
          slot := some { code := 0x12, result := .ok, data := be 1 index ++ sv.plainTest index word }
          ready := true, busy := .clear, frame := s.port.frame.replace } }

/-! ### What the start-up check finds (R131, R138 to R140) -/

/-- A record slot gives its record back: intact with a record that a log can hold, whose number no lower slot gives
(R131, R140). -/
def Store.givesRecord (st : Store) (k : Nat) (r : Record) : Prop :=
  k < 48 ∧ st.slots[k]? = some (.intact (.record r)) ∧ r.legal = true ∧
    ∀ j x, j < k → st.slots[j]? = some (.intact (.record x)) → x.legal = true → x.seq ≠ r.seq

/-- A slot is not damaged and no duplicate: it is free or gives a record, or holds a legal image of its kind (R131). -/
def Store.slotGood (st : Store) (k : Nat) : Prop :=
  (k < 48 ∧ (st.slots[k]? = some (.intact .free) ∨ ∃ r, st.givesRecord k r)) ∨
    (k = 48 ∧ ∃ f next, st.slots[48]? = some (.intact (.folio f next)) ∧ f.legal = true) ∨
    (k = 49 ∧ ∃ l, st.slots[49]? = some (.intact (.lock l)) ∧ l.legal = true) ∨
    (k = 50 ∧ ∃ room, st.slots[50]? = some (.intact (.config room)) ∧ room ≠ 0xFFFF)

open Classical in
/-- The damaged slots in slot-number order, duplicates included (R138, R140). -/
noncomputable def Store.badSlots (st : Store) : List Nat := (List.range 51).filter (fun k => decide ¬st.slotGood k)

/-- The latest number among the rebuilt records: one that no other comes after in wrap order (R140). -/
def Store.latestSeq (st : Store) (q : Half) : Prop :=
  (∃ k r, st.givesRecord k r ∧ r.seq = q) ∧
    ∀ k r, st.givesRecord k r → ¬(1 ≤ (r.seq - q).toNat ∧ (r.seq - q).toNat ≤ 32767)

/-! ### Charges, ORDER and the lock -/

/-- The full charge of an offer under the folio's tax rate (R68). -/
def State.fullCharge (s : State) (o : OfferEntry) : Nat :=
  min o.price 99999 + (min o.price 99999 * s.folio.taxRate + 5000) / 10000

/-- The billed amount of an offer under the daily cap (R69). -/
def State.billedFor (s : State) (o : OfferEntry) : Nat :=
  if s.folio.dailyCap = 0 then s.fullCharge o else min (s.fullCharge o) (s.folio.dailyCap - s.folio.daySpend)

/-- The charge that a grant for an offer returns (R72). -/
def State.chargeFor (s : State) (o : OfferEntry) : Charge where
  list := min o.price 99999
  tax := (min o.price 99999 * s.folio.taxRate + 5000) / 10000
  billed := s.billedFor o
  waived := s.fullCharge o - s.billedFor o
  day := s.clock.day
  minute := s.clock.minute

/-- The refusal of a charge for an offer (R67, R70, R71). -/
def State.chargeRefusal (s : State) (o : OfferEntry) : Option ResultCode :=
  if s.folio.state = .closed then some .folioClosed
  else if s.folio.state = .held then some .folioHeld
  else if s.folio.creditLimit < s.folio.total + s.billedFor o then some .credit
  else if s.line.online = false ∧ s.folio.allowance < s.folio.offlineSpend + s.billedFor o then some .offlineLimit
  else none

/-- The folio record after a granted charge for an offer (R72). -/
def State.folioAfter (s : State) (o : OfferEntry) : Folio :=
  { s.folio with
    total := s.folio.total + s.billedFor o
    daySpend := s.folio.daySpend + s.billedFor o
    offlineSpend := if s.line.online then s.folio.offlineSpend else s.folio.offlineSpend + s.billedFor o
    capMark := s.folio.capMark || decide (s.billedFor o < s.fullCharge o) }

/-- A PREVIEW record of the current folio carries the title, with minutes left or without (R93, check 8). -/
def State.previewOf (s : State) (title : Word) : Prop :=
  ∃ r ∈ s.log, r.state = .preview ∧ s.folio.state ≠ .closed ∧ r.folio = s.folio.number ∧ r.title = title

open Classical in
/-- The first check of R93 that fails for an ORDER of an offer index. -/
noncomputable def State.orderRefusal (s : State) (index : Nat) : Option ResultCode :=
  if 31 < index then some .badArg
  else if s.folio.state = .closed then some .folioClosed
  else if s.folio.state = .held then some .folioHeld
  else if s.offers.bad = true then some .tableFault
  else if (s.offerAt index).valid = false then some .noOffer
  else if s.lock.ceiling < (s.offerAt index).rating then some .locked
  else if s.hasBought (s.offerAt index).title then some .already
  else if ¬s.previewOf (s.offerAt index).title ∧ 48 ≤ s.log.length then some .logFull
  else s.chargeRefusal (s.offerAt index)

/-- The lock record after a wrong attempt (R110). -/
def Lock.afterWrong (l : Lock) : Lock :=
  if l.wrong = 2 then
    { l with
      state := .lockout, minutes := min 240 (15 * 2 ^ l.lockouts), length := min 240 (15 * 2 ^ l.lockouts)
      lockouts := min 5 (l.lockouts + 1), wrong := 0 }
  else { l with wrong := l.wrong + 1 }

/-! ### Invariants -/

/-- A path's FIFO holds at most 4 cells (R3), each of 128 bytes and with a good sync mark (R1, R2), an incomplete cell
is shorter than a cell (R1), and the starvation counter does not pass 16 (R17). -/
def Path.sound (x : Path) : Prop :=
  x.fifo.length ≤ fifoDepth ∧ (∀ c ∈ x.fifo, c.length = cellBytes ∧ c.getD 0 0 = syncMark) ∧
    (∀ bs, x.assembly = some bs → 1 ≤ bs.length ∧ bs.length < cellBytes) ∧ x.starvation ≤ starvationLimit

/-- Both paths are sound. -/
def PathsSound (s : State) : Prop := s.pathA.sound ∧ s.pathB.sound

/-- The cell in progress is in the engine. -/
def Path.inEngine (x : Path) : Bool :=
  match x.progress with
  | some ⟨_, .serving _⟩ => true
  | some ⟨_, .waiting _⟩ => false
  | some ⟨_, .leaving _⟩ => false
  | none => false

/-- The engine serves this requester (R22). -/
def Engine.serves (e : Engine) (r : Requester) : Bool :=
  match e.serving with
  | some ⟨.cell p _, _, _, _, _, _, _⟩ => r == .path p
  | some ⟨.test _ _, _, _, _, _, _, _⟩ => r == .test
  | none => false

/-- Nobody waits at an IDLE engine (R24); the engine serves a path exactly while that path's cell is in it (R23); a
test waits or is served exactly while BUSY has cause ENGINE, and not both (R23, R157). -/
def EngineSound (s : State) : Prop :=
  (s.engine.serving = none → ∀ r, s.waits r = false) ∧
    (∀ p, (s.path p).inEngine = s.engine.serves (.path p)) ∧
    (s.port.busy = .engine ↔ (s.engine.testWaiting.isSome || s.engine.serves .test) = true) ∧
    (s.engine.testWaiting.isSome && s.engine.serves .test) = false

/-- Every key half that is LOADED has a life of 1 to 1440 minutes (R34, R35), and there are 16 contexts. -/
def KeysSound (s : State) : Prop :=
  s.keys.length = 16 ∧
    ∀ c ∈ s.keys, ∀ p key life, c.half p = .loaded key life → 1 ≤ life ∧ life ≤ maxLife

/-- A table has its entries, each of the length of its canonical form (R45, R47), and a scan position inside it
(R52). -/
def Table.sound (x : Table) (t : TableId) : Prop :=
  x.live.length = t.size ∧ x.pending.length = t.size ∧ x.written.length = t.size ∧
    (∀ e ∈ x.live, e.length = t.entryBytes) ∧ (∀ e ∈ x.pending, e.length = t.entryBytes) ∧
    (∀ sc, x.scan = some sc → sc.position < t.size)

/-- Both tables are sound. -/
def TablesSound (s : State) : Prop := s.channels.sound .channel ∧ s.offers.sound .offer

/-- Every image that a slot holds or that is being written. -/
def Store.images (st : Store) : List SlotImage :=
  st.slots.filterMap (fun k => match k with | .intact i => some i | .damaged => none)
    ++ (st.write.map (·.image)).toList

/-- The folio total never exceeds the credit limit (R70), the offline spend never the allowance (R71), and the day
spend never a daily cap (R69). -/
def Folio.sound (f : Folio) : Prop :=
  f.total ≤ f.creditLimit ∧ f.offlineSpend ≤ f.allowance ∧ (f.dailyCap ≠ 0 → f.daySpend ≤ f.dailyCap)

/-- The working copy of the folio and every stored folio image are sound. -/
def MoneySound (s : State) : Prop :=
  s.folio.sound ∧ ∀ f next, .folio f next ∈ s.store.images → f.sound

/-- Billed plus waived equals list price plus tax in every record that carries a charge (R69). -/
def Record.balanced (r : Record) : Prop :=
  ∀ c, r.charge = some c → c.billed + c.waived = c.list + c.tax

/-- The charges of the log and of every stored record image balance. -/
def ChargesBalance (s : State) : Prop :=
  (∀ r ∈ s.log, r.balanced) ∧ ∀ r, .record r ∈ s.store.images → r.balanced

/-- The log holds at most 48 records, no two with one sequence number (R83) or one record slot (R132). -/
def LogSound (s : State) : Prop :=
  s.log.length ≤ logCapacity ∧ (s.log.map (·.seq)).Nodup ∧ (s.log.map (·.slot)).Nodup ∧
    ∀ r ∈ s.log, r.slot < logCapacity

/-- A path is PREVIEWING only while a PREVIEW record of the current folio for its title has minutes left (R11), and only
while it has a selection; and a part that does not run yet has no selection (R20). -/
def PreviewSound (s : State) : Prop :=
  (∀ p, (s.path p).admitted = .previewing → s.hasPreview (s.path p).title ∧ (s.path p).selected ≠ none) ∧
    (s.phase ≠ .running → ∀ p, (s.path p).selected = none)

/-- The lock record holds values of its ranges (spec 06, "The lock record"), and is UNLOCKED only while a PIN is set
(R107). -/
def Lock.sound (l : Lock) : Prop :=
  l.legal = true ∧ (l.state = .unlocked → l.pin.isSome = true) ∧
    (l.state = .locked ↔ l.minutes = 0) ∧ l.minutes ≤ 240

/-- The lock record is sound. -/
def LockSound (s : State) : Prop := s.lock.sound

/-- The seconds count and the property minute stay in their ranges (R123, R125). -/
def TimeSound (s : State) : Prop := s.seconds ≤ 59 ∧ s.clock.minute ≤ 1439

/-- The receiver is DEAF exactly while a reply waits or is sent (R147); the watchdog runs exactly while ONLINE, within
its setting of 1 to 60 minutes (R148 to R150); a frame holds at most 126 characters (R143). -/
def LineSound (s : State) : Prop :=
  (s.line.receiver = .deaf ↔ s.line.transmit ≠ .none) ∧ (s.line.online = true ↔ s.line.watchdog ≠ 0) ∧
    s.line.watchdog ≤ 60 ∧ 1 ≤ s.line.setting ∧ s.line.setting ≤ 60 ∧
    (∀ bs tl fe, s.line.receiver = .receiving bs tl fe → bs.length ≤ maxLineFrame)

/-- There are 51 slots (R131); the dirty list names each slot at most once (R133); every event has ended (R134,
R159); and the damaged count is at most 51 (R138). -/
def StoreSound (s : State) : Prop :=
  s.store.slots.length = 51 ∧ s.store.dirty.Nodup ∧ (∀ k ∈ s.store.dirty, k < 51) ∧
    (∀ w, s.store.write = some w → w.slot < 51) ∧ s.settled = true ∧ s.store.damagedCount ≤ 51

end Sys2Proof.Machine
end

