-- ==== Sys2Proof/Certificates/Slice0/Obligations.lean ====
section
/-!
DEFINITION. The statements for the provers, in the order of OBLIGATIONS.json: the machine, the set port, the line
port, cells and engine, time, tables, store and supply, and the invariants.
-/
open Sys2Proof Sys2Proof.Machine

/-! ### The machine -/

/-- One step takes the command at the front of the queue; on an empty queue the part idles (the model's choice, log
1). -/
def Obligations.StepRunsFrontCommand : Prop :=
  ∀ s : State,
    (∀ c rest, s.pending = c :: rest → step s = exec c { s with pending := rest }) ∧
    (s.pending = [] → step s = .next s)

/-- Every command is answered with a next state and leaves the queue alone (the model's reading, log 2). -/
def Obligations.EveryCommandCompletes : Prop :=
  ∀ (c : Instr) (s : State), ∃ t, exec c s = .next t ∧ t.pending = s.pending

/-- The values right after power-on reset that the spec states, the slots as delivered (R131). -/
def Obligations.ResetLeavesStatedValues : Prop :=
  let s := State.reset
  (∀ p : PathId,
    (s.path p).state = .unselected ∧ (s.path p).muteLine = true ∧ (s.path p).fifo = [] ∧
      (s.path p).assembly = none ∧ (s.path p).progress = none ∧ (s.path p).selected = none ∧
      (s.path p).keyAbsent = false ∧ (s.path p).starvation = 0 ∧ (s.path p).title = 0 ∧ (s.path p).answer = .none ∧
      (s.path p).taken = 0 ∧ (s.path p).descrambled = 0 ∧ (s.path p).fills = 0 ∧ (s.path p).misses = 0 ∧
      (s.path p).syncErrors = 0 ∧ (s.path p).overflows = 0) ∧
  s.engine = { serving := none, lastServed := .test, testWaiting := none } ∧
  s.keys = List.replicate 16 { even := .empty, odd := .empty } ∧
  s.channels.live = List.replicate 64 (List.replicate 19 0) ∧ s.offers.live = List.replicate 32 (List.replicate 28 0) ∧
  s.channels.pending = List.replicate 64 (List.replicate 19 0) ∧
  s.offers.pending = List.replicate 32 (List.replicate 28 0) ∧
  s.channels.written = List.replicate 64 false ∧ s.offers.written = List.replicate 32 false ∧
  (∀ t : TableId,
    (s.table t).check = 0 ∧ (s.table t).generation = 0 ∧ (s.table t).bad = false ∧ (s.table t).outcome = .none ∧
      (s.table t).scan = none ∧ (s.table t).diagHeld = false) ∧
  s.seconds = 0 ∧ s.clock = { day := 0, minute := 0, set := false } ∧
  s.store.slots =
    List.replicate 48 (.intact .free) ++
      [.intact (.folio Folio.default 0), .intact (.lock Lock.default), .intact (.config 0)] ∧
  s.store.dirty = [] ∧ s.store.write = none ∧ s.store.damagedCount = 0 ∧
  s.line = { receiver := .waiting, transmit := .none, online := false, watchdog := 0, setting := 10, errors := 0 } ∧
  s.port.slot = none ∧ s.port.ready = false ∧ s.port.busy = .clear ∧ s.port.discards = 0 ∧
  s.status.detail = 0 ∧ s.status.combined = 0 ∧ s.status.detailMask = 0 ∧ s.status.attnMask = 0b111111 ∧
  s.status.attn = false

/-! ### The set port -/

/-- SSEL falls: the presence byte, its eight fields as they stand, and the reply slot are captured (R154). During the
start-up check the port captures but does not drive (R153), and likewise while that check waits for a slot write (the
model's choice, log 14); a frame that begins while RESETN is low is abandoned (the model's choice, log 21), and a part
without supply ignores the pin (the model's choice, log 15); nothing else changes. The frame returns the presence
byte, then the captured reply's code, result and data, then 0x00; nothing where the port does not drive (R153, R154). -/
def Obligations.FrameStartCapturesPresenceAndReply : Prop :=
  (∀ s : State,
     (s.phase = .running ∨ s.phase = .checking ∨ s.phase = .released →
       ∃ c : Capture,
         exec .setFrameStart s = .next { s with port := { s.port with frame := .begun c } } ∧
         c.reply = s.port.slot ∧ c.replaced = false ∧ c.driven = decide (s.phase = .running) ∧
         c.presence.getLsbD 7 = s.status.attn ∧ c.presence.getLsbD 6 = s.port.ready ∧
         c.presence.getLsbD 5 = decide (s.port.busy ≠ .clear) ∧ c.presence.getLsbD 4 = s.line.online ∧
         c.presence.getLsbD 3 = decide (s.folio.state = .opened ∨ s.folio.state = .held) ∧
         c.presence.getLsbD 2 = decide (s.lock.state = .unlocked) ∧
         c.presence.getLsbD 1 = (s.channels.bad || s.offers.bad) ∧
         c.presence.getLsbD 0 = s.store.write.isSome) ∧
     (s.phase = .inReset → exec .setFrameStart s = .next { s with port := { s.port with frame := .abandoned } }) ∧
     (s.phase = .off → exec .setFrameStart s = .next s)) ∧
  (∀ (c : Capture) (n : Nat),
     (c.driven = false → c.byteOut n = none) ∧
     (c.driven = true →
       c.byteOut 0 = some c.presence ∧
       (c.reply = none → 1 ≤ n → c.byteOut n = some 0) ∧
       (∀ r, c.reply = some r →
         c.byteOut 1 = some r.code ∧ c.byteOut 2 = some r.result.code ∧
         (∀ b, r.data[n]? = some b → c.byteOut (3 + n) = some b) ∧
         (3 + r.data.length ≤ n → c.byteOut n = some 0))))

/-- NOP ends its frame, delivers the captured reply if every byte of it was clocked out and the slot still holds that
placement, and changes nothing else (R156). A NOP row with no frame begun is a whole frame that captures and delivers
in one event (the model's choice, log 3). -/
def Obligations.NopDeliversCapturedReply : Prop :=
  ∀ (args : List Byte) (s : State), s.takesCommand →
    (∀ c r, s.port.frame = .begun c → c.reply = some r →
      exec (.nop args) s = .next { s with port := { s.port with
        frame := .idle
        ready := s.port.ready &&
          !(c.driven && !c.replaced && decide (3 + r.data.length ≤ min 48 (1 + args.length))) } }) ∧
    (∀ c, s.port.frame = .begun c → c.reply = none →
      exec (.nop args) s = .next { s with port := { s.port with frame := .idle } }) ∧
    (∀ r, s.port.frame = .idle → s.port.slot = some r →
      exec (.nop args) s = .next { s with port := { s.port with
        ready := s.port.ready && !decide (3 + r.data.length ≤ min 48 (1 + args.length)) } }) ∧
    (s.port.frame = .idle → s.port.slot = none → exec (.nop args) s = .next s)

/-- A frame that ends while BUSY is set is discarded and counted, but for RESET with cause STORE; a frame during which
a reset came, or that ends in a part that does not run, is not taken and not counted (R153, R155, R158, R160). -/
def Obligations.FramesNotTakenChangeNothingElse : Prop :=
  ∀ (c : Instr) (code : Byte) (args : List Byte) (s : State), setPortFrame c = some (code, args) →
    (s.phase = .running → s.port.frame ≠ .abandoned → s.port.busy ≠ .clear →
      ¬(code = 0x7F ∧ ∃ w, s.port.busy = .store w) →
      exec c s = .next { s with port := { s.port with frame := .idle, discards := s.port.discards + 1 } }) ∧
    (s.phase ≠ .running ∨ s.port.frame = .abandoned →
      exec c s = .next { s with port := { s.port with frame := .idle } })

/-- A code that names no command is answered UNKNOWN_COMMAND, a frame with fewer bytes after the command byte than its
command needs is answered BAD_ARG, and neither does anything else (R155, cases 2 and 3). -/
def Obligations.FramesAnsweredWithoutEffect : Prop :=
  (∀ (code : Byte) (args : List Byte) (s : State), s.takesCommand → code ∉ setCodes →
     exec (.unknownCommand code args) s = .next (s.replied code .unknownCommand [])) ∧
  (∀ (c : Instr) (code : Byte) (n : Nat) (args : List Byte) (s : State), s.takesCommand →
     setPortFrame c = some (code, args) →
     (code, n) ∈ [((0x02 : Byte), 5), (0x03, 5), (0x10, 2), (0x11, 1), (0x12, 24), (0x18, 1), (0x19, 1), (0x1A, 1),
       (0x20, 1), (0x22, 1), (0x30, 4), (0x31, 8), (0x32, 5), (0x40, 2)] →
     args.length < n → exec c s = .next (s.replied code .badArg []))

/-- READ_TIME answers OK with the day, the minute and the mark, and changes nothing (R129). -/
def Obligations.ReadTimeReportsClock : Prop :=
  ∀ (args : List Byte) (s : State), s.takesCommand →
    exec (.readTime args) s =
      .next (s.replied 0x41 .ok (be 2 s.clock.day.toNat ++ be 2 s.clock.minute ++ [if s.clock.set then 1 else 0]))

/-- READ_STATUS answers OK with flags, masks and the discard count; READ_FOLIO answers OK with the folio record, the
credit remaining, the cap remaining while there is a cap, and the presence state. Neither changes anything. -/
def Obligations.ReadStatusAndReadFolioReport : Prop :=
  ∀ (args : List Byte) (s : State), s.takesCommand →
    exec (.readStatus args) s =
      .next (s.replied 0x01 .ok
        (be 4 s.status.detail.toNat ++ be 1 s.status.combined.toNat ++ be 4 s.status.detailMask.toNat ++
          be 1 s.status.attnMask.toNat ++ be 4 s.port.discards.toNat)) ∧
    exec (.readFolio args) s =
      .next (s.replied 0x21 .ok
        (be 4 s.folio.number.toNat ++ [s.folio.state.code] ++ be 4 s.folio.creditLimit ++ be 4 s.folio.dailyCap ++
          be 2 s.folio.taxRate ++ be 4 s.folio.allowance ++ [s.folio.policy.code, s.folio.packages] ++
          be 4 s.folio.total ++ be 4 s.folio.daySpend ++ be 4 s.folio.offlineSpend ++
          be 4 (s.folio.creditLimit - s.folio.total) ++
          be 4 (if s.folio.dailyCap = 0 then 0 else s.folio.dailyCap - s.folio.daySpend) ++
          [if s.folio.capMark then 1 else 0, if s.line.online then 1 else 0]))

/-- READ_PATH answers OK with the path's state, its counters and counts, or BAD_ARG for a path argument that names
neither path, and changes nothing (R19; that the index byte is 0xFF where the selection is NONE is the model's
reading, log 36, and so is that the answer is 0 while the entry is not TITLE, log 37). The state is the one that
reasons 1 to 4 left, MUTED with KEY_ABSENT in place of DESCRAMBLING and PREVIEWING under the key-absent mark (R8, R10,
R11; the model's reading, log 8); the MUTE line is asserted exactly in UNSELECTED and MUTED (R12). -/
def Obligations.ReadPathReports : Prop :=
  (∀ (args : List Byte) (s : State), s.takesCommand → 1 ≤ args.length →
     (∀ p, (byteAt args 0 = 0 ∧ p = PathId.a ∨ byteAt args 0 = 1 ∧ p = PathId.b) →
       let x := s.path p
       exec (.readPath args) s =
         .next (s.replied 0x11 .ok
           (be 1 (match x.selected with | some i => i | none => 0xFF) ++ [x.state.code, x.state.reasonCode] ++
             be 2 (match x.selected with
               | none => 4095
               | some i => if (s.channelAt i).cls = .empty then 4095 else (s.channelAt i).tag) ++
             be 4 (if s.onTitle p then x.title.toNat else 0) ++ [if s.onTitle p then x.answer.code else 0] ++
             be 1 x.fifo.length ++
             be 1 ((if 2 ≤ x.fifo.length then 1 else 0) + (if x.progress.isSome then 2 else 0) +
               (if s.waits (.path p) then 4 else 0) + (if x.keyAbsent then 8 else 0)) ++
             be 1 x.starvation ++ be 4 x.taken.toNat ++ be 4 x.descrambled.toNat ++ be 4 x.fills.toNat ++
             be 4 x.misses.toNat ++ be 4 x.syncErrors.toNat ++ be 4 x.overflows.toNat))) ∧
     (2 ≤ byteAt args 0 → exec (.readPath args) s = .next (s.replied 0x11 .badArg []))) ∧
  (∀ x : Path,
     (x.keyAbsent = true → (x.admitted = .descrambling ∨ x.admitted = .previewing) → x.state = .muted .keyAbsent) ∧
     (x.keyAbsent = false ∨ (x.admitted ≠ .descrambling ∧ x.admitted ≠ .previewing) → x.state = x.admitted) ∧
     (x.muteLine = true ↔ x.state = .unselected ∨ ∃ reason, x.state = .muted reason))

/-- READ_CHANNEL and READ_OFFER answer one live entry with the three table fields, or BAD_ARG above the table, and
change nothing (R57, R58): a class code that is none of the five is reported EMPTY, an empty offer as zero bytes, and
the price, preview and window as they would be taken (R44). TABLE_TEST makes the named table's diagnostic request
held, or is refused with BAD_ARG (R55). -/
def Obligations.TableReadsAndTest : Prop :=
  (∀ (args : List Byte) (s : State), s.takesCommand → 1 ≤ args.length →
     (byteAt args 0 ≤ 63 →
       exec (.readChannel args) s =
         .next (s.replied 0x18 .ok
           (be 1 (byteAt args 0) ++
             (let e := s.channels.live.getD (byteAt args 0) []
              (if byteAt e 0 ≤ 4 then BitVec.ofNat 8 (byteAt e 0) else 0) :: e.drop 1) ++
             [s.channels.generation, if s.channels.bad then 1 else 0, s.channels.outcome.code]))) ∧
     (63 < byteAt args 0 → exec (.readChannel args) s = .next (s.replied 0x18 .badArg [])) ∧
     (byteAt args 0 ≤ 31 →
       exec (.readOffer args) s =
         .next (s.replied 0x19 .ok
           (be 1 (byteAt args 0) ++
             (let e := s.offers.live.getD (byteAt args 0) []
              if byteAt e 0 = 1 ∧ natAt e 1 4 ≠ 0 then
                [1] ++ be 4 (natAt e 1 4) ++ be 1 (byteAt e 5) ++ be 4 (min (natAt e 6 4) 99999) ++
                  be 1 (min (byteAt e 10) 15) ++ be 1 (max 1 (min (byteAt e 11) 48)) ++ (e.drop 12).take 16
              else List.replicate 28 0) ++
             [s.offers.generation, if s.offers.bad then 1 else 0, s.offers.outcome.code]))) ∧
     (31 < byteAt args 0 → exec (.readOffer args) s = .next (s.replied 0x19 .badArg []))) ∧
  (∀ (args : List Byte) (s : State), s.takesCommand → 1 ≤ args.length →
     (byteAt args 0 = 0 →
       exec (.tableTest args) s =
         .next ({ s with channels := { s.channels with diagHeld := true } }.replied 0x1A .ok [])) ∧
     (byteAt args 0 = 1 →
       exec (.tableTest args) s =
         .next ({ s with offers := { s.offers with diagHeld := true } }.replied 0x1A .ok [])) ∧
     (2 ≤ byteAt args 0 → exec (.tableTest args) s = .next (s.replied 0x1A .badArg [])))

/-- READ_RECORD answers the record at a position of the log, NOT_FOUND with the record count past its end, or BAD_ARG
above 47, and changes nothing (R103). -/
def Obligations.ReadRecordReports : Prop :=
  ∀ (args : List Byte) (s : State), s.takesCommand → 1 ≤ args.length →
    (47 < byteAt args 0 → exec (.readRecord args) s = .next (s.replied 0x22 .badArg [])) ∧
    (byteAt args 0 ≤ 47 → s.log.length ≤ byteAt args 0 →
      exec (.readRecord args) s = .next (s.replied 0x22 .notFound (be 1 s.log.length))) ∧
    (∀ r, byteAt args 0 ≤ 47 → s.log[byteAt args 0]? = some r →
      ∃ day minute list tax billed waived,
        (∀ c, r.charge = some c →
          day = c.day.toNat ∧ minute = c.minute ∧ list = c.list ∧ tax = c.tax ∧ billed = c.billed ∧
            waived = c.waived) ∧
        (r.charge = none → day = 0 ∧ minute = 0 ∧ list = 0 ∧ tax = 0 ∧ billed = 0 ∧ waived = 0) ∧
        exec (.readRecord args) s =
          .next (s.replied 0x22 .ok
            (be 1 s.log.length ++ be 2 s.nextSeq.toNat ++
              (be 2 r.seq.toNat ++ be 4 r.folio.toNat ++ be 4 r.title.toNat ++ [r.origin.code] ++ be 1 r.rating ++
                be 1 r.limit ++ be 1 r.used ++ [r.state.code] ++ be 3 list ++ be 2 tax ++ be 3 billed ++
                be 3 waived ++ be 2 day ++ be 2 minute ++
                be 2 (match r.state with | .bought w => w | _ => 0) ++
                [match r.state with | .declined code => code.code | _ => 0] ++
                be 1 ((if r.collected then 1 else 0) + (if r.released then 2 else 0))))))

/-- CLEAR_FLAGS clears the named detail flags and, with CAP_REACHED, the folio's mark (R74, R162); a named combined
flag is cleared unless its group then holds a set, unmasked detail flag. -/
def Obligations.ClearFlagsClears : Prop :=
  ∀ (args : List Byte) (s : State), s.takesCommand → s.settled = true → 5 ≤ args.length →
    ∃ t refused,
      exec (.clearFlags args) s = .next t ∧
      t.status.detail = s.status.detail &&& ~~~(BitVec.ofNat 20 (natAt args 0 4)) ∧
      t.status.detailMask = s.status.detailMask ∧ t.status.attnMask = s.status.attnMask ∧
      (∀ g : Group,
        (t.status.combined &&& g.mark =
          if BitVec.ofNat 6 (byteAt args 4) &&& g.mark ≠ 0 ∧
              t.status.detail &&& ~~~s.status.detailMask &&& g.details = 0 then 0
          else s.status.combined &&& g.mark) ∧
        (refused &&& g.mark =
          if BitVec.ofNat 6 (byteAt args 4) &&& g.mark ≠ 0 ∧
              t.status.detail &&& ~~~s.status.detailMask &&& g.details ≠ 0 then s.status.combined &&& g.mark
          else 0)) ∧
      t.folio = (if (BitVec.ofNat 20 (natAt args 0 4)).getLsbD 16 then { s.folio with capMark := false } else s.folio) ∧
      (t.folio ≠ s.folio → t.listed folioSlot) ∧ (t.folio = s.folio → t.store = s.store) ∧
      t.port = (s.replied 0x02 .ok (be 1 t.status.combined.toNat ++ be 1 (refused : BitVec 6).toNat)).port ∧
      { t with status := s.status, folio := s.folio, store := s.store, port := s.port } = s

/-- SET_MASKS replaces both masks, sets the combined flag of each group that now holds a set, unmasked detail flag,
and clears none (R163; positions that name no flag are not held, the model's reading, log 19). A report sets its
detail flag, sets its group's combined flag unless the detail flag's mask is set, and changes no other flag and no
mask (R161); the flags stand at the bits and in the groups of the flag table (11). -/
def Obligations.SetMasksReplacesMasks : Prop :=
  (∀ (args : List Byte) (s : State), s.takesCommand → 5 ≤ args.length →
     ∃ combined : BitVec 6,
       exec (.setMasks args) s =
         .next { s.replied 0x03 .ok
             (be 4 (BitVec.ofNat 20 (natAt args 0 4)).toNat ++ be 1 (BitVec.ofNat 6 (byteAt args 4)).toNat) with
           status := { s.status with
             detailMask := BitVec.ofNat 20 (natAt args 0 4), attnMask := BitVec.ofNat 6 (byteAt args 4)
             combined := combined } } ∧
       ({ s.status with attnMask := BitVec.ofNat 6 (byteAt args 4), combined := combined }.attn = true ↔
         combined &&& BitVec.ofNat 6 (byteAt args 4) ≠ 0) ∧
       ∀ g : Group,
         combined &&& g.mark =
           if s.status.detail &&& ~~~(BitVec.ofNat 20 (natAt args 0 4)) &&& g.details ≠ 0 then g.mark
           else s.status.combined &&& g.mark) ∧
  (∀ (f : DetailFlag) (st : Status),
     (st.report f).detail = st.detail ||| f.mark ∧ (∀ k, f.mark.getLsbD k = decide (k = f.bit)) ∧
     (st.report f).detailMask = st.detailMask ∧ (st.report f).attnMask = st.attnMask ∧
     ∀ g : Group,
       (st.report f).combined &&& g.mark =
         if f.group = g ∧ st.detailMask.getLsbD f.bit = false then g.mark else st.combined &&& g.mark) ∧
  ([DetailFlag.lineLost, .lineBack, .channelMismatch, .offerMismatch, .commitRejected, .diagMismatch, .keyStarvedA,
      .keyStarvedB, .overflowA, .overflowB, .damagedSlot, .folioSlotLost, .lockoutStarted, .unlockExpired, .charged,
      .windowEnded, .capReached, .logNearFull, .checkedIn, .checkedOut].map (fun f => (f.bit, f.group)) =
    [(0, .line), (1, .line), (2, .table), (3, .table), (4, .table), (5, .table), (6, .path), (7, .path), (8, .path),
      (9, .path), (10, .store), (11, .store), (12, .lock), (13, .lock), (14, .bill), (15, .bill), (16, .bill),
      (17, .bill), (18, .bill), (19, .bill)]) ∧
  ([Group.line, .table, .path, .store, .lock, .bill].map Group.mark = [1, 2, 4, 8, 16, 32]) ∧
  (∀ (f : DetailFlag) (g : Group), g.details.getLsbD f.bit = decide (f.group = g))

/-- SELECT, where no preview starts. NONE makes the path UNSELECTED; a path argument or index that names none is
refused with BAD_ARG and changes nothing; a channel index is taken, the path's mark, counter, title and answer are
cleared, and it judges by the reasons of R8 in order, asking the log only at a TITLE entry that reaches reason 4 (R4,
R8, R9, R85). A cell that waits for the engine is marked as having seen a SELECT; a cell being served or leaving, the
FIFO, the cell counts and the other path stand (R6, R14). -/
def Obligations.SelectWithoutNewPreview : Prop :=
  (∀ (args : List Byte) (s : State), s.takesCommand → 2 ≤ args.length →
     (∀ p, (byteAt args 0 = 0 ∧ p = PathId.a ∨ byteAt args 0 = 1 ∧ p = PathId.b) → byteAt args 1 = 255 →
       ∃ t, exec (.select args) s = .next t ∧ (t.path p).state = .unselected ∧
         t = (s.setPath p
           { s.path p with
             selected := none, admitted := .unselected, starvation := 0, keyAbsent := false, title := 0
             answer := .none
             progress := match (s.path p).progress with
               | some ⟨c, .waiting _⟩ => some ⟨c, .waiting true⟩
               | other => other }).replied 0x10 .ok []) ∧
     (2 ≤ byteAt args 0 ∨ 63 < byteAt args 1 ∧ byteAt args 1 ≠ 255 →
       exec (.select args) s = .next (s.replied 0x10 .badArg []))) ∧
  (∀ (args : List Byte) (s : State) (p : PathId) (i : Nat),
     s.takesCommand → s.settled = true → 2 ≤ args.length →
     (byteAt args 0 = 0 ∧ p = .a ∨ byteAt args 0 = 1 ∧ p = .b) → byteAt args 1 = i → i ≤ 63 →
     let chosen := fun (state : PathState) (title : Word) (answer : Answer) =>
       (s.setPath p
         { s.path p with
           selected := some i, admitted := state, starvation := 0, keyAbsent := false, title := title
           answer := answer
           progress := match (s.path p).progress with
             | some ⟨c, .waiting _⟩ => some ⟨c, .waiting true⟩
             | other => other }).replied 0x10 .ok []
     let index := (s.channelAt i).offer
     let title := (s.offerAt index).title
     (¬s.asksLog i → exec (.select args) s = .next (chosen (s.judgedState i .none) 0 .none)) ∧
     (s.asksLog i → s.hasBought title → exec (.select args) s = .next (chosen .descrambling title .bought)) ∧
     (s.asksLog i → ¬s.hasBought title → s.hasPreview title →
       exec (.select args) s = .next (chosen .previewing title .preview)) ∧
     (s.asksLog i → ¬s.hasBought title → ¬s.hasPreview title → ¬s.startsPreview title index →
       exec (.select args) s = .next (chosen (.muted .notEntitled) title .none)))

/-- A judging that starts a preview, here by a SELECT: a PREVIEW record of the current folio joins the tail of the log
with the next free sequence number, the offer's rating and its clamped preview limit; the title joins the set; the
path is PREVIEWING; the folio slot and the record's slot are listed; LOG_NEAR_FULL is set at 40 records (R83, R86). -/
def Obligations.SelectStartsPreview : Prop :=
  ∀ (args : List Byte) (s : State) (p : PathId) (i : Nat),
    s.takesCommand → s.settled = true → LogSound s → PreviewSound s → 2 ≤ args.length →
    (byteAt args 0 = 0 ∧ p = .a ∨ byteAt args 0 = 1 ∧ p = .b) → byteAt args 1 = i → i ≤ 63 →
    s.asksLog i → s.startsPreview (s.offerAt (s.channelAt i).offer).title (s.channelAt i).offer →
    let o := s.offerAt (s.channelAt i).offer
    ∃ t r,
      exec (.select args) s = .next t ∧ t.log = s.log ++ [r] ∧
      r.folio = s.folio.number ∧ r.title = o.title ∧ r.origin = .preview ∧ r.rating = o.rating ∧
      r.limit = min o.preview 15 ∧ r.used = 0 ∧ r.state = .preview ∧ r.charge = none ∧ r.collected = false ∧
      r.released = false ∧ s.firstUnused r.seq ∧ (∀ x ∈ s.log, x.slot ≠ r.slot) ∧ r.slot < 48 ∧ t.nextSeq = r.seq + 1 ∧
      t.previewed = s.previewed ++ [o.title] ∧ t.listed folioSlot ∧ t.listed r.slot ∧
      (40 ≤ t.log.length → t.status.detail.getLsbD 17 = true) ∧
      (t.path p).state = .previewing ∧ (t.path p).title = o.title ∧ (t.path p).answer = .preview ∧
      (t.path p).selected = some i ∧ (t.path p).fifo = (s.path p).fifo ∧
      (t.path p).progress = (match (s.path p).progress with
        | some ⟨c, .waiting _⟩ => some ⟨c, .waiting true⟩
        | other => other) ∧
      t.port = (s.replied 0x10 .ok []).port ∧
      { t.withAdmissionOf s with port := s.port } = s

/-- The seed: A0 = (S × 65536 + 4096 × C + T) mod 2^40, the tag in its lowest twelve bits, the count in the next four,
the stamp's low 24 bits above them, so that two stamps differing only in their top 8 bits give one seed (R29). -/
def Obligations.SeedFromStampCountAndTag : Prop :=
  ∀ (stamp : Word) (count tag : Nat), count ≤ 15 → tag ≤ 4095 →
    (seed stamp count tag).toNat = (stamp.toNat * 65536 + 4096 * count + tag) % 2 ^ 40 ∧
    (seed stamp count tag).toNat % 4096 = tag ∧ (seed stamp count tag).toNat / 4096 % 16 = count ∧
    (seed stamp count tag).toNat / 65536 = stamp.toNat % 2 ^ 24 ∧
    ∀ other : Word, other.toNat % 2 ^ 24 = stamp.toNat % 2 ^ 24 → seed other count tag = seed stamp count tag

/-- The accumulator's two steps for a word and the five steps that recover it, in whole numbers (R30, R31). A grant's
fifteen words are recovered in order, word i from the accumulator after i + 1 steps from the seed (R27, R30); a test's
word from the accumulator moved through its index (R33). -/
def Obligations.KeystreamRecoversWord : Prop :=
  (∀ (key : BitVec 64) (i : Nat) (a : BitVec 40) (b0 b1 b2 b3 b4 b5 b6 b7 : Byte), i ≤ 14 →
     let k := fun n : Nat => key.toNat / 65536 ^ (3 - n % 4) % 65536
     let m := (a.toNat % 65536) ^^^ k i
     let r := fun n : Nat =>
       match n % 4 with
       | 0 => b0.toNat + 256 * b1.toNat
       | 1 => b2.toNat + 256 * b3.toNat
       | 2 => b4.toNat + 256 * b5.toNat
       | _ => b6.toNat + 256 * b7.toNat
     let a' := accStep key i a
     let p := fun j : Nat => r (j + (i + k 3) % 4) ^^^ (a'.toNat / 256 ^ j % 65536)
     a'.toNat = (a.toNat + m * k (i + 1) + 1) % 2 ^ 40 ∧
     plainWord key i a' [b0, b1, b2, b3, b4, b5, b6, b7] =
       [BitVec.ofNat 8 (p 0), BitVec.ofNat 8 (p 0 / 256), BitVec.ofNat 8 (p 1), BitVec.ofNat 8 (p 1 / 256),
         BitVec.ofNat 8 (p 2), BitVec.ofNat 8 (p 2 / 256), BitVec.ofNat 8 (p 3), BitVec.ofNat 8 (p 3 / 256)]) ∧
  (∀ (sv : Service) (payload word : List Byte), sv.position = 0 → payload.length = 120 →
     let acc := fun i : Nat => (List.range (i + 1)).foldl (fun a n => accStep sv.key n a) sv.acc
     (sv.plainPayload payload).length = 120 ∧
     (∀ i, i < 15 →
       ((sv.plainPayload payload).drop (8 * i)).take 8 = plainWord sv.key i (acc i) ((payload.drop (8 * i)).take 8)) ∧
     (∀ index, index ≤ 14 → sv.plainTest index word = plainWord sv.key index (acc index) word))

/-- ENGINE_TEST: arguments out of range are refused with BAD_ARG; otherwise the reply becomes PENDING, BUSY is set
with cause ENGINE, and the test is granted at once at an IDLE engine, else it waits (R23, R24, R32, R33). That the
PENDING reply carries no data is the model's reading (log 18). -/
def Obligations.EngineTestIsPosted : Prop :=
  ∀ (args : List Byte) (s : State), s.takesCommand → EngineSound s → 24 ≤ args.length →
    let key := BitVec.ofNat 64 (natAt args 0 8)
    let tag := natAt args 8 2
    let count := byteAt args 10
    let stamp := BitVec.ofNat 32 (natAt args 11 4)
    let index := byteAt args 15
    let word := (args.drop 16).take 8
    (4094 < tag ∨ 15 < count ∨ 14 < index → exec (.engineTest args) s = .next (s.replied 0x12 .badArg [])) ∧
    (tag ≤ 4094 → count ≤ 15 → index ≤ 14 →
      let t := s.replied 0x12 .pending []
      (s.engine.serving = none →
        exec (.engineTest args) s = .next { t with
          port := { t.port with busy := .engine }
          engine :=
            { serving := some
                { work := .test index word, key := key, acc := seed stamp count tag, position := 0, tag := tag
                  count := count, stamp := stamp }
              lastServed := .test, testWaiting := none } }) ∧
      (s.engine.serving ≠ none →
        exec (.engineTest args) s = .next { t with
          port := { t.port with busy := .engine }
          engine := { s.engine with
            testWaiting := some
              { key := key, tag := tag, count := count, stamp := stamp, index := index, word := word } } }))

/-- An ORDER that fails a check of R93 is answered with the first one's code and changes nothing else. -/
def Obligations.OrderRefusedByFirstFailingCheck : Prop :=
  ∀ (args : List Byte) (s : State) (code : ResultCode), s.takesCommand → 1 ≤ args.length →
    s.orderRefusal (byteAt args 0) = some code →
    exec (.order args) s = .next (s.replied 0x20 code [])

/-- An accepted ORDER: the charge is granted and moves the folio; the title's PREVIEW record is converted in its
place, or a new record of origin ORDER joins the tail of the log with the first sequence number not in use, which the
next sequence number then passes; it is BOUGHT with the charge and a window of the offer's hours; every path that may
show the title is DESCRAMBLING; each path showing it judges, and where a preview ended so does one PREVIEWING a title
that its entry no longer carries (R88; the latter by R11 and log 9, the model's reading); the reply is PENDING and
BUSY waits for the record's slot; CHARGED is not set, and LOG_NEAR_FULL is where a new record leaves 40 or more (R72,
R83, R93 to R95, R98). A new record starts no preview, and a path that does not show its title stands (R85, R88). That
the PENDING reply carries no data is the model's reading (log 18). -/
def Obligations.OrderAccepted : Prop :=
  ∀ (args : List Byte) (s : State), s.takesCommand → s.settled = true → LogSound s → 1 ≤ args.length →
    s.orderRefusal (byteAt args 0) = none →
    let o := s.offerAt (byteAt args 0)
    let window := 60 * max 1 (min o.window 48)
    ∃ t r,
      exec (.order args) s = .next t ∧ r ∈ t.log ∧ r.title = o.title ∧ r.folio = s.folio.number ∧
      r.state = .bought window ∧ r.charge = some (s.chargeFor o) ∧
      (s.previewOf o.title →
        ∃ r0 ∈ s.log, r0.state = .preview ∧ r = { r0 with state := r.state, charge := r.charge } ∧
          s.log.map (fun x => if x.seq = r.seq then r else x) <+: t.log ∧
            ∀ q, s.showsOrPreviews q o.title → t.pathJudged q) ∧
      (¬s.previewOf o.title →
        r.origin = .order ∧ r.used = 0 ∧ r.rating = o.rating ∧ r.limit = min o.preview 15 ∧ r.collected = false ∧
          r.released = false ∧ s.firstUnused r.seq ∧ (∀ x ∈ s.log, x.slot ≠ r.slot) ∧ r.slot < 48 ∧ t.listed folioSlot ∧
          (40 ≤ s.log.length + 1 → t.status.detail.getLsbD 17 = true) ∧
          t.log = s.log ++ [r] ∧ t.nextSeq = r.seq + 1 ∧
          ∀ q, (s.showsTitle q o.title → t.pathJudged q) ∧ (¬s.showsTitle q o.title → t.path q = s.path q)) ∧
      (∀ x ∈ s.log, x.seq ≠ r.seq → x ∈ t.log) ∧
      t.folio = s.folioAfter o ∧ (t.folio ≠ s.folio → t.listed folioSlot) ∧ t.listed r.slot ∧
      t.port = { (s.replied 0x20 .pending []).port with
        busy := .store (.order r.seq r.slot (s.chargeFor o).billed (s.chargeFor o).waived window) } ∧
      t.status.detail.getLsbD 14 = s.status.detail.getLsbD 14 ∧
      (0 < (s.chargeFor o).waived → t.status.detail.getLsbD 16 = true) ∧
      (∀ p i, (s.path p).selected = some i → s.asksLog i → (s.offerAt (s.channelAt i).offer).title = o.title →
        (t.path p).admitted = .descrambling) ∧
      { t.withAdmissionOf s with folio := s.folio, port := s.port } = s

/-- ENTER_PIN: the tests of R108 in order, NO_PIN without a PIN, the right PIN unlocks for U minutes and clears the
counts, any other is a wrong attempt (R108 to R110). RELOCK ends an unlock and lists the lock slot; in LOCKED and
LOCKOUT it only reports; in CLOSED it is refused (R114). Both paths judge where the effective ceiling changes, and
neither where it does not (R107). Every reply carries the lock report, eight bytes, as the record then stands (11). -/
def Obligations.EnterPinAndRelock : Prop :=
  (∀ (args : List Byte) (s : State), s.takesCommand → s.settled = true → 4 ≤ args.length →
     let refused := fun code => exec (.enterPin args) s = .next (s.replied 0x30 code (lockReport s.lock))
     let moved := fun (l : Lock) (code : ResultCode) =>
       ∃ t, exec (.enterPin args) s = .next t ∧ t.lock = l ∧ t.port = (s.replied 0x30 code (lockReport l)).port ∧
         (l.stored ≠ s.lock.stored → t.listed lockSlot) ∧
         (code = .badPin → s.lock.wrong = 2 → t.status.detail.getLsbD 12 = true) ∧
         (l.ceiling ≠ s.lock.ceiling → t.judgedAfresh) ∧
         (l.ceiling = s.lock.ceiling → t.pathA = s.pathA ∧ t.pathB = s.pathB ∧ t.log = s.log) ∧
         { t.withAdmissionOf s with lock := s.lock, port := s.port } = s
     (s.folio.state = .closed → refused .folioClosed) ∧
     (s.folio.state ≠ .closed → (pinArg args 0 = .none ∨ pinArg args 0 = .outOfForm) → refused .badArg) ∧
     (∀ entered, s.folio.state ≠ .closed → pinArg args 0 = .digits entered →
       (s.lock.state = .lockout → refused .lockout) ∧
       (s.lock.state ≠ .lockout →
         (s.lock.pin = none → refused .noPin) ∧
         (s.lock.pin = some entered →
           moved { s.lock with
             state := .unlocked, minutes := s.lock.unlockMinutes, wrong := 0, lockouts := 0, length := 0 } .ok) ∧
         (∀ pin, s.lock.pin = some pin → pin ≠ entered → s.lock.wrong ≤ 2 → moved s.lock.afterWrong .badPin)))) ∧
  (∀ (args : List Byte) (s : State), s.takesCommand → s.settled = true →
     let report := fun l : Lock =>
       [match l.state with | .locked => (0 : Byte) | .unlocked => 1 | .lockout => 2] ++ be 1 l.minutes ++
         be 1 (3 - l.wrong) ++ [if l.pin = none then 0 else 1] ++ be 1 l.hard ++ be 1 l.guest ++
         be 1 (if l.state = .unlocked then l.hard else min l.guest l.hard) ++ be 1 l.lockouts
     (s.folio.state = .closed → exec (.relock args) s = .next (s.replied 0x33 .folioClosed (report s.lock))) ∧
     (s.folio.state ≠ .closed → s.lock.state ≠ .unlocked →
       exec (.relock args) s = .next (s.replied 0x33 .ok (report s.lock))) ∧
     (s.folio.state ≠ .closed → s.lock.state = .unlocked →
       let l := { s.lock with state := .locked, minutes := 0 }
       ∃ t, exec (.relock args) s = .next t ∧ t.lock = l ∧ t.listed lockSlot ∧
         t.port = (s.replied 0x33 .ok (report l)).port ∧
         (s.lock.guest < s.lock.hard → t.judgedAfresh) ∧
         (s.lock.hard ≤ s.lock.guest → t.pathA = s.pathA ∧ t.pathB = s.pathB ∧ t.log = s.log) ∧
         t.status.detail.getLsbD 13 = s.status.detail.getLsbD 13 ∧
         { t.withAdmissionOf s with lock := s.lock, port := s.port } = s))

/-- SET_PIN and SET_CEILING: refused by the tests of R108; without a PIN, or with the PIN given, the new argument
becomes the PIN, a removed one ending an unlock (R111), or the level, above 7 taken as 7, becomes the guest ceiling
(R112); anything else is a wrong attempt, the third of which sets LOCKOUT_STARTED (R110). Both paths judge where the
effective ceiling changes, and neither where it does not (R107). An accepted one lists the lock slot and is in flight
with cause STORE, its PENDING reply carrying the lock report (R113; the report is the model's reading, log 18). -/
def Obligations.SetPinAndSetCeiling : Prop :=
  (∀ (args : List Byte) (s : State), s.takesCommand → s.settled = true → 8 ≤ args.length →
     let refused := fun code => exec (.setPin args) s = .next (s.replied 0x31 code (lockReport s.lock))
     let outOfForm := pinArg args 0 = .outOfForm ∨ pinArg args 4 = .outOfForm
     let judged := fun (l : Lock) (t : State) =>
       (l.ceiling ≠ s.lock.ceiling → t.judgedAfresh) ∧
         (l.ceiling = s.lock.ceiling → t.pathA = s.pathA ∧ t.pathB = s.pathB ∧ t.log = s.log)
     let accepted := fun (l : Lock) =>
       ∃ t, exec (.setPin args) s = .next t ∧ t.lock = l ∧ t.listed lockSlot ∧ judged l t ∧
         t.port = { (s.replied 0x31 .pending (lockReport l)).port with busy := .store .setPin } ∧
         { t.withAdmissionOf s with lock := s.lock, port := s.port } = s
     let newPin := (pinArg args 4).pin
     let changed := fun (l : Lock) =>
       if newPin = none ∧ l.state = .unlocked then { l with pin := none, state := .locked, minutes := 0 }
       else { l with pin := newPin }
     (s.folio.state = .closed → refused .folioClosed) ∧
     (s.folio.state ≠ .closed → outOfForm → refused .badArg) ∧
     (s.folio.state ≠ .closed → ¬outOfForm → s.lock.state = .lockout → refused .lockout) ∧
     (s.folio.state ≠ .closed → ¬outOfForm → s.lock.state ≠ .lockout →
       (s.lock.pin = none → accepted (changed s.lock)) ∧
       (∀ pin, s.lock.pin = some pin → pinArg args 0 = .digits pin → accepted (changed { s.lock with wrong := 0 })) ∧
       (∀ pin, s.lock.pin = some pin → pinArg args 0 ≠ .digits pin → s.lock.wrong ≤ 2 →
         ∃ t, exec (.setPin args) s = .next t ∧ t.lock = s.lock.afterWrong ∧ t.listed lockSlot ∧
           judged s.lock.afterWrong t ∧ (s.lock.wrong = 2 → t.status.detail.getLsbD 12 = true) ∧
           t.port = (s.replied 0x31 .badPin (lockReport s.lock.afterWrong)).port ∧
           { t.withAdmissionOf s with lock := s.lock, port := s.port } = s))) ∧
  (∀ (args : List Byte) (s : State), s.takesCommand → s.settled = true → 5 ≤ args.length →
     let refused := fun code => exec (.setCeiling args) s = .next (s.replied 0x32 code (lockReport s.lock))
     let judged := fun (l : Lock) (t : State) =>
       (l.ceiling ≠ s.lock.ceiling → t.judgedAfresh) ∧
         (l.ceiling = s.lock.ceiling → t.pathA = s.pathA ∧ t.pathB = s.pathB ∧ t.log = s.log)
     let accepted := fun (l : Lock) =>
       ∃ t, exec (.setCeiling args) s = .next t ∧ t.lock = l ∧ t.listed lockSlot ∧ judged l t ∧
         t.port = { (s.replied 0x32 .pending (lockReport l)).port with busy := .store .setCeiling } ∧
         { t.withAdmissionOf s with lock := s.lock, port := s.port } = s
     let level := min (byteAt args 0) 7
     (s.folio.state = .closed → refused .folioClosed) ∧
     (s.folio.state ≠ .closed → pinArg args 1 = .outOfForm → refused .badArg) ∧
     (s.folio.state ≠ .closed → pinArg args 1 ≠ .outOfForm → s.lock.state = .lockout → refused .lockout) ∧
     (s.folio.state ≠ .closed → pinArg args 1 ≠ .outOfForm → s.lock.state ≠ .lockout →
       (s.lock.pin = none → accepted { s.lock with guest := level }) ∧
       (∀ pin, s.lock.pin = some pin → pinArg args 1 = .digits pin →
         accepted { s.lock with guest := level, wrong := 0 }) ∧
       (∀ pin, s.lock.pin = some pin → pinArg args 1 ≠ .digits pin → s.lock.wrong ≤ 2 →
         ∃ t, exec (.setCeiling args) s = .next t ∧ t.lock = s.lock.afterWrong ∧ t.listed lockSlot ∧
           judged s.lock.afterWrong t ∧ (s.lock.wrong = 2 → t.status.detail.getLsbD 12 = true) ∧
           t.port = (s.replied 0x32 .badPin (lockReport s.lock.afterWrong)).port ∧
           { t.withAdmissionOf s with lock := s.lock, port := s.port } = s)))

/-- SET_ROOM: the broadcast address is refused with BAD_ARG, an open folio refuses with FOLIO_OPEN; otherwise the
address is taken, the configuration slot listed, and the command is in flight with cause STORE (R141). That its
PENDING reply carries no data is the model's reading (log 18). -/
def Obligations.SetRoomTakesAddress : Prop :=
  ∀ (args : List Byte) (s : State), s.takesCommand → s.settled = true → 2 ≤ args.length →
    let address : Half := BitVec.ofNat 16 (natAt args 0 2)
    (address = 0xFFFF → exec (.setRoom args) s = .next (s.replied 0x40 .badArg [])) ∧
    (address ≠ 0xFFFF → s.folio.state ≠ .closed → exec (.setRoom args) s = .next (s.replied 0x40 .folioOpen [])) ∧
    (address ≠ 0xFFFF → s.folio.state = .closed →
      ∃ t, exec (.setRoom args) s = .next t ∧ t.room = address ∧ t.listed configSlot ∧
        t.port = { (s.replied 0x40 .pending []).port with busy := .store .setRoom } ∧
        { t with room := s.room, store := s.store, port := s.port } = s)

/-- What the RESET command does when it takes effect (R21, R122, R159): every path UNSELECTED, its queue empty, its
mark, counter, title and answer cleared, a granted cell left in the engine to be dropped, its counts kept; an unlock
ended, a lockout begun again; the reply slot empty and BUSY clear; everything else as it was. -/
def resetTookEffect (s t : State) : Prop :=
  (∀ p, (t.path p).state = .unselected ∧ (t.path p).selected = none ∧ (t.path p).fifo = [] ∧
    (t.path p).assembly = none ∧ (t.path p).keyAbsent = false ∧ (t.path p).starvation = 0 ∧ (t.path p).title = 0 ∧
    (t.path p).answer = .none ∧
    (∀ c d, (s.path p).progress = some ⟨c, .serving d⟩ → (t.path p).progress = some ⟨c, .serving true⟩) ∧
    ((s.path p).inEngine = false → (t.path p).progress = none) ∧
    (t.path p).taken = (s.path p).taken ∧ (t.path p).descrambled = (s.path p).descrambled ∧
    (t.path p).fills = (s.path p).fills ∧ (t.path p).misses = (s.path p).misses ∧
    (t.path p).syncErrors = (s.path p).syncErrors ∧ (t.path p).overflows = (s.path p).overflows) ∧
  t.lock = (match s.lock.state with
    | .unlocked => { s.lock with state := .locked, minutes := 0 }
    | .lockout => { s.lock with minutes := s.lock.length }
    | .locked => s.lock) ∧
  t.port.slot = none ∧ t.port.ready = false ∧ t.port.busy = .clear ∧ t.port.discards = s.port.discards ∧
  { t with pathA := s.pathA, pathB := s.pathB, lock := s.lock, store := s.store, port := s.port } = s

/-- RESET is taken with BUSY clear or of cause STORE. With a write in flight the reply slot holds RESET PENDING and
BUSY has cause RESET; with nothing to write the command takes effect at its taking (R158, R159). It takes effect when
the last write completes with nothing listed after it: the slot holds the captured image and no reply is placed (R134;
one event for both rows is the model's reading, log 7). A descrambled cell then leaving is cut off uncounted like the
cells R21 names (the model's reading, log 26). -/
def Obligations.ResetWaitsThenTakesEffect : Prop :=
  (∀ (args : List Byte) (s : State), s.phase = .running → s.port.frame ≠ .abandoned → s.settled = true →
     (s.port.busy = .clear ∨ ∃ w, s.port.busy = .store w) →
     (s.store.write ≠ none →
       exec (.reset args) s = .next { s with port := { s.port with
         frame := .idle, slot := some { code := 0x7F, result := .pending, data := [] }, ready := true
         busy := .reset } }) ∧
     (s.store.write = none →
       ∃ t, exec (.reset args) s = .next t ∧ resetTookEffect s t ∧ t.port.frame = .idle ∧
         (s.lock.state = .unlocked → t.listed lockSlot) ∧ (s.lock.state ≠ .unlocked → t.store = s.store))) ∧
  (∀ (s : State) (w : SlotWrite), s.phase = .running → s.port.busy = .reset → s.store.dirty = [] →
     s.store.write = some w →
     ∃ t, exec .resetTakesEffect s = .next t ∧ resetTookEffect s t ∧
       exec .slotWriteComplete s = .next t ∧
       t.store.slots = s.store.slots.set w.slot (.intact w.image) ∧
       (s.lock.state = .unlocked → t.listed lockSlot) ∧
       (s.lock.state ≠ .unlocked → t.store.dirty = [] ∧ t.store.write = none))

/-! ### The line port -/

/-- A frame laid out by the spec's line frame (address, kind, length, payload, check value) passes the checks of shape
and check value and reads back as its fields, for every address, kind and payload up to 120 bytes (R144, 11). -/
def Obligations.LineFrameReadsBack : Prop :=
  ∀ (address : Half) (kind : Byte) (payload : List Byte), payload.length ≤ 120 →
    (lineFrameBytes address kind payload).length = 6 + payload.length ∧
    checkFrame (lineFrameBytes address kind payload) false false = .sound address kind payload

/-- Line frames that reach no owner. Another room's address, a reply kind, a broadcast of an addressed or unknown kind
or too short for its fixed arguments change nothing (R144, R146). A DEAF receiver and a part that does not run take no
frame, and a WAITING one only learns of the silence (R143, R151; a whole frame as one command is the model's choice,
log 3). A frame of wrong shape is ignored and counted only with a framing error; one whose check value fails is
ignored and counted (R144, R145). -/
def Obligations.LineFramesWithoutEffect : Prop :=
  (∀ (c : Instr) (address : Half) (kind : Byte) (payload : List Byte) (s : State),
     linePortFrame c = some (address, kind, payload) → payload.length ≤ 120 → s.takesMessage →
     ((address ≠ 0xFFFF ∧ ¬s.answersTo address) ∨ kind = 0x80 ∨ kind = 0x81 ∨ kind = 0x82 ∨
       (address = 0xFFFF ∧
         ∀ n, (kind, n) ∈ [((0x02 : Byte), 4), (0x03, 12), (0x04, 1), (0x05, 2), (0x06, 4)] → payload.length < n)) →
     exec c s = .next s) ∧
  (∀ (c : Instr) (address : Half) (kind : Byte) (payload : List Byte) (s : State),
     linePortFrame c = some (address, kind, payload) →
     (s.phase ≠ .running → exec c s = .next s) ∧
     (s.line.receiver = .deaf → exec c s = .next s) ∧
     (s.phase = .running → s.line.receiver = .waiting →
       exec c s = .next { s with line := { s.line with receiver := .idle } })) ∧
  (∀ (bytes : List Byte) (framingError tooLong : Bool) (s : State), s.takesMessage → bytes.length ≤ 126 →
     let counted := { s with line := { s.line with errors := s.line.errors + 1 } }
     let n := byteAt bytes 3
     let shape := tooLong = false ∧ framingError = false ∧ 6 ≤ bytes.length ∧ n ≤ 120 ∧ bytes.length = 6 + n
     (¬shape → framingError = false → exec (.lineFrameIgnored bytes framingError tooLong) s = .next s) ∧
     (framingError = true → exec (.lineFrameIgnored bytes framingError tooLong) s = .next counted) ∧
     (shape → (crc16 (bytes.take (bytes.length - 2))).toNat ≠ natAt bytes (bytes.length - 2) 2 →
       exec (.lineFrameIgnored bytes framingError tooLong) s = .next counted))

/-- The receiver's states: characters are discarded while WAITING and DEAF, begin a frame in IDLE and join it in
RECEIVING up to 126, a low stop bit and a 127th character marking it (the low stop bit of a discarded character too,
the model's choice, log 32); silence ends WAITING, and delivers what was assembled character by character, a good
frame or a damaged one, as the whole frame at an IDLE receiver (R143 to R146). The transmitter: REPLY_TRANSMIT_START
raises LTXE on the waiting reply, REPLY_TRANSMIT_END lowers it and leaves the receiver WAITING (R143, R147). -/
def Obligations.ReceiverAndTransmitterFollowTheLine : Prop :=
  (∀ (b : Byte) (low : Bool) (s : State), s.phase = .running →
     let receiving := fun r => { s with line := { s.line with receiver := r } }
     (s.line.receiver = .waiting ∨ s.line.receiver = .deaf → exec (.lineCharacterArrives b low) s = .next s) ∧
     (s.line.receiver = .idle → exec (.lineCharacterArrives b low) s = .next (receiving (.receiving [b] false low))) ∧
     (∀ bytes tl fe, s.line.receiver = .receiving bytes tl fe →
       (bytes.length < 126 →
         exec (.lineCharacterArrives b low) s = .next (receiving (.receiving (bytes ++ [b]) tl (fe || low)))) ∧
       (126 ≤ bytes.length →
         exec (.lineCharacterArrives b low) s = .next (receiving (.receiving bytes true (fe || low))))) ∧
     (s.line.receiver = .waiting → exec .lineIdleDetected s = .next (receiving .idle)) ∧
     (s.line.receiver = .idle ∨ s.line.receiver = .deaf → exec .lineIdleDetected s = .next s)) ∧
  (∀ (c : Instr) (address : Half) (kind : Byte) (payload : List Byte) (s : State),
     linePortFrame c = some (address, kind, payload) → payload.length ≤ 120 → s.phase = .running →
     s.line.receiver = .receiving (lineFrameBytes address kind payload) false false →
     exec .lineIdleDetected s = exec c { s with line := { s.line with receiver := .idle } }) ∧
  (∀ (bytes : List Byte) (tooLong framingError : Bool) (s : State), s.phase = .running → bytes.length ≤ 126 →
     s.line.receiver = .receiving bytes tooLong framingError →
     exec .lineIdleDetected s =
       exec (.lineFrameIgnored bytes framingError tooLong) { s with line := { s.line with receiver := .idle } }) ∧
  (∀ (s : State) (r : LineReply), s.phase = .running →
     (s.line.transmit = .waiting r →
       ∃ t, exec .replyTransmitStart s = .next t ∧ t = { s with line := { s.line with transmit := .sending r } } ∧
         s.line.ltxe = false ∧ t.line.ltxe = true) ∧
     (s.line.transmit = .sending r →
       ∃ t, exec .replyTransmitEnd s = .next t ∧
         t = { s with line := { s.line with transmit := .none, receiver := .waiting } } ∧ t.line.ltxe = false))

/-- The presence update of a valid addressed frame: ONLINE, the watchdog restarted; on the return from OFFLINE,
LINE_BACK is set and the offline spend becomes 0, the folio slot listed if it was not 0 (R76, R149). POLL: its
argument, clamped to 1 to 60, becomes the watchdog setting, presence is updated, and the reply is STATUS with the
fields as they stand after that update (R148); nothing else changes. -/
def Obligations.PollReportsAfterPresenceUpdate : Prop :=
  (∀ (setting : Nat) (s : State),
     let u := bringOnline setting s
     u.line = { s.line with setting := setting, watchdog := setting, online := true } ∧
     (s.line.online = true → { u with line := s.line } = s) ∧
     (s.line.online = false →
       u.status = s.status.report .lineBack ∧ u.status.detail.getLsbD 1 = true ∧
       u.folio = { s.folio with offlineSpend := 0 } ∧ (s.folio.offlineSpend ≠ 0 → folioSlot ∈ u.store.dirty) ∧
       (s.folio.offlineSpend = 0 → u.store = s.store) ∧
       { u with line := s.line, status := s.status, folio := s.folio, store := s.store } = s)) ∧
  (∀ (address : Half) (payload : List Byte) (s : State), s.takesMessage → s.answersTo address →
     1 ≤ payload.length → payload.length ≤ 120 →
     let u := bringOnline (max 1 (min (byteAt payload 0) 60)) s
     exec (.poll address payload) s =
       .next (endEvent (u.replying address 0x81
         ([match s.folio.state with | .closed => (0 : Byte) | .opened => 1 | .held => 2] ++ be 4 s.folio.number.toNat ++
           be 4 s.folio.total ++ be 4 s.folio.daySpend ++
           be 1 ((s.log.filter (fun r => r.state != .preview && !r.collected)).length) ++ be 1 s.log.length ++
           be 1 s.store.damagedCount ++ be 4 s.line.errors.toNat ++
           [match s.lock.state with | .locked => (0 : Byte) | .unlocked => 1 | .lockout => 2] ++
           [s.channels.generation, s.offers.generation]))))

/-- A valid addressed frame of unknown kind is answered ACK(UNKNOWN_COMMAND), one too short for its kind ACK(BAD_ARG);
both update presence and do nothing else (R146, R147, R149). The broadcast kinds in a frame addressed to this room act
as the broadcast does after the presence update, and are answered ACK(OK) (R146). -/
def Obligations.AddressedFramesAnswered : Prop :=
  (∀ (c : Instr) (address : Half) (kind : Byte) (payload : List Byte) (s : State),
     linePortFrame c = some (address, kind, payload) → payload.length ≤ 120 → s.takesMessage → s.answersTo address →
     let u := bringOnline s.line.setting s
     (kind ∉ lineKinds → exec c s = .next (endEvent (u.replying address 0x80 [kind, 0x04]))) ∧
     (∀ n, (kind, n) ∈ [((0x01 : Byte), 1), (0x02, 4), (0x03, 12), (0x04, 1), (0x05, 2), (0x06, 4), (0x10, 24), (0x12, 1),
         (0x13, 1), (0x14, 2), (0x15, 2), (0x16, 2), (0x17, 2)] → payload.length < n →
       exec c s = .next (endEvent (u.replying address 0x80 [kind, 0x03])))) ∧
  (∀ (address : Half) (payload : List Byte) (s : State), s.takesMessage → s.answersTo address → payload.length ≤ 120 →
     let u := bringOnline s.line.setting s
     let same := fun (c : Half → List Byte → Instr) (kind : Byte) =>
       ∃ t, exec (c 0xFFFF payload) u = .next t ∧
         exec (c address payload) s = .next (t.replying address 0x80 [kind, 0x00])
     (4 ≤ payload.length → same .time 0x02) ∧ (12 ≤ payload.length → same .key 0x03) ∧
     (1 ≤ payload.length → same .keyClear 0x04) ∧ (2 ≤ payload.length → same .tableEntry 0x05) ∧
     (4 ≤ payload.length → same .tableCommit 0x06))

/-- TIME: the clock takes the day and the clamped minute and is SET; a different day makes the folio's day spend 0 and
lists the folio slot if it was not; the seconds count and everything else stand (R75, R126). KEY loads the named half
with the key and the life clamped to 1 to 1440, the other half and contexts standing; KEY_CLEAR empties both halves of
its context; an index or parity that names none has no effect (R35, R36). -/
def Obligations.TimeAndKeyMessagesTakeEffect : Prop :=
  (∀ (payload : List Byte) (s : State), s.takesMessage → s.settled = true → 4 ≤ payload.length → payload.length ≤ 120 →
     let day : Half := BitVec.ofNat 16 (natAt payload 0 2)
     ∃ t, exec (.time 0xFFFF payload) s = .next t ∧
       t.clock = { day := day, minute := min (natAt payload 2 2) 1439, set := true } ∧
       (day = s.clock.day → { t with clock := s.clock } = s) ∧
       (day ≠ s.clock.day →
         t.folio = { s.folio with daySpend := 0 } ∧ (s.folio.daySpend ≠ 0 → t.listed folioSlot) ∧
         (s.folio.daySpend = 0 → t.store = s.store) ∧
         { t with clock := s.clock, folio := s.folio, store := s.store } = s)) ∧
  (∀ (payload : List Byte) (s : State), s.takesMessage → s.settled = true → payload.length ≤ 120 →
     (12 ≤ payload.length →
       let context := byteAt payload 0
       let half := KeyHalf.loaded (BitVec.ofNat 64 (natAt payload 2 8)) (max 1 (min (natAt payload 10 2) 1440))
       (∀ c, s.keys[context]? = some c → byteAt payload 1 = 0 →
         exec (.key 0xFFFF payload) s = .next { s with keys := s.keys.set context { c with even := half } }) ∧
       (∀ c, s.keys[context]? = some c → byteAt payload 1 = 1 →
         exec (.key 0xFFFF payload) s = .next { s with keys := s.keys.set context { c with odd := half } }) ∧
       (s.keys.length ≤ context ∨ 2 ≤ byteAt payload 1 → exec (.key 0xFFFF payload) s = .next s)) ∧
     (1 ≤ payload.length →
       (byteAt payload 0 < s.keys.length →
         exec (.keyClear 0xFFFF payload) s =
           .next { s with keys := s.keys.set (byteAt payload 0) { even := .empty, odd := .empty } }) ∧
       (s.keys.length ≤ byteAt payload 0 → exec (.keyClear 0xFFFF payload) s = .next s)))

/-- TABLE_ENTRY writes a pending entry and its written mark; a table, index or length that does not fit has no effect;
the live table, the check value, the generation and the scan stand (R47). -/
def Obligations.TableEntryWritesPending : Prop :=
  ∀ (payload : List Byte) (s : State), s.takesMessage → s.settled = true → 2 ≤ payload.length →
    payload.length ≤ 120 →
    let index := byteAt payload 1
    let entry := payload.drop 2
    let written := fun x : Table =>
      { x with pending := x.pending.set index entry, written := x.written.set index true }
    (byteAt payload 0 = 0 → index ≤ 63 → entry.length = 19 →
      exec (.tableEntry 0xFFFF payload) s = .next { s with channels := written s.channels }) ∧
    (byteAt payload 0 = 1 → index ≤ 31 → entry.length = 28 →
      exec (.tableEntry 0xFFFF payload) s = .next { s with offers := written s.offers }) ∧
    (2 ≤ byteAt payload 0 ∨ (byteAt payload 0 = 0 ∧ (63 < index ∨ entry.length ≠ 19)) ∨
        (byteAt payload 0 = 1 ∧ (31 < index ∨ entry.length ≠ 28)) →
      exec (.tableEntry 0xFFFF payload) s = .next s)

/-- A commit whose table argument names neither table has no effect (R48). One that misses an entry, or whose check
value differs, is rejected: the outcome and COMMIT_REJECTED are set and nothing else changes (R48). An accepted one:
the first n pending entries are live and the rest zero; the generation rises by one if any entry changed; the check
value of the whole table is kept; the written marks and table-bad are cleared; the scan restarts, diagnostic if a
request was held or a diagnostic pass abandoned; both paths judge (R48 to R50, R52, R55). That check values and the
comparison take an entry's bytes as sent, also of an EMPTY or empty one, is the model's reading of R45 (log 39). -/
def Obligations.TableCommitIsJudged : Prop :=
  (∀ (payload : List Byte) (s : State), s.takesMessage → s.settled = true → 4 ≤ payload.length →
     payload.length ≤ 120 → 2 ≤ byteAt payload 0 → exec (.tableCommit 0xFFFF payload) s = .next s) ∧
  (∀ (payload : List Byte) (s : State) (t : TableId), s.takesMessage → s.settled = true → TablesSound s →
     4 ≤ payload.length → payload.length ≤ 120 →
     (byteAt payload 0 = 0 ∧ t = .channel ∨ byteAt payload 0 = 1 ∧ t = .offer) →
     let n := byteAt payload 1
     let x := s.table t
     let missing := t.size < n ∨ ∃ i, i < n ∧ x.written[i]? = some false
     let rejected := fun outcome =>
       { s.setTable t { x with outcome := outcome } with status := s.status.report .commitRejected }
     (missing → exec (.tableCommit 0xFFFF payload) s = .next (rejected .missing)) ∧
     (¬missing → (crc16 (x.pending.take n).flatten).toNat ≠ natAt payload 2 2 →
       exec (.tableCommit 0xFFFF payload) s = .next (rejected .mismatch))) ∧
  (∀ (payload : List Byte) (s : State) (t : TableId), s.takesMessage → s.settled = true → TablesSound s →
     4 ≤ payload.length → payload.length ≤ 120 →
     (byteAt payload 0 = 0 ∧ t = .channel ∨ byteAt payload 0 = 1 ∧ t = .offer) →
     let n := byteAt payload 1
     let x := s.table t
     n ≤ t.size → (∀ i, i < n → x.written[i]? = some true) →
     (crc16 (x.pending.take n).flatten).toNat = natAt payload 2 2 →
     let live := x.pending.take n ++ List.replicate (t.size - n) (List.replicate t.entryBytes 0)
     let diagnostic := x.diagHeld = true ∨ ∃ sc, x.scan = some sc ∧ sc.diagnostic = true
     ∃ u sc,
       exec (.tableCommit 0xFFFF payload) s = .next u ∧
       u.table t =
         { live := live, pending := x.pending, written := List.replicate t.size false
           check := crc16 live.flatten, generation := if live = x.live then x.generation else x.generation + 1
           bad := false, outcome := .accepted, scan := some sc, diagHeld := false } ∧
       sc.position = 0 ∧ (sc.diagnostic = true ↔ diagnostic) ∧
       (¬diagnostic → sc.crc = 0xFFFF) ∧ (diagnostic → sc.crc = 0xFF00) ∧
       u.judgedAfresh ∧ s.log <+: u.log ∧
       { u.withAdmissionOf s with channels := s.channels, offers := s.offers } = s ∧
       (∀ t', t' ≠ t → u.table t' = s.table t'))

/-- CHECK_IN is refused with FOLIO_OPEN while a folio is open, and with BAD_ARG for folio number 0 or a policy that is
neither; a refusal only updates presence. An accepted one opens the folio with the clamped arguments and zero totals,
empties the previewed-title set, which then holds only what the judging paths preview, sets up the lock record without
a PIN, sets CHECKED_IN, lists the folio and lock slots, keeps the log's records, and both paths judge (R62, R63, R87,
R118). -/
def Obligations.CheckInOpensFolio : Prop :=
  ∀ (address : Half) (payload : List Byte) (s : State), s.takesMessage → s.settled = true → s.answersTo address →
    24 ≤ payload.length → payload.length ≤ 120 →
    let u := bringOnline s.line.setting s
    let refused := fun code : Byte =>
      exec (.checkIn address payload) s = .next (endEvent (u.replying address 0x80 [0x10, code]))
    (s.folio.state ≠ .closed → refused 0x12) ∧
    (s.folio.state = .closed → (natAt payload 0 4 = 0 ∨ 2 ≤ byteAt payload 15) → refused 0x03) ∧
    (s.folio.state = .closed → natAt payload 0 4 ≠ 0 → byteAt payload 15 ≤ 1 →
      ∃ t, exec (.checkIn address payload) s = .next t ∧
        t.folio =
          { number := BitVec.ofNat 32 (natAt payload 0 4), state := .opened
            creditLimit := min (natAt payload 4 4) 9999999, dailyCap := min (natAt payload 8 4) 999999
            taxRate := min (natAt payload 12 2) 3000, packages := BitVec.ofNat 8 (byteAt payload 14)
            policy := if byteAt payload 15 = 1 then .auto else .confirm
            allowance := min (natAt payload 16 4) 99999, total := 0, daySpend := 0, offlineSpend := 0, capMark := false } ∧
        t.lock =
          { hard := min (byteAt payload 20) 7, guest := min (byteAt payload 21) 7, pin := none
            unlockMinutes := max 1 (min (natAt payload 22 2) 240), state := .locked, minutes := 0, length := 0, wrong := 0
            lockouts := 0 } ∧
        s.log <+: t.log ∧ t.previewed = (t.log.drop s.log.length).map (·.title) ∧
        ((∀ p, s.onTitle p = false) → t.log = s.log) ∧
        t.status.detail.getLsbD 18 = true ∧ t.listed folioSlot ∧ t.listed lockSlot ∧ t.judgedAfresh ∧
        t.line = (u.replying address 0x80 [0x10, 0x00]).line ∧
        { t.withAdmissionOf s with folio := s.folio, lock := s.lock, line := s.line } = s)

/-- CHECK_OUT is refused with FOLIO_CLOSED in CLOSED. An accepted one closes the folio with its package mask clear;
every PREVIEW record becomes LAPSED, every BOUGHT record ENDED, those already released leave the log, and no other
record changes; the PIN is removed and an unlock ends; CHECKED_OUT is set; both paths judge (R64, R97, R119; the lock
slot is listed where the lock record changed, by R119 over R64, the model's reading, log 40). An ORDER that waits for
a record that leaves is answered OK with its figures and BUSY clears; otherwise the set port stands (R95). -/
def Obligations.CheckOutClosesFolio : Prop :=
  ∀ (address : Half) (payload : List Byte) (s : State), s.takesMessage → s.settled = true → LogSound s →
    s.answersTo address → payload.length ≤ 120 →
    let u := bringOnline s.line.setting s
    (s.folio.state = .closed →
      exec (.checkOut address payload) s = .next (endEvent (u.replying address 0x80 [0x11, 0x10]))) ∧
    (s.folio.state ≠ .closed →
      ∃ t, exec (.checkOut address payload) s = .next t ∧
        t.folio = { u.folio with packages := 0, state := .closed } ∧
        t.log = s.log.filterMap (fun r =>
          match r.state with
          | .preview => if r.released then none else some { r with state := .lapsed }
          | .bought _ => if r.released then none else some { r with state := .ended }
          | _ => some r) ∧
        t.previewed = s.previewed ∧ t.nextSeq = s.nextSeq ∧
        t.lock = (if s.lock.state = .unlocked then { s.lock with pin := none, state := .locked, minutes := 0 }
          else { s.lock with pin := none }) ∧
        t.listed folioSlot ∧ (∀ r ∈ s.log, r.final = false → t.listed r.slot) ∧
        (t.lock ≠ s.lock → t.listed lockSlot) ∧
        t.status.detail.getLsbD 19 = true ∧ t.status.detail.getLsbD 15 = s.status.detail.getLsbD 15 ∧ t.judgedAfresh ∧
        s.portAfterRemoval t (fun seq => ∃ r ∈ s.log, r.seq = seq ∧ r.released = true ∧ r.final = false) ∧
        t.line = (u.replying address 0x80 [0x11, 0x00]).line ∧
        { t.withAdmissionOf s with folio := s.folio, lock := s.lock, line := s.line, port := s.port } = s)

/-- HOLD moves the folio between OPEN and HELD, PACKAGES replaces the mask; each lists the folio slot and makes both
paths judge when it changes something, and does nothing else when not; in CLOSED both are refused, and HOLD refuses an
argument that is neither on nor off (R65, R66), in CLOSED too (the model's choice, log 28). -/
def Obligations.HoldAndPackagesChangeFolio : Prop :=
  ∀ (address : Half) (payload : List Byte) (s : State), s.takesMessage → s.settled = true → s.answersTo address →
    1 ≤ payload.length → payload.length ≤ 120 →
    let u := bringOnline s.line.setting s
    let on := byteAt payload 0
    let refused := fun (c : Instr) (kind code : Byte) =>
      exec c s = .next (endEvent (u.replying address 0x80 [kind, code]))
    let changed := fun (c : Instr) (kind : Byte) (f : Folio) =>
      (f = u.folio → exec c s = .next (endEvent (u.replying address 0x80 [kind, 0x00]))) ∧
      (f ≠ u.folio → ∃ t, exec c s = .next t ∧ t.folio = f ∧ t.listed folioSlot ∧ t.judgedAfresh ∧ s.log <+: t.log ∧
        t.line = (u.replying address 0x80 [kind, 0x00]).line ∧
        { t.withAdmissionOf s with folio := s.folio, line := s.line } = s)
    (2 ≤ on → refused (.hold address payload) 0x12 0x03) ∧
    (on ≤ 1 → s.folio.state = .closed → refused (.hold address payload) 0x12 0x10) ∧
    (on = 1 → s.folio.state ≠ .closed → changed (.hold address payload) 0x12 { u.folio with state := .held }) ∧
    (on = 0 → s.folio.state ≠ .closed → changed (.hold address payload) 0x12 { u.folio with state := .opened }) ∧
    (s.folio.state = .closed → refused (.packages address payload) 0x13 0x10) ∧
    (s.folio.state ≠ .closed →
      changed (.packages address payload) 0x13 { u.folio with packages := BitVec.ofNat 8 on })

/-- COLLECT reports, in log order, up to four reportable, unreleased records from its starting place, sets their
collected marks, and tells whether more stand after them; nothing else changes (R99). -/
def Obligations.CollectReportsRecords : Prop :=
  ∀ (address : Half) (payload : List Byte) (s : State), s.takesMessage → s.answersTo address → LogSound s →
    2 ≤ payload.length → payload.length ≤ 120 →
    let u := bringOnline s.line.setting s
    let after : Half := BitVec.ofNat 16 (natAt payload 0 2)
    ∃ passed rest all : List Record,
      s.log = passed ++ rest ∧
      ((after = 0xFFFF ∨ ∀ r ∈ s.log, r.seq ≠ after) → passed = []) ∧
      (after ≠ 0xFFFF → (∃ r ∈ s.log, r.seq = after) → ∃ r, passed.getLast? = some r ∧ r.seq = after) ∧
      all = rest.filter (fun r => r.state != .preview && !r.released) ∧
      let report := fun r : Record =>
        let amount := fun f : Charge → Nat => match r.charge with | some c => f c | none => 0
        be 2 r.seq.toNat ++ be 4 r.folio.toNat ++ be 4 r.title.toNat ++ [r.state.code] ++ be 3 (amount (·.list)) ++
          be 2 (amount (·.tax)) ++ be 3 (amount (·.billed)) ++ be 2 (amount (·.day.toNat)) ++
          be 2 (amount (·.minute)) ++ be 1 r.used
      exec (.collect address payload) s =
        .next (endEvent ({ u with log := s.log.map (fun r =>
            if r ∈ all.take 4 then { r with collected := true } else r) }.replying address 0x82
          (be 1 (min 4 all.length) ++ [if 4 < all.length then 1 else 0] ++ ((all.take 4).map report).flatten)))

/-- RELEASE: NOT_FOUND if no record carries the number; otherwise every collected record through the named one is
released and listed, those in a final state leave the log, and no other record changes (R100, R101). An ORDER that
waits for a record that leaves is answered OK with its figures and BUSY clears; otherwise the set port stands (R95). -/
def Obligations.ReleaseReleasesCollected : Prop :=
  ∀ (address : Half) (payload : List Byte) (s : State), s.takesMessage → s.settled = true → s.answersTo address →
    LogSound s → 2 ≤ payload.length → payload.length ≤ 120 →
    let u := bringOnline s.line.setting s
    let through : Half := BitVec.ofNat 16 (natAt payload 0 2)
    ((∀ r ∈ s.log, r.seq ≠ through) →
      exec (.release address payload) s = .next (endEvent (u.replying address 0x80 [0x15, 0x41]))) ∧
    (∀ older newer r, s.log = older ++ r :: newer → r.seq = through →
      ∃ t, exec (.release address payload) s = .next t ∧
        t.log = (older ++ [r]).filterMap (fun x =>
          if x.collected && !x.released then if x.final then none else some { x with released := true } else some x)
            ++ newer ∧
        (∀ x ∈ older ++ [r], x.collected = true → x.released = false → t.listed x.slot) ∧
        t.line = (u.replying address 0x80 [0x15, 0x00]).line ∧
        (∀ x ∈ older ++ [r], ∀ slot b v w, x.collected = true → x.released = false → x.final = true →
          s.port.busy = .store (.order x.seq slot b v w) →
          t.port = { s.port with
            slot := some { code := 0x20, result := .ok, data := be 2 x.seq.toNat ++ be 3 b ++ be 3 v ++ be 2 w }
            ready := true, busy := .clear, frame := s.port.frame.replace }) ∧
        ((∀ x ∈ older ++ [r], ∀ slot b v w, x.collected = true → x.released = false → x.final = true →
          s.port.busy ≠ .store (.order x.seq slot b v w)) → t.port = s.port) ∧
        t.folio = u.folio ∧ t.status = u.status ∧
        { t with
          log := s.log, store := s.store, folio := s.folio, status := s.status, line := s.line, port := s.port } = s)

/-- VOID: the first test of R77 that holds refuses, and a refusal only updates presence. An accepted one: the folio
total falls by the billed amount, the day spend too if the charge is of the current day, neither below 0; the offline
spend stands; the record is VOIDED with its charge and marks kept, or leaves the log if it was released; both slots
are listed (R77, R78, R101). An ORDER that waits for a record that leaves is answered OK with its figures and BUSY
clears; otherwise the set port stands (R95). Each path showing the title judges (R79, R84, R88), and a path that does
not show it stands. The VOID of an ENDED record starts no preview and changes no other record, nor a path that stood
as its entries then say; that a path out of step after an upset is judged is the model's reading of R79 beside R88
(log 27). That a released BOUGHT record leaves the log before the paths judge, so that in a log of 48 its place is
free for a preview which that judging starts, is the model's choice (log 34). -/
def Obligations.VoidRefundsCharge : Prop :=
  (∀ (address : Half) (payload : List Byte) (s : State) (code : ResultCode), s.takesMessage → s.answersTo address →
     LogSound s → 2 ≤ payload.length → payload.length ≤ 120 →
     let seq : Half := BitVec.ofNat 16 (natAt payload 0 2)
     (s.folio.state = .closed ∧ code = .wrongFolio ∨
       s.folio.state ≠ .closed ∧ (∀ r ∈ s.log, r.seq ≠ seq) ∧ code = .notFound ∨
       s.folio.state ≠ .closed ∧ ∃ r ∈ s.log, r.seq = seq ∧
         (r.folio ≠ s.folio.number ∧ code = .wrongFolio ∨
           r.folio = s.folio.number ∧ r.state = .voided ∧ code = .already ∨
           r.folio = s.folio.number ∧ (r.state = .preview ∨ r.state = .lapsed ∨ ∃ d, r.state = .declined d) ∧
             code = .notBilled)) →
     exec (.void address payload) s =
       .next (endEvent ((bringOnline s.line.setting s).replying address 0x80 [0x16, code.code]))) ∧
  (∀ (address : Half) (payload : List Byte) (s : State) (r : Record), s.takesMessage → s.settled = true →
     s.answersTo address → LogSound s → 2 ≤ payload.length → payload.length ≤ 120 → s.folio.state ≠ .closed → r ∈ s.log →
     r.seq = BitVec.ofNat 16 (natAt payload 0 2) → r.folio = s.folio.number →
     (r.state = .ended ∨ ∃ w, r.state = .bought w) →
     let u := bringOnline s.line.setting s
     let billed := match r.charge with | some c => c.billed | none => 0
     let today := match r.charge with | some c => decide (c.day = s.clock.day) | none => false
     ∃ t, exec (.void address payload) s = .next t ∧
       t.folio = { u.folio with
         total := s.folio.total - billed
         daySpend := if today then s.folio.daySpend - billed else s.folio.daySpend } ∧
       (r.released = false → { r with state := .voided } ∈ t.log) ∧
       (r.released = true → ∀ x ∈ t.log, x.seq = r.seq → x ∉ s.log) ∧
       s.portAfterRemoval t (fun seq => seq = r.seq ∧ r.released = true) ∧
       (let log := s.log.filterMap (fun x =>
          if x.seq = r.seq then if r.released then none else some { r with state := .voided } else some x)
        log <+: t.log ∧
          (r.state = .ended →
            t.log = log ∧ t.nextSeq = s.nextSeq ∧ t.previewed = s.previewed ∧
              ∀ q, (s.showsTitle q r.title → t.pathRecalled q) ∧
                ((s.showsTitle q r.title → s.pathRecalled q) → t.path q = s.path q))) ∧
       (∀ q, r.state ≠ .ended → s.showsTitle q r.title → t.pathJudged q) ∧
       (∀ q, ¬s.showsTitle q r.title → t.path q = s.path q) ∧
       t.listed folioSlot ∧ t.listed r.slot ∧
       t.line = (u.replying address 0x80 [0x16, 0x00]).line ∧
       { t.withAdmissionOf s with folio := s.folio, line := s.line, port := s.port } = s)

/-- LOCK sets the clamped hard ceiling and, with clear-PIN 1, removes the PIN, the counts, and an unlock or lockout; a
clear-PIN above 1 is refused with BAD_ARG; the lock slot is listed when a field changed; both paths judge when the
effective ceiling changed (R107, R117). -/
def Obligations.LockSetsCeilingAndClearsPin : Prop :=
  ∀ (address : Half) (payload : List Byte) (s : State), s.takesMessage → s.settled = true → s.answersTo address →
    2 ≤ payload.length → payload.length ≤ 120 →
    let u := bringOnline s.line.setting s
    let hard := min (byteAt payload 0) 7
    let moved := fun l : Lock =>
      ∃ t, exec (.lock address payload) s = .next t ∧ t.lock = l ∧ (l.stored ≠ s.lock.stored → t.listed lockSlot) ∧
        (l.ceiling ≠ s.lock.ceiling → t.judgedAfresh) ∧
        (l.ceiling = s.lock.ceiling → t.pathA = s.pathA ∧ t.pathB = s.pathB ∧ t.log = s.log) ∧
        t.status.detail.getLsbD 13 = s.status.detail.getLsbD 13 ∧
        t.line = (u.replying address 0x80 [0x17, 0x00]).line ∧ t.folio = u.folio ∧
        { t.withAdmissionOf s with lock := s.lock, folio := s.folio, line := s.line } = s
    (2 ≤ byteAt payload 1 →
      exec (.lock address payload) s = .next (endEvent (u.replying address 0x80 [0x17, 0x03]))) ∧
    (byteAt payload 1 = 0 → moved { s.lock with hard := hard }) ∧
    (byteAt payload 1 = 1 →
      moved { s.lock with
        hard := hard, pin := none, state := .locked, minutes := 0, length := 0, wrong := 0, lockouts := 0 })

/-! ### Cells and the engine -/

/-- A byte at a cell input: the first-byte mark begins a cell and discards an incomplete one, counted as a sync error;
a byte with the mark low joins the cell begun or is ignored (R1). The 128th byte completes a cell: a wrong sync mark
drops and counts it; a good one joins the FIFO's tail, or at four queued cells is dropped and counted with the path's
overflow flag (R2, R3). Nothing else changes. -/
def Obligations.CellInputAssemblesAndQueues : Prop :=
  (∀ (p : PathId) (b : Byte) (s : State), s.phase.awake = true →
     let x := s.path p
     (x.assembly = none →
       exec (.cellInputStrobe p true b) s = .next (s.setPath p { x with assembly := some [b] }) ∧
       exec (.cellInputStrobe p false b) s = .next s) ∧
     (∀ bs, x.assembly = some bs →
       exec (.cellInputStrobe p true b) s =
         .next (s.setPath p { x with assembly := some [b], syncErrors := x.syncErrors + 1 }) ∧
       (bs.length < 127 →
         exec (.cellInputStrobe p false b) s = .next (s.setPath p { x with assembly := some (bs ++ [b]) })))) ∧
  (∀ (p : PathId) (b : Byte) (bs : List Byte) (s : State), s.phase.awake = true →
     (s.path p).assembly = some bs → bs.length = 127 →
     let x := { s.path p with assembly := none }
     let c := bs ++ [b]
     let overflow := match p with | .a => DetailFlag.overflowA | .b => DetailFlag.overflowB
     exec (.cellArrives p b) s = exec (.cellInputStrobe p false b) s ∧
     (c.head? ≠ some 0xB8 → exec (.cellArrives p b) s = .next (s.setPath p { x with syncErrors := x.syncErrors + 1 })) ∧
     (c.head? = some 0xB8 → x.fifo.length < 4 →
       exec (.cellArrives p b) s = .next (s.setPath p { x with fifo := x.fifo ++ [c] })) ∧
     (c.head? = some 0xB8 → 4 ≤ x.fifo.length →
       exec (.cellArrives p b) s =
         .next { s.setPath p { x with overflows := x.overflows + 1 } with status := s.status.report overflow }))

/-- A path with no cell in progress takes its head cell: discarded when it is UNSELECTED or the cell is not of the
selected service; a fill cell in MUTED but for KEY_ABSENT, and in KEY_ABSENT for an unscrambled cell; unchanged in
PASSING, and when unscrambled in DESCRAMBLING and PREVIEWING (R13). That the standing state decides also after an
upset of the entry, over the list that closes R14, is the model's reading (log 38). With an empty FIFO or a cell in
progress nothing is taken. A cell leaves in 128 strobes, the first-byte mark on the first (R16), a fill cell with the
bytes of R15; having left, it ends its progress and raises the count of its kind (R18). With no cell leaving,
CELL_LEAVES changes nothing (the model's choice, log 2). -/
def Obligations.CellTakenAndLeaves : Prop :=
  (∀ (p : PathId) (s : State), s.phase.awake = true →
     let x := s.path p
     (x.fifo = [] ∨ x.progress ≠ none → exec (.cellTake p) s = .next s) ∧
     (∀ c rest, x.fifo = c :: rest → x.progress = none →
       let taken := fun progress =>
         s.setPath p { x with fifo := rest, taken := x.taken + 1, progress := progress }
       let tag := byteAt c 1 * 16 + byteAt c 2 / 16
       let scrambled := (c.getD 3 0).getLsbD 7
       (x.selected = none → exec (.cellTake p) s = .next (taken none)) ∧
       (∀ i, x.selected = some i →
         ((s.channelAt i).cls = .empty ∨ tag ≠ (s.channelAt i).tag ∨ tag = 4095 →
           exec (.cellTake p) s = .next (taken none)) ∧
         ((s.channelAt i).cls ≠ .empty → tag = (s.channelAt i).tag → tag ≠ 4095 →
           (∀ reason, x.state = .muted reason → reason ≠ .keyAbsent →
             exec (.cellTake p) s = .next (taken (some ⟨fillCell, .leaving .fill⟩))) ∧
           (x.state = .muted .keyAbsent → scrambled = false →
             exec (.cellTake p) s = .next (taken (some ⟨fillCell, .leaving .fill⟩))) ∧
           (x.state = .passing → exec (.cellTake p) s = .next (taken (some ⟨c, .leaving .unchanged⟩))) ∧
           (x.state = .descrambling ∨ x.state = .previewing → scrambled = false →
             exec (.cellTake p) s = .next (taken (some ⟨c, .leaving .unchanged⟩))))))) ∧
  (∀ (p : PathId) (s : State) (c : Cell),
     let x := s.path p
     (x.progress = some ⟨c, .leaving .unchanged⟩ →
       exec (.cellLeaves p) s = .next (s.setPath p { x with progress := none })) ∧
     (x.progress = some ⟨c, .leaving .descrambled⟩ →
       exec (.cellLeaves p) s = .next (s.setPath p { x with progress := none, descrambled := x.descrambled + 1 })) ∧
     (x.progress = some ⟨c, .leaving .fill⟩ →
       exec (.cellLeaves p) s = .next (s.setPath p { x with progress := none, fills := x.fills + 1 })) ∧
     (x.outgoing = none → exec (.cellLeaves p) s = .next s)) ∧
  (fillCell = [0xB8, 0xFF, 0xF0, 0, 0, 0, 0, 0] ++ List.replicate 120 0 ∧ cellTag fillCell = 4095 ∧
    cellCount fillCell = 0 ∧ cellScrambled fillCell = false ∧ cellParity fillCell = .even ∧ cellStamp fillCell = 0) ∧
  (∀ x : Path,
     (x.outgoing = none → ∀ n, x.outputStrobe n = none) ∧
     (∀ (cell : Cell) how, x.progress = some ⟨cell, .leaving how⟩ → cell.length = 128 →
       (∀ n b, cell[n]? = some b → x.outputStrobe n = some (b, decide (n = 0))) ∧
         ∀ n, 128 ≤ n → x.outputStrobe n = none))

/-- The key check of a scrambled cell at its taking (R14, R17): an EMPTY half makes it a fill cell and a key miss,
sets the key-absent mark and raises the starvation counter, whose rise to 16 sets the path's flag; a LOADED half
clears both and requests the engine, which an IDLE engine grants at once with the half's key captured (R24, R25). -/
def Obligations.KeyCheckAtTaking : Prop :=
  ∀ (p : PathId) (s : State) (c : Cell) (rest : List Cell) (i : Nat), s.phase.awake = true → EngineSound s →
    let x := s.path p
    let e := s.channelAt i
    x.fifo = c :: rest → x.progress = none → x.selected = some i → (e.cls ≠ .empty ∧ e.cls ≠ .clear) →
    byteAt c 1 * 16 + byteAt c 2 / 16 = e.tag → e.tag ≠ 4095 → (c.getD 3 0).getLsbD 7 = true →
    (x.state = .descrambling ∨ x.state = .previewing ∨ x.state = .muted .keyAbsent) →
    let half := match s.keys[e.context]? with
      | some k => if (c.getD 3 0).getLsbD 6 then k.odd else k.even
      | none => .empty
    let starved := match p with | .a => DetailFlag.keyStarvedA | .b => DetailFlag.keyStarvedB
    let took := { x with fifo := rest, taken := x.taken + 1 }
    (half = .empty →
      exec (.cellTake p) s =
        .next { s.setPath p { took with
            misses := x.misses + 1, keyAbsent := true, starvation := min 16 (x.starvation + 1)
            progress := some ⟨fillCell, .leaving .fill⟩ } with
          status := if x.starvation = 15 then s.status.report starved else s.status }) ∧
    (∀ key life, half = .loaded key life →
      let ready := { took with starvation := 0, keyAbsent := false }
      (s.engine.serving ≠ none →
        exec (.cellTake p) s = .next (s.setPath p { ready with progress := some ⟨c, .waiting false⟩ })) ∧
      (s.engine.serving = none →
        exec (.cellTake p) s =
          .next { s.setPath p { ready with progress := some ⟨c, .serving false⟩ } with
            engine :=
              { serving := some
                  { work := .cell p (c.drop 8), key := key
                    acc := seed (BitVec.ofNat 32 (natAt c 4 4)) (byteAt c 2 % 16) (byteAt c 1 * 16 + byteAt c 2 / 16)
                    position := 0, tag := byteAt c 1 * 16 + byteAt c 2 / 16, count := byteAt c 2 % 16
                    stamp := BitVec.ofNat 32 (natAt c 4 4) }
                lastServed := .path p, testWaiting := s.engine.testWaiting } }))

/-- The engine's completion with nobody waiting (with another waiting, ArbiterGrantsInCyclicOrder): a path's cell
leaves with its received header, the scrambled flag clear, and its fifteen plain words (KeystreamRecoversWord says
which); a cell whose path was reset is dropped; a test's reply becomes OK with its word and BUSY clears; the engine is
IDLE (R14, R21, R27, R33). ENGINE_COMPLETE at an IDLE engine changes nothing (the model's choice, log 2). -/
def Obligations.EngineCompletesGrant : Prop :=
  ∀ s : State, EngineSound s →
    (s.engine.serving = none → exec .engineComplete s = .next s) ∧
    (∀ sv, s.engine.serving = some sv → (∀ r, s.waits r = false) →
      let idle := { s.engine with serving := none }
      (∀ p payload c, sv.work = .cell p payload → (s.path p).progress = some ⟨c, .serving false⟩ →
        exec .engineComplete s =
          .next { s.setPath p { s.path p with
              progress := some
                ⟨c.take 3 ++ [c.getD 3 0 &&& 0x7F] ++ (c.drop 4).take 4 ++ sv.plainPayload payload,
                  .leaving .descrambled⟩ } with engine := idle }) ∧
      (∀ p payload c, sv.work = .cell p payload → (s.path p).progress = some ⟨c, .serving true⟩ →
        exec .engineComplete s =
          .next { s.setPath p { s.path p with progress := none } with engine := idle }) ∧
      (∀ index word, sv.work = .test index word →
        exec .engineComplete s =
          .next { s with
            engine := idle
            port := { s.port with
              slot := some { code := 0x12, result := .ok, data := be 1 index ++ sv.plainTest index word }
              ready := true, busy := .clear, frame := s.port.frame.replace } }))

/-- At a completion with requesters waiting, the finished grant leaves what R27 says and the arbiter grants the
requester that comes first in the cyclic order after the last-served mark, which becomes that requester (R24). A test
is served with its arguments (R33). A path's cell is served with the key that its half, read anew by the entry then
standing, holds (R25, R38). A half EMPTY at the grant makes the cell a fill cell and a key miss; the mark and the
starvation counter follow unless a SELECT was accepted since its taking (R14, R17); the engine stays IDLE and the
completion goes on to the next requester, as if that cell had missed before it (R25). -/
def Obligations.ArbiterGrantsInCyclicOrder : Prop :=
  ∀ (s : State) (r : Requester), EngineSound s → s.engine.serving.isSome = true → s.waits r = true →
    (∀ q, s.waits q = true → q ≠ r →
      let order : List Requester :=
        match s.engine.lastServed with
        | .path .a => [.path .b, .test, .path .a]
        | .path .b => [.test, .path .a, .path .b]
        | .test => [.path .a, .path .b, .test]
      order.idxOf r < order.idxOf q) →
    let d := s.engineDone
    (∀ t, r = .test → s.engine.testWaiting = some t →
      exec .engineComplete s =
        .next { d with
          engine :=
            { serving := some
                { work := .test t.index t.word, key := t.key, acc := seed t.stamp t.count t.tag, position := 0
                  tag := t.tag, count := t.count, stamp := t.stamp }
              lastServed := .test, testWaiting := none } }) ∧
    (∀ (p : PathId) (c : Cell) (selectTaken : Bool), r = .path p → (s.path p).progress = some ⟨c, .waiting selectTaken⟩ →
      let x := s.path p
      let half : KeyHalf := match x.selected with
        | none => .empty
        | some i =>
          if (s.channelAt i).cls = .empty ∨ (s.channelAt i).cls = .clear then .empty
          else match s.keys[(s.channelAt i).context]? with
            | some k => if (c.getD 3 0).getLsbD 6 then k.odd else k.even
            | none => .empty
      (∀ key life, half = .loaded key life →
        exec .engineComplete s =
          .next { d.setPath p { x with progress := some ⟨c, .serving false⟩ } with
            engine :=
              { serving := some
                  { work := .cell p (c.drop 8), key := key
                    acc := seed (BitVec.ofNat 32 (natAt c 4 4)) (byteAt c 2 % 16) (byteAt c 1 * 16 + byteAt c 2 / 16)
                    position := 0, tag := byteAt c 1 * 16 + byteAt c 2 / 16, count := byteAt c 2 % 16
                    stamp := BitVec.ofNat 32 (natAt c 4 4) }
                lastServed := .path p, testWaiting := s.engine.testWaiting } }) ∧
      (half = .empty →
        let starved := match p with | .a => DetailFlag.keyStarvedA | .b => DetailFlag.keyStarvedB
        let missed := { x with misses := x.misses + 1, progress := some ⟨fillCell, .leaving .fill⟩ }
        let after := fun u : State =>
          if selectTaken then { u.setPath p missed with engine := { u.engine with lastServed := r } }
          else { u.setPath p
              { missed with keyAbsent := true, starvation := min 16 (x.starvation + 1) } with
            engine := { u.engine with lastServed := r }
            status := if x.starvation = 15 then u.status.report starved else u.status }
        ((∀ q, q ≠ r → s.waits q = false) → exec .engineComplete s = .next (after d)) ∧
        exec .engineComplete s = exec .engineComplete (after s)))

/-! ### Time -/

/-- A second: the count rises by one, or at 59 a minute of the timebase comes; a part that does not run counts none
(R123, R124). A minute, whatever the order in which the blocks take it: the seconds count is 0, from any count where
the row stands alone (the model's choice, log 3), the property clock advances, every LOADED key half's life falls by
one and empties at 0, the watchdog falls and at 0 the part is OFFLINE with LINE_LOST, the lock's minutes fall and at 0
the state is LOCKED (R37, R115, R125, R150). Where no charge is made at it, that is under CONFIRM or while no preview
is at its last minute, it makes the day spend 0 at minute 1439, the folio slot listed if it was not, and leaves the
rest of the folio as it was (R75). Windows and preview minutes are in WindowsCountDown. The tables, the room address,
the engine and the phase stand. -/
def Obligations.SecondsMakeMinutes : Prop :=
  (∀ (order : List MinuteTaker) (s : State),
     (s.phase ≠ .running → exec (.secondTick order) s = .next s ∧ exec (.minuteOfTheTimebase order) s = .next s) ∧
     (s.phase = .running → s.settled = true → s.seconds < 59 →
       exec (.secondTick order) s = .next { s with seconds := s.seconds + 1 }) ∧
     (s.phase = .running → s.seconds = 59 → exec (.secondTick order) s = exec (.minuteOfTheTimebase order) s)) ∧
  (∀ (order : List MinuteTaker) (s : State), s.phase = .running → s.settled = true →
     ∃ t, exec (.minuteOfTheTimebase order) s = .next t ∧ t.seconds = 0 ∧
       t.clock.set = s.clock.set ∧
       (s.clock.minute < 1439 → t.clock.minute = s.clock.minute + 1 ∧ t.clock.day = s.clock.day) ∧
       (1439 ≤ s.clock.minute → t.clock.minute = 0 ∧ t.clock.day = s.clock.day + 1) ∧
       t.keys.length = s.keys.length ∧
       (∀ (i : Nat) (c c' : KeyContext), s.keys[i]? = some c → t.keys[i]? = some c' → ∀ p,
         (c.half p = .empty → c'.half p = .empty) ∧
         (∀ key life, c.half p = .loaded key life →
           (life ≤ 1 → c'.half p = .empty) ∧ (2 ≤ life → c'.half p = .loaded key (life - 1)))) ∧
       (s.line.online = true → 2 ≤ s.line.watchdog → t.line = { s.line with watchdog := s.line.watchdog - 1 }) ∧
       (s.line.online = true → s.line.watchdog ≤ 1 →
         t.line = { s.line with watchdog := 0, online := false } ∧ t.status.detail.getLsbD 0 = true) ∧
       (s.line.online = false → t.line = s.line) ∧
       (s.lock.state = .locked → t.lock = s.lock) ∧
       (s.lock.state ≠ .locked → 2 ≤ s.lock.minutes → t.lock = { s.lock with minutes := s.lock.minutes - 1 }) ∧
       (s.lock.state = .unlocked → s.lock.minutes ≤ 1 →
         t.lock = { s.lock with state := .locked, minutes := 0 } ∧ t.status.detail.getLsbD 13 = true ∧
           t.listed lockSlot) ∧
       (s.lock.state = .lockout → s.lock.minutes ≤ 1 →
         t.lock = { s.lock with state := .locked, minutes := 0, length := 0 } ∧ t.listed lockSlot) ∧
       (LogSound s → (s.folio.policy = .confirm ∨ ∀ r ∈ s.log, r.state = .preview → r.used + 1 < r.limit) →
         (s.clock.minute < 1439 → t.folio = s.folio) ∧
         (1439 ≤ s.clock.minute →
           t.folio = { s.folio with daySpend := 0 } ∧ (s.folio.daySpend ≠ 0 → t.listed folioSlot))) ∧
       t.channels = s.channels ∧ t.offers = s.offers ∧ t.room = s.room ∧ t.engine = s.engine ∧ t.phase = s.phase)

/-- Every record BOUGHT when a minute comes loses one window minute at it, its slot listed when that reaches a
multiple of 15, or at its last one is ENDED and WINDOW_ENDED is set (R92, R136). Every PREVIEW record whose title a
path is PREVIEWING gains one minute, once for both paths, and its slot is listed; any other keeps its minutes; at a
minute that ends nothing by which paths judge, that is all that happens to the log and the paths (R89). WINDOW_END is
a record's last window minute alone: it is ENDED with its charge kept, or leaves the log if it was released, its slot
is listed and the folio stands (R92, R101; the row alone is the model's choice, log 4). Each path showing the title
asks again and is answered NONE, MUTED with NOT_ENTITLED, where no other active record carries the title; no preview
starts (R88, R92; R92 followed over R86 by log 10), and a path that does not show it stands. An ORDER that waits for a
record that leaves is answered OK and BUSY clears; otherwise the set port stands (R95). -/
def Obligations.WindowsCountDown : Prop :=
  (∀ (order : List MinuteTaker) (s : State), s.phase = .running → s.settled = true → LogSound s →
     ∃ t, exec (.minuteOfTheTimebase order) s = .next t ∧
       (∀ r w, r ∈ s.log → r.state = .bought w → 2 ≤ w → { r with state := .bought (w - 1) } ∈ t.log) ∧
       (∀ r w, r ∈ s.log → r.state = .bought w → w ≤ 1 →
         (r.released = false → { r with state := .ended } ∈ t.log) ∧ t.status.detail.getLsbD 15 = true) ∧
       (∀ r w, r ∈ s.log → r.state = .bought w → (w - 1) % 15 = 0 → t.listed r.slot) ∧
       (∀ r ∈ s.log, r.final = true → r ∈ t.log)) ∧
  (∀ (order : List MinuteTaker) (s : State), s.phase = .running → s.settled = true → LogSound s →
     (s.lock.state = .locked ∨ 2 ≤ s.lock.minutes) → (∀ r w, r ∈ s.log → r.state = .bought w → 2 ≤ w) →
     (∀ r ∈ s.log, r.state = .preview → s.watched r.title = true → r.used + 1 < r.limit) →
     ∃ t, exec (.minuteOfTheTimebase order) s = .next t ∧ t.pathA = s.pathA ∧ t.pathB = s.pathB ∧
       t.log = s.log.map (fun r =>
         match r.state with
         | .preview => if s.watched r.title then { r with used := r.used + 1 } else r
         | .bought w => { r with state := .bought (w - 1) }
         | _ => r) ∧
       (∀ r ∈ s.log, r.state = .preview → s.watched r.title = true → t.listed r.slot) ∧
       t.nextSeq = s.nextSeq ∧ t.previewed = s.previewed) ∧
  (∀ (s : State) (r : Record), s.phase = .running → s.settled = true → LogSound s → r ∈ s.log → r.state = .bought 1 →
     ∃ t, exec (.windowEnd r.seq) s = .next t ∧
       t.log = s.log.filterMap (fun x =>
         if x.seq = r.seq then if r.released then none else some { r with state := .ended } else some x) ∧
       t.nextSeq = s.nextSeq ∧ t.previewed = s.previewed ∧ t.status.detail.getLsbD 15 = true ∧ t.listed r.slot ∧
       (∀ q, s.showsTitle q r.title → t.pathRecalled q) ∧
       (∀ q i, (s.path q).selected = some i → s.asksLog i → (s.offerAt (s.channelAt i).offer).title = r.title →
         ¬t.hasBought r.title → ¬t.hasPreview r.title →
         (t.path q).answer = .none ∧ (t.path q).admitted = .muted .notEntitled) ∧
       (∀ q, ¬s.showsTitle q r.title → t.path q = s.path q) ∧
       s.portAfterRemoval t (fun seq => seq = r.seq ∧ r.released = true) ∧
       { t.withAdmissionOf s with port := s.port } = s)

/-- The single shares of a minute at their last minute: midnight, the end of a key half's life, an unlock's expiry, a
lockout's end and the watchdog's expiry each have the effect of their rule and no other (R37, R75, R115, R125, R150;
shares of a minute as commands are the model's choice, log 4). -/
def Obligations.LastMinutesTakeEffect : Prop :=
  ∀ s : State, s.phase = .running → s.settled = true →
    (s.clock.minute = 1439 →
      ∃ t, exec .midnightDayChange s = .next t ∧
        t.clock = { s.clock with minute := 0, day := s.clock.day + 1 } ∧ t.folio = { s.folio with daySpend := 0 } ∧
        (s.folio.daySpend ≠ 0 → t.listed folioSlot) ∧ (s.folio.daySpend = 0 → t.store = s.store) ∧
        { t with clock := s.clock, folio := s.folio, store := s.store } = s) ∧
    (∀ context c key, s.keys[context]? = some c →
      (c.even = .loaded key 1 →
        exec (.keyLifeExpiry context .even) s =
          .next { s with keys := s.keys.set context { c with even := .empty } }) ∧
      (c.odd = .loaded key 1 →
        exec (.keyLifeExpiry context .odd) s =
          .next { s with keys := s.keys.set context { c with odd := .empty } })) ∧
    (s.lock.state = .unlocked → s.lock.minutes = 1 →
      ∃ t, exec .unlockExpiry s = .next t ∧ t.lock = { s.lock with state := .locked, minutes := 0 } ∧
        t.status.detail.getLsbD 13 = true ∧ t.listed lockSlot ∧
        (s.lock.guest < s.lock.hard → t.judgedAfresh) ∧
        (s.lock.hard ≤ s.lock.guest → t.pathA = s.pathA ∧ t.pathB = s.pathB ∧ t.log = s.log) ∧
        { t.withAdmissionOf s with lock := s.lock } = s) ∧
    (s.lock.state = .lockout → s.lock.minutes = 1 →
      ∃ t, exec .lockoutEnd s = .next t ∧ t.lock = { s.lock with state := .locked, minutes := 0, length := 0 } ∧
        t.listed lockSlot ∧ { t with lock := s.lock, store := s.store } = s) ∧
    (s.line.online = true → s.line.watchdog = 1 →
      exec .watchdogExpiry s =
        .next { s with
          line := { s.line with watchdog := 0, online := false }, status := s.status.report .lineLost })

/-- A preview's last minute (R89; the row alone is the model's choice, log 4). Under CONFIRM the record lapses without
a charge (R90). Under AUTO, with a valid offer for the title in a good offer table the folio unit is asked; a granted
charge makes the record BOUGHT with its window and sets CHARGED, a refusal makes it DECLINED with the code; a title no
offer carries is DECLINED with NO_OFFER, a bad table with TABLE_FAULT (R67 to R72, R91). In every case each path that
shows the title judges (R88; a path PREVIEWING a title that its entry no longer carries too, by R11 and log 9). -/
def Obligations.PreviewEndsByPolicy : Prop :=
  (∀ (s : State) (r : Record) (p : PathId), s.phase = .running → s.settled = true → LogSound s → r ∈ s.log →
     r.state = .preview → r.released = false → r.limit = r.used + 1 → s.folio.policy = .confirm →
     (s.path p).state = .previewing → (s.path p).title = r.title →
     ∃ t, exec (.previewLapse r.seq) s = .next t ∧ { r with used := r.limit, state := .lapsed } ∈ t.log ∧
       t.folio = s.folio ∧ t.listed r.slot ∧ (∀ x ∈ s.log, x.seq ≠ r.seq → x ∈ t.log) ∧
       (∀ q, s.showsOrPreviews q r.title → t.pathJudged q) ∧
       t.withAdmissionOf s = s) ∧
  (∀ (s : State) (r : Record) (p : PathId), s.phase = .running → s.settled = true → LogSound s → r ∈ s.log →
     r.state = .preview → r.released = false → r.limit = r.used + 1 → s.folio.policy = .auto →
     (s.path p).state = .previewing → (s.path p).title = r.title →
     let ended := fun t (state : RecordState) (charge : Option Charge) =>
       exec (.autoCharge r.seq) s = .next t ∧
         { r with used := r.limit, state := state, charge := charge } ∈ t.log ∧ t.listed r.slot ∧
         (∀ x ∈ s.log, x.seq ≠ r.seq → x ∈ t.log) ∧ (∀ q, s.showsOrPreviews q r.title → t.pathJudged q) ∧
         { t.withAdmissionOf s with folio := s.folio } = s
     ((∀ i, i < 32 → ¬((s.offerAt i).valid = true ∧ (s.offerAt i).title = r.title)) →
       ∃ t, ended t (.declined .noOffer) r.charge ∧ t.folio = s.folio) ∧
     (∀ i, i < 32 → (s.offerAt i).valid = true → (s.offerAt i).title = r.title →
       (∀ j, j < i → ¬((s.offerAt j).valid = true ∧ (s.offerAt j).title = r.title)) →
       let o := s.offerAt i
       (s.offers.bad = true → ∃ t, ended t (.declined .tableFault) r.charge ∧ t.folio = s.folio) ∧
       (∀ code, s.offers.bad = false → s.chargeRefusal o = some code →
         ∃ t, ended t (.declined code) r.charge ∧ t.folio = s.folio) ∧
       (s.offers.bad = false → s.chargeRefusal o = none →
         ∃ t, ended t (.bought (60 * max 1 (min o.window 48))) (some (s.chargeFor o)) ∧ t.folio = s.folioAfter o ∧
           (t.folio ≠ s.folio → t.listed folioSlot) ∧ t.status.detail.getLsbD 14 = true ∧
           (0 < (s.chargeFor o).waived → t.status.detail.getLsbD 16 = true))))

/-! ### Tables -/

/-- A scan step folds the live entry at its position; before the last entry it only advances; a STOPPED scan takes no
step (R52; the bytes as they stand, also of an EMPTY or empty entry, the model's reading of R45, log 39). The last
entry ends the pass and a new one begins, diagnostic if a request is held: an ordinary pass sets table-bad and the
table's mismatch flag when it differs from the committed check value, and clears table-bad when it agrees, the paths
judging if that changed it, and the other table stands; a diagnostic pass only sets DIAG_MISMATCH (R53, R55, R56). An
upset alters the bytes of one live entry and nothing else (R46). -/
def Obligations.ScanComparesLiveTable : Prop :=
  (∀ (t : TableId) (s : State), s.phase.awake = true →
     ((s.table t).scan = none → exec (.scanStep t) s = .next s) ∧
     (∀ sc e, (s.table t).scan = some sc → sc.position + 1 < t.size → (s.table t).live[sc.position]? = some e →
       exec (.scanStep t) s =
         .next (s.setTable t { s.table t with
           scan := some { sc with position := sc.position + 1, crc := e.foldl crcByte sc.crc } }))) ∧
  (∀ (t : TableId) (s : State) (sc : Scan) (e : List Byte), s.phase.awake = true → s.settled = true →
     (s.table t).scan = some sc → sc.position + 1 = t.size → (s.table t).live[sc.position]? = some e →
     let x := s.table t
     let differs := decide (e.foldl crcByte sc.crc ≠ x.check)
     let next : Scan := { position := 0, crc := if x.diagHeld then 0xFF00 else 0xFFFF, diagnostic := x.diagHeld }
     let mismatch := match t with | .channel => DetailFlag.channelMismatch | .offer => DetailFlag.offerMismatch
     (sc.diagnostic = true →
       exec (.scanStep t) s =
         .next { s.setTable t { x with scan := some next, diagHeld := false } with
           status := if differs then s.status.report .diagMismatch else s.status }) ∧
     (sc.diagnostic = false → differs = x.bad →
       exec (.scanStep t) s =
         .next { s.setTable t { x with scan := some next, diagHeld := false } with
           status := if differs then s.status.report mismatch else s.status }) ∧
     (sc.diagnostic = false → differs ≠ x.bad →
       ∃ u, exec (.scanStep t) s = .next u ∧
         u.table t = { x with scan := some next, diagHeld := false, bad := differs } ∧
         (∀ t', t' ≠ t → u.table t' = s.table t') ∧
         (differs = true → u.status.detail &&& mismatch.mark ≠ 0) ∧ u.judgedAfresh ∧ s.log <+: u.log ∧
         { u.withAdmissionOf s with channels := s.channels, offers := s.offers } = s)) ∧
  (∀ (t : TableId) (i : Nat) (e : List Byte) (s : State), s.phase.awake = true → i < t.size →
     e.length = t.entryBytes →
     exec (.liveTableUpset t i e) s =
       .next (s.setTable t { s.table t with live := (s.table t).live.set i e }))

/-! ### Store and supply -/

/-- A slot write completes: the slot holds the captured image; a command that waits on that slot for this write gets
its final reply and BUSY clears; the next listed slot's write begins with its image captured now (R95, R134, R135,
R141). The images: the folio record with the next sequence number, the lock record without its minutes, the room
address, a free marker, or the record in the slot with its window rounded up to a multiple of 15 (R131, R132, R136).
No command but a completion, in its own row or as RESET takes effect, and a loss of power changes what any slot holds
(R131, R134, R137). -/
def Obligations.SlotWritesCaptureAndRelease : Prop :=
  (∀ (c : Instr) (s t : State),
     c ≠ .slotWriteComplete → c ≠ .resetTakesEffect → c ≠ .powerLoss → c ≠ .powerOnReset → exec c s = .next t →
     t.store.slots = s.store.slots) ∧
  (∀ (s : State) (w : SlotWrite), s.phase = .running → s.store.write = some w → s.port.busy ≠ .reset →
     ∃ t, exec .slotWriteComplete s = .next t ∧
       t.store.slots = s.store.slots.set w.slot (.intact w.image) ∧ t.store.dirty = s.store.dirty.tail ∧
       (s.store.dirty = [] → t.store.write = none) ∧
       (∀ k rest, s.store.dirty = k :: rest →
         ∃ v, t.store.write = some v ∧ v.slot = k ∧ v.image = captureImage s k ∧
           (v.releases = true ↔ ∃ c, t.port.busy = .store c ∧ c.slot = k)) ∧
       ((w.releases = false ∨ ∀ c, s.port.busy = .store c → c.slot ≠ w.slot) → t.port = s.port) ∧
       (∀ c, w.releases = true → s.port.busy = .store c → c.slot = w.slot →
         t.port.busy = .clear ∧ t.port.ready = true ∧
         t.port.slot = some (match c with
           | .order seq _ billed waived window =>
             { code := 0x20, result := .ok, data := be 2 seq.toNat ++ be 3 billed ++ be 3 waived ++ be 2 window }
           | .setPin => { code := 0x31, result := .ok, data := lockReport s.lock }
           | .setCeiling => { code := 0x32, result := .ok, data := lockReport s.lock }
           | .setRoom => { code := 0x40, result := .ok, data := be 2 s.room.toNat })) ∧
       { t with store := s.store, port := s.port } = s) ∧
  (∀ s : State, LogSound s →
     captureImage s 48 = .folio s.folio s.nextSeq ∧ captureImage s 49 = .lock { s.lock with minutes := 0 } ∧
     captureImage s 50 = .config s.room ∧
     (∀ k, k < 48 → (∀ r ∈ s.log, r.slot ≠ k) → captureImage s k = .free) ∧
     (∀ r ∈ s.log,
       (∀ w, r.state = .bought w →
         ∃ v, captureImage s r.slot = .record { r with state := .bought v } ∧ v % 15 = 0 ∧ w ≤ v ∧ v < w + 15) ∧
       ((∀ w, r.state ≠ .bought w) → captureImage s r.slot = .record r)))

/-- Power loss tears the write in flight and loses everything but the slots; power-on begins the start-up check with
every volatile value at its reset value (R137, R138, R142; a power-on while powered and pins without supply are the
model's choice, log 15, and a power-on while RESETN is low too, log 41). A pin reset resets every volatile value at
once, tears no slot, lets a write in flight run to its completion, before RESETN rises or after, without releasing a
command (R137); its release begins the start-up check, after that write (R138). Both resets abandon a frame in
progress (R160; that it stays so until SSEL rises is the model's reading, log 21). The working copies during the check
hold the values of damaged slots (the model's choice, log 12). -/
def Obligations.SupplyAndPinReset : Prop :=
  (∀ s : State,
     let slots := match s.store.write with | some w => s.store.slots.set w.slot .damaged | none => s.store.slots
     let fresh := { State.reset with
       store := { State.reset.store with slots := slots }, choice := s.choice, pending := s.pending
       port := { State.reset.port with frame := if s.port.frame = .idle then .idle else .abandoned } }
     exec .powerLoss s = .next { fresh with phase := .off } ∧ exec .powerOnReset s = .next fresh ∧
     (s.phase = .off → exec .pinReset s = .next s)) ∧
  (∀ s : State,
     (s.phase ≠ .off →
       exec .pinReset s =
         .next { State.reset with
           phase := .inReset
           store :=
             { slots := s.store.slots, dirty := [], damagedCount := 0
               write := s.store.write.map (fun w => { w with releases := false }) }
           port := { State.reset.port with frame := if s.port.frame = .idle then .idle else .abandoned }
           choice := s.choice, pending := s.pending }) ∧
     (s.phase = .inReset →
       exec .pinResetRelease s =
         .next { s with phase := if s.store.write = none then .checking else .released }) ∧
     (∀ w, s.phase = .inReset → s.store.write = some w → s.store.dirty = [] → s.port.busy = .clear →
       exec .slotWriteComplete s =
         .next { s with
           store := { s.store with slots := s.store.slots.set w.slot (.intact w.image), write := none } }) ∧
     (∀ w, s.phase = .released → s.store.write = some w → s.store.dirty = [] → s.port.busy = .clear →
       exec .slotWriteComplete s =
         .next { s with
           phase := .checking
           store := { s.store with slots := s.store.slots.set w.slot (.intact w.image), write := none } }))

/-- The start-up check rebuilds the folio, the lock record and the room address from good slots, or the values of R81,
R121 and R139 from damaged ones, an unlock ended and a lockout begun again at its full length; a damaged folio slot
sets FOLIO_SLOT_LOST and has the next sequence number rebuilt from the records (R138 to R140). Damaged slots, among
them record slots that repeat a lower slot's number, are counted, set DAMAGED_SLOT and are listed in slot order,
before the slots that the log's rebuild lists (that they come first is the model's reading, log 13); the ports start
(R138, R140). Every record slot that is intact, legal and first to carry its number gives its record back with all its
fields: unchanged if it is final or of the current folio, else LAPSED or ENDED with its slot listed; one that is then
released and final leaves the log instead, its slot listed (R105, R140). The log holds no other record and stands by
distance back from the next sequence number, the greatest first; the previewed-title set holds the titles of the
current folio's records of origin PREVIEW (R105; uncapped, the model's choice, log 29); which images are legal is the
model's reading of the field tables (log 11). -/
def Obligations.StartUpRebuildsWorkingCopies : Prop :=
  (∀ s : State, s.phase = .checking → s.store.dirty = [] → s.store.write = none → s.port.busy = .clear →
     s.store.slots.length = 51 →
     ∃ t, exec .startUpCheckComplete s = .next t ∧ t.phase = .running ∧
       (∀ f next, s.store.slots[48]? = some (.intact (.folio f next)) → f.legal = true →
         t.folio = f ∧ t.nextSeq = next ∧ t.status.detail.getLsbD 11 = s.status.detail.getLsbD 11) ∧
       (¬s.store.slotGood 48 →
         t.folio =
           { number := 0, state := .closed, creditLimit := 0, dailyCap := 0, taxRate := 0, packages := 0
             policy := .confirm, allowance := 0, total := 0, daySpend := 0, offlineSpend := 0, capMark := false } ∧
         t.status.detail.getLsbD 11 = true ∧
         ((∀ k r, ¬s.store.givesRecord k r) → t.nextSeq = 0) ∧
         (∀ q, s.store.latestSeq q → (∀ q', s.store.latestSeq q' → q' = q) → t.nextSeq = q + 1) ∧
         ((¬∃ q, s.store.latestSeq q ∧ ∀ q', s.store.latestSeq q' → q' = q) → ∀ k r, s.store.givesRecord k r →
           (∀ j x, s.store.givesRecord j x → x.seq.toNat ≤ r.seq.toNat) → t.nextSeq = r.seq + 1)) ∧
       (∀ l, s.store.slots[49]? = some (.intact (.lock l)) → l.legal = true →
         t.lock = (match l.state with
           | .unlocked => { l with state := .locked, minutes := 0 }
           | .lockout => { l with minutes := l.length }
           | .locked => { l with minutes := 0 }) ∧
         (l.state = .unlocked → t.listed 49)) ∧
       (¬s.store.slotGood 49 →
         t.lock =
           { hard := 0, guest := 0, pin := none, unlockMinutes := 120, state := .locked, minutes := 0, length := 0
             wrong := 0, lockouts := 0 }) ∧
       (∀ room, s.store.slots[50]? = some (.intact (.config room)) → room ≠ 0xFFFF → t.room = room) ∧
       (¬s.store.slotGood 50 → t.room = 0) ∧
       t.store.damagedCount = s.store.badSlots.length ∧
       s.store.badSlots <+: (t.store.write.map (·.slot)).toList ++ t.store.dirty ∧
       (∀ k ∈ s.store.badSlots, t.status.detail.getLsbD 10 = true ∧ t.listed k) ∧
       (s.store.badSlots = [] → t.status.detail.getLsbD 10 = s.status.detail.getLsbD 10) ∧
       t.store.slots = s.store.slots ∧
       { t with
         phase := s.phase, folio := s.folio, nextSeq := s.nextSeq, log := s.log, previewed := s.previewed
         lock := s.lock, room := s.room, store := s.store, status := s.status } = s) ∧
  (∀ s : State, s.phase = .checking → s.store.dirty = [] → s.store.write = none → s.port.busy = .clear →
     s.store.slots.length = 51 →
     ∃ t, exec .startUpCheckComplete s = .next t ∧ LogSound t ∧
       (∀ k r0, s.store.givesRecord k r0 →
         let r := { r0 with slot := k }
         let closed := { r with state := if r.state = .preview then .lapsed else .ended }
         let current := t.folio.state ≠ .closed ∧ r.folio = t.folio.number
         let gone := (∀ x ∈ t.log, x.seq ≠ r.seq) ∧ t.listed k
         (r.final = true → r.released = true → gone) ∧ (r.final = true → r.released = false → r ∈ t.log) ∧
         (r.final = false → current → r ∈ t.log) ∧
         (r.final = false → ¬current → r.released = true → gone) ∧
         (r.final = false → ¬current → r.released = false → closed ∈ t.log ∧ t.listed k)) ∧
       (∀ r ∈ t.log, ∃ r0, s.store.givesRecord r.slot r0 ∧ r = { r0 with slot := r.slot, state := r.state } ∧
         (r.state = r0.state ∨ r0.state = .preview ∧ r.state = .lapsed ∨
           (∃ w, r0.state = .bought w) ∧ r.state = .ended)) ∧
       (∀ r ∈ t.log, r.final = false → t.folio.state ≠ .closed ∧ r.folio = t.folio.number) ∧
       (∀ r ∈ t.log, ¬(r.released = true ∧ r.final = true)) ∧
       t.log.Pairwise (fun older newer =>
         (if t.nextSeq = newer.seq then 65536 else (t.nextSeq - newer.seq).toNat) <
           (if t.nextSeq = older.seq then 65536 else (t.nextSeq - older.seq).toNat)) ∧
       (∀ title, title ∈ t.previewed ↔
         ∃ r ∈ t.log, r.title = title ∧ r.origin = .preview ∧ t.folio.state ≠ .closed ∧ r.folio = t.folio.number) ∧
       t.previewed.Nodup ∧ (40 ≤ t.log.length → t.status.detail.getLsbD 17 = true))

/-! ### Formulas of single rules -/

/-- The tax is (P × t + 5000) div 10000, a half cent up; it is 0 at rate 0 and at price 0, and within the ranges at
most 30,000, so that the full charge is at most 129,999 (R68). -/
def Obligations.TaxRoundsHalfUp : Prop :=
  ∀ price rate : Nat, price ≤ 99999 → rate ≤ 3000 →
    taxOf price rate = (price * rate + 5000) / 10000 ∧
    (2 * (price * rate % 10000) < 10000 → taxOf price rate = price * rate / 10000) ∧
    (10000 ≤ 2 * (price * rate % 10000) → taxOf price rate = price * rate / 10000 + 1) ∧
    taxOf price 0 = 0 ∧ taxOf 0 rate = 0 ∧ price * rate ≤ 299997000 ∧ taxOf price rate ≤ 30000 ∧
    price + taxOf price rate ≤ 129999 ∧ taxOf 5 1000 = 1 ∧ taxOf 4 1000 = 0

/-! ### Invariants -/

/-- The state right after power-on reset satisfies every invariant. -/
def Obligations.ResetSatisfiesInvariants : Prop :=
  PathsSound State.reset ∧ EngineSound State.reset ∧ KeysSound State.reset ∧ TablesSound State.reset ∧
    MoneySound State.reset ∧ ChargesBalance State.reset ∧ LogSound State.reset ∧ PreviewSound State.reset ∧
    LockSound State.reset ∧ TimeSound State.reset ∧ LineSound State.reset ∧ StoreSound State.reset

/-- Every step keeps the folio total within the credit limit, the offline spend within the allowance and the day spend
within a daily cap, in the working copy and in every stored image, and billed plus waived equal to list price plus tax
in every charged record, logged or stored (R69 to R71). -/
def Obligations.StepKeepsMoneyAndCharges : Prop :=
  (∀ s t : State, MoneySound s → step s = .next t → MoneySound t) ∧
  (∀ s t : State, ChargesBalance s → step s = .next t → ChargesBalance t)

/-- Every step keeps the log at 48 records or fewer, with distinct sequence numbers and distinct record slots (R83,
R98, R132), and keeps a path PREVIEWING only while a PREVIEW record of the current folio for its title has minutes
left (R11). -/
def Obligations.StepKeepsLogAndPreviews : Prop :=
  (∀ s t : State, LogSound s → step s = .next t → LogSound t) ∧
  (∀ s t : State, LogSound s → PreviewSound s → step s = .next t → PreviewSound t)

/-- Every step keeps the lock record within its ranges and UNLOCKED only while a PIN is set (R107), each FIFO at four
good cells or fewer, each table's shape, the key lives, the clocks and the line port within their ranges (R3, R17,
R34, R45, R52, R123, R147, R150). -/
def Obligations.StepKeepsRanges : Prop :=
  (∀ s t : State, LockSound s → step s = .next t → LockSound t) ∧
  (∀ s t : State, step s = .next t →
     (PathsSound s → PathsSound t) ∧ (TablesSound s → TablesSound t) ∧ (KeysSound s → KeysSound t) ∧
       (TimeSound s → TimeSound t) ∧ (LineSound s → LineSound t))

/-- Every step keeps the engine's account: nobody waits at an IDLE engine, it serves exactly the path whose cell is in
it, and BUSY has cause ENGINE exactly while a test waits or is served (R22 to R24, R157). -/
def Obligations.StepKeepsEngineSound : Prop :=
  ∀ s t : State, EngineSound s → step s = .next t → EngineSound t

/-- Every step keeps the dirty list free of repetition, a listed slot with a write before it, and the slots 51 in
number (R131, R133, R134). -/
def Obligations.StepKeepsStoreSound : Prop :=
  ∀ s t : State, LogSound s → StoreSound s → step s = .next t → StoreSound t
end

