-- ==== Sys2Proof/Laws/State.lean ====
section
/-!
SUPPORT. The updates of the state by name: each reads back what was written and leaves every other field unchanged.
-/
namespace Sys2Proof.Machine

@[simp] theorem path_setPath_same (p : PathId) (x : Path) (s : State) : (s.setPath p x).path p = x := by
  cases p <;> rfl

@[simp] theorem path_setPath_other (p : PathId) (x : Path) (s : State) :
    (s.setPath p x).path p.other = s.path p.other := by
  cases p <;> rfl

theorem path_setPath (p q : PathId) (x : Path) (s : State) :
    (s.setPath p x).path q = if q = p then x else s.path q := by
  cases p <;> cases q <;> rfl

@[simp] theorem setPath_path (p : PathId) (s : State) : s.setPath p (s.path p) = s := by cases p <;> rfl

@[simp] theorem setPath_setPath (p : PathId) (x y : Path) (s : State) :
    (s.setPath p x).setPath p y = s.setPath p y := by cases p <;> rfl

/-- Writing a path leaves everything but the two paths unchanged. -/
@[simp] theorem setPath_keeps (p : PathId) (x : Path) (s : State) :
    (s.setPath p x).phase = s.phase ∧ (s.setPath p x).engine = s.engine ∧ (s.setPath p x).keys = s.keys ∧
    (s.setPath p x).channels = s.channels ∧ (s.setPath p x).offers = s.offers ∧ (s.setPath p x).folio = s.folio ∧
    (s.setPath p x).log = s.log ∧ (s.setPath p x).nextSeq = s.nextSeq ∧ (s.setPath p x).previewed = s.previewed ∧
    (s.setPath p x).lock = s.lock ∧ (s.setPath p x).seconds = s.seconds ∧ (s.setPath p x).clock = s.clock ∧
    (s.setPath p x).store = s.store ∧ (s.setPath p x).room = s.room ∧ (s.setPath p x).line = s.line ∧
    (s.setPath p x).port = s.port ∧ (s.setPath p x).status = s.status ∧ (s.setPath p x).choice = s.choice ∧
    (s.setPath p x).pending = s.pending := by
  cases p <;> simp [State.setPath]

@[simp] theorem table_setTable_same (t : TableId) (x : Table) (s : State) : (s.setTable t x).table t = x := by
  cases t <;> rfl

/-- Writing a table leaves everything but the two tables unchanged. -/
@[simp] theorem setTable_keeps (t : TableId) (x : Table) (s : State) :
    (s.setTable t x).phase = s.phase ∧ (s.setTable t x).pathA = s.pathA ∧ (s.setTable t x).pathB = s.pathB ∧
    (s.setTable t x).engine = s.engine ∧ (s.setTable t x).keys = s.keys ∧ (s.setTable t x).folio = s.folio ∧
    (s.setTable t x).log = s.log ∧ (s.setTable t x).nextSeq = s.nextSeq ∧ (s.setTable t x).previewed = s.previewed ∧
    (s.setTable t x).lock = s.lock ∧ (s.setTable t x).seconds = s.seconds ∧ (s.setTable t x).clock = s.clock ∧
    (s.setTable t x).store = s.store ∧ (s.setTable t x).room = s.room ∧ (s.setTable t x).line = s.line ∧
    (s.setTable t x).port = s.port ∧ (s.setTable t x).status = s.status ∧ (s.setTable t x).choice = s.choice ∧
    (s.setTable t x).pending = s.pending := by
  cases t <;> simp [State.setTable]

/-- A wait for the engine is read from a path's cell in progress and the waiting test alone. -/
theorem waits_congr {s t : State} (ha : t.pathA.progress = s.pathA.progress) (hb : t.pathB.progress = s.pathB.progress)
    (he : t.engine.testWaiting = s.engine.testWaiting) (r : Requester) : t.waits r = s.waits r := by
  rcases r with p | _
  · cases p <;> simp [State.waits, State.path, ha, hb]
  · simp [State.waits, he]

/-- `setTable` of one table, read at the other. -/
theorem table_setTable (t u : TableId) (x : Table) (s : State) :
    (s.setTable t x).table u = if u = t then x else s.table u := by
  cases t <;> cases u <;> rfl

end Sys2Proof.Machine
end

