-- ==== Sys2Proof/Laws/KeepsOps.lean ====
section
/-!
SUPPORT. What each shared operation leaves unchanged: for each operation, every field of the state that it does not write. One
theorem for each operation, a rewriting rule for each of its fields.
-/
namespace Sys2Proof.Machine

@[simp] theorem report_keeps (f : DetailFlag) (s : State) :
    (report f s).phase = s.phase ∧ (report f s).pathA = s.pathA ∧ (report f s).pathB = s.pathB ∧
    (report f s).engine = s.engine ∧ (report f s).keys = s.keys ∧ (report f s).channels = s.channels ∧
    (report f s).offers = s.offers ∧ (report f s).folio = s.folio ∧ (report f s).log = s.log ∧
    (report f s).nextSeq = s.nextSeq ∧ (report f s).previewed = s.previewed ∧ (report f s).lock = s.lock ∧
    (report f s).seconds = s.seconds ∧ (report f s).clock = s.clock ∧ (report f s).store = s.store ∧
    (report f s).room = s.room ∧ (report f s).line = s.line ∧ (report f s).port = s.port ∧
    (report f s).choice = s.choice ∧ (report f s).pending = s.pending := by
  simp only [report]
  simp

@[simp] theorem listSlot_keeps (k : Nat) (s : State) :
    (listSlot k s).phase = s.phase ∧ (listSlot k s).pathA = s.pathA ∧ (listSlot k s).pathB = s.pathB ∧
    (listSlot k s).engine = s.engine ∧ (listSlot k s).keys = s.keys ∧ (listSlot k s).channels = s.channels ∧
    (listSlot k s).offers = s.offers ∧ (listSlot k s).folio = s.folio ∧ (listSlot k s).log = s.log ∧
    (listSlot k s).nextSeq = s.nextSeq ∧ (listSlot k s).previewed = s.previewed ∧ (listSlot k s).lock = s.lock ∧
    (listSlot k s).seconds = s.seconds ∧ (listSlot k s).clock = s.clock ∧ (listSlot k s).room = s.room ∧
    (listSlot k s).line = s.line ∧ (listSlot k s).port = s.port ∧ (listSlot k s).status = s.status ∧
    (listSlot k s).choice = s.choice ∧ (listSlot k s).pending = s.pending := by
  simp only [listSlot]
  (repeat' split) <;> simp

@[simp] theorem startWrite_keeps (s : State) :
    (startWrite s).phase = s.phase ∧ (startWrite s).pathA = s.pathA ∧ (startWrite s).pathB = s.pathB ∧
    (startWrite s).engine = s.engine ∧ (startWrite s).keys = s.keys ∧ (startWrite s).channels = s.channels ∧
    (startWrite s).offers = s.offers ∧ (startWrite s).folio = s.folio ∧ (startWrite s).log = s.log ∧
    (startWrite s).nextSeq = s.nextSeq ∧ (startWrite s).previewed = s.previewed ∧ (startWrite s).lock = s.lock ∧
    (startWrite s).seconds = s.seconds ∧ (startWrite s).clock = s.clock ∧ (startWrite s).room = s.room ∧
    (startWrite s).line = s.line ∧ (startWrite s).port = s.port ∧ (startWrite s).status = s.status ∧
    (startWrite s).choice = s.choice ∧ (startWrite s).pending = s.pending := by
  simp only [startWrite]
  (repeat' split) <;> simp

@[simp] theorem setFolio_keeps (f : Folio) (s : State) :
    (setFolio f s).phase = s.phase ∧ (setFolio f s).pathA = s.pathA ∧ (setFolio f s).pathB = s.pathB ∧
    (setFolio f s).engine = s.engine ∧ (setFolio f s).keys = s.keys ∧ (setFolio f s).channels = s.channels ∧
    (setFolio f s).offers = s.offers ∧ (setFolio f s).log = s.log ∧ (setFolio f s).nextSeq = s.nextSeq ∧
    (setFolio f s).previewed = s.previewed ∧ (setFolio f s).lock = s.lock ∧ (setFolio f s).seconds = s.seconds ∧
    (setFolio f s).clock = s.clock ∧ (setFolio f s).room = s.room ∧ (setFolio f s).line = s.line ∧
    (setFolio f s).port = s.port ∧ (setFolio f s).status = s.status ∧ (setFolio f s).choice = s.choice ∧
    (setFolio f s).pending = s.pending := by
  simp only [setFolio]
  (repeat' split) <;> simp

@[simp] theorem placeReply_keeps (code : Byte) (r : ResultCode) (data : List Byte) (s : State) :
    (placeReply code r data s).phase = s.phase ∧ (placeReply code r data s).pathA = s.pathA ∧
    (placeReply code r data s).pathB = s.pathB ∧ (placeReply code r data s).engine = s.engine ∧
    (placeReply code r data s).keys = s.keys ∧ (placeReply code r data s).channels = s.channels ∧
    (placeReply code r data s).offers = s.offers ∧ (placeReply code r data s).folio = s.folio ∧
    (placeReply code r data s).log = s.log ∧ (placeReply code r data s).nextSeq = s.nextSeq ∧
    (placeReply code r data s).previewed = s.previewed ∧ (placeReply code r data s).lock = s.lock ∧
    (placeReply code r data s).seconds = s.seconds ∧ (placeReply code r data s).clock = s.clock ∧
    (placeReply code r data s).store = s.store ∧ (placeReply code r data s).room = s.room ∧
    (placeReply code r data s).line = s.line ∧ (placeReply code r data s).status = s.status ∧
    (placeReply code r data s).choice = s.choice ∧ (placeReply code r data s).pending = s.pending := by
  simp only [placeReply]
  simp

@[simp] theorem setBusy_keeps (b : Busy) (s : State) :
    (setBusy b s).phase = s.phase ∧ (setBusy b s).pathA = s.pathA ∧ (setBusy b s).pathB = s.pathB ∧
    (setBusy b s).engine = s.engine ∧ (setBusy b s).keys = s.keys ∧ (setBusy b s).channels = s.channels ∧
    (setBusy b s).offers = s.offers ∧ (setBusy b s).folio = s.folio ∧ (setBusy b s).log = s.log ∧
    (setBusy b s).nextSeq = s.nextSeq ∧ (setBusy b s).previewed = s.previewed ∧ (setBusy b s).lock = s.lock ∧
    (setBusy b s).seconds = s.seconds ∧ (setBusy b s).clock = s.clock ∧ (setBusy b s).store = s.store ∧
    (setBusy b s).room = s.room ∧ (setBusy b s).line = s.line ∧ (setBusy b s).status = s.status ∧
    (setBusy b s).choice = s.choice ∧ (setBusy b s).pending = s.pending := by
  simp only [setBusy]
  simp

@[simp] theorem acceptStore_keeps (w : Waiting) (code : Byte) (data : List Byte) (s : State) :
    (acceptStore w code data s).phase = s.phase ∧ (acceptStore w code data s).pathA = s.pathA ∧
    (acceptStore w code data s).pathB = s.pathB ∧ (acceptStore w code data s).engine = s.engine ∧
    (acceptStore w code data s).keys = s.keys ∧ (acceptStore w code data s).channels = s.channels ∧
    (acceptStore w code data s).offers = s.offers ∧ (acceptStore w code data s).folio = s.folio ∧
    (acceptStore w code data s).log = s.log ∧ (acceptStore w code data s).nextSeq = s.nextSeq ∧
    (acceptStore w code data s).previewed = s.previewed ∧ (acceptStore w code data s).lock = s.lock ∧
    (acceptStore w code data s).seconds = s.seconds ∧ (acceptStore w code data s).clock = s.clock ∧
    (acceptStore w code data s).room = s.room ∧ (acceptStore w code data s).line = s.line ∧
    (acceptStore w code data s).status = s.status ∧ (acceptStore w code data s).choice = s.choice ∧
    (acceptStore w code data s).pending = s.pending := by
  simp only [acceptStore]
  simp

@[simp] theorem finishWaiting_keeps (w : Waiting) (s : State) :
    (finishWaiting w s).phase = s.phase ∧ (finishWaiting w s).pathA = s.pathA ∧ (finishWaiting w s).pathB = s.pathB ∧
    (finishWaiting w s).engine = s.engine ∧ (finishWaiting w s).keys = s.keys ∧
    (finishWaiting w s).channels = s.channels ∧ (finishWaiting w s).offers = s.offers ∧
    (finishWaiting w s).folio = s.folio ∧ (finishWaiting w s).log = s.log ∧ (finishWaiting w s).nextSeq = s.nextSeq ∧
    (finishWaiting w s).previewed = s.previewed ∧ (finishWaiting w s).lock = s.lock ∧
    (finishWaiting w s).seconds = s.seconds ∧ (finishWaiting w s).clock = s.clock ∧
    (finishWaiting w s).store = s.store ∧ (finishWaiting w s).room = s.room ∧ (finishWaiting w s).line = s.line ∧
    (finishWaiting w s).status = s.status ∧ (finishWaiting w s).choice = s.choice ∧
    (finishWaiting w s).pending = s.pending := by
  cases w <;> simp [finishWaiting]

@[simp] theorem resetEffect_keeps (s : State) :
    (resetEffect s).phase = s.phase ∧ (resetEffect s).engine = s.engine ∧ (resetEffect s).keys = s.keys ∧
    (resetEffect s).channels = s.channels ∧ (resetEffect s).offers = s.offers ∧ (resetEffect s).folio = s.folio ∧
    (resetEffect s).log = s.log ∧ (resetEffect s).nextSeq = s.nextSeq ∧ (resetEffect s).previewed = s.previewed ∧
    (resetEffect s).seconds = s.seconds ∧ (resetEffect s).clock = s.clock ∧ (resetEffect s).room = s.room ∧
    (resetEffect s).line = s.line ∧ (resetEffect s).status = s.status ∧ (resetEffect s).choice = s.choice ∧
    (resetEffect s).pending = s.pending := by
  simp only [resetEffect]
  (repeat' split) <;> simp

@[simp] theorem endEvent_keeps (s : State) :
    (endEvent s).phase = s.phase ∧ (endEvent s).engine = s.engine ∧ (endEvent s).keys = s.keys ∧
    (endEvent s).channels = s.channels ∧ (endEvent s).offers = s.offers ∧ (endEvent s).folio = s.folio ∧
    (endEvent s).log = s.log ∧ (endEvent s).nextSeq = s.nextSeq ∧ (endEvent s).previewed = s.previewed ∧
    (endEvent s).seconds = s.seconds ∧ (endEvent s).clock = s.clock ∧ (endEvent s).room = s.room ∧
    (endEvent s).line = s.line ∧ (endEvent s).status = s.status ∧ (endEvent s).choice = s.choice ∧
    (endEvent s).pending = s.pending := by
  simp only [endEvent]
  (repeat' split) <;> simp

end Sys2Proof.Machine
end

