-- ==== Sys2Proof/Laws/KeepsLog.lean ====
section
/-!
SUPPORT. What each operation of the folio, the log and admission leaves unchanged: for each operation, every field of the state that it does not write. One
theorem for each operation, a rewriting rule for each of its fields.
-/
namespace Sys2Proof.Machine

@[simp] theorem grantCharge_keeps (f : Folio) (c : Charge) (s : State) :
    (grantCharge f c s).phase = s.phase ∧ (grantCharge f c s).pathA = s.pathA ∧ (grantCharge f c s).pathB = s.pathB ∧
    (grantCharge f c s).engine = s.engine ∧ (grantCharge f c s).keys = s.keys ∧
    (grantCharge f c s).channels = s.channels ∧ (grantCharge f c s).offers = s.offers ∧
    (grantCharge f c s).log = s.log ∧ (grantCharge f c s).nextSeq = s.nextSeq ∧
    (grantCharge f c s).previewed = s.previewed ∧ (grantCharge f c s).lock = s.lock ∧
    (grantCharge f c s).seconds = s.seconds ∧ (grantCharge f c s).clock = s.clock ∧
    (grantCharge f c s).room = s.room ∧ (grantCharge f c s).line = s.line ∧ (grantCharge f c s).port = s.port ∧
    (grantCharge f c s).choice = s.choice ∧ (grantCharge f c s).pending = s.pending := by
  simp only [grantCharge]
  (repeat' split) <;> simp

@[simp] theorem dayChange_keeps (s : State) :
    (dayChange s).phase = s.phase ∧ (dayChange s).pathA = s.pathA ∧ (dayChange s).pathB = s.pathB ∧
    (dayChange s).engine = s.engine ∧ (dayChange s).keys = s.keys ∧ (dayChange s).channels = s.channels ∧
    (dayChange s).offers = s.offers ∧ (dayChange s).log = s.log ∧ (dayChange s).nextSeq = s.nextSeq ∧
    (dayChange s).previewed = s.previewed ∧ (dayChange s).lock = s.lock ∧ (dayChange s).seconds = s.seconds ∧
    (dayChange s).clock = s.clock ∧ (dayChange s).room = s.room ∧ (dayChange s).line = s.line ∧
    (dayChange s).port = s.port ∧ (dayChange s).status = s.status ∧ (dayChange s).choice = s.choice ∧
    (dayChange s).pending = s.pending := by
  simp only [dayChange]
  simp

@[simp] theorem offlineSpendReset_keeps (s : State) :
    (offlineSpendReset s).phase = s.phase ∧ (offlineSpendReset s).pathA = s.pathA ∧
    (offlineSpendReset s).pathB = s.pathB ∧ (offlineSpendReset s).engine = s.engine ∧
    (offlineSpendReset s).keys = s.keys ∧ (offlineSpendReset s).channels = s.channels ∧
    (offlineSpendReset s).offers = s.offers ∧ (offlineSpendReset s).log = s.log ∧
    (offlineSpendReset s).nextSeq = s.nextSeq ∧ (offlineSpendReset s).previewed = s.previewed ∧
    (offlineSpendReset s).lock = s.lock ∧ (offlineSpendReset s).seconds = s.seconds ∧
    (offlineSpendReset s).clock = s.clock ∧ (offlineSpendReset s).room = s.room ∧
    (offlineSpendReset s).line = s.line ∧ (offlineSpendReset s).port = s.port ∧
    (offlineSpendReset s).status = s.status ∧ (offlineSpendReset s).choice = s.choice ∧
    (offlineSpendReset s).pending = s.pending := by
  simp only [offlineSpendReset]
  simp

@[simp] theorem createRecord_keeps (title : Word) (origin : Origin) (rating limit : Nat) (state : RecordState) (charge : Option Charge) (s : State) :
    (createRecord title origin rating limit state charge s).phase = s.phase ∧
    (createRecord title origin rating limit state charge s).pathA = s.pathA ∧
    (createRecord title origin rating limit state charge s).pathB = s.pathB ∧
    (createRecord title origin rating limit state charge s).engine = s.engine ∧
    (createRecord title origin rating limit state charge s).keys = s.keys ∧
    (createRecord title origin rating limit state charge s).channels = s.channels ∧
    (createRecord title origin rating limit state charge s).offers = s.offers ∧
    (createRecord title origin rating limit state charge s).folio = s.folio ∧
    (createRecord title origin rating limit state charge s).previewed = s.previewed ∧
    (createRecord title origin rating limit state charge s).lock = s.lock ∧
    (createRecord title origin rating limit state charge s).seconds = s.seconds ∧
    (createRecord title origin rating limit state charge s).clock = s.clock ∧
    (createRecord title origin rating limit state charge s).room = s.room ∧
    (createRecord title origin rating limit state charge s).line = s.line ∧
    (createRecord title origin rating limit state charge s).port = s.port ∧
    (createRecord title origin rating limit state charge s).choice = s.choice ∧
    (createRecord title origin rating limit state charge s).pending = s.pending := by
  simp only [createRecord]
  (repeat' split) <;> simp

@[simp] theorem ask_keeps (title : Word) (index : Nat) (s : State) :
    (ask title index s).state.phase = s.phase ∧ (ask title index s).state.pathA = s.pathA ∧
    (ask title index s).state.pathB = s.pathB ∧ (ask title index s).state.engine = s.engine ∧
    (ask title index s).state.keys = s.keys ∧ (ask title index s).state.channels = s.channels ∧
    (ask title index s).state.offers = s.offers ∧ (ask title index s).state.folio = s.folio ∧
    (ask title index s).state.lock = s.lock ∧ (ask title index s).state.seconds = s.seconds ∧
    (ask title index s).state.clock = s.clock ∧ (ask title index s).state.room = s.room ∧
    (ask title index s).state.line = s.line ∧ (ask title index s).state.port = s.port ∧
    (ask title index s).state.choice = s.choice ∧ (ask title index s).state.pending = s.pending := by
  simp only [ask]
  (repeat' split) <;> simp

@[simp] theorem admit_keeps (p : PathId) (st : PathState) (s : State) :
    (enterState p st s).phase = s.phase ∧ (enterState p st s).engine = s.engine ∧ (enterState p st s).keys = s.keys ∧
    (enterState p st s).channels = s.channels ∧ (enterState p st s).offers = s.offers ∧ (enterState p st s).folio = s.folio ∧
    (enterState p st s).log = s.log ∧ (enterState p st s).nextSeq = s.nextSeq ∧ (enterState p st s).previewed = s.previewed ∧
    (enterState p st s).lock = s.lock ∧ (enterState p st s).seconds = s.seconds ∧ (enterState p st s).clock = s.clock ∧
    (enterState p st s).store = s.store ∧ (enterState p st s).room = s.room ∧ (enterState p st s).line = s.line ∧
    (enterState p st s).port = s.port ∧ (enterState p st s).status = s.status ∧ (enterState p st s).choice = s.choice ∧
    (enterState p st s).pending = s.pending := by
  simp only [enterState]
  simp

@[simp] theorem judgeOnce_keeps (p : PathId) (s : State) :
    (judgeOnce p s).state.phase = s.phase ∧ (judgeOnce p s).state.engine = s.engine ∧
    (judgeOnce p s).state.keys = s.keys ∧ (judgeOnce p s).state.channels = s.channels ∧
    (judgeOnce p s).state.offers = s.offers ∧ (judgeOnce p s).state.folio = s.folio ∧
    (judgeOnce p s).state.lock = s.lock ∧ (judgeOnce p s).state.seconds = s.seconds ∧
    (judgeOnce p s).state.clock = s.clock ∧ (judgeOnce p s).state.room = s.room ∧
    (judgeOnce p s).state.line = s.line ∧ (judgeOnce p s).state.port = s.port ∧
    (judgeOnce p s).state.choice = s.choice ∧ (judgeOnce p s).state.pending = s.pending := by
  simp only [judgeOnce]
  (repeat' split) <;> simp

@[simp] theorem judge_keeps (p : PathId) (s : State) :
    (judge p s).phase = s.phase ∧ (judge p s).engine = s.engine ∧ (judge p s).keys = s.keys ∧
    (judge p s).channels = s.channels ∧ (judge p s).offers = s.offers ∧ (judge p s).folio = s.folio ∧
    (judge p s).lock = s.lock ∧ (judge p s).seconds = s.seconds ∧ (judge p s).clock = s.clock ∧
    (judge p s).room = s.room ∧ (judge p s).line = s.line ∧ (judge p s).port = s.port ∧
    (judge p s).choice = s.choice ∧ (judge p s).pending = s.pending := by
  simp only [judge]
  (repeat' split) <;> simp

@[simp] theorem judgeBoth_keeps (s : State) :
    (judgeBoth s).phase = s.phase ∧ (judgeBoth s).engine = s.engine ∧ (judgeBoth s).keys = s.keys ∧
    (judgeBoth s).channels = s.channels ∧ (judgeBoth s).offers = s.offers ∧ (judgeBoth s).folio = s.folio ∧
    (judgeBoth s).lock = s.lock ∧ (judgeBoth s).seconds = s.seconds ∧ (judgeBoth s).clock = s.clock ∧
    (judgeBoth s).room = s.room ∧ (judgeBoth s).line = s.line ∧ (judgeBoth s).port = s.port ∧
    (judgeBoth s).pending = s.pending := by
  simp only [judgeBoth]
  (repeat' split) <;> simp

@[simp] theorem judgeReached_keeps (a b : Bool) (s : State) :
    (judgeReached a b s).phase = s.phase ∧ (judgeReached a b s).engine = s.engine ∧
    (judgeReached a b s).keys = s.keys ∧ (judgeReached a b s).channels = s.channels ∧
    (judgeReached a b s).offers = s.offers ∧ (judgeReached a b s).folio = s.folio ∧
    (judgeReached a b s).lock = s.lock ∧ (judgeReached a b s).seconds = s.seconds ∧
    (judgeReached a b s).clock = s.clock ∧ (judgeReached a b s).room = s.room ∧
    (judgeReached a b s).line = s.line ∧ (judgeReached a b s).port = s.port ∧
    (judgeReached a b s).pending = s.pending := by
  simp only [judgeReached]
  (repeat' split) <;> simp

@[simp] theorem handTitle_keeps (title : Word) (s : State) :
    (handTitle title s).phase = s.phase ∧ (handTitle title s).engine = s.engine ∧ (handTitle title s).keys = s.keys ∧
    (handTitle title s).channels = s.channels ∧ (handTitle title s).offers = s.offers ∧
    (handTitle title s).folio = s.folio ∧ (handTitle title s).lock = s.lock ∧
    (handTitle title s).seconds = s.seconds ∧ (handTitle title s).clock = s.clock ∧
    (handTitle title s).room = s.room ∧ (handTitle title s).line = s.line ∧ (handTitle title s).port = s.port ∧
    (handTitle title s).pending = s.pending := by
  simp [handTitle]

@[simp] theorem handPreviewEnd_keeps (title : Word) (s : State) :
    (handPreviewEnd title s).phase = s.phase ∧ (handPreviewEnd title s).engine = s.engine ∧
    (handPreviewEnd title s).keys = s.keys ∧ (handPreviewEnd title s).channels = s.channels ∧
    (handPreviewEnd title s).offers = s.offers ∧ (handPreviewEnd title s).folio = s.folio ∧
    (handPreviewEnd title s).lock = s.lock ∧ (handPreviewEnd title s).seconds = s.seconds ∧
    (handPreviewEnd title s).clock = s.clock ∧ (handPreviewEnd title s).room = s.room ∧
    (handPreviewEnd title s).line = s.line ∧ (handPreviewEnd title s).port = s.port ∧
    (handPreviewEnd title s).pending = s.pending := by
  simp [handPreviewEnd]

/-- An answer that starts no preview leaves the log and everything else as it was (R85). -/
theorem ask_uncreated {title : Word} {index : Nat} {s : State} (h : (ask title index s).created = false) :
    (ask title index s).state = s := by
  unfold ask at h ⊢
  split
  · rfl
  split
  · rfl
  split
  · simp_all
  · rfl

/-- A judging that starts no preview writes its path's state, title and answer, and nothing else. -/
theorem judgeOnce_uncreated (p : PathId) (s : State) : (judgeOnce p s).created = none →
    ∃ title answer admitted, (judgeOnce p s).state =
      s.setPath p { s.path p with title := title, answer := answer, admitted := admitted } := by
  unfold judgeOnce
  split
  · exact fun _ => ⟨_, _, _, (setPath_path p s).symm⟩
  · dsimp only
    (repeat' split) <;> intro h
    all_goals first
      | exact ⟨(s.path p).title, (s.path p).answer, _, rfl⟩
      | (simp at h; done)
      | exact ⟨_, _, _, by rw [ask_uncreated (Bool.eq_false_iff.2 ‹_›)]⟩

/-- A judging without a preview writes its path's state, title and answer, and nothing else. -/
theorem judgeNoPreview_writes (p : PathId) (s : State) :
    ∃ title answer admitted, judgeNoPreview p s =
      s.setPath p { s.path p with title := title, answer := answer, admitted := admitted } := by
  unfold judgeNoPreview
  dsimp only
  split
  · exact judgeOnce_uncreated p s ‹_›
  · exact ⟨_, _, _, rfl⟩

@[simp] theorem handEndedTitle_keeps (title : Word) (s : State) :
    (handEndedTitle title s).phase = s.phase ∧ (handEndedTitle title s).engine = s.engine ∧
    (handEndedTitle title s).keys = s.keys ∧ (handEndedTitle title s).channels = s.channels ∧
    (handEndedTitle title s).offers = s.offers ∧ (handEndedTitle title s).folio = s.folio ∧
    (handEndedTitle title s).log = s.log ∧ (handEndedTitle title s).nextSeq = s.nextSeq ∧
    (handEndedTitle title s).previewed = s.previewed ∧ (handEndedTitle title s).lock = s.lock ∧
    (handEndedTitle title s).seconds = s.seconds ∧ (handEndedTitle title s).clock = s.clock ∧
    (handEndedTitle title s).store = s.store ∧ (handEndedTitle title s).room = s.room ∧
    (handEndedTitle title s).line = s.line ∧ (handEndedTitle title s).port = s.port ∧
    (handEndedTitle title s).status = s.status ∧ (handEndedTitle title s).choice = s.choice ∧
    (handEndedTitle title s).pending = s.pending := by
  have key : ∀ p (u : State), ∃ x, judgeNoPreviewIfShown title p u = u.setPath p x := by
    intro p u
    unfold judgeNoPreviewIfShown
    split
    · obtain ⟨_, _, _, h⟩ := judgeNoPreview_writes p u
      exact ⟨_, h⟩
    · exact ⟨u.path p, by simp⟩
  obtain ⟨x, hx⟩ := key .a s
  obtain ⟨y, hy⟩ := key .b (s.setPath .a x)
  simp only [handEndedTitle, hx, hy]
  simp

@[simp] theorem replaceRecord_keeps (r : Record) (s : State) :
    (replaceRecord r s).phase = s.phase ∧ (replaceRecord r s).pathA = s.pathA ∧ (replaceRecord r s).pathB = s.pathB ∧
    (replaceRecord r s).engine = s.engine ∧ (replaceRecord r s).keys = s.keys ∧
    (replaceRecord r s).channels = s.channels ∧ (replaceRecord r s).offers = s.offers ∧
    (replaceRecord r s).folio = s.folio ∧ (replaceRecord r s).nextSeq = s.nextSeq ∧
    (replaceRecord r s).previewed = s.previewed ∧ (replaceRecord r s).lock = s.lock ∧
    (replaceRecord r s).seconds = s.seconds ∧ (replaceRecord r s).clock = s.clock ∧
    (replaceRecord r s).store = s.store ∧ (replaceRecord r s).room = s.room ∧ (replaceRecord r s).line = s.line ∧
    (replaceRecord r s).port = s.port ∧ (replaceRecord r s).status = s.status ∧
    (replaceRecord r s).choice = s.choice ∧ (replaceRecord r s).pending = s.pending := by
  simp only [replaceRecord]
  simp

@[simp] theorem removeRecord_keeps (r : Record) (s : State) :
    (removeRecord r s).phase = s.phase ∧ (removeRecord r s).pathA = s.pathA ∧ (removeRecord r s).pathB = s.pathB ∧
    (removeRecord r s).engine = s.engine ∧ (removeRecord r s).keys = s.keys ∧
    (removeRecord r s).channels = s.channels ∧ (removeRecord r s).offers = s.offers ∧
    (removeRecord r s).folio = s.folio ∧ (removeRecord r s).nextSeq = s.nextSeq ∧
    (removeRecord r s).previewed = s.previewed ∧ (removeRecord r s).lock = s.lock ∧
    (removeRecord r s).seconds = s.seconds ∧ (removeRecord r s).clock = s.clock ∧ (removeRecord r s).room = s.room ∧
    (removeRecord r s).line = s.line ∧ (removeRecord r s).status = s.status ∧ (removeRecord r s).choice = s.choice ∧
    (removeRecord r s).pending = s.pending := by
  simp only [removeRecord]
  (repeat' split) <;> simp

@[simp] theorem settleRecord_keeps (r : Record) (s : State) :
    (settleRecord r s).phase = s.phase ∧ (settleRecord r s).pathA = s.pathA ∧ (settleRecord r s).pathB = s.pathB ∧
    (settleRecord r s).engine = s.engine ∧ (settleRecord r s).keys = s.keys ∧
    (settleRecord r s).channels = s.channels ∧ (settleRecord r s).offers = s.offers ∧
    (settleRecord r s).folio = s.folio ∧ (settleRecord r s).nextSeq = s.nextSeq ∧
    (settleRecord r s).previewed = s.previewed ∧ (settleRecord r s).lock = s.lock ∧
    (settleRecord r s).seconds = s.seconds ∧ (settleRecord r s).clock = s.clock ∧ (settleRecord r s).room = s.room ∧
    (settleRecord r s).line = s.line ∧ (settleRecord r s).status = s.status ∧ (settleRecord r s).choice = s.choice ∧
    (settleRecord r s).pending = s.pending := by
  simp only [settleRecord]
  (repeat' split) <;> simp

@[simp] theorem changeRecord_keeps (r : Record) (s : State) :
    (changeRecord r s).phase = s.phase ∧ (changeRecord r s).engine = s.engine ∧ (changeRecord r s).keys = s.keys ∧
    (changeRecord r s).channels = s.channels ∧ (changeRecord r s).offers = s.offers ∧
    (changeRecord r s).folio = s.folio ∧ (changeRecord r s).lock = s.lock ∧ (changeRecord r s).seconds = s.seconds ∧
    (changeRecord r s).clock = s.clock ∧ (changeRecord r s).room = s.room ∧ (changeRecord r s).line = s.line ∧
    (changeRecord r s).pending = s.pending := by
  simp only [changeRecord]
  simp

@[simp] theorem leavePreview_keeps (r : Record) (s : State) :
    (leavePreview r s).phase = s.phase ∧ (leavePreview r s).engine = s.engine ∧ (leavePreview r s).keys = s.keys ∧
    (leavePreview r s).channels = s.channels ∧ (leavePreview r s).offers = s.offers ∧
    (leavePreview r s).folio = s.folio ∧ (leavePreview r s).lock = s.lock ∧ (leavePreview r s).seconds = s.seconds ∧
    (leavePreview r s).clock = s.clock ∧ (leavePreview r s).room = s.room ∧ (leavePreview r s).line = s.line ∧
    (leavePreview r s).pending = s.pending := by
  simp only [leavePreview]
  simp

@[simp] theorem endAuto_keeps (r : Record) (s : State) :
    (endAuto r s).phase = s.phase ∧ (endAuto r s).engine = s.engine ∧ (endAuto r s).keys = s.keys ∧
    (endAuto r s).channels = s.channels ∧ (endAuto r s).offers = s.offers ∧ (endAuto r s).lock = s.lock ∧
    (endAuto r s).seconds = s.seconds ∧ (endAuto r s).clock = s.clock ∧ (endAuto r s).room = s.room ∧
    (endAuto r s).line = s.line ∧ (endAuto r s).pending = s.pending := by
  simp only [endAuto]
  (repeat' split) <;> simp

@[simp] theorem endConfirm_keeps (r : Record) (s : State) :
    (endConfirm r s).phase = s.phase ∧ (endConfirm r s).engine = s.engine ∧ (endConfirm r s).keys = s.keys ∧
    (endConfirm r s).channels = s.channels ∧ (endConfirm r s).offers = s.offers ∧ (endConfirm r s).folio = s.folio ∧
    (endConfirm r s).lock = s.lock ∧ (endConfirm r s).seconds = s.seconds ∧ (endConfirm r s).clock = s.clock ∧
    (endConfirm r s).room = s.room ∧ (endConfirm r s).line = s.line ∧ (endConfirm r s).pending = s.pending := by
  simp only [endConfirm]
  simp

@[simp] theorem countPreview_keeps (r : Record) (s : State) :
    (countPreview r s).phase = s.phase ∧ (countPreview r s).engine = s.engine ∧ (countPreview r s).keys = s.keys ∧
    (countPreview r s).channels = s.channels ∧ (countPreview r s).offers = s.offers ∧
    (countPreview r s).lock = s.lock ∧ (countPreview r s).seconds = s.seconds ∧ (countPreview r s).clock = s.clock ∧
    (countPreview r s).room = s.room ∧ (countPreview r s).line = s.line ∧ (countPreview r s).pending = s.pending := by
  simp only [countPreview]
  (repeat' split) <;> simp

@[simp] theorem previewMinute_keeps (seq : Half) (s : State) :
    (previewMinute seq s).phase = s.phase ∧ (previewMinute seq s).engine = s.engine ∧
    (previewMinute seq s).keys = s.keys ∧ (previewMinute seq s).channels = s.channels ∧
    (previewMinute seq s).offers = s.offers ∧ (previewMinute seq s).lock = s.lock ∧
    (previewMinute seq s).seconds = s.seconds ∧ (previewMinute seq s).clock = s.clock ∧
    (previewMinute seq s).room = s.room ∧ (previewMinute seq s).line = s.line ∧
    (previewMinute seq s).pending = s.pending := by
  simp only [previewMinute]
  (repeat' split) <;> simp

@[simp] theorem endWindow_keeps (r : Record) (s : State) :
    (endWindow r s).phase = s.phase ∧ (endWindow r s).engine = s.engine ∧ (endWindow r s).keys = s.keys ∧
    (endWindow r s).channels = s.channels ∧ (endWindow r s).offers = s.offers ∧ (endWindow r s).folio = s.folio ∧
    (endWindow r s).lock = s.lock ∧ (endWindow r s).seconds = s.seconds ∧ (endWindow r s).clock = s.clock ∧
    (endWindow r s).room = s.room ∧ (endWindow r s).line = s.line ∧ (endWindow r s).pending = s.pending := by
  simp only [endWindow]
  simp

@[simp] theorem windowMinute_keeps (seq : Half) (s : State) :
    (windowMinute seq s).phase = s.phase ∧ (windowMinute seq s).engine = s.engine ∧
    (windowMinute seq s).keys = s.keys ∧ (windowMinute seq s).channels = s.channels ∧
    (windowMinute seq s).offers = s.offers ∧ (windowMinute seq s).folio = s.folio ∧
    (windowMinute seq s).lock = s.lock ∧ (windowMinute seq s).seconds = s.seconds ∧
    (windowMinute seq s).clock = s.clock ∧ (windowMinute seq s).room = s.room ∧ (windowMinute seq s).line = s.line ∧
    (windowMinute seq s).pending = s.pending := by
  simp only [windowMinute]
  (repeat' split) <;> simp

@[simp] theorem closeLog_keeps (s : State) :
    (closeLog s).phase = s.phase ∧ (closeLog s).pathA = s.pathA ∧ (closeLog s).pathB = s.pathB ∧
    (closeLog s).engine = s.engine ∧ (closeLog s).keys = s.keys ∧ (closeLog s).channels = s.channels ∧
    (closeLog s).offers = s.offers ∧ (closeLog s).folio = s.folio ∧ (closeLog s).nextSeq = s.nextSeq ∧
    (closeLog s).previewed = s.previewed ∧ (closeLog s).lock = s.lock ∧ (closeLog s).seconds = s.seconds ∧
    (closeLog s).clock = s.clock ∧ (closeLog s).room = s.room ∧ (closeLog s).line = s.line ∧
    (closeLog s).status = s.status ∧ (closeLog s).choice = s.choice ∧ (closeLog s).pending = s.pending := by
  unfold closeLog
  generalize s.log = l
  induction l generalizing s with
  | nil => simp
  | cons r l ih =>
    simp only [List.foldl_cons]
    split
    · exact ih s
    · simpa using ih (settleRecord r.closed s)

@[simp] theorem collectRecords_keeps (after : Half) (s : State) :
    (collectRecords after s).1.phase = s.phase ∧ (collectRecords after s).1.pathA = s.pathA ∧
    (collectRecords after s).1.pathB = s.pathB ∧ (collectRecords after s).1.engine = s.engine ∧
    (collectRecords after s).1.keys = s.keys ∧ (collectRecords after s).1.channels = s.channels ∧
    (collectRecords after s).1.offers = s.offers ∧ (collectRecords after s).1.folio = s.folio ∧
    (collectRecords after s).1.nextSeq = s.nextSeq ∧ (collectRecords after s).1.previewed = s.previewed ∧
    (collectRecords after s).1.lock = s.lock ∧ (collectRecords after s).1.seconds = s.seconds ∧
    (collectRecords after s).1.clock = s.clock ∧ (collectRecords after s).1.store = s.store ∧
    (collectRecords after s).1.room = s.room ∧ (collectRecords after s).1.line = s.line ∧
    (collectRecords after s).1.port = s.port ∧ (collectRecords after s).1.status = s.status ∧
    (collectRecords after s).1.choice = s.choice ∧ (collectRecords after s).1.pending = s.pending := by
  simp only [collectRecords]
  simp

@[simp] theorem releaseRecord_keeps (r : Record) (s : State) :
    (releaseRecord r s).phase = s.phase ∧ (releaseRecord r s).pathA = s.pathA ∧ (releaseRecord r s).pathB = s.pathB ∧
    (releaseRecord r s).engine = s.engine ∧ (releaseRecord r s).keys = s.keys ∧
    (releaseRecord r s).channels = s.channels ∧ (releaseRecord r s).offers = s.offers ∧
    (releaseRecord r s).folio = s.folio ∧ (releaseRecord r s).nextSeq = s.nextSeq ∧
    (releaseRecord r s).previewed = s.previewed ∧ (releaseRecord r s).lock = s.lock ∧
    (releaseRecord r s).seconds = s.seconds ∧ (releaseRecord r s).clock = s.clock ∧
    (releaseRecord r s).room = s.room ∧ (releaseRecord r s).line = s.line ∧ (releaseRecord r s).status = s.status ∧
    (releaseRecord r s).choice = s.choice ∧ (releaseRecord r s).pending = s.pending := by
  simp only [releaseRecord]
  (repeat' split) <;> simp

@[simp] theorem releaseThrough_keeps (seq : Half) (s : State) :
    (releaseThrough seq s).1.phase = s.phase ∧ (releaseThrough seq s).1.pathA = s.pathA ∧
    (releaseThrough seq s).1.pathB = s.pathB ∧ (releaseThrough seq s).1.engine = s.engine ∧
    (releaseThrough seq s).1.keys = s.keys ∧ (releaseThrough seq s).1.channels = s.channels ∧
    (releaseThrough seq s).1.offers = s.offers ∧ (releaseThrough seq s).1.folio = s.folio ∧
    (releaseThrough seq s).1.nextSeq = s.nextSeq ∧ (releaseThrough seq s).1.previewed = s.previewed ∧
    (releaseThrough seq s).1.lock = s.lock ∧ (releaseThrough seq s).1.seconds = s.seconds ∧
    (releaseThrough seq s).1.clock = s.clock ∧ (releaseThrough seq s).1.room = s.room ∧
    (releaseThrough seq s).1.line = s.line ∧ (releaseThrough seq s).1.status = s.status ∧
    (releaseThrough seq s).1.choice = s.choice ∧ (releaseThrough seq s).1.pending = s.pending := by
  unfold releaseThrough
  split
  · simp
  · rename_i h
    clear h
    dsimp only
    generalize throughSeq seq s.log = l
    induction l generalizing s with
    | nil => simp
    | cons r l ih =>
      simp only [List.foldl_cons]
      have h := ih (releaseRecord r s)
      simp only [releaseRecord_keeps] at h
      exact h

@[simp] theorem voidRecord_keeps (r : Record) (s : State) :
    (voidRecord r s).phase = s.phase ∧ (voidRecord r s).engine = s.engine ∧ (voidRecord r s).keys = s.keys ∧
    (voidRecord r s).channels = s.channels ∧ (voidRecord r s).offers = s.offers ∧ (voidRecord r s).lock = s.lock ∧
    (voidRecord r s).seconds = s.seconds ∧ (voidRecord r s).clock = s.clock ∧ (voidRecord r s).room = s.room ∧
    (voidRecord r s).line = s.line ∧ (voidRecord r s).pending = s.pending := by
  simp only [voidRecord]
  split <;> simp

@[simp] theorem voidSeq_keeps (seq : Half) (s : State) :
    (voidSeq seq s).1.phase = s.phase ∧ (voidSeq seq s).1.engine = s.engine ∧ (voidSeq seq s).1.keys = s.keys ∧
    (voidSeq seq s).1.channels = s.channels ∧ (voidSeq seq s).1.offers = s.offers ∧ (voidSeq seq s).1.lock = s.lock ∧
    (voidSeq seq s).1.seconds = s.seconds ∧ (voidSeq seq s).1.clock = s.clock ∧ (voidSeq seq s).1.room = s.room ∧
    (voidSeq seq s).1.line = s.line ∧ (voidSeq seq s).1.pending = s.pending := by
  simp only [voidSeq]
  (repeat' split) <;> simp

end Sys2Proof.Machine
end

