-- ==== Sys2Proof/Laws/KeepsBlocks.lean ====
section
/-!
SUPPORT. What each operation of the engine, the lock unit, the tables and the clocks leaves unchanged: for each operation, every field of the state that it does not write. One
theorem for each operation, a rewriting rule for each of its fields.
-/
namespace Sys2Proof.Machine

@[simp] theorem missCell_keeps (p : PathId) (b : Bool) (s : State) :
    (missCell p b s).phase = s.phase ∧ (missCell p b s).engine = s.engine ∧ (missCell p b s).keys = s.keys ∧
    (missCell p b s).channels = s.channels ∧ (missCell p b s).offers = s.offers ∧ (missCell p b s).folio = s.folio ∧
    (missCell p b s).log = s.log ∧ (missCell p b s).nextSeq = s.nextSeq ∧ (missCell p b s).previewed = s.previewed ∧
    (missCell p b s).lock = s.lock ∧ (missCell p b s).seconds = s.seconds ∧ (missCell p b s).clock = s.clock ∧
    (missCell p b s).store = s.store ∧ (missCell p b s).room = s.room ∧ (missCell p b s).line = s.line ∧
    (missCell p b s).port = s.port ∧ (missCell p b s).choice = s.choice ∧ (missCell p b s).pending = s.pending := by
  simp only [missCell]
  (repeat' split) <;> simp

@[simp] theorem grantCell_keeps (p : PathId) (c : Cell) (b : Bool) (s : State) :
    (grantCell p c b s).phase = s.phase ∧ (grantCell p c b s).keys = s.keys ∧
    (grantCell p c b s).channels = s.channels ∧ (grantCell p c b s).offers = s.offers ∧
    (grantCell p c b s).folio = s.folio ∧ (grantCell p c b s).log = s.log ∧ (grantCell p c b s).nextSeq = s.nextSeq ∧
    (grantCell p c b s).previewed = s.previewed ∧ (grantCell p c b s).lock = s.lock ∧
    (grantCell p c b s).seconds = s.seconds ∧ (grantCell p c b s).clock = s.clock ∧
    (grantCell p c b s).store = s.store ∧ (grantCell p c b s).room = s.room ∧ (grantCell p c b s).line = s.line ∧
    (grantCell p c b s).port = s.port ∧ (grantCell p c b s).choice = s.choice ∧
    (grantCell p c b s).pending = s.pending := by
  simp only [grantCell]
  (repeat' split) <;> simp

@[simp] theorem grantTest_keeps (t : TestRequest) (s : State) :
    (grantTest t s).phase = s.phase ∧ (grantTest t s).pathA = s.pathA ∧ (grantTest t s).pathB = s.pathB ∧
    (grantTest t s).keys = s.keys ∧ (grantTest t s).channels = s.channels ∧ (grantTest t s).offers = s.offers ∧
    (grantTest t s).folio = s.folio ∧ (grantTest t s).log = s.log ∧ (grantTest t s).nextSeq = s.nextSeq ∧
    (grantTest t s).previewed = s.previewed ∧ (grantTest t s).lock = s.lock ∧ (grantTest t s).seconds = s.seconds ∧
    (grantTest t s).clock = s.clock ∧ (grantTest t s).store = s.store ∧ (grantTest t s).room = s.room ∧
    (grantTest t s).line = s.line ∧ (grantTest t s).port = s.port ∧ (grantTest t s).status = s.status ∧
    (grantTest t s).choice = s.choice ∧ (grantTest t s).pending = s.pending := by
  simp only [grantTest]
  simp

@[simp] theorem grant_keeps (r : Requester) (s : State) :
    (grant r s).phase = s.phase ∧ (grant r s).keys = s.keys ∧ (grant r s).channels = s.channels ∧
    (grant r s).offers = s.offers ∧ (grant r s).folio = s.folio ∧ (grant r s).log = s.log ∧
    (grant r s).nextSeq = s.nextSeq ∧ (grant r s).previewed = s.previewed ∧ (grant r s).lock = s.lock ∧
    (grant r s).seconds = s.seconds ∧ (grant r s).clock = s.clock ∧ (grant r s).store = s.store ∧
    (grant r s).room = s.room ∧ (grant r s).line = s.line ∧ (grant r s).port = s.port ∧
    (grant r s).choice = s.choice ∧ (grant r s).pending = s.pending := by
  simp only [grant]
  (repeat' split) <;> simp

@[simp] theorem arbitrate_keeps (n : Nat) (s : State) :
    (arbitrate n s).phase = s.phase ∧ (arbitrate n s).keys = s.keys ∧ (arbitrate n s).channels = s.channels ∧
    (arbitrate n s).offers = s.offers ∧ (arbitrate n s).folio = s.folio ∧ (arbitrate n s).log = s.log ∧
    (arbitrate n s).nextSeq = s.nextSeq ∧ (arbitrate n s).previewed = s.previewed ∧ (arbitrate n s).lock = s.lock ∧
    (arbitrate n s).seconds = s.seconds ∧ (arbitrate n s).clock = s.clock ∧ (arbitrate n s).store = s.store ∧
    (arbitrate n s).room = s.room ∧ (arbitrate n s).line = s.line ∧ (arbitrate n s).port = s.port ∧
    (arbitrate n s).choice = s.choice ∧ (arbitrate n s).pending = s.pending := by
  induction n generalizing s with
  | zero => simp [arbitrate]
  | succ n ih =>
    simp only [arbitrate]
    (repeat' split) <;> simp [ih]

@[simp] theorem finishCell_keeps (p : PathId) (plain : List Byte) (s : State) :
    (finishCell p plain s).phase = s.phase ∧ (finishCell p plain s).engine = s.engine ∧
    (finishCell p plain s).keys = s.keys ∧ (finishCell p plain s).channels = s.channels ∧
    (finishCell p plain s).offers = s.offers ∧ (finishCell p plain s).folio = s.folio ∧
    (finishCell p plain s).log = s.log ∧ (finishCell p plain s).nextSeq = s.nextSeq ∧
    (finishCell p plain s).previewed = s.previewed ∧ (finishCell p plain s).lock = s.lock ∧
    (finishCell p plain s).seconds = s.seconds ∧ (finishCell p plain s).clock = s.clock ∧
    (finishCell p plain s).store = s.store ∧ (finishCell p plain s).room = s.room ∧
    (finishCell p plain s).line = s.line ∧ (finishCell p plain s).port = s.port ∧
    (finishCell p plain s).status = s.status ∧ (finishCell p plain s).choice = s.choice ∧
    (finishCell p plain s).pending = s.pending := by
  simp only [finishCell]
  (repeat' split) <;> simp

@[simp] theorem finishTest_keeps (i : Nat) (plain : List Byte) (s : State) :
    (finishTest i plain s).phase = s.phase ∧ (finishTest i plain s).pathA = s.pathA ∧
    (finishTest i plain s).pathB = s.pathB ∧ (finishTest i plain s).engine = s.engine ∧
    (finishTest i plain s).keys = s.keys ∧ (finishTest i plain s).channels = s.channels ∧
    (finishTest i plain s).offers = s.offers ∧ (finishTest i plain s).folio = s.folio ∧
    (finishTest i plain s).log = s.log ∧ (finishTest i plain s).nextSeq = s.nextSeq ∧
    (finishTest i plain s).previewed = s.previewed ∧ (finishTest i plain s).lock = s.lock ∧
    (finishTest i plain s).seconds = s.seconds ∧ (finishTest i plain s).clock = s.clock ∧
    (finishTest i plain s).store = s.store ∧ (finishTest i plain s).room = s.room ∧
    (finishTest i plain s).line = s.line ∧ (finishTest i plain s).status = s.status ∧
    (finishTest i plain s).choice = s.choice ∧ (finishTest i plain s).pending = s.pending := by
  simp only [finishTest]
  simp

@[simp] theorem completeGrant_keeps (s : State) :
    (completeGrant s).phase = s.phase ∧ (completeGrant s).keys = s.keys ∧ (completeGrant s).channels = s.channels ∧
    (completeGrant s).offers = s.offers ∧ (completeGrant s).folio = s.folio ∧ (completeGrant s).log = s.log ∧
    (completeGrant s).nextSeq = s.nextSeq ∧ (completeGrant s).previewed = s.previewed ∧
    (completeGrant s).lock = s.lock ∧ (completeGrant s).seconds = s.seconds ∧ (completeGrant s).clock = s.clock ∧
    (completeGrant s).store = s.store ∧ (completeGrant s).room = s.room ∧ (completeGrant s).line = s.line ∧
    (completeGrant s).choice = s.choice ∧ (completeGrant s).pending = s.pending := by
  simp only [completeGrant]
  (repeat' split) <;> simp

@[simp] theorem setHalf_keeps (context : Nat) (parity : Parity) (h : KeyHalf) (s : State) :
    (s.setHalf context parity h).phase = s.phase ∧ (s.setHalf context parity h).pathA = s.pathA ∧
    (s.setHalf context parity h).pathB = s.pathB ∧ (s.setHalf context parity h).engine = s.engine ∧
    (s.setHalf context parity h).channels = s.channels ∧ (s.setHalf context parity h).offers = s.offers ∧
    (s.setHalf context parity h).folio = s.folio ∧ (s.setHalf context parity h).log = s.log ∧
    (s.setHalf context parity h).nextSeq = s.nextSeq ∧ (s.setHalf context parity h).previewed = s.previewed ∧
    (s.setHalf context parity h).lock = s.lock ∧ (s.setHalf context parity h).seconds = s.seconds ∧
    (s.setHalf context parity h).clock = s.clock ∧ (s.setHalf context parity h).store = s.store ∧
    (s.setHalf context parity h).room = s.room ∧ (s.setHalf context parity h).line = s.line ∧
    (s.setHalf context parity h).port = s.port ∧ (s.setHalf context parity h).status = s.status ∧
    (s.setHalf context parity h).choice = s.choice ∧ (s.setHalf context parity h).pending = s.pending := by
  simp only [State.setHalf]
  (repeat' split) <;> simp

@[simp] theorem applyLock_keeps (l : Lock) (s : State) :
    (applyLock l s).phase = s.phase ∧ (applyLock l s).engine = s.engine ∧ (applyLock l s).keys = s.keys ∧
    (applyLock l s).channels = s.channels ∧ (applyLock l s).offers = s.offers ∧ (applyLock l s).folio = s.folio ∧
    (applyLock l s).seconds = s.seconds ∧ (applyLock l s).clock = s.clock ∧ (applyLock l s).room = s.room ∧
    (applyLock l s).line = s.line ∧ (applyLock l s).port = s.port ∧ (applyLock l s).pending = s.pending := by
  simp only [applyLock]
  (repeat' split) <;> simp

@[simp] theorem countWrong_keeps (s : State) :
    (countWrong s).phase = s.phase ∧ (countWrong s).engine = s.engine ∧ (countWrong s).keys = s.keys ∧
    (countWrong s).channels = s.channels ∧ (countWrong s).offers = s.offers ∧ (countWrong s).folio = s.folio ∧
    (countWrong s).seconds = s.seconds ∧ (countWrong s).clock = s.clock ∧ (countWrong s).room = s.room ∧
    (countWrong s).line = s.line ∧ (countWrong s).port = s.port ∧ (countWrong s).pending = s.pending := by
  simp only [countWrong]
  (repeat' split) <;> simp

@[simp] theorem keyMessage_keeps (args : List Byte) (s : State) :
    (keyMessage args s).phase = s.phase ∧ (keyMessage args s).pathA = s.pathA ∧ (keyMessage args s).pathB = s.pathB ∧
    (keyMessage args s).engine = s.engine ∧ (keyMessage args s).channels = s.channels ∧
    (keyMessage args s).offers = s.offers ∧ (keyMessage args s).folio = s.folio ∧ (keyMessage args s).log = s.log ∧
    (keyMessage args s).nextSeq = s.nextSeq ∧ (keyMessage args s).previewed = s.previewed ∧
    (keyMessage args s).lock = s.lock ∧ (keyMessage args s).seconds = s.seconds ∧
    (keyMessage args s).clock = s.clock ∧ (keyMessage args s).store = s.store ∧ (keyMessage args s).room = s.room ∧
    (keyMessage args s).line = s.line ∧ (keyMessage args s).port = s.port ∧ (keyMessage args s).status = s.status ∧
    (keyMessage args s).choice = s.choice ∧ (keyMessage args s).pending = s.pending := by
  simp only [keyMessage]
  (repeat' split) <;> simp

@[simp] theorem keyClearMessage_keeps (args : List Byte) (s : State) :
    (keyClearMessage args s).phase = s.phase ∧ (keyClearMessage args s).pathA = s.pathA ∧
    (keyClearMessage args s).pathB = s.pathB ∧ (keyClearMessage args s).engine = s.engine ∧
    (keyClearMessage args s).channels = s.channels ∧ (keyClearMessage args s).offers = s.offers ∧
    (keyClearMessage args s).folio = s.folio ∧ (keyClearMessage args s).log = s.log ∧
    (keyClearMessage args s).nextSeq = s.nextSeq ∧ (keyClearMessage args s).previewed = s.previewed ∧
    (keyClearMessage args s).lock = s.lock ∧ (keyClearMessage args s).seconds = s.seconds ∧
    (keyClearMessage args s).clock = s.clock ∧ (keyClearMessage args s).store = s.store ∧
    (keyClearMessage args s).room = s.room ∧ (keyClearMessage args s).line = s.line ∧
    (keyClearMessage args s).port = s.port ∧ (keyClearMessage args s).status = s.status ∧
    (keyClearMessage args s).choice = s.choice ∧ (keyClearMessage args s).pending = s.pending := by
  simp only [keyClearMessage]
  simp

@[simp] theorem keysMinute_keeps (s : State) :
    (keysMinute s).phase = s.phase ∧ (keysMinute s).pathA = s.pathA ∧ (keysMinute s).pathB = s.pathB ∧
    (keysMinute s).engine = s.engine ∧ (keysMinute s).channels = s.channels ∧ (keysMinute s).offers = s.offers ∧
    (keysMinute s).folio = s.folio ∧ (keysMinute s).log = s.log ∧ (keysMinute s).nextSeq = s.nextSeq ∧
    (keysMinute s).previewed = s.previewed ∧ (keysMinute s).lock = s.lock ∧ (keysMinute s).seconds = s.seconds ∧
    (keysMinute s).clock = s.clock ∧ (keysMinute s).store = s.store ∧ (keysMinute s).room = s.room ∧
    (keysMinute s).line = s.line ∧ (keysMinute s).port = s.port ∧ (keysMinute s).status = s.status ∧
    (keysMinute s).choice = s.choice ∧ (keysMinute s).pending = s.pending := by
  simp only [keysMinute]
  simp

@[simp] theorem expireUnlock_keeps (s : State) :
    (expireUnlock s).phase = s.phase ∧ (expireUnlock s).engine = s.engine ∧ (expireUnlock s).keys = s.keys ∧
    (expireUnlock s).channels = s.channels ∧ (expireUnlock s).offers = s.offers ∧ (expireUnlock s).folio = s.folio ∧
    (expireUnlock s).seconds = s.seconds ∧ (expireUnlock s).clock = s.clock ∧ (expireUnlock s).room = s.room ∧
    (expireUnlock s).line = s.line ∧ (expireUnlock s).port = s.port ∧ (expireUnlock s).pending = s.pending := by
  simp only [expireUnlock]
  simp

@[simp] theorem endLockout_keeps (s : State) :
    (endLockout s).phase = s.phase ∧ (endLockout s).engine = s.engine ∧ (endLockout s).keys = s.keys ∧
    (endLockout s).channels = s.channels ∧ (endLockout s).offers = s.offers ∧ (endLockout s).folio = s.folio ∧
    (endLockout s).seconds = s.seconds ∧ (endLockout s).clock = s.clock ∧ (endLockout s).room = s.room ∧
    (endLockout s).line = s.line ∧ (endLockout s).port = s.port ∧ (endLockout s).pending = s.pending := by
  simp only [endLockout]
  simp

@[simp] theorem lockMinute_keeps (s : State) :
    (lockMinute s).phase = s.phase ∧ (lockMinute s).engine = s.engine ∧ (lockMinute s).keys = s.keys ∧
    (lockMinute s).channels = s.channels ∧ (lockMinute s).offers = s.offers ∧ (lockMinute s).folio = s.folio ∧
    (lockMinute s).seconds = s.seconds ∧ (lockMinute s).clock = s.clock ∧ (lockMinute s).room = s.room ∧
    (lockMinute s).line = s.line ∧ (lockMinute s).port = s.port ∧ (lockMinute s).pending = s.pending := by
  simp only [lockMinute]
  (repeat' split) <;> simp

@[simp] theorem lockMessage_keeps (args : List Byte) (s : State) :
    (lockMessage args s).1.phase = s.phase ∧ (lockMessage args s).1.engine = s.engine ∧
    (lockMessage args s).1.keys = s.keys ∧ (lockMessage args s).1.channels = s.channels ∧
    (lockMessage args s).1.offers = s.offers ∧ (lockMessage args s).1.folio = s.folio ∧
    (lockMessage args s).1.seconds = s.seconds ∧ (lockMessage args s).1.clock = s.clock ∧
    (lockMessage args s).1.room = s.room ∧ (lockMessage args s).1.line = s.line ∧
    (lockMessage args s).1.port = s.port ∧ (lockMessage args s).1.pending = s.pending := by
  simp only [lockMessage]
  (repeat' split) <;> simp

@[simp] theorem tableEntryMessage_keeps (args : List Byte) (s : State) :
    (tableEntryMessage args s).phase = s.phase ∧ (tableEntryMessage args s).pathA = s.pathA ∧
    (tableEntryMessage args s).pathB = s.pathB ∧ (tableEntryMessage args s).engine = s.engine ∧
    (tableEntryMessage args s).keys = s.keys ∧ (tableEntryMessage args s).folio = s.folio ∧
    (tableEntryMessage args s).log = s.log ∧ (tableEntryMessage args s).nextSeq = s.nextSeq ∧
    (tableEntryMessage args s).previewed = s.previewed ∧ (tableEntryMessage args s).lock = s.lock ∧
    (tableEntryMessage args s).seconds = s.seconds ∧ (tableEntryMessage args s).clock = s.clock ∧
    (tableEntryMessage args s).store = s.store ∧ (tableEntryMessage args s).room = s.room ∧
    (tableEntryMessage args s).line = s.line ∧ (tableEntryMessage args s).port = s.port ∧
    (tableEntryMessage args s).status = s.status ∧ (tableEntryMessage args s).choice = s.choice ∧
    (tableEntryMessage args s).pending = s.pending := by
  simp only [tableEntryMessage]
  (repeat' split) <;> simp

@[simp] theorem tableCommitMessage_keeps (args : List Byte) (s : State) :
    (tableCommitMessage args s).phase = s.phase ∧ (tableCommitMessage args s).engine = s.engine ∧
    (tableCommitMessage args s).keys = s.keys ∧ (tableCommitMessage args s).folio = s.folio ∧
    (tableCommitMessage args s).lock = s.lock ∧ (tableCommitMessage args s).seconds = s.seconds ∧
    (tableCommitMessage args s).clock = s.clock ∧ (tableCommitMessage args s).room = s.room ∧
    (tableCommitMessage args s).line = s.line ∧ (tableCommitMessage args s).port = s.port ∧
    (tableCommitMessage args s).pending = s.pending := by
  simp only [tableCommitMessage]
  (repeat' split) <;> simp

@[simp] theorem endPass_keeps (t : TableId) (crc : Half) (d : Bool) (s : State) :
    (endPass t crc d s).phase = s.phase ∧ (endPass t crc d s).engine = s.engine ∧ (endPass t crc d s).keys = s.keys ∧
    (endPass t crc d s).folio = s.folio ∧ (endPass t crc d s).lock = s.lock ∧
    (endPass t crc d s).seconds = s.seconds ∧ (endPass t crc d s).clock = s.clock ∧
    (endPass t crc d s).room = s.room ∧ (endPass t crc d s).line = s.line ∧ (endPass t crc d s).port = s.port ∧
    (endPass t crc d s).pending = s.pending := by
  simp only [endPass]
  (repeat' split) <;> simp

@[simp] theorem midnight_keeps (s : State) :
    (midnight s).phase = s.phase ∧ (midnight s).pathA = s.pathA ∧ (midnight s).pathB = s.pathB ∧
    (midnight s).engine = s.engine ∧ (midnight s).keys = s.keys ∧ (midnight s).channels = s.channels ∧
    (midnight s).offers = s.offers ∧ (midnight s).log = s.log ∧ (midnight s).nextSeq = s.nextSeq ∧
    (midnight s).previewed = s.previewed ∧ (midnight s).lock = s.lock ∧ (midnight s).seconds = s.seconds ∧
    (midnight s).room = s.room ∧ (midnight s).line = s.line ∧ (midnight s).port = s.port ∧
    (midnight s).status = s.status ∧ (midnight s).choice = s.choice ∧ (midnight s).pending = s.pending := by
  simp only [midnight]
  simp

@[simp] theorem clockMinute_keeps (s : State) :
    (clockMinute s).phase = s.phase ∧ (clockMinute s).pathA = s.pathA ∧ (clockMinute s).pathB = s.pathB ∧
    (clockMinute s).engine = s.engine ∧ (clockMinute s).keys = s.keys ∧ (clockMinute s).channels = s.channels ∧
    (clockMinute s).offers = s.offers ∧ (clockMinute s).log = s.log ∧ (clockMinute s).nextSeq = s.nextSeq ∧
    (clockMinute s).previewed = s.previewed ∧ (clockMinute s).lock = s.lock ∧ (clockMinute s).seconds = s.seconds ∧
    (clockMinute s).room = s.room ∧ (clockMinute s).line = s.line ∧ (clockMinute s).port = s.port ∧
    (clockMinute s).status = s.status ∧ (clockMinute s).choice = s.choice ∧ (clockMinute s).pending = s.pending := by
  simp only [clockMinute]
  (repeat' split) <;> simp

@[simp] theorem timeMessage_keeps (args : List Byte) (s : State) :
    (timeMessage args s).phase = s.phase ∧ (timeMessage args s).pathA = s.pathA ∧
    (timeMessage args s).pathB = s.pathB ∧ (timeMessage args s).engine = s.engine ∧
    (timeMessage args s).keys = s.keys ∧ (timeMessage args s).channels = s.channels ∧
    (timeMessage args s).offers = s.offers ∧ (timeMessage args s).log = s.log ∧
    (timeMessage args s).nextSeq = s.nextSeq ∧ (timeMessage args s).previewed = s.previewed ∧
    (timeMessage args s).lock = s.lock ∧ (timeMessage args s).seconds = s.seconds ∧
    (timeMessage args s).room = s.room ∧ (timeMessage args s).line = s.line ∧ (timeMessage args s).port = s.port ∧
    (timeMessage args s).status = s.status ∧ (timeMessage args s).choice = s.choice ∧
    (timeMessage args s).pending = s.pending := by
  simp only [timeMessage]
  (repeat' split) <;> simp

@[simp] theorem goOffline_keeps (s : State) :
    (goOffline s).phase = s.phase ∧ (goOffline s).pathA = s.pathA ∧ (goOffline s).pathB = s.pathB ∧
    (goOffline s).engine = s.engine ∧ (goOffline s).keys = s.keys ∧ (goOffline s).channels = s.channels ∧
    (goOffline s).offers = s.offers ∧ (goOffline s).folio = s.folio ∧ (goOffline s).log = s.log ∧
    (goOffline s).nextSeq = s.nextSeq ∧ (goOffline s).previewed = s.previewed ∧ (goOffline s).lock = s.lock ∧
    (goOffline s).seconds = s.seconds ∧ (goOffline s).clock = s.clock ∧ (goOffline s).store = s.store ∧
    (goOffline s).room = s.room ∧ (goOffline s).port = s.port ∧ (goOffline s).choice = s.choice ∧
    (goOffline s).pending = s.pending := by
  simp only [goOffline]
  simp

@[simp] theorem watchdogMinute_keeps (s : State) :
    (watchdogMinute s).phase = s.phase ∧ (watchdogMinute s).pathA = s.pathA ∧ (watchdogMinute s).pathB = s.pathB ∧
    (watchdogMinute s).engine = s.engine ∧ (watchdogMinute s).keys = s.keys ∧
    (watchdogMinute s).channels = s.channels ∧ (watchdogMinute s).offers = s.offers ∧
    (watchdogMinute s).folio = s.folio ∧ (watchdogMinute s).log = s.log ∧ (watchdogMinute s).nextSeq = s.nextSeq ∧
    (watchdogMinute s).previewed = s.previewed ∧ (watchdogMinute s).lock = s.lock ∧
    (watchdogMinute s).seconds = s.seconds ∧ (watchdogMinute s).clock = s.clock ∧ (watchdogMinute s).store = s.store ∧
    (watchdogMinute s).room = s.room ∧ (watchdogMinute s).port = s.port ∧ (watchdogMinute s).choice = s.choice ∧
    (watchdogMinute s).pending = s.pending := by
  simp only [watchdogMinute]
  (repeat' split) <;> simp

end Sys2Proof.Machine
end

