-- ==== Sys2Proof/Laws/SetPort.lean ====
section
/-!
SUPPORT. What the end of a set port frame can do: discarded, not taken, or handed to the command's owner in a state
whose frame is over; and the reply an immediate command leaves.
-/
namespace Sys2Proof.Machine

theorem closeFrame_eq (s : State) : closeFrame s = { s with port := { s.port with frame := .idle } } := rfl

@[simp] theorem frameOver_keeps (n : Nat) (s : State) :
    (s.frameOver n).phase = s.phase ∧ (s.frameOver n).pathA = s.pathA ∧ (s.frameOver n).pathB = s.pathB ∧
    (s.frameOver n).engine = s.engine ∧ (s.frameOver n).keys = s.keys ∧ (s.frameOver n).channels = s.channels ∧
    (s.frameOver n).offers = s.offers ∧ (s.frameOver n).folio = s.folio ∧ (s.frameOver n).log = s.log ∧
    (s.frameOver n).nextSeq = s.nextSeq ∧ (s.frameOver n).previewed = s.previewed ∧ (s.frameOver n).lock = s.lock ∧
    (s.frameOver n).seconds = s.seconds ∧ (s.frameOver n).clock = s.clock ∧ (s.frameOver n).store = s.store ∧
    (s.frameOver n).room = s.room ∧ (s.frameOver n).line = s.line ∧ (s.frameOver n).status = s.status ∧
    (s.frameOver n).choice = s.choice ∧ (s.frameOver n).pending = s.pending := by
  simp [State.frameOver]

@[simp] theorem frameOver_port (n : Nat) (s : State) :
    (s.frameOver n).port = { s.port with frame := .idle, ready := s.port.ready && !s.delivers n } := rfl

/-- A frame begun or begun now, seen at its end: only the frame differs from the state before. -/
theorem openFrame_eq (s : State) :
    openFrame s = { s with port := { s.port with frame := (openFrame s).port.frame } } := by
  unfold openFrame frameStart
  (repeat' split) <;> rfl

/-- The frame of a part that runs is abandoned at its end only if it was so before. -/
theorem openFrame_abandoned {s : State} (hp : s.phase = .running) :
    (openFrame s).port.frame = .abandoned ↔ s.port.frame = .abandoned := by
  unfold openFrame
  split <;> simp_all [frameStart]

theorem min_frame (n : Nat) (args : List Byte) (h : n = 1 + args.length) :
    1 + (args.take (setFrameBytes - 1)).length = min setFrameBytes n := by
  simp only [List.length_take, setFrameBytes]
  omega

/-- A frame that ends while BUSY discards it changes the discard count and the frame alone (R155, case 1). -/
theorem setFrame_discarded {code : Byte} {args : List Byte} {s : State} (hp : s.phase = .running)
    (hf : s.port.frame ≠ .abandoned) (hb : s.port.busy.discardsFrame code = true) :
    setFrame code args s =
      { s with port := { s.port with frame := .idle, discards := s.port.discards + 1 } } := by
  have hf' : (openFrame s).port.frame ≠ .abandoned := fun h => hf ((openFrame_abandoned hp).1 h)
  unfold setFrame frameEnd
  rw [openFrame_eq s]
  simp [hf', hp, judgeFrame, hb, discardFrame, closeFrame]

/-- A frame that ends is taken: its command sees a state in which the frame is over and delivered (R155, R156). -/
theorem setFrame_taken {code : Byte} {args : List Byte} {s : State} (hp : s.phase = .running)
    (hf : s.port.frame ≠ .abandoned) (hb : s.port.busy.discardsFrame code = false) :
    setFrame code args s = takeCommand code (args.take (setFrameBytes - 1)) (s.frameOver (1 + args.length)) := by
  have hf' : (openFrame s).port.frame ≠ .abandoned := fun h => hf ((openFrame_abandoned hp).1 h)
  have hd : (deliver (1 + (args.take (setFrameBytes - 1)).length) (openFrame s)) =
      { s with port := { s.port with
          frame := (openFrame s).port.frame, ready := s.port.ready && !s.delivers (1 + args.length) } } := by
    rw [min_frame (1 + args.length) args rfl]
    unfold deliver State.delivers
    rw [openFrame_eq s]
    split <;> simp_all
  unfold setFrame frameEnd
  have e : (openFrame s).phase = s.phase := by rw [openFrame_eq s]
  have e2 : (openFrame s).port.busy = s.port.busy := by rw [openFrame_eq s]
  rw [if_pos ⟨hf', e.trans hp⟩]
  unfold judgeFrame
  rw [e2, hb, if_neg (by simp), hd]
  rfl

/-- A frame that ends is not taken when a reset came during it or the part does not run (R153, R160). -/
theorem setFrame_notTaken {code : Byte} {args : List Byte} {s : State}
    (h : s.phase ≠ .running ∨ s.port.frame = .abandoned) :
    setFrame code args s = { s with port := { s.port with frame := .idle } } := by
  unfold setFrame frameEnd
  have e : (openFrame s).phase = s.phase := by rw [openFrame_eq s]
  have hn : ¬((openFrame s).port.frame ≠ .abandoned ∧ (openFrame s).phase = .running) := by
    rw [e]
    rintro ⟨h1, h2⟩
    rcases h with h | h
    · exact h h2
    · exact h1 ((openFrame_abandoned h2).2 h)
  rw [if_neg hn, closeFrame_eq, openFrame_eq s]

/-- Every set port row is the end of a frame of its command byte and bytes. -/
theorem exec_setFrame {c : Instr} {code : Byte} {args : List Byte} {s : State}
    (h : setPortFrame c = some (code, args)) : exec c s = .next (setFrame code args s) := by
  cases c <;> try simp [setPortFrame] at h
  case setFrameDiscarded f =>
    cases f <;> simp at h
    obtain ⟨rfl, rfl⟩ := h
    rfl
  all_goals
    obtain ⟨rfl, rfl⟩ := h
    rfl

/-- A frame with argument bytes enough is handed to its command, in a state whose frame is over (R155, case 4). -/
theorem setFrame_run {code : Byte} {args : List Byte} {s : State} {k : SetCommand} (h : s.takesCommand)
    (hk : setCommand code = some k) (hn : k.needs ≤ args.length) (h47 : k.needs ≤ 47) :
    setFrame code args s = k.run (args.take 47) (s.frameOver (1 + args.length)) := by
  obtain ⟨hp, hf, hb⟩ := h
  rw [setFrame_taken hp hf (by rw [hb]; rfl)]
  have hl : ¬(args.take (setFrameBytes - 1)).length < k.needs := by
    simp only [List.length_take, setFrameBytes]
    omega
  simp only [takeCommand, hk, SetCommand.take, if_neg hl]
  rfl

/-- BUSY clear discards no frame. -/
@[simp] theorem clear_discards (code : Byte) : Busy.clear.discardsFrame code = false := rfl

/-- A reply placed when the frame is over. -/
@[simp] theorem placeReply_frameOver (code : Byte) (r : ResultCode) (data : List Byte) (n : Nat) (s : State) :
    placeReply code r data (s.frameOver n) = s.replied code r data := rfl

@[simp] theorem frameOver_path (p : PathId) (n : Nat) (s : State) : (s.frameOver n).path p = s.path p := by
  cases p <;> rfl

@[simp] theorem frameOver_table (t : TableId) (n : Nat) (s : State) : (s.frameOver n).table t = s.table t := by
  cases t <;> rfl

/-- Bytes of an argument that lie within the kept bytes of a frame. -/
theorem byteAt_take {args : List Byte} {i n : Nat} (h : i < n) : byteAt (args.take n) i = byteAt args i := by
  simp [byteAt, List.getD_eq_getElem?_getD, h]

theorem getD_take {args : List Byte} {i n : Nat} (h : i < n) (d : Byte) : (args.take n).getD i d = args.getD i d := by
  simp [List.getD_eq_getElem?_getD, h]

/-- Numbers of an argument that lie within the kept bytes of a frame. -/
theorem natAt_take {args : List Byte} {i k n : Nat} (h : i + k ≤ n) : natAt (args.take n) i k = natAt args i k := by
  unfold natAt
  rw [List.drop_take, List.take_take, min_eq_left (by omega)]

end Sys2Proof.Machine
end

