-- ==== Sys2Proof/Laws/Admission.lean ====
section
/-!
SUPPORT. What the log's answer and a judging can do: the answer by R85 and R86 in terms of the records, and the state
that a judging leaves by R8 to R11.
-/
namespace Sys2Proof.Machine

theorem isOpen_iff (f : Folio) : f.isOpen = true ↔ f.state ≠ .closed := by simp [Folio.isOpen]

theorem isBought_iff (r : Record) : r.isBought = true ↔ ∃ w, r.state = .bought w := by
  unfold Record.isBought
  split <;> simp_all

theorem isPreview_iff (r : Record) : r.isPreview = true ↔ r.state = .preview := by simp [Record.isPreview]

/-- The log finds a BOUGHT record of the current folio exactly when there is one. -/
theorem boughtRecord_isSome (s : State) (title : Word) : (s.boughtRecord title).isSome = true ↔ s.hasBought title := by
  simp only [State.boughtRecord, List.find?_isSome, State.hasBought, Record.current, Bool.and_eq_true, beq_iff_eq,
    isOpen_iff, isBought_iff]
  constructor
  · rintro ⟨r, h, ⟨hb, hf, hn⟩, ht⟩
    exact ⟨r, h, hb, hf, hn, ht⟩
  · rintro ⟨r, h, hb, hf, hn, ht⟩
    exact ⟨r, h, ⟨hb, hf, hn⟩, ht⟩

/-- The log finds a PREVIEW record of the current folio exactly when there is one. -/
theorem previewRecord_isSome (s : State) (title : Word) :
    (s.previewRecord title).isSome = true ↔ s.previewOf title := by
  simp only [State.previewRecord, List.find?_isSome, State.previewOf, Record.current, Bool.and_eq_true, beq_iff_eq,
    isOpen_iff, isPreview_iff]
  constructor
  · rintro ⟨r, h, ⟨hb, hf, hn⟩, ht⟩
    exact ⟨r, h, hb, hf, hn, ht⟩
  · rintro ⟨r, h, hb, hf, hn, ht⟩
    exact ⟨r, h, ⟨hb, hf, hn⟩, ht⟩

theorem any_hasPreview (s : State) (title : Word) :
    s.log.any (fun r => r.isPreview && r.current s.folio && r.title == title && decide (r.used < r.limit)) = true ↔
      s.hasPreview title := by
  simp only [List.any_eq_true, State.hasPreview, Record.current, Bool.and_eq_true, beq_iff_eq, isOpen_iff,
    isPreview_iff, decide_eq_true_eq]
  constructor
  · rintro ⟨r, h, ⟨⟨hb, hf, hn⟩, ht⟩, hu⟩
    exact ⟨r, h, hb, hf, hn, ht, hu⟩
  · rintro ⟨r, h, hb, hf, hn, ht, hu⟩
    exact ⟨r, h, ⟨⟨hb, hf, hn⟩, ht⟩, hu⟩

theorem mayPreview_iff (s : State) (title : Word) (index : Nat) (hb : ¬s.hasBought title) (hp : ¬s.hasPreview title) :
    s.mayPreview title index = true ↔ s.startsPreview title index := by
  simp only [State.mayPreview, State.startsPreview, OfferEntry.takenPreview, clampTo, Bool.and_eq_true, beq_iff_eq,
    decide_eq_true_eq, Bool.not_eq_true', List.contains_eq_mem, decide_eq_false_iff_not, previewedCapacity,
    logCapacity]
  constructor
  · rintro ⟨⟨⟨⟨⟨⟨h1, h2⟩, h3⟩, h4⟩, h5⟩, h6⟩, h7⟩
    exact ⟨h1, hb, hp, h2, h3, h4, h5, h6, of_decide_eq_true h7⟩
  · rintro ⟨h1, -, -, h2, h3, h4, h5, h6, h7⟩
    exact ⟨⟨⟨⟨⟨⟨h1, h2⟩, h3⟩, h4⟩, h5⟩, h6⟩, decide_eq_true h7⟩

theorem ask_bought {s : State} {title : Word} (index : Nat) (h : s.hasBought title) :
    ask title index s = { state := s, answer := .bought, created := false } := by
  simp [ask, (boughtRecord_isSome s title).2 h]

theorem ask_preview {s : State} {title : Word} (index : Nat) (hb : ¬s.hasBought title) (hp : s.hasPreview title) :
    ask title index s = { state := s, answer := .preview, created := false } := by
  unfold ask
  rw [if_neg (fun h => hb ((boughtRecord_isSome s title).1 h)), if_pos ((any_hasPreview s title).2 hp)]

theorem ask_none {s : State} {title : Word} {index : Nat} (hb : ¬s.hasBought title) (hp : ¬s.hasPreview title)
    (hs : ¬s.startsPreview title index) :
    ask title index s = { state := s, answer := .none, created := false } := by
  unfold ask
  rw [if_neg (fun h => hb ((boughtRecord_isSome s title).1 h)), if_neg (fun h => hp ((any_hasPreview s title).1 h)),
    if_neg (fun h => hs ((mayPreview_iff s title index hb hp).1 h))]

theorem ask_starts {s : State} {title : Word} {index : Nat} (h : s.startsPreview title index) :
    ask title index s =
      { state :=
          { createRecord title .preview (s.offerAt index).rating (min (s.offerAt index).preview 15) .preview none s with
            previewed := s.previewed ++ [title] }
        answer := .preview, created := true } := by
  have hb := h.2.1
  have hp := h.2.2.1
  unfold ask
  rw [if_neg (fun h => hb ((boughtRecord_isSome s title).1 h)), if_neg (fun h => hp ((any_hasPreview s title).1 h)),
    if_pos ((mayPreview_iff s title index hb hp).2 h)]
  simp [OfferEntry.takenPreview, clampTo]

theorem noService_iff (s : State) (i : Nat) : s.noService (s.channelAt i) = true ↔ s.isNoService i := by
  simp [State.noService, State.isNoService]

theorem tableFaulty_iff (s : State) (i : Nat) : s.tableFaulty (s.channelAt i) = true ↔ s.isTableFault i := by
  simp [State.tableFaulty, State.isTableFault]

theorem overCeiling_iff (s : State) (i : Nat) :
    s.lock.ceiling < s.ratingOf (s.channelAt i) ↔ s.isOverCeiling i := by
  simp [State.ratingOf, State.isOverCeiling]

/-- A judging that does not ask the log leaves the state of R8 to R11 and nothing else. -/
theorem judgeOnce_quiet {p : PathId} {s : State} {i : Nat} (hs : (s.path p).selected = some i) (h : ¬s.asksLog i)
    (answer : Answer) :
    judgeOnce p s = { state := enterState p (s.judgedState i answer) s, created := none } := by
  unfold judgeOnce State.judgedState
  simp only [hs]
  by_cases h1 : s.isNoService i
  · rw [if_pos ((noService_iff s i).2 h1), if_pos h1]
  by_cases h2 : s.isTableFault i
  · rw [if_neg (mt (noService_iff s i).1 h1), if_pos ((tableFaulty_iff s i).2 h2), if_neg h1, if_pos h2]
  by_cases h3 : s.isOverCeiling i
  · rw [if_neg (mt (noService_iff s i).1 h1), if_neg (mt (tableFaulty_iff s i).1 h2),
      if_pos ((overCeiling_iff s i).2 h3), if_neg h1, if_neg h2, if_pos h3]
  have h4 : (s.channelAt i).cls ≠ .title := fun hc => h ⟨hc, h1, h2, h3⟩
  rw [if_neg (mt (noService_iff s i).1 h1), if_neg (mt (tableFaulty_iff s i).1 h2),
    if_neg (mt (overCeiling_iff s i).1 h3), if_neg h1, if_neg h2, if_neg h3]
  split <;> simp_all [entitledState, Folio.isOpen]
  by_cases hk : (s.channelAt i).package ≤ 7 ∧ s.folio.packages.getLsbD (s.channelAt i).package = true
  · by_cases hf : s.folio.state = .closed <;> simp [hf, hk]
  · by_cases hf : s.folio.state = .closed
    · simp [hf]
    · rw [not_and] at hk
      by_cases h7 : (s.channelAt i).package ≤ 7
      · simp [hf, h7, hk h7]
      · simp [hf, h7]

/-- A judging that asks the log keeps the title and the answer (R9) and takes the answer's state (R11). -/
theorem judgeOnce_asks {p : PathId} {s : State} {i : Nat} (hs : (s.path p).selected = some i) (h : s.asksLog i) :
    judgeOnce p s =
      let index := (s.channelAt i).offer
      let title := (s.offerAt index).title
      let r := ask title index s
      { state := r.state.setPath p
          { r.state.path p with title := title, answer := r.answer, admitted := r.answer.pathState }
        created := if r.created then some title else none } := by
  obtain ⟨hc, h1, h2, h3⟩ := h
  unfold judgeOnce
  simp only [hs]
  rw [if_neg (mt (noService_iff s i).1 h1), if_neg (mt (tableFaulty_iff s i).1 h2),
    if_neg (mt (overCeiling_iff s i).1 h3)]
  simp only [hc]

/-- A path in UNSELECTED does not judge (R7). -/
theorem judgeOnce_unselected {p : PathId} {s : State} (hs : (s.path p).selected = none) :
    judgeOnce p s = { state := s, created := none } := by
  simp [judgeOnce, hs]

/-- A judging that creates no record is one judging of the path. -/
theorem judge_once {p : PathId} {s : State} (h : (judgeOnce p s).created = none) :
    judge p s = (judgeOnce p s).state := by
  simp [judge, h]

end Sys2Proof.Machine
end

