-- ==== Sys2Proof/Laws/Engine.lean ====
section
/-!
SUPPORT. What the arbiter and the engine's requesters can do (R23, R24), the words that a grant recovers (R27, R30) and
its completion (R27).
-/
namespace Sys2Proof.Machine

/-- The arbiter grants nothing while the engine is SERVING (R24). -/
theorem arbitrate_serving {n : Nat} {s : State} (h : s.engine.serving.isSome = true) : arbitrate n s = s := by
  cases n with
  | zero => rfl
  | succ n => simp [arbitrate, h]

/-- The arbiter grants nothing when nobody waits (R24). -/
theorem arbitrate_quiet {n : Nat} {s : State} (h : ∀ r, s.waits r = false) : arbitrate n s = s := by
  cases n with
  | zero => rfl
  | succ n =>
    unfold arbitrate
    split
    · rfl
    · rw [List.find?_eq_none.2 (by simp [h])]

/-- Every requester has its place in the order of preference (R24). -/
theorem mem_preference (last r : Requester) : r ∈ preference last := by
  rcases last with (_ | _) | _ <;> rcases r with (_ | _) | _ <;> simp [preference]

/-- A single waiting requester is the one granted at an IDLE engine (R24). -/
theorem arbitrate_only {n : Nat} {s : State} {r : Requester} (hi : s.engine.serving = none) (hr : s.waits r = true)
    (ho : ∀ q, q ≠ r → s.waits q = false) : arbitrate (n + 1) s = arbitrate n (grant r s) := by
  have hf : (preference s.engine.lastServed).find? s.waits = some r := by
    cases hf : (preference s.engine.lastServed).find? s.waits with
    | none => exact absurd hr (List.find?_eq_none.1 hf r (mem_preference _ _))
    | some q =>
      have hq := List.find?_some hf
      by_contra hne
      rw [ho q (fun h => hne (by rw [h]))] at hq
      cases hq
  simp [arbitrate, hi, hf]

/-! ### The keystream and the completion (R27, R30) -/

/-- The accumulator after a run of words is the fold of its steps (R30). -/
theorem accRun_foldl (key : BitVec 64) :
    ∀ (n i : Nat) (a : BitVec 40), accRun key n i a = ((List.range n).map (i + ·)).foldl (fun a k => accStep key k a) a
  | 0, _, _ => rfl
  | n + 1, i, a => by
    rw [List.range_succ_eq_map]
    simp [accRun, accRun_foldl key n, Function.comp_def, Nat.add_assoc, Nat.add_comm 1]

theorem plainWord_length (key : BitVec 64) (i : Nat) (a : BitVec 40) (word : List Byte) :
    (plainWord key i a word).length = 8 := rfl

/-- Every word of a run stands in its place, recovered from the accumulator that has passed it (R27, R30). -/
theorem recoverWords_word (key : BitVec 64) :
    ∀ (n i : Nat) (a : BitVec 40) (payload : List Byte),
      (recoverWords key n i a payload).length = 8 * n ∧
        ∀ j, j < n →
          ((recoverWords key n i a payload).drop (8 * j)).take 8 =
            plainWord key (i + j) (accRun key (j + 1) i a) ((payload.drop (8 * j)).take 8)
  | 0, _, _, _ => ⟨rfl, fun _ h => absurd h (Nat.not_lt_zero _)⟩
  | n + 1, i, a, payload => by
    have ih := recoverWords_word key n (i + 1) (accStep key i a) (payload.drop 8)
    refine ⟨by simp [recoverWords, plainWord_length, ih.1]; omega, ?_⟩
    intro j hj
    cases j with
    | zero => simp [recoverWords, accRun, List.take_left' (plainWord_length ..)]
    | succ j =>
      have h := ih.2 j (by omega)
      simp only [recoverWords]
      rw [show 8 * (j + 1) = 8 + 8 * j by ring, ← List.drop_drop, List.drop_left' (plainWord_length ..), h]
      simp [accRun, Nat.add_assoc, Nat.add_comm 1, List.drop_drop]

/-- A completion finishes the grant and then arbitrates (R27). -/
theorem engineComplete_eq {s : State} (h : s.engine.serving.isSome = true) :
    exec .engineComplete s = .next (arbitrate 3 s.engineDone) := by
  obtain ⟨sv, hv⟩ := Option.isSome_iff_exists.1 h
  simp only [exec, execEngineComplete, completeGrant, State.engineDone, hv]
  cases hw : sv.work with
  | test index word => simp [finishTest, placeReply, setBusy]
  | cell p payload =>
    have hp : ∀ e : Engine, (({ s with engine := e } : State).path p) = s.path p := by cases p <;> intro _ <;> rfl
    simp only [finishCell, hp]
    rcases hg : (s.path p).progress with _ | ⟨c, st⟩
    · rfl
    · rcases st with b | b | how
      · rfl
      · cases b <;> cases p <;> rfl
      · rfl

end Sys2Proof.Machine
end

