-- ==== Sys2Proof/Laws/Log.lean ====
section
/-!
SUPPORT. What the log's operations do to the records: a created record's number and slot are free (R83, R132), and the
changes of a record keep every number and slot in its place.
-/
namespace Sys2Proof.Machine

/-- A search that ends on a number in use has found every number it passed in use. -/
theorem firstFree_mem {used : List Half} :
    ∀ {n : Nat} {q : Half}, firstFree n q used ∈ used → ∀ i, i ≤ n → q + BitVec.ofNat 16 i ∈ used
  | 0, q, h, i, hi => by
    obtain rfl : i = 0 := by omega
    simpa [firstFree] using h
  | n + 1, q, h, i, hi => by
    unfold firstFree at h
    split at h
    · rename_i hq
      cases i with
      | zero => simpa using hq
      | succ i =>
        have := firstFree_mem h i (by omega)
        rwa [add_assoc, show (1 : Half) + BitVec.ofNat 16 i = BitVec.ofNat 16 (i + 1) by
          rw [Nat.add_comm, BitVec.ofNat_add]
          rfl] at this
    · exact absurd h ‹_›

/-- Among fewer than 65,536 numbers in use the search ends on a free one. -/
theorem firstFree_not_mem {n : Nat} {q : Half} {used : List Half} (hl : used.length ≤ n) (hn : n < 65536) :
    firstFree n q used ∉ used := by
  intro h
  have hsub : (List.range (n + 1)).map (fun i => q + BitVec.ofNat 16 i) ⊆ used := by
    intro x hx
    obtain ⟨i, hi, rfl⟩ := List.mem_map.1 hx
    exact firstFree_mem h i (by have := List.mem_range.1 hi; omega)
  have hnd : ((List.range (n + 1)).map (fun i => q + BitVec.ofNat 16 i)).Nodup := by
    refine List.Nodup.map_on ?_ List.nodup_range
    intro a ha b hb hab
    have ha' := List.mem_range.1 ha
    have hb' := List.mem_range.1 hb
    have := congrArg BitVec.toNat (add_left_cancel hab)
    simp only [BitVec.toNat_ofNat] at this
    omega
  have := (List.subperm_of_subset hnd hsub).length_le
  simp at this
  omega

/-- The next record's sequence number is in no record (R83). -/
theorem newSeq_not_mem {s : State} (h : s.log.length ≤ logCapacity) : s.newSeq ∉ s.log.map (·.seq) :=
  firstFree_not_mem (by simp) (by simp [logCapacity] at h; omega)

/-- The next record's number is the first one not in use (R83). -/
theorem newSeq_firstUnused {s : State} (h : s.log.length ≤ logCapacity) : s.firstUnused s.newSeq := by
  have key : ∀ (n : Nat) (q : Half) (used : List Half),
      ∃ k, firstFree n q used = q + BitVec.ofNat 16 k ∧ ∀ m, m < k → q + BitVec.ofNat 16 m ∈ used := by
    intro n
    induction n with
    | zero => intro q used; exact ⟨0, by simp [firstFree], fun m hm => absurd hm (Nat.not_lt_zero m)⟩
    | succ n ih =>
      intro q used
      unfold firstFree
      split
      · rename_i hq
        obtain ⟨k, hk, hm⟩ := ih (q + 1) used
        have assoc : ∀ m, q + 1 + BitVec.ofNat 16 m = q + BitVec.ofNat 16 (m + 1) := by
          intro m
          rw [add_assoc, Nat.add_comm m 1, BitVec.ofNat_add]
          rfl
        refine ⟨k + 1, by rw [hk, assoc], ?_⟩
        intro m hlt
        cases m with
        | zero => simpa using hq
        | succ m =>
          rw [← assoc]
          exact hm m (by omega)
      · exact ⟨0, by simp, fun m hm => absurd hm (Nat.not_lt_zero m)⟩
  refine ⟨?_, ?_⟩
  · intro x hx he
    exact newSeq_not_mem h (he ▸ List.mem_map_of_mem hx)
  · obtain ⟨k, hk, hm⟩ := key s.log.length s.nextSeq (s.log.map (·.seq))
    refine ⟨k, hk, fun m hlt => ?_⟩
    obtain ⟨x, hx, he⟩ := List.mem_map.1 (hm m hlt)
    exact ⟨x, hx, he⟩

/-- The next record's slot is a record slot that no record occupies (R132). -/
theorem newSlot_free {s : State} (h : s.log.length < logCapacity) :
    s.newSlot < logCapacity ∧ s.newSlot ∉ s.log.map (·.slot) := by
  have hex : ∃ k ∈ List.range logCapacity, (!(s.log.map (·.slot)).contains k) = true := by
    by_contra hc
    push Not at hc
    have hsub : List.range logCapacity ⊆ s.log.map (·.slot) := by
      intro k hk
      have := hc k hk
      simpa using this
    have := (List.subperm_of_subset List.nodup_range hsub).length_le
    simp only [List.length_range, List.length_map] at this
    omega
  obtain ⟨k, hk⟩ := Option.isSome_iff_exists.1 (List.find?_isSome.2 hex)
  have hv : s.newSlot = k := by simp only [State.newSlot, hk, Option.getD_some]
  have hmem := List.mem_of_find?_eq_some hk
  have hp := List.find?_some hk
  rw [hv]
  exact ⟨List.mem_range.1 hmem, by simpa using hp⟩

/-- A new record joins the tail of the log, and the next sequence number passes it (R83). -/
theorem createRecord_log (title : Word) (origin : Origin) (rating limit : Nat) (state : RecordState)
    (charge : Option Charge) (s : State) :
    (createRecord title origin rating limit state charge s).log =
        s.log ++
          [{ seq := s.newSeq, folio := s.folio.number, title := title, origin := origin, rating := rating, limit := limit
             used := 0, state := state, charge := charge, collected := false, released := false, slot := s.newSlot }] ∧
      (createRecord title origin rating limit state charge s).nextSeq = s.newSeq + 1 := by
  unfold createRecord
  dsimp only
  split <;> simp [report]

/-- Replacing a record by one of the same number and slot keeps every number and slot in its place. -/
theorem replaceRecord_places {r : Record} {s : State} (h : ∀ x ∈ s.log, x.seq = r.seq → x.slot = r.slot) :
    (replaceRecord r s).log.map (·.seq) = s.log.map (·.seq) ∧
      (replaceRecord r s).log.map (·.slot) = s.log.map (·.slot) := by
  constructor <;> simp only [replaceRecord, List.map_map] <;> refine List.map_congr_left fun x hx => ?_ <;>
    simp only [Function.comp] <;> split <;> simp_all

/-- Numbers that differ from record to record name their records. -/
theorem recordOf_of_mem {r : Record} {s : State} (hn : (s.log.map (·.seq)).Nodup) (hr : r ∈ s.log) :
    s.recordOf r.seq = some r := by
  unfold State.recordOf
  cases hf : s.log.find? (fun x => x.seq == r.seq) with
  | none => exact absurd (List.find?_eq_none.1 hf r hr) (by simp)
  | some x =>
    have hx := List.mem_of_find?_eq_some hf
    have hs : x.seq = r.seq := by simpa using List.find?_some hf
    rw [List.inj_on_of_nodup_map hn hx hr hs]

end Sys2Proof.Machine
end

