-- ==== Sys2Proof/Laws/Judging.lean ====
section
/-!
SUPPORT. What a judging leaves: the log's answer in terms of the records it leaves (R85, R86), a path that stands as
R7 to R11 say, and what a judging without a preview leaves (R79, R92).
-/
namespace Sys2Proof.Machine

/-- The records of a title and the conditions of a preview read the folio, the log, the previewed titles and the live
offers alone. -/
theorem answers_congr {s t : State} (hf : t.folio = s.folio) (hl : t.log = s.log) (hp : t.previewed = s.previewed)
    (ho : t.offers = s.offers) (title : Word) (index : Nat) :
    (t.hasBought title ↔ s.hasBought title) ∧ (t.hasPreview title ↔ s.hasPreview title) ∧
      (t.startsPreview title index ↔ s.startsPreview title index) := by
  simp [State.hasBought, State.hasPreview, State.startsPreview, State.offerAt, hf, hl, hp, ho]

/-- What the answer to a path says of the state it leaves (R85, R86). -/
theorem ask_answers (title : Word) (index : Nat) (s : State) :
    let r := ask title index s
    (r.answer = .bought ↔ r.state.hasBought title) ∧
      (r.answer = .preview ↔ ¬r.state.hasBought title ∧ r.state.hasPreview title) ∧
      ¬r.state.startsPreview title index := by
  by_cases hb : s.hasBought title
  · rw [ask_bought index hb]
    simp [hb, State.startsPreview]
  by_cases hp : s.hasPreview title
  · rw [ask_preview index hb hp]
    simp [hb, hp, State.startsPreview]
  by_cases hs : s.startsPreview title index
  · rw [ask_starts hs]
    have hl := (createRecord_log title .preview (s.offerAt index).rating (min (s.offerAt index).preview 15) .preview none
      s).1
    set u := createRecord title .preview (s.offerAt index).rating (min (s.offerAt index).preview 15) .preview none s
    have hf : u.folio = s.folio := by simp [u]
    have hpv : ({ u with previewed := s.previewed ++ [title] } : State).hasPreview title := by
      refine ⟨_, by rw [hl]; exact List.mem_append_right _ (List.mem_singleton.2 rfl), rfl, ?_, ?_, rfl, hs.2.2.2.2.2.2.2.2⟩
      · simp [hf, hs.1]
      · simp [hf]
    have hnb : ¬({ u with previewed := s.previewed ++ [title] } : State).hasBought title := by
      rintro ⟨r, hr, ⟨w, hw⟩, hc, hn, ht⟩
      rw [hl] at hr
      rcases List.mem_append.1 hr with hr | hr
      · exact hb ⟨r, hr, ⟨w, hw⟩, by simpa [hf] using hc, by simpa [hf] using hn, ht⟩
      · rw [List.mem_singleton.1 hr] at hw
        cases hw
    simp [hpv, hnb, State.startsPreview]
  · rw [ask_none hb hp hs]
    simp [hb, hp, hs]

/-- The reasons of R8 read the tables, the lock record and the folio alone. -/
theorem reasons_congr {s t : State} (hc : t.channels = s.channels) (ho : t.offers = s.offers) (hl : t.lock = s.lock)
    (hf : t.folio = s.folio) (i : Nat) :
    (t.asksLog i ↔ s.asksLog i) ∧ ∀ answer, t.judgedState i answer = s.judgedState i answer := by
  have h1 : t.isNoService i ↔ s.isNoService i := by simp [State.isNoService, State.channelAt, State.offerAt, hc, ho]
  have h2 : t.isTableFault i ↔ s.isTableFault i := by simp [State.isTableFault, State.channelAt, hc, ho]
  have h3 : t.isOverCeiling i ↔ s.isOverCeiling i := by
    simp [State.isOverCeiling, State.channelAt, State.offerAt, hc, ho, hl]
  have h4 : t.channelAt i = s.channelAt i := by simp [State.channelAt, hc]
  exact ⟨by simp [State.asksLog, h1, h2, h3, h4], fun answer => by
    unfold State.judgedState
    rw [propext h1, propext h2, propext h3, h4, hf]⟩

/-- A judging leaves its path standing as R7 to R11 say. -/
theorem judgeOnce_pathJudged (p : PathId) (s : State) : (judgeOnce p s).state.pathJudged p := by
  cases hs : (s.path p).selected with
  | none =>
    rw [judgeOnce_unselected hs]
    intro i hi
    rw [hs] at hi
    cases hi
  | some i =>
    by_cases ha : s.asksLog i
    · rw [judgeOnce_asks hs ha]
      have h := ask_answers (s.offerAt (s.channelAt i).offer).title (s.channelAt i).offer s
      have hk :
          (ask (s.offerAt (s.channelAt i).offer).title (s.channelAt i).offer s).state.channels = s.channels ∧
          (ask (s.offerAt (s.channelAt i).offer).title (s.channelAt i).offer s).state.offers = s.offers ∧
          (ask (s.offerAt (s.channelAt i).offer).title (s.channelAt i).offer s).state.lock = s.lock ∧
          (ask (s.offerAt (s.channelAt i).offer).title (s.channelAt i).offer s).state.folio = s.folio ∧
          (ask (s.offerAt (s.channelAt i).offer).title (s.channelAt i).offer s).state.path p = s.path p := by
        cases p <;> simp [State.path]
      dsimp only at h ⊢
      generalize ask (s.offerAt (s.channelAt i).offer).title (s.channelAt i).offer s = r at h hk ⊢
      obtain ⟨h1, h2, h3⟩ := h
      intro j hj
      simp only [path_setPath_same] at hj ⊢
      obtain rfl : i = j := by rw [hk.2.2.2.2, hs] at hj; exact Option.some.inj hj
      refine ⟨?_, ?_⟩
      · intro hn
        exact absurd ((reasons_congr (s := s) (by simp [hk]) (by simp [hk]) (by simp [hk]) (by simp [hk]) i).1.2 ha) hn
      · intro _
        have he : ∀ x, (r.state.setPath p x).channelAt i = s.channelAt i := by
          intro x; simp [State.channelAt, hk]
        have ho : ∀ x k, (r.state.setPath p x).offerAt k = s.offerAt k := by
          intro x k; simp [State.offerAt, hk]
        have hg : ∀ x title index, _ := fun x title index =>
          answers_congr (s := r.state) (t := r.state.setPath p x) (by simp) (by simp) (by simp) (by simp) title index
        rw [he, ho, (hg _ _ 0).1, (hg _ _ 0).2.1, (hg _ _ _).2.2,
          (reasons_congr (s := s) (t := r.state.setPath p _) (by simp [hk]) (by simp [hk]) (by simp [hk]) (by simp [hk])
            i).2]
        refine ⟨rfl, ?_, h1, h2, h3⟩
        obtain ⟨hcl, n1, n2, n3⟩ := ha
        unfold State.judgedState
        rw [if_neg n1, if_neg n2, if_neg n3, hcl]
        cases r.answer <;> rfl
    · rw [judgeOnce_quiet hs ha .none]
      intro j hj
      simp [enterState] at hj
      obtain rfl : i = j := by rw [hs] at hj; exact Option.some.inj hj
      obtain ⟨c1, c2⟩ := reasons_congr (s := s)
        (t := enterState p (s.judgedState i .none) s) (by simp [enterState]) (by simp [enterState])
        (by simp [enterState]) (by simp [enterState]) i
      refine ⟨fun _ => ?_, fun h => absurd (c1.1 h) ha⟩
      rw [c2]
      simp [enterState]

/-- A path that stands as its judging left it does so as long as everything that a judging reads stands. -/
theorem pathJudged_congr {s t : State} {p : PathId} (hp : t.path p = s.path p) (hc : t.channels = s.channels)
    (ho : t.offers = s.offers) (hl : t.lock = s.lock) (hf : t.folio = s.folio) (hg : t.log = s.log)
    (hv : t.previewed = s.previewed) (h : s.pathJudged p) : t.pathJudged p := by
  intro i hi
  have hi' : (s.path p).selected = some i := by rw [← hp]; exact hi
  have he : t.channelAt i = s.channelAt i := by simp [State.channelAt, hc]
  have hof : ∀ k, t.offerAt k = s.offerAt k := fun k => by simp [State.offerAt, ho]
  obtain ⟨h1, h2⟩ := h i hi'
  obtain ⟨r1, r2⟩ := reasons_congr (s := s) (t := t) hc ho hl hf i
  refine ⟨fun hn => by rw [hp, r2]; exact h1 (fun ha => hn (r1.2 ha)), fun ha => ?_⟩
  obtain ⟨a1, a2, a3, a4, a5⟩ := h2 (r1.1 ha)
  have g := fun title index => answers_congr (s := s) (t := t) hf hg hv ho title index
  rw [hp, he, hof, r2]
  exact ⟨a1, a2, a3.trans (g _ 0).1.symm, a4.trans (and_congr (not_congr (g _ 0).1.symm) (g _ 0).2.1.symm),
    fun hst => a5 ((g _ _).2.2.1 hst)⟩

/-! ### Judging without a preview (R79, R92) -/

/-- A judging without a preview at an entry that asks the log: answer 1, 2 or 4 of R85. -/
theorem judgeNoPreview_asks {p : PathId} {s : State} {i : Nat} (hs : (s.path p).selected = some i) (h : s.asksLog i) :
    ∃ answer : Answer,
      judgeNoPreview p s =
        s.setPath p { s.path p with
          title := (s.offerAt (s.channelAt i).offer).title, answer := answer, admitted := answer.pathState } ∧
      (answer = .bought ↔ s.hasBought (s.offerAt (s.channelAt i).offer).title) ∧
      (answer = .preview ↔
        ¬s.hasBought (s.offerAt (s.channelAt i).offer).title ∧ s.hasPreview (s.offerAt (s.channelAt i).offer).title) := by
  unfold judgeNoPreview
  rw [judgeOnce_asks hs h]
  dsimp only
  generalize (s.offerAt (s.channelAt i).offer).title = title
  by_cases hb : s.hasBought title
  · rw [ask_bought _ hb]
    exact ⟨.bought, rfl, by simp [hb], by simp [hb]⟩
  by_cases hp : s.hasPreview title
  · rw [ask_preview _ hb hp]
    exact ⟨.preview, rfl, by simp [hb], by simp [hb, hp]⟩
  by_cases hn : s.startsPreview title (s.channelAt i).offer
  · rw [ask_starts hn]
    exact ⟨.none, rfl, by simp [hb], by simp [hp]⟩
  · rw [ask_none hb hp hn]
    exact ⟨.none, rfl, by simp [hb], by simp [hp]⟩

/-- The state of an entry that asks the log is that of its answer (R8, R11). -/
theorem judgedState_asks {s : State} {i : Nat} (h : s.asksLog i) (answer : Answer) :
    s.judgedState i answer = answer.pathState := by
  obtain ⟨hc, h1, h2, h3⟩ := h
  unfold State.judgedState
  rw [if_neg h1, if_neg h2, if_neg h3, hc]
  cases answer <;> rfl

/-- A judging without a preview at an entry that does not ask the log. -/
theorem judgeNoPreview_quiet {p : PathId} {s : State} {i : Nat} (hs : (s.path p).selected = some i)
    (h : ¬s.asksLog i) : judgeNoPreview p s = enterState p (s.judgedState i .none) s := by
  unfold judgeNoPreview
  rw [judgeOnce_quiet hs h .none]

/-- A path that stands as a judging without a preview leaves it is left where it stands by one. -/
theorem judgeNoPreview_of_pathRecalled {p : PathId} {s : State} (h : s.pathRecalled p) : judgeNoPreview p s = s := by
  cases hs : (s.path p).selected with
  | none => simp [judgeNoPreview, judgeOnce_unselected hs]
  | some i =>
    obtain ⟨hq, ha⟩ := h i hs
    by_cases hi : s.asksLog i
    · obtain ⟨h1, h2, h3, h4⟩ := ha hi
      obtain ⟨answer, he, e1, e2⟩ := judgeNoPreview_asks hs hi
      have : answer = (s.path p).answer := by
        rw [h1] at h3 h4
        generalize (s.path p).answer = b at *
        cases answer <;> cases b <;> simp_all
      rw [judgedState_asks hi] at h2
      rw [he, this, ← h1, ← h2]
      exact setPath_path p s
    · rw [judgeNoPreview_quiet hs hi, ← hq hi]
      exact setPath_path p s

/-- What a judging without a preview reads stands as long as the tables, the lock record, the folio and the log do. -/
theorem pathRecalled_congr {s t : State} {p : PathId} (hp : t.path p = s.path p) (hc : t.channels = s.channels)
    (ho : t.offers = s.offers) (hl : t.lock = s.lock) (hf : t.folio = s.folio) (hg : t.log = s.log)
    (hv : t.previewed = s.previewed) (h : s.pathRecalled p) : t.pathRecalled p := by
  intro i hi
  have hi' : (s.path p).selected = some i := by rw [← hp]; exact hi
  obtain ⟨h1, h2⟩ := h i hi'
  obtain ⟨r1, r2⟩ := reasons_congr (s := s) (t := t) hc ho hl hf i
  refine ⟨fun hn => by rw [hp, r2]; exact h1 (fun ha => hn (r1.2 ha)), fun ha => ?_⟩
  obtain ⟨a1, a2, a3, a4⟩ := h2 (r1.1 ha)
  have g := fun title => answers_congr (s := s) (t := t) hf hg hv ho title 0
  rw [hp, r2]
  exact ⟨by simpa [State.offerAt, State.channelAt, hc, ho] using a1, a2, a3.trans (g _).1.symm,
    a4.trans (and_congr (not_congr (g _).1.symm) (g _).2.1.symm)⟩

/-- A judging without a preview leaves its path standing as R79 and R92 say. -/
theorem judgeNoPreview_pathRecalled (p : PathId) (s : State) : (judgeNoPreview p s).pathRecalled p := by
  intro i hi
  obtain ⟨t, a, st, hw⟩ := judgeNoPreview_writes p s
  have hs : (s.path p).selected = some i := by
    rw [hw] at hi
    simpa using hi
  have keep := fun x : Path => reasons_congr (s := s) (t := s.setPath p x) (by simp) (by simp) (by simp) (by simp) i
  have ans := fun (x : Path) title =>
    answers_congr (s := s) (t := s.setPath p x) (by simp) (by simp) (by simp) (by simp) title 0
  by_cases h : s.asksLog i
  · obtain ⟨answer, he, e1, e2⟩ := judgeNoPreview_asks hs h
    rw [he]
    refine ⟨fun hn => absurd ((keep _).1.2 h) hn, fun _ => ⟨?_, ?_, ?_, ?_⟩⟩
    · simp [State.offerAt, State.channelAt]
    · rw [(keep _).2, judgedState_asks h]
      simp
    · rw [(ans _ _).1]
      simpa using e1
    · rw [(ans _ _).1, (ans _ _).2.1]
      simpa using e2
  · rw [judgeNoPreview_quiet hs h]
    unfold enterState
    refine ⟨fun _ => ?_, fun hn => absurd ((keep _).1.1 hn) h⟩
    rw [(keep _).2]
    simp

/-- A path shows a title in the words of the model exactly when it does in those of the statements (R88). -/
theorem shows_iff (s : State) (p : PathId) (title : Word) : s.shows p title = true ↔ s.showsTitle p title := by
  unfold State.shows State.showsTitle
  cases (s.path p).selected <;> simp

/-- A path follows a title's preview in the words of the model exactly when it does in those of the statements. -/
theorem followsPreview_iff (s : State) (p : PathId) (title : Word) :
    s.followsPreview p title = true ↔ s.showsOrPreviews p title := by
  unfold State.followsPreview State.showsOrPreviews
  rw [Bool.or_eq_true, shows_iff]
  simp [Option.isSome_iff_ne_none, and_assoc]

/-- What a path shows follows from that path, the channel table and the offer table. -/
theorem showsTitle_congr {s t : State} {p : PathId} (hp : t.path p = s.path p) (hc : t.channels = s.channels)
    (ho : t.offers = s.offers) (title : Word) : t.showsTitle p title ↔ s.showsTitle p title := by
  simp [State.showsTitle, State.channelAt, State.offerAt, hp, hc, ho]

/-- One path's part of handing on an ended record's title. -/
theorem judgeNoPreviewIfShown_cases (title : Word) (p : PathId) (s : State) :
    let t := judgeNoPreviewIfShown title p s
    (∃ shown answer admitted, t =
        s.setPath p { s.path p with title := shown, answer := answer, admitted := admitted }) ∧
      (s.showsTitle p title → t.pathRecalled p) ∧ (¬s.showsTitle p title → t = s) ∧
      ((s.showsTitle p title → s.pathRecalled p) → t = s) := by
  unfold judgeNoPreviewIfShown
  by_cases h : s.showsTitle p title
  · rw [if_pos ((shows_iff s p title).2 h)]
    obtain ⟨_, _, _, hw⟩ := judgeNoPreview_writes p s
    exact ⟨⟨_, _, _, hw⟩, fun _ => judgeNoPreview_pathRecalled p s, fun hn => absurd h hn,
      fun hr => judgeNoPreview_of_pathRecalled (hr h)⟩
  · rw [if_neg (fun hs => h ((shows_iff s p title).1 hs))]
    exact ⟨⟨_, _, _, (setPath_path p s).symm⟩, fun hs => absurd hs h, fun _ => rfl, fun _ => rfl⟩

/-- All that handing on an ended record's title does (R79, R92): each path that shows it stands as a judging without a
preview leaves it, a path that does not show it stands, and so does one that such a judging would not move; of a path
only the title, the answer and the admitted state are written. -/
theorem handEndedTitle_paths (title : Word) (s : State) (q : PathId) :
    let t := handEndedTitle title s
    (s.showsTitle q title → t.pathRecalled q) ∧ (¬s.showsTitle q title → t.path q = s.path q) ∧
      ((s.showsTitle q title → s.pathRecalled q) → t.path q = s.path q) ∧
      ∃ shown answer admitted, t.path q = { s.path q with title := shown, answer := answer, admitted := admitted } := by
  intro t
  obtain ⟨⟨x1, x2, x3, hx⟩, a1, a2, a3⟩ := judgeNoPreviewIfShown_cases title .a s
  obtain ⟨⟨y1, y2, y3, hy⟩, b1, b2, b3⟩ := judgeNoPreviewIfShown_cases title .b (judgeNoPreviewIfShown title .a s)
  have ht : t = judgeNoPreviewIfShown title .b (judgeNoPreviewIfShown title .a s) := rfl
  rw [ht]
  cases q with
  | a =>
    have hp : (judgeNoPreviewIfShown title .b (judgeNoPreviewIfShown title .a s)).path .a =
        (judgeNoPreviewIfShown title .a s).path .a := by
      rw [hy]
      rfl
    refine ⟨fun h => ?_, fun h => by rw [hp, a2 h], fun h => by rw [hp, a3 h], x1, x2, x3, by rw [hp, hx]; rfl⟩
    refine pathRecalled_congr hp ?_ ?_ ?_ ?_ ?_ ?_ (a1 h) <;> rw [hy] <;> rfl
  | b =>
    have hp : (judgeNoPreviewIfShown title .a s).path .b = s.path .b := by
      rw [hx]
      rfl
    have hs : (judgeNoPreviewIfShown title .a s).showsTitle .b title ↔ s.showsTitle .b title := by
      refine showsTitle_congr hp ?_ ?_ title <;> rw [hx] <;> rfl
    refine ⟨fun h => b1 (hs.2 h), fun h => by rw [b2 (fun h' => h (hs.1 h')), hp], fun h => ?_, y1, y2, y3,
      by rw [hy, path_setPath_same, hp]⟩
    rw [b3, hp]
    intro h'
    refine pathRecalled_congr hp ?_ ?_ ?_ ?_ ?_ ?_ (h (hs.1 h')) <;> rw [hx] <;> rfl

end Sys2Proof.Machine
end

