-- ==== Sys2Proof/Laws/Store.lean ====
section
/-!
SUPPORT. What listing a slot and the end of an event can do (R133, R134, R159).
-/
namespace Sys2Proof.Machine

theorem mem_listSlot (k : Nat) (s : State) : k ∈ (listSlot k s).store.dirty := by
  unfold listSlot
  split <;> simp_all

/-- Listing a slot takes no other slot out of the list. -/
theorem mem_listSlot_of_mem {k j : Nat} {s : State} (h : j ∈ s.store.dirty) : j ∈ (listSlot k s).store.dirty := by
  unfold listSlot
  split <;> simp_all

/-- Listing a slot changes the dirty list alone. -/
theorem listSlot_store (k : Nat) (s : State) :
    (listSlot k s).store.slots = s.store.slots ∧ (listSlot k s).store.write = s.store.write ∧
      (listSlot k s).store.damagedCount = s.store.damagedCount := by
  unfold listSlot
  split <;> simp

/-- The image of a slot does not depend on the store, the paths, the ports or the status. -/
theorem captureImage_congr {s t : State} (hf : t.folio = s.folio) (hn : t.nextSeq = s.nextSeq) (hl : t.lock = s.lock)
    (hr : t.room = s.room) (hg : t.log = s.log) (k : Nat) : captureImage t k = captureImage s k := by
  simp [captureImage, hf, hn, hl, hr, hg]

theorem startWrite_busy {s : State} (h : s.store.write.isSome = true) : startWrite s = s := by
  obtain ⟨w, hw⟩ := Option.isSome_iff_exists.1 h
  simp [startWrite, hw]

theorem startWrite_empty {s : State} (h : s.store.dirty = []) : startWrite s = s := by
  unfold startWrite
  split <;> simp_all

theorem startWrite_begins {s : State} {k : Nat} {rest : List Nat} (hw : s.store.write = none)
    (hd : s.store.dirty = k :: rest) :
    startWrite s =
      { s with
        store := { s.store with
          dirty := rest
          write := some { slot := k, image := captureImage s k, releases := s.port.busy.waitsOn k } } } := by
  simp [startWrite, hw, hd]

theorem settled_iff (s : State) :
    s.settled = true ↔
      (s.store.dirty = [] ∨ s.store.write.isSome = true) ∧
        ¬(s.port.busy = .reset ∧ s.store.dirty = [] ∧ s.store.write = none) := by
  simp only [State.settled, State.resetDue, Bool.and_eq_true, Bool.or_eq_true, List.isEmpty_iff, Bool.not_eq_true',
    Bool.and_eq_false_iff, beq_eq_false_iff_ne, ne_eq]
  constructor
  · rintro ⟨h1, h2⟩
    refine ⟨h1, ?_⟩
    rintro ⟨a, b, c⟩
    simp_all
  · rintro ⟨h1, h2⟩
    refine ⟨h1, ?_⟩
    by_contra hc
    push Not at hc
    apply h2
    obtain ⟨⟨a, b⟩, c⟩ := hc
    refine ⟨a, ?_, ?_⟩
    · simpa using b
    · simpa using c

/-- Nothing happens at the end of an event that listed nothing. -/
theorem endEvent_settled {s : State} (h : s.settled = true) : endEvent s = s := by
  have h' := (settled_iff s).1 h
  have e : startWrite s = s := by
    rcases h'.1 with h1 | h1
    · exact startWrite_empty h1
    · exact startWrite_busy h1
  have hd : s.resetDue = false := by
    simp only [State.settled, Bool.and_eq_true, Bool.not_eq_true'] at h
    exact h.2
  simp [endEvent, e, hd]

/-- While no RESET command waits, the end of an event begins a write and does nothing else. -/
theorem endEvent_notReset {s : State} (h : s.port.busy ≠ .reset) : endEvent s = startWrite s := by
  have : (startWrite s).resetDue = false := by simp [State.resetDue, h]
  simp [endEvent, this]

/-- A listed slot waits in the list after the event, or its write has begun with its image. -/
theorem listed_startWrite {s : State} {k : Nat} (h : k ∈ s.store.dirty) : (startWrite s).listed k := by
  rcases hw : s.store.write with _ | w
  · rcases hd : s.store.dirty with _ | ⟨j, rest⟩
    · simp [hd] at h
    · rw [startWrite_begins hw hd]
      rw [hd] at h
      rcases List.mem_cons.1 h with rfl | h
      · exact .inr ⟨_, rfl, rfl, rfl⟩
      · exact .inl h
  · rw [startWrite_busy (by simp [hw])]
    exact .inl h

/-- Every event that ends leaves the store settled. -/
theorem settled_endEvent (s : State) : (endEvent s).settled = true := by
  have key : ∀ u : State, (startWrite u).store.dirty = [] ∨ (startWrite u).store.write.isSome = true := by
    intro u
    rcases hw : u.store.write with _ | w
    · rcases hd : u.store.dirty with _ | ⟨j, rest⟩
      · rw [startWrite_empty hd]
        exact .inl hd
      · rw [startWrite_begins hw hd]
        exact .inr rfl
    · rw [startWrite_busy (by simp [hw])]
      exact .inr (by simp [hw])
  unfold endEvent
  dsimp only
  split
  · rw [settled_iff]
    refine ⟨key _, ?_⟩
    rintro ⟨h, -⟩
    have hb : (resetEffect (startWrite s)).port.busy = .clear := by
      unfold resetEffect
      split <;> simp
    simp [hb] at h
  · rename_i h
    simp only [State.settled, Bool.and_eq_true, Bool.or_eq_true, List.isEmpty_iff, Bool.not_eq_true']
    exact ⟨key s, by simpa using h⟩

end Sys2Proof.Machine
end

