-- ==== Sys2Proof/Laws/KeepsSlots.lean ====
section
/-!
SUPPORT. What the slots hold is changed by a completed write and by a loss of power alone (R131, R134, R137): every
other operation that lists slots, or may, leaves what they hold as it was.
-/
namespace Sys2Proof.Machine

@[simp] theorem listSlot_slots (k : Nat) (s : State) :
    (listSlot k s).store.slots = s.store.slots := by
  simp only [listSlot]
  (repeat' split) <;> simp

@[simp] theorem startWrite_slots (s : State) :
    (startWrite s).store.slots = s.store.slots := by
  simp only [startWrite]
  (repeat' split) <;> simp

@[simp] theorem setFolio_slots (f : Folio) (s : State) :
    (setFolio f s).store.slots = s.store.slots := by
  simp only [setFolio]
  (repeat' split) <;> simp

@[simp] theorem acceptStore_slots (w : Waiting) (code : Byte) (data : List Byte) (s : State) :
    (acceptStore w code data s).store.slots = s.store.slots := by
  simp [acceptStore]

@[simp] theorem resetEffect_slots (s : State) :
    (resetEffect s).store.slots = s.store.slots := by
  simp only [resetEffect]
  (repeat' split) <;> simp

@[simp] theorem endEvent_slots (s : State) :
    (endEvent s).store.slots = s.store.slots := by
  simp only [endEvent]
  (repeat' split) <;> simp

@[simp] theorem grantCharge_slots (f : Folio) (c : Charge) (s : State) :
    (grantCharge f c s).store.slots = s.store.slots := by
  simp only [grantCharge]
  (repeat' split) <;> simp

@[simp] theorem dayChange_slots (s : State) :
    (dayChange s).store.slots = s.store.slots := by
  simp [dayChange]

@[simp] theorem offlineSpendReset_slots (s : State) :
    (offlineSpendReset s).store.slots = s.store.slots := by
  simp [offlineSpendReset]

@[simp] theorem createRecord_slots (title : Word) (origin : Origin) (rating limit : Nat) (state : RecordState) (charge : Option Charge)
    (s : State) :
    (createRecord title origin rating limit state charge s).store.slots = s.store.slots := by
  simp only [createRecord]
  (repeat' split) <;> simp

@[simp] theorem ask_slots (title : Word) (index : Nat) (s : State) :
    (ask title index s).state.store.slots = s.store.slots := by
  simp only [ask]
  (repeat' split) <;> simp

@[simp] theorem judgeOnce_slots (p : PathId) (s : State) :
    (judgeOnce p s).state.store.slots = s.store.slots := by
  simp only [judgeOnce]
  (repeat' split) <;> simp

@[simp] theorem judge_slots (p : PathId) (s : State) :
    (judge p s).store.slots = s.store.slots := by
  simp only [judge]
  (repeat' split) <;> simp

@[simp] theorem judgeBoth_slots (s : State) :
    (judgeBoth s).store.slots = s.store.slots := by
  simp only [judgeBoth]
  (repeat' split) <;> simp

@[simp] theorem judgeReached_slots (a b : Bool) (s : State) :
    (judgeReached a b s).store.slots = s.store.slots := by
  simp only [judgeReached]
  (repeat' split) <;> simp

@[simp] theorem handTitle_slots (title : Word) (s : State) :
    (handTitle title s).store.slots = s.store.slots := by
  simp [handTitle]

@[simp] theorem handPreviewEnd_slots (title : Word) (s : State) :
    (handPreviewEnd title s).store.slots = s.store.slots := by
  simp [handPreviewEnd]

@[simp] theorem removeRecord_slots (r : Record) (s : State) :
    (removeRecord r s).store.slots = s.store.slots := by
  simp only [removeRecord]
  (repeat' split) <;> simp

@[simp] theorem settleRecord_slots (r : Record) (s : State) :
    (settleRecord r s).store.slots = s.store.slots := by
  simp only [settleRecord]
  (repeat' split) <;> simp

@[simp] theorem changeRecord_slots (r : Record) (s : State) :
    (changeRecord r s).store.slots = s.store.slots := by
  simp [changeRecord]

@[simp] theorem leavePreview_slots (r : Record) (s : State) :
    (leavePreview r s).store.slots = s.store.slots := by
  simp [leavePreview]

@[simp] theorem endAuto_slots (r : Record) (s : State) :
    (endAuto r s).store.slots = s.store.slots := by
  simp only [endAuto]
  (repeat' split) <;> simp

@[simp] theorem endConfirm_slots (r : Record) (s : State) :
    (endConfirm r s).store.slots = s.store.slots := by
  simp [endConfirm]

@[simp] theorem countPreview_slots (r : Record) (s : State) :
    (countPreview r s).store.slots = s.store.slots := by
  simp only [countPreview]
  (repeat' split) <;> simp

@[simp] theorem previewMinute_slots (seq : Half) (s : State) :
    (previewMinute seq s).store.slots = s.store.slots := by
  simp only [previewMinute]
  (repeat' split) <;> simp

@[simp] theorem lastPreviewMinute_slots (policy : Policy) (seq : Half) (s : State) :
    (lastPreviewMinute policy seq s).store.slots = s.store.slots := by
  simp only [lastPreviewMinute]
  (repeat' split) <;> simp

@[simp] theorem endWindow_slots (r : Record) (s : State) :
    (endWindow r s).store.slots = s.store.slots := by
  simp [endWindow]

@[simp] theorem windowMinute_slots (seq : Half) (s : State) :
    (windowMinute seq s).store.slots = s.store.slots := by
  simp only [windowMinute]
  (repeat' split) <;> simp

@[simp] theorem lastWindowMinute_slots (seq : Half) (s : State) :
    (lastWindowMinute seq s).store.slots = s.store.slots := by
  simp only [lastWindowMinute]
  (repeat' split) <;> simp

@[simp] theorem windowsMinute_slots (bought : List Half) (s : State) :
    (windowsMinute bought s).store.slots = s.store.slots := by
  unfold windowsMinute
  induction bought generalizing s with
  | nil => rfl
  | cons q l ih => rw [List.foldl_cons, ih, windowMinute_slots]

@[simp] theorem closeLog_slots (s : State) :
    (closeLog s).store.slots = s.store.slots := by
  unfold closeLog
  generalize s.log = l
  induction l generalizing s with
  | nil => rfl
  | cons r l ih =>
    rw [List.foldl_cons, ih]
    split <;> simp

@[simp] theorem releaseRecord_slots (r : Record) (s : State) :
    (releaseRecord r s).store.slots = s.store.slots := by
  simp only [releaseRecord]
  (repeat' split) <;> simp

@[simp] theorem releaseThrough_slots (seq : Half) (s : State) :
    (releaseThrough seq s).1.store.slots = s.store.slots := by
  unfold releaseThrough
  split
  · rfl
  · dsimp only
    generalize throughSeq seq s.log = l
    clear * -
    induction l generalizing s with
    | nil => rfl
    | cons r l ih => rw [List.foldl_cons, ih, releaseRecord_slots]

@[simp] theorem voidRecord_slots (r : Record) (s : State) :
    (voidRecord r s).store.slots = s.store.slots := by
  simp only [voidRecord]
  (repeat' split) <;> simp

@[simp] theorem voidSeq_slots (seq : Half) (s : State) :
    (voidSeq seq s).1.store.slots = s.store.slots := by
  simp only [voidSeq]
  (repeat' split) <;> simp

@[simp] theorem acceptOrder_slots (o : OfferEntry) (f : Folio) (c : Charge) (s : State) :
    (acceptOrder o f c s).store.slots = s.store.slots := by
  simp only [acceptOrder]
  (repeat' split) <;> simp

@[simp] theorem applyLock_slots (l : Lock) (s : State) :
    (applyLock l s).store.slots = s.store.slots := by
  simp only [applyLock]
  (repeat' split) <;> simp

@[simp] theorem countWrong_slots (s : State) :
    (countWrong s).store.slots = s.store.slots := by
  simp only [countWrong]
  (repeat' split) <;> simp

@[simp] theorem acceptLock_slots (w : Waiting) (code : Byte) (l : Lock) (s : State) :
    (acceptLock w code l s).store.slots = s.store.slots := by
  simp [acceptLock]

@[simp] theorem expireUnlock_slots (s : State) :
    (expireUnlock s).store.slots = s.store.slots := by
  simp [expireUnlock]

@[simp] theorem endLockout_slots (s : State) :
    (endLockout s).store.slots = s.store.slots := by
  simp [endLockout]

@[simp] theorem lockMinute_slots (s : State) :
    (lockMinute s).store.slots = s.store.slots := by
  simp only [lockMinute]
  (repeat' split) <;> simp

@[simp] theorem lockMessage_slots (args : List Byte) (s : State) :
    (lockMessage args s).1.store.slots = s.store.slots := by
  simp only [lockMessage]
  (repeat' split) <;> simp

@[simp] theorem tableCommitMessage_slots (args : List Byte) (s : State) :
    (tableCommitMessage args s).store.slots = s.store.slots := by
  simp only [tableCommitMessage]
  (repeat' split) <;> simp

@[simp] theorem endPass_slots (t : TableId) (crc : Half) (d : Bool) (s : State) :
    (endPass t crc d s).store.slots = s.store.slots := by
  simp only [endPass]
  (repeat' split) <;> simp

@[simp] theorem midnight_slots (s : State) :
    (midnight s).store.slots = s.store.slots := by
  simp [midnight]

@[simp] theorem clockMinute_slots (s : State) :
    (clockMinute s).store.slots = s.store.slots := by
  simp only [clockMinute]
  (repeat' split) <;> simp

@[simp] theorem timeMessage_slots (args : List Byte) (s : State) :
    (timeMessage args s).store.slots = s.store.slots := by
  simp only [timeMessage]
  (repeat' split) <;> simp

@[simp] theorem minute_slots (order : List MinuteTaker) (s : State) :
    (minute order s).store.slots = s.store.slots := by
  have key : ∀ (ts : List MinuteTaker) (bought : List Half) (u : State),
      (ts.foldl (takeMinute bought) u).store.slots = u.store.slots := by
    intro ts bought
    induction ts with
    | nil => intro u; rfl
    | cons t ts ih =>
      intro u
      rw [List.foldl_cons, ih]
      cases t <;> simp [takeMinute]
  exact key _ _ _

@[simp] theorem second_slots (order : List MinuteTaker) (s : State) :
    (second order s).store.slots = s.store.slots := by
  simp only [second]
  (repeat' split) <;> simp

@[simp] theorem checkInMessage_slots (args : List Byte) (s : State) :
    (checkInMessage args s).1.store.slots = s.store.slots := by
  simp only [checkInMessage, acceptCheckIn]
  (repeat' split) <;> simp

@[simp] theorem checkOutMessage_slots (args : List Byte) (s : State) :
    (checkOutMessage args s).1.store.slots = s.store.slots := by
  simp only [checkOutMessage, acceptCheckOut, lockCheckOut]
  (repeat' split) <;> simp

@[simp] theorem folioEvent_slots (f : Folio) (s : State) :
    (folioEvent f s).store.slots = s.store.slots := by
  simp only [folioEvent]
  (repeat' split) <;> simp

@[simp] theorem holdMessage_slots (args : List Byte) (s : State) :
    (holdMessage args s).1.store.slots = s.store.slots := by
  simp only [holdMessage]
  (repeat' split) <;> simp

@[simp] theorem packagesMessage_slots (args : List Byte) (s : State) :
    (packagesMessage args s).1.store.slots = s.store.slots := by
  simp only [packagesMessage]
  (repeat' split) <;> simp

@[simp] theorem bringOnline_slots (setting : Nat) (s : State) :
    (bringOnline setting s).store.slots = s.store.slots := by
  simp only [bringOnline]
  (repeat' split) <;> simp

@[simp] theorem listSlots_slots (ks : List Nat) (s : State) :
    (listSlots ks s).store.slots = s.store.slots := by
  unfold listSlots
  induction ks generalizing s with
  | nil => rfl
  | cons k l ih => rw [List.foldl_cons, ih, listSlot_slots]

@[simp] theorem completeCheck_slots (s : State) :
    (completeCheck s).store.slots = s.store.slots := by
  have key : ∀ (b : Bool) (f : DetailFlag) (u : State), (reportIf b f u).store = u.store := by
    intro b f u
    unfold reportIf
    split <;> simp
  simp only [completeCheck]
  split <;> simp [key, rebuildCopies]

end Sys2Proof.Machine
end

