-- ==== Sys2Proof/Laws/LinePort.lean ====
section
/-!
SUPPORT. Numbers in bytes, and what the arrival of a message frame does at an IDLE receiver (R143, R144, R146).
-/
namespace Sys2Proof.Machine

@[simp] theorem be_length (n x : Nat) : (be n x).length = n := by
  induction n with
  | zero => rfl
  | succ n ih => simp [be, ih]

/-- Most significant byte first: a leading byte counts 256 to the number of bytes after it. -/
theorem foldl_bytes (bs : List Byte) (a : Nat) :
    bs.foldl (fun a b => a * 256 + b.toNat) a =
      a * 256 ^ bs.length + bs.foldl (fun a b => a * 256 + b.toNat) 0 := by
  induction bs generalizing a with
  | nil => simp
  | cons b bs ih =>
    simp only [List.foldl_cons, List.length_cons]
    rw [ih, ih (0 * 256 + b.toNat)]
    ring

/-- The bytes of a number, read as a number. -/
theorem foldl_be (n x : Nat) : (be n x).foldl (fun a b => a * 256 + b.toNat) 0 = x % 256 ^ n := by
  induction n with
  | zero => simp [be, Nat.mod_one]
  | succ n ih =>
    simp only [be, List.foldl_cons, Nat.zero_mul, Nat.zero_add]
    rw [foldl_bytes, ih, be_length, BitVec.toNat_ofNat, show 2 ^ 8 = 256 from rfl, pow_succ, Nat.mod_mul,
      Nat.mul_comm, Nat.add_comm]

/-- A number laid out in `n` bytes reads back modulo 256 to the `n`. -/
theorem natAt_be (n x : Nat) (rest : List Byte) : natAt (be n x ++ rest) 0 n = x % 256 ^ n := by
  unfold natAt
  rw [List.drop_zero, List.take_append_of_le_length (by simp), List.take_of_length_le (by simp), foldl_be]

/-- An IDLE receiver set to IDLE. -/
theorem setReceiver_idle {s : State} (h : s.line.receiver = .idle) : setReceiver .idle s = s := by
  cases s with
  | mk phase pathA pathB engine keys channels offers folio log nextSeq previewed lock seconds clock store room line =>
    cases line
    simp_all [setReceiver]

/-- A message frame with a payload of 120 bytes or fewer, sound by checks 1 and 2, goes to checks 3 and 4. -/
theorem messageFrame_idle {address : Half} {kind : Byte} {payload : List Byte} {s : State}
    (h : s.line.receiver = .idle) (hl : payload.length ≤ 120)
    (hc : checkFrame (lineFrameBytes address kind payload) false false = .sound address kind payload) :
    messageFrame address kind payload s = soundFrame address kind payload s := by
  have hn : (lineFrameBytes address kind payload).length = 6 + payload.length := by
    simp [lineFrameBytes]
    omega
  have ht : (lineFrameBytes address kind payload).take maxLineFrame = lineFrameBytes address kind payload :=
    List.take_of_length_le (by rw [hn, maxLineFrame]; omega)
  have hd : decide (maxLineFrame < (lineFrameBytes address kind payload).length) = false :=
    decide_eq_false (by rw [hn, maxLineFrame]; omega)
  simp only [messageFrame, wholeFrame, h, ht, hd, frameArrives, setReceiver_idle h, hc]

/-- The meaning of a message row is the arrival of its frame in a part that runs. -/
theorem exec_messageFrame {c : Instr} {address : Half} {kind : Byte} {payload : List Byte} {s : State}
    (h : linePortFrame c = some (address, kind, payload)) :
    exec c s = .next (whenLineRuns (messageFrame address kind payload) s) := by
  cases c <;> simp only [linePortFrame, Option.some.injEq, Prod.mk.injEq, reduceCtorEq] at h <;>
    obtain ⟨rfl, rfl, rfl⟩ := h <;> rfl

end Sys2Proof.Machine
end

