-- ==== Sys2Proof/Laws/Settle.lean ====
section
/-!
SUPPORT. What settling a record does (R84, R95, R101): the log, the slot listed, the set port where an ORDER waited for a
record that leaves; and the end of an event while a RESET command waits for a write (R159).
-/
namespace Sys2Proof.Machine

/-- While a waiting RESET command has a write to wait for, the end of an event begins a write and does nothing else. -/
theorem endEvent_writing {s : State} (h : s.port.busy = .reset → s.store.write.isSome = true) :
    endEvent s = startWrite s := by
  by_cases hb : s.port.busy = .reset
  · have hw := h hb
    unfold endEvent
    rw [startWrite_busy hw]
    have : s.resetDue = false := by
      obtain ⟨w, hw⟩ := Option.isSome_iff_exists.1 hw
      simp [State.resetDue, hw]
    simp [this]
  · exact endEvent_notReset hb

/-- A part whose events have ended has a write in flight while a RESET command waits (R159). -/
theorem write_of_settled {s : State} (h : s.settled = true) : s.port.busy = .reset → s.store.write.isSome = true := by
  intro hb
  obtain ⟨h1, h2⟩ := (settled_iff s).1 h
  rcases h1 with h1 | h1
  · cases hw : s.store.write with
    | none => exact absurd ⟨hb, h1, hw⟩ h2
    | some _ => rfl
  · exact h1

/-- A removal answers the ORDER that waits for the record, and leaves the set port alone otherwise (R95). -/
theorem removeRecord_port (r : Record) (s : State) :
    s.portAfterRemoval (removeRecord r s) (fun seq => seq = r.seq) := by
  unfold removeRecord State.portAfterRemoval
  dsimp only
  constructor
  · rintro seq slot b v w hb rfl
    simp [hb, finishWaiting, setBusy, placeReply]
  · intro h
    split
    · rename_i seq slot b v w hb
      have hb' : s.port.busy = .store (.order seq slot b v w) := by simpa using hb
      rw [if_neg (h _ _ _ _ _ hb')]
      simp
    all_goals simp

/-- A record's new content answers the ORDER that waits for it where it leaves the log, and leaves the set port alone
otherwise (R84, R95, R101). -/
theorem settleRecord_port (r : Record) (s : State) :
    s.portAfterRemoval (settleRecord r s) (fun seq => seq = r.seq ∧ r.released = true ∧ r.final = true) := by
  unfold settleRecord
  dsimp only
  have hp : (listSlot r.slot (replaceRecord r s)).port = s.port := by simp
  split
  · rename_i h
    simp only [Bool.and_eq_true] at h
    obtain ⟨h1, h2⟩ := removeRecord_port r (listSlot r.slot (replaceRecord r s))
    rw [hp] at h1 h2
    exact ⟨fun seq slot b v w hb hg => h1 seq slot b v w hb hg.1,
      fun hh => h2 (fun seq slot b v w hb hg => hh seq slot b v w hb ⟨hg, h.1, h.2⟩)⟩
  · rename_i h
    simp only [Bool.and_eq_true] at h
    exact ⟨fun seq slot b v w hb hg => absurd ⟨hg.2.1, hg.2.2⟩ h, fun _ => hp⟩

/-- A record that becomes final takes its place's new content, or leaves the log if it was released (R84, R101). -/
theorem settleRecord_log {r r' : Record} {s : State} (hq : r'.seq = r.seq) (hf : r'.final = true)
    (hrel : r'.released = r.released) :
    (settleRecord r' s).log = s.log.filterMap (fun x =>
      if x.seq = r.seq then if r.released then none else some r' else some x) := by
  unfold settleRecord
  dsimp only
  rw [hf, Bool.and_true, hrel]
  cases hR : r.released
  · simp only [replaceRecord, hq, Bool.false_eq_true, if_false, listSlot_keeps]
    rw [← List.filterMap_eq_map]
    apply List.filterMap_congr
    intro x _
    simp only [Function.comp]
    split <;> rfl
  · have : (removeRecord r' (listSlot r'.slot (replaceRecord r' s))).log =
        (listSlot r'.slot (replaceRecord r' s)).log.filter (fun x => x.seq != r'.seq) := by
      unfold removeRecord
      dsimp only
      (repeat' split) <;> simp
    simp only [if_true]
    rw [this]
    simp only [listSlot_keeps, replaceRecord]
    rw [← List.filterMap_eq_map, ← List.filterMap_eq_filter, List.filterMap_filterMap]
    apply List.filterMap_congr
    intro x _
    by_cases h : x.seq = r.seq <;> simp [h, hq, Option.guard]

/-- Settling a record begins no write. -/
theorem settleRecord_write (r : Record) (s : State) : (settleRecord r s).store.write = s.store.write := by
  unfold settleRecord removeRecord
  dsimp only
  (repeat' split) <;> simp [(listSlot_store _ _).2.1]

/-- Settling a record makes no RESET command wait. -/
theorem settleRecord_busy (r : Record) (s : State) :
    (settleRecord r s).port.busy = .reset → s.port.busy = .reset := by
  unfold settleRecord removeRecord
  dsimp only
  (repeat' split) <;> simp [finishWaiting, setBusy, placeReply]

/-- Settling a record lists its slot (R84). -/
theorem settleRecord_listed (r : Record) (s : State) : r.slot ∈ (settleRecord r s).store.dirty := by
  unfold settleRecord
  dsimp only
  split
  · unfold removeRecord
    dsimp only
    (repeat' split) <;> simp [mem_listSlot]
  · exact mem_listSlot _ _

end Sys2Proof.Machine
end

