-- ==== Sys2Proof/Tests/Slice0.lean ====
section
/-!
SUPPORT. Tests of the model's own: well-formedness refusing an ill-formed command for each check, the spec's worked
figures, one step of each family, and for each statement with hypotheses a state and operands that meet them, clause
by clause.
-/
open Sys2Proof Sys2Proof.Machine

namespace Sys2Proof.Tests

/-! The tests run one after another: many kernel evaluations at once would ask for too many threads. -/
set_option Elab.async false

/-! ### Small states -/

def channelBytes (cls tag rating context package offer : Nat) : List Byte :=
  be 1 cls ++ be 2 tag ++ be 1 rating ++ be 1 context ++ be 1 package ++ be 1 offer ++ List.replicate 12 0x20

def offerBytes (title rating price preview window : Nat) : List Byte :=
  [1] ++ be 4 title ++ be 1 rating ++ be 4 price ++ be 1 preview ++ be 1 window ++ List.replicate 16 0x20

/-- Running, ONLINE, room 7, no folio, empty tables. -/
def vacant : State :=
  { State.reset with
    phase := .running, room := 7
    line := { State.reset.line with receiver := .idle, online := true, watchdog := 10 } }

/-- A guest under folio 9, ceiling 3; channels 1 CLEAR, 2 INCLUDED, 3 PACKAGE, 12 TITLE with offer 5. -/
def guest : State :=
  { vacant with
    folio := { Folio.default with
      number := 9, state := .opened, creditLimit := 5000, dailyCap := 2000, taxRate := 1000, packages := 1
      allowance := 500 }
    lock := { Lock.default with hard := 7, guest := 3 }
    channels := { vacant.channels with
      live := (((vacant.channels.live.set 1 (channelBytes 1 10 0 0 0 0)).set 2 (channelBytes 2 11 0 0 0 0)).set 3
        (channelBytes 3 13 0 1 0 0)).set 12 (channelBytes 4 42 0 3 0 5) }
    offers := { vacant.offers with live := vacant.offers.live.set 5 (offerBytes 0xA1B2C3 3 1000 2 3) } }

def withLock (l : Lock) (s : State) : State := { s with lock := l }
def withBusy (b : Busy) (s : State) : State := { s with port := { s.port with busy := b } }
def withFrame (f : Frame) (s : State) : State := { s with port := { s.port with frame := f } }
def withReceiver (r : Receiver) (s : State) : State := { s with line := { s.line with receiver := r } }
def withLog (log : List Record) (s : State) : State := { s with log := log }
def withWrite (k : Nat) (s : State) : State :=
  { s with store := { s.store with write := some { slot := k, image := captureImage s k, releases := false } } }

/-- Record 4 of folio 9 for the title of offer 5, in record slot 0. -/
def film (state : RecordState) : Record :=
  { seq := 4, folio := 9, title := 0xA1B2C3, origin := .preview, rating := 3, limit := 2, used := 1, state := state
    charge := none, collected := false, released := false, slot := 0 }

/-- The film with its charge of this day. -/
def paid (state : RecordState) : Record :=
  { film state with
    charge := some { list := 1000, tax := 100, billed := 1100, waived := 0, day := 0, minute := 0 } }

/-- Path A PREVIEWING the film's title. -/
def watching : State :=
  withLog [film .preview]
    { guest with
      pathA := { guest.pathA with
        selected := some 12, admitted := .previewing, title := 0xA1B2C3, answer := .preview } }

/-- A reply of two data bytes. -/
def reply2 : Reply := { code := 0x10, result := .ok, data := [1, 2] }

def captured (r : Option Reply) : Capture := { presence := 0, reply := r, replaced := false, driven := true }

def nextState (o : Host.Outcome State Fault Refusal) : State :=
  match o with
  | .next t => t
  | .fault _ => State.reset
  | .refused _ => State.reset

/-- The state after a command. -/
def after (c : Instr) (s : State) : State := nextState (exec c s)

/-! ### Well-formedness refuses an ill-formed command, one for each check -/

theorem test_wf_refuses_empty_frame : (Instr.setFrameDiscarded []).wellFormed = false := by decide
theorem test_wf_refuses_known_code : (Instr.unknownCommand 0x10 []).wellFormed = false := by decide
theorem test_wf_refuses_empty_run : (Instr.lineFrameIgnored [] false false).wellFormed = false := by decide
theorem test_wf_refuses_long_run :
    (Instr.lineFrameIgnored (List.replicate 127 0) false false).wellFormed = false := by decide +kernel
theorem test_wf_refuses_known_kind : (Instr.lineUnknownKind 7 0x01 []).wellFormed = false := by decide
theorem test_wf_refuses_long_payload : (Instr.poll 7 (List.replicate 121 0)).wellFormed = false := by
  decide +kernel
theorem test_wf_refuses_context_16 : (Instr.keyLifeExpiry 16 .even).wellFormed = false := by decide
theorem test_wf_refuses_upset_index : (Instr.liveTableUpset .offer 32 (List.replicate 28 0)).wellFormed = false := by
  decide
theorem test_wf_refuses_upset_length : (Instr.liveTableUpset .offer 31 (List.replicate 27 0)).wellFormed = false := by
  decide

/-! ### The spec's worked figures -/

/-- Spec 00, Conventions. -/
theorem test_crc_of_digits : crc16 [0x31, 0x32, 0x33, 0x34, 0x35, 0x36, 0x37, 0x38, 0x39] = 0x29B1 := by
  decide +kernel

/-- Spec 02, the worked case: the seed, two accumulator values, two plain words. -/
theorem test_keystream_worked_case :
    let key : BitVec 64 := 0x123456789ABCDEF1
    let a1 := accStep key 0 (seed 3 5 42)
    let a2 := accStep key 1 a1
    seed 3 5 42 = 0x3502A ∧ a1 = 0x001658623B ∧ a2 = 0x0035EF1170 ∧
      plainWord key 0 a1 [0x10, 0x20, 0x30, 0x40, 0x50, 0x60, 0x70, 0x80] =
        [0x0B, 0x22, 0x32, 0x38, 0x28, 0x96, 0x06, 0x20] ∧
      plainWord key 1 a2 [0x01, 0x02, 0x03, 0x04, 0x05, 0x06, 0x07, 0x08] =
        [0x75, 0x17, 0x16, 0xE7, 0xEE, 0x37, 0x36, 0x04] := by decide +kernel

/-- R56: the register after a diagnostic pass's extra byte. -/
theorem test_diagnostic_seed : crcByte 0xFFFF 0xFF = 0xFF00 := by decide +kernel

/-- Spec 04, worked cases 1, 3 and 4: a capped charge, a refusal by 24 cents, a charge that meets the limit. -/
theorem test_charges_at_the_limits :
    let f : Folio := { Folio.default with state := .opened, creditLimit := 20000, dailyCap := 5000, taxRate := 1250 }
    let s : Folio → State := fun f => { guest with folio := f }
    ((match chargeRequest 1799 (s { f with total := 12340, daySpend := 3500 }) with
      | .granted g c => (g.total, g.daySpend, g.capMark, c.billed, c.waived)
      | .refused _ => (0, 0, false, 0, 0)) = (13840, 5000, true, 1500, 524)) ∧
    chargeRequest 999 (s { f with total := 18900 }) = .refused .credit ∧
    (match chargeRequest 977 (s { f with total := 18901 }) with
      | .granted g _ => g.total
      | .refused _ => 0) = 20000 := by decide +kernel

/-- Spec 06, the lockout ladder. -/
theorem test_lockout_lengths : [0, 1, 2, 3, 4, 5].map lockoutLength = [15, 30, 60, 120, 240, 240] := by decide

/-- R136: stored windows. -/
theorem test_stored_windows : [0, 1, 15, 16, 2880].map storedWindow = [0, 15, 15, 30, 2880] := by decide

/-! ### One step of each family -/

theorem test_select_starts_preview :
    let t := after (.select [0, 12]) guest
    (t.pathA.state, t.log.length, t.previewed, t.pathA.muteLine) = (.previewing, 1, [0xA1B2C3], false) := by
  decide +kernel

theorem test_select_package : (after (.select [1, 3]) guest).pathB.state = .descrambling := by decide +kernel

theorem test_select_empty_entry : (after (.select [1, 0]) guest).pathB.state = .muted .noService := by decide +kernel

theorem test_order_charges :
    let t := after (.order [5]) guest
    (t.folio.total, t.log.map (·.state), t.port.busy) = (1100, [.bought 180], .store (.order 0 0 1100 0 180)) := by
  decide +kernel

/-- The record's own write, begun after the ORDER, releases it. -/
theorem test_order_released_by_second_write :
    let t := after .slotWriteComplete (after (.order [5]) guest)
    let u := after .slotWriteComplete t
    t.port.busy = .store (.order 0 0 1100 0 180) ∧ u.port.busy = .clear ∧
      u.port.slot = some { code := 0x20, result := .ok, data := [0, 0, 0, 4, 0x4C, 0, 0, 0, 0, 180] } := by
  decide +kernel

theorem test_preview_lapses :
    let t := after (.previewLapse 4) { watching with previewed := [0xA1B2C3] }
    (t.log.map (·.state), t.pathA.state) = ([.lapsed], .muted .notEntitled) := by decide +kernel

theorem test_auto_charge :
    let t := after (.autoCharge 4) { watching with folio := { watching.folio with policy := .auto } }
    (t.log.map (·.state), t.pathA.state, t.folio.total) = ([.bought 180], .descrambling, 1100) := by decide +kernel

theorem test_minute_counts_preview_and_window :
    let t := after (.minuteOfTheTimebase []) (withLog [{ film .preview with used := 0 }, { paid (.bought 16) with
      seq := 5, slot := 1, title := 8 }] watching)
    t.log.map (fun r => (r.used, r.state)) = [(1, .preview), (1, .bought 15)] ∧
      (t.store.write.map (·.slot), t.store.dirty) = (some 1, [0]) := by
  decide +kernel

theorem test_three_wrong_pins_lock_out :
    let s := withLock { guest.lock with pin := some ⟨1, 2, 3, 4⟩, wrong := 2 } guest
    let t := after (.enterPin [9, 9, 9, 9]) s
    (t.lock.state, t.lock.minutes, t.lock.wrong, t.lock.lockouts) = (.lockout, 15, 0, 1) := by decide +kernel

theorem test_unlock_raises_ceiling :
    let s := withLock { guest.lock with pin := some ⟨1, 2, 3, 4⟩ } guest
    (after (.enterPin [1, 2, 3, 4]) s).lock.ceiling = 7 := by decide +kernel

theorem test_check_out_ends_records :
    let t := after (.checkOut 7 []) (withLog [film .preview, { paid (.bought 9) with seq := 5, slot := 1 }] guest)
    (t.folio.state, t.log.map (·.state)) = (.closed, [.lapsed, .ended]) := by decide +kernel

theorem test_void_refunds :
    let s := withLog [paid (.bought 9)] { guest with folio := { guest.folio with total := 1500, daySpend := 1200 } }
    let t := after (.void 7 [0, 4]) s
    (t.folio.total, t.folio.daySpend, t.log.map (·.state)) = (400, 100, [.voided]) := by decide +kernel

theorem test_collect_then_release :
    let t := after (.collect 7 [0xFF, 0xFF]) (withLog [paid .ended] guest)
    let u := after (.release 7 [0, 4]) (withReceiver .idle t)
    t.log.map (·.collected) = [true] ∧ u.log = [] := by decide +kernel

theorem test_commit_of_one_entry :
    let e := channelBytes 1 10 0 0 0 0
    let s := after (.tableEntry 0xFFFF ([0, 0] ++ e)) vacant
    let t := after (.tableCommit 0xFFFF ([0, 1] ++ be 2 (crc16 e).toNat)) s
    (t.channels.outcome, t.channels.generation, t.channelAt 0 |>.cls) = (.accepted, 1, .clear) := by decide +kernel

theorem test_scrambled_cell_without_key_is_a_miss :
    let c : Cell := [0xB8, 0x00, 0xB0, 0x80] ++ List.replicate 124 0
    let s := { guest with pathA := { guest.pathA with selected := some 2, admitted := .descrambling, fifo := [c] } }
    let t := after (.cellTake .a) s
    (t.pathA.state, t.pathA.outgoing, t.pathA.misses) = (.muted .keyAbsent, some fillCell, 1) := by decide +kernel

theorem test_start_up_finds_delivered_slots :
    let t := after .startUpCheckComplete State.reset
    (t.phase, t.folio.state, t.room, t.status.detail, t.store.dirty) = (.running, .closed, 0, 0, []) := by
  decide +kernel

/-- Path A NOT_ENTITLED to the film, which was never previewed. -/
def barred (log : List Record) : State :=
  withLog log
    { guest with
      pathA := { guest.pathA with selected := some 12, admitted := .muted .notEntitled, title := 0xA1B2C3 } }

/-- R79: the VOID of an ENDED record starts no preview and leaves the path as it stood. -/
theorem test_void_of_ended_changes_no_path :
    let t := after (.void 7 [0, 4]) (barred [paid .ended])
    t.log.map (·.state) = [.voided] ∧ t.pathA = (barred []).pathA := by decide +kernel

/-- R92: the window's end of a title never previewed starts no preview. -/
theorem test_window_end_starts_no_preview :
    let s := { barred [paid (.bought 1)] with pathA := { guest.pathA with
      selected := some 12, admitted := .descrambling, title := 0xA1B2C3, answer := .bought } }
    let t := after (.windowEnd 4) s
    (t.log.map (·.state), t.pathA.state, t.previewed) = ([.ended], .muted .notEntitled, []) := by decide +kernel

/-- R160: a frame that power-on came into is not taken. -/
theorem test_power_on_abandons_frame :
    let t := after .startUpCheckComplete (after .powerOnReset (withFrame (.begun (captured none)) guest))
    (t.port.frame, (after (.readTime []) t).port.slot) = (.abandoned, none) := by decide +kernel

/-- R16: the strobes of a fill cell. -/
theorem test_output_strobes :
    let x : Path := { guest.pathA with progress := some ⟨fillCell, .leaving .fill⟩ }
    (x.outputStrobe 0, x.outputStrobe 1, x.outputStrobe 127, x.outputStrobe 128) =
      (some (0xB8, true), some (0xFF, false), some (0, false), none) := by decide +kernel

theorem test_power_loss_damages_slot_written :
    let t := after .startUpCheckComplete (after .powerOnReset (withWrite folioSlot guest))
    (t.store.damagedCount, t.folio.state, t.status.detail.getLsbD 11) = (1, .closed, true) := by decide +kernel

/-! ### States and operands that meet the hypotheses of each statement, clause by clause -/

theorem witness_StepRunsFrontCommand :
    ({ guest with pending := [.nop [], .engineComplete] } : State).pending = .nop [] :: [.engineComplete] ∧
      guest.pending = [] := ⟨rfl, rfl⟩

theorem witness_FrameStartCapturesPresenceAndReply :
    guest.phase = .running ∧ State.reset.phase = .checking ∧
      ({ guest with phase := .released } : State).phase = .released ∧
      ({ guest with phase := .inReset } : State).phase = .inReset ∧
      ({ guest with phase := .off } : State).phase = .off ∧ ({ captured none with driven := false } : Capture).driven = false ∧
      (captured none).driven = true ∧ (captured none).reply = none ∧ (captured (some reply2)).reply = some reply2 ∧
      reply2.data[1]? = some 2 ∧ 3 + reply2.data.length ≤ 5 := by decide

theorem witness_NopDeliversCapturedReply :
    (withFrame (.begun (captured (some reply2))) guest).takesCommand ∧
      (withFrame (.begun (captured none)) guest).takesCommand ∧ guest.takesCommand ∧
      guest.port.frame = .idle ∧ guest.port.slot = none ∧
      ({ guest with port := { guest.port with slot := some reply2 } } : State).takesCommand := by decide

theorem witness_FramesNotTakenChangeNothingElse :
    setPortFrame (.setFrameDiscarded [0x7F]) = some (0x7F, []) ∧ setPortFrame (.reset []) = some (0x7F, []) ∧
      (withBusy .engine guest).phase = .running ∧ (withBusy .engine guest).port.frame ≠ .abandoned ∧
      (withBusy .engine guest).port.busy ≠ .clear ∧
      ¬((0x7F : Byte) = 0x7F ∧ ∃ w, (withBusy .engine guest).port.busy = .store w) ∧
      ¬((0x10 : Byte) = 0x7F ∧ ∃ w, (withBusy (.store .setPin) guest).port.busy = .store w) ∧
      State.reset.phase ≠ .running ∧ (withFrame .abandoned guest).port.frame = .abandoned :=
  ⟨rfl, rfl, rfl, by decide, by decide, fun h => (by obtain ⟨_, w, hw⟩ := h; cases hw), fun h => absurd h.1 (by decide),
    by decide, rfl⟩

theorem witness_FramesAnsweredWithoutEffect :
    guest.takesCommand ∧ (0x04 : Byte) ∉ setCodes ∧ setPortFrame (.engineTest []) = some (0x12, []) ∧
      ((0x12 : Byte), 24) ∈ [((0x02 : Byte), 5), (0x03, 5), (0x10, 2), (0x11, 1), (0x12, 24), (0x18, 1), (0x19, 1),
        (0x1A, 1), (0x20, 1), (0x22, 1), (0x30, 4), (0x31, 8), (0x32, 5), (0x40, 2)] ∧
      (List.replicate 23 (0 : Byte)).length < 24 := by decide

theorem witness_ReadTimeReportsClock : guest.takesCommand := by decide

theorem witness_ReadStatusAndReadFolioReport : guest.takesCommand := by decide

theorem witness_ReadPathReports :
    guest.takesCommand ∧ byteAt [0] 0 = 0 ∧ byteAt [1] 0 = 1 ∧ 2 ≤ byteAt [2] 0 ∧
      (let x : Path := { guest.pathA with admitted := .previewing, keyAbsent := true }
       x.keyAbsent = true ∧ x.admitted = .previewing) ∧ guest.pathA.keyAbsent = false ∧
      guest.pathA.state = .unselected := by decide

theorem witness_TableReadsAndTest :
    guest.takesCommand ∧ byteAt [63] 0 ≤ 63 ∧ 63 < byteAt [64] 0 ∧ byteAt [31] 0 ≤ 31 ∧ 31 < byteAt [32] 0 ∧
      byteAt [0] 0 = 0 ∧ byteAt [1] 0 = 1 ∧ 2 ≤ byteAt [2] 0 := by decide

theorem witness_ReadRecordReports :
    watching.takesCommand ∧ 47 < byteAt [48] 0 ∧ byteAt [47] 0 ≤ 47 ∧ watching.log.length ≤ byteAt [1] 0 ∧
      watching.log[byteAt [0] 0]? = some (film .preview) := by decide

theorem witness_ClearFlagsClears :
    guest.takesCommand ∧ guest.settled = true ∧ 5 ≤ [0, 1, 0, 0, (0x20 : Byte)].length := by decide

theorem witness_SetMasksReplacesMasks : guest.takesCommand ∧ 5 ≤ [0, 0xF, 0xFF, 0xFF, (0x3F : Byte)].length := by
  decide

/-- A channel whose judging stops before the log, and the film's channel. -/
theorem guest_asks_for_channel_12 : ¬guest.asksLog 3 ∧ guest.asksLog 12 ∧ watching.asksLog 12 := by
  refine ⟨?_, ?_, ?_⟩ <;> unfold State.asksLog State.isNoService State.isTableFault State.isOverCeiling <;>
    decide +kernel

theorem guest_has_no_record : ∀ title, ¬guest.hasBought title ∧ ¬guest.hasPreview title :=
  fun _ => ⟨fun ⟨_, h, _⟩ => absurd h (List.not_mem_nil), fun ⟨_, h, _⟩ => absurd h (List.not_mem_nil)⟩

/-- The film bought. -/
def owner : State := withLog [paid (.bought 180)] guest

theorem witness_SelectWithoutNewPreview :
    guest.takesCommand ∧ guest.settled = true ∧ byteAt [0, 255] 0 = 0 ∧ byteAt [1, 255] 0 = 1 ∧
      byteAt [0, 255] 1 = 255 ∧ 2 ≤ byteAt [2, 0] 0 ∧ (63 < byteAt [0, 64] 1 ∧ byteAt [0, 64] 1 ≠ 255) ∧
      byteAt [0, 12] 1 = 12 ∧ ¬guest.asksLog 3 ∧
      (owner.asksLog 12 ∧ owner.hasBought 0xA1B2C3) ∧
      (watching.asksLog 12 ∧ ¬watching.hasBought 0xA1B2C3 ∧ watching.hasPreview 0xA1B2C3) ∧
      (let s := { guest with previewed := [0xA1B2C3] }
       s.asksLog 12 ∧ ¬s.hasBought 0xA1B2C3 ∧ ¬s.hasPreview 0xA1B2C3 ∧ ¬s.startsPreview 0xA1B2C3 5) ∧
      ({ guest.pathA with progress := some ⟨fillCell, .waiting false⟩ } : Path).progress = some ⟨fillCell, .waiting false⟩ ∧
      ({ guest.pathA with progress := some ⟨fillCell, .leaving .fill⟩ } : Path).progress = some ⟨fillCell, .leaving .fill⟩
      := by
  refine ⟨by decide, by decide, by decide, by decide, by decide, by decide, by decide, by decide,
    guest_asks_for_channel_12.1, ⟨guest_asks_for_channel_12.2.1, paid (.bought 180), List.mem_singleton.2 rfl, ⟨180, rfl⟩,
      by decide, rfl, rfl⟩,
    ⟨guest_asks_for_channel_12.2.2, ?_, film .preview, List.mem_singleton.2 rfl, by decide⟩,
    ⟨guest_asks_for_channel_12.2.1, (guest_has_no_record _).1, (guest_has_no_record _).2,
      fun h => h.2.2.2.1 (List.mem_singleton.2 rfl)⟩, rfl, rfl⟩
  rintro ⟨r, hr, ⟨w, hw⟩, _⟩
  rw [List.mem_singleton.1 hr] at hw
  cases hw

theorem log_sound_guest : LogSound guest ∧ LogSound watching ∧ LogSound owner := by unfold LogSound; decide +kernel

theorem preview_sound_guest : PreviewSound guest :=
  ⟨fun p h => (by cases p <;> cases h), fun h => absurd rfl h⟩

theorem witness_SelectStartsPreview :
    guest.takesCommand ∧ guest.settled = true ∧ LogSound guest ∧ PreviewSound guest ∧ byteAt [0, 12] 0 = 0 ∧
      byteAt [0, 12] 1 = 12 ∧ guest.asksLog 12 ∧
      guest.startsPreview (guest.offerAt (guest.channelAt 12).offer).title (guest.channelAt 12).offer :=
  ⟨by decide, by decide, log_sound_guest.1, preview_sound_guest, by decide, by decide, guest_asks_for_channel_12.2.1,
    rfl, (guest_has_no_record _).1, (guest_has_no_record _).2, by decide +kernel, by decide, by decide,
    by decide +kernel, rfl, by decide +kernel⟩

theorem witness_SeedFromStampCountAndTag :
    15 ≤ 15 ∧ 4095 ≤ 4095 ∧ (0xFF000003 : Word).toNat % 2 ^ 24 = (3 : Word).toNat % 2 ^ 24 := by decide

theorem witness_KeystreamRecoversWord :
    14 ≤ 14 ∧ (beginService (.test 14 []) 1 11 0 0).position = 0 ∧ (List.replicate 120 (0 : Byte)).length = 120 := by
  decide

/-! Engine states: idle, serving path B, serving a test. -/

theorem engine_sound_guest : EngineSound guest :=
  ⟨fun _ r => by rcases r with (_ | _) | _ <;> rfl, fun p => by cases p <;> rfl, by decide, by decide⟩

/-- A cell of channel 2's service, scrambled, EVEN. -/
def scrambled : Cell := [0xB8, 0x00, 0xB0, 0x80] ++ List.replicate 124 0

def serviceOf (w : Work) : Service :=
  { work := w, key := 1, acc := seed 0 0 11, position := 0, tag := 11, count := 0, stamp := 0 }

/-- Path B's cell is in the engine; `discard`: its result is to be dropped. -/
def servingB (discard : Bool) : State :=
  { guest with
    pathB := { guest.pathB with progress := some ⟨scrambled, .serving discard⟩ }
    engine := { guest.engine with serving := some (serviceOf (.cell .b (scrambled.drop 8))) } }

/-- A test is in the engine. -/
def servingTest : State :=
  { withBusy .engine guest with
    engine := { guest.engine with serving := some (serviceOf (.test 14 (List.replicate 8 0))) } }

theorem engine_sound_serving : (∀ d, EngineSound (servingB d)) ∧ EngineSound servingTest :=
  ⟨fun _ => ⟨fun h => absurd h (by simp [servingB]), fun p => by cases p <;> rfl, by simp [servingB, guest, vacant,
      Engine.serves, serviceOf, State.reset], rfl⟩,
    fun h => absurd h (by simp [servingTest]), fun p => by cases p <;> rfl, by decide, by decide⟩

theorem witness_EngineTestIsPosted :
    guest.takesCommand ∧ EngineSound guest ∧ guest.engine.serving = none ∧ (servingB false).takesCommand ∧
      EngineSound (servingB false) ∧ (servingB false).engine.serving ≠ none ∧
      (let args := List.replicate 8 (0 : Byte) ++ [0x0F, 0xFE, 15, 0, 0, 0, 0, 14] ++ List.replicate 8 0
       24 ≤ args.length ∧ natAt args 8 2 ≤ 4094 ∧ byteAt args 10 ≤ 15 ∧ byteAt args 15 ≤ 14) ∧
      (let args := List.replicate 8 (0 : Byte) ++ [0x0F, 0xFF, 16, 0, 0, 0, 0, 15] ++ List.replicate 8 0
       4094 < natAt args 8 2 ∧ 15 < byteAt args 10 ∧ 14 < byteAt args 15) :=
  ⟨by decide, engine_sound_guest, rfl, by decide, engine_sound_serving.1 _, by simp [servingB], by decide, by decide⟩

theorem guest_may_order : guest.orderRefusal 5 = none := by
  unfold State.orderRefusal
  rw [if_neg (by decide), if_neg (by decide), if_neg (by decide), if_neg (by decide), if_neg (by decide +kernel),
    if_neg (by decide +kernel), if_neg (guest_has_no_record _).1, if_neg (fun h => absurd h.2 (by decide))]
  decide +kernel

theorem witness_OrderRefusedByFirstFailingCheck :
    guest.takesCommand ∧ guest.orderRefusal (byteAt [32] 0) = some .badArg ∧
      vacant.orderRefusal (byteAt [31] 0) = some .folioClosed := by
  refine ⟨by decide, if_pos (by decide), ?_⟩
  unfold State.orderRefusal
  rw [if_neg (by decide), if_pos (by decide)]

theorem watching_may_order : watching.orderRefusal 5 = none ∧ watching.previewOf 0xA1B2C3 := by
  refine ⟨?_, film .preview, List.mem_singleton.2 rfl, by decide⟩
  unfold State.orderRefusal
  rw [if_neg (by decide), if_neg (by decide), if_neg (by decide), if_neg (by decide), if_neg (by decide +kernel),
    if_neg (by decide +kernel), if_neg, if_neg (fun h => absurd h.2 (by decide))]
  · decide +kernel
  · rintro ⟨r, hr, ⟨w, hw⟩, _⟩
    rw [List.mem_singleton.1 hr] at hw
    cases hw

theorem witness_OrderAccepted :
    guest.takesCommand ∧ guest.settled = true ∧ LogSound guest ∧ guest.orderRefusal (byteAt [5] 0) = none ∧
      watching.takesCommand ∧ watching.settled = true ∧ LogSound watching ∧
      watching.orderRefusal (byteAt [5] 0) = none ∧ watching.previewOf (watching.offerAt (byteAt [5] 0)).title ∧
      PreviewSound guest ∧ ¬guest.previewOf (guest.offerAt (byteAt [5] 0)).title :=
  ⟨by decide, by decide, log_sound_guest.1, guest_may_order, by decide, by decide, log_sound_guest.2.1,
    watching_may_order.1, watching_may_order.2, preview_sound_guest, fun ⟨_, h, _⟩ => absurd h (List.not_mem_nil)⟩

/-! Lock states: a PIN set, two wrong attempts, an unlock, a lockout. -/

def pinned : State := withLock { guest.lock with pin := some ⟨1, 2, 3, 4⟩, wrong := 2 } guest
def unlocked : State := withLock { pinned.lock with state := .unlocked, minutes := 1, wrong := 0 } guest
def lockedOut : State := withLock { pinned.lock with state := .lockout, minutes := 1, length := 15, wrong := 0 } guest

theorem witness_EnterPinAndRelock :
    vacant.takesCommand ∧ vacant.settled = true ∧ vacant.folio.state = .closed ∧
      guest.takesCommand ∧ guest.settled = true ∧ guest.folio.state ≠ .closed ∧
      pinArg [0xFF, 0xFF, 0xFF, 0xFF] 0 = .none ∧ pinArg [1, 2, 3, 10] 0 = .outOfForm ∧
      pinArg [1, 2, 3, 4] 0 = .digits ⟨1, 2, 3, 4⟩ ∧ lockedOut.takesCommand ∧ lockedOut.lock.state = .lockout ∧
      guest.lock.state ≠ .lockout ∧ guest.lock.pin = none ∧ pinned.takesCommand ∧ pinned.lock.pin = some ⟨1, 2, 3, 4⟩ ∧
      (⟨1, 2, 3, 4⟩ : Pin) ≠ ⟨9, 2, 3, 4⟩ ∧ pinned.lock.wrong ≤ 2 ∧ unlocked.takesCommand ∧
      unlocked.lock.state = .unlocked ∧ unlocked.lock.guest < unlocked.lock.hard ∧
      ({ pinned.lock with state := .unlocked } : Lock).ceiling ≠ pinned.lock.ceiling ∧
      pinned.lock.afterWrong.ceiling = pinned.lock.ceiling ∧
      ({ unlocked.lock with guest := 7 } : Lock).hard ≤ ({ unlocked.lock with guest := 7 } : Lock).guest := by decide

theorem witness_SetPinAndSetCeiling :
    vacant.takesCommand ∧ vacant.settled = true ∧ vacant.folio.state = .closed ∧
      guest.takesCommand ∧ guest.settled = true ∧ guest.folio.state ≠ .closed ∧
      pinArg [1, 2, 3, 10, 1, 2, 3, 4] 0 = .outOfForm ∧
      (let args := [1, 2, 3, 4, 0xFF, 0xFF, 0xFF, (0xFF : Byte)]
       8 ≤ args.length ∧ ¬(pinArg args 0 = .outOfForm ∨ pinArg args 4 = .outOfForm) ∧
         pinArg args 0 = .digits ⟨1, 2, 3, 4⟩ ∧ (pinArg args 4).pin = none) ∧
      lockedOut.lock.state = .lockout ∧ guest.lock.pin = none ∧ pinned.takesCommand ∧
      pinned.lock.state ≠ .lockout ∧ pinned.lock.pin = some ⟨1, 2, 3, 4⟩ ∧ pinned.lock.wrong ≤ 2 ∧
      ({ pinned.lock with wrong := 2 } : Lock).wrong = 2 ∧
      pinArg [9, 2, 3, 4, 1, 1, 1, 1] 0 ≠ .digits ⟨1, 2, 3, 4⟩ ∧
      pinArg [7, 1, 2, 3, 10] 1 = .outOfForm ∧ pinArg [8, 1, 2, 3, 4] 1 = .digits ⟨1, 2, 3, 4⟩ ∧
      pinArg [8, 0xFF, 0xFF, 0xFF, 0xFF] 1 ≠ .digits ⟨1, 2, 3, 4⟩ ∧
      ({ pinned.lock with guest := 7, wrong := 0 } : Lock).ceiling ≠ pinned.lock.ceiling ∧
      ({ pinned.lock with pin := none, wrong := 0 } : Lock).ceiling = pinned.lock.ceiling := by decide

theorem witness_SetRoomTakesAddress :
    vacant.takesCommand ∧ vacant.settled = true ∧ vacant.folio.state = .closed ∧ guest.folio.state ≠ .closed ∧
      (BitVec.ofNat 16 (natAt [0xFF, 0xFF] 0 2) : Half) = 0xFFFF ∧
      (BitVec.ofNat 16 (natAt [0xFF, 0xFE] 0 2) : Half) ≠ 0xFFFF := by decide

theorem witness_ResetWaitsThenTakesEffect :
    guest.settled = true ∧ guest.port.busy = .clear ∧ guest.port.frame ≠ .abandoned ∧ guest.store.write = none ∧
      guest.lock.state ≠ .unlocked ∧ unlocked.lock.state = .unlocked ∧ unlocked.settled = true ∧
      (withWrite 48 guest).settled = true ∧ (withWrite 48 guest).store.write ≠ none ∧
      (withBusy (.store .setPin) (withWrite 48 guest)).settled = true ∧
      (withBusy .reset (withWrite 48 guest)).port.busy = .reset ∧
      (withBusy .reset (withWrite 48 guest)).store.dirty = [] := by decide

/-! Line frames. -/

theorem witness_LineFrameReadsBack : (List.replicate 120 (0 : Byte)).length ≤ 120 := by decide

theorem guest_hears : guest.takesMessage ∧ guest.settled = true ∧ guest.answersTo 7 ∧ vacant.takesMessage ∧
    vacant.settled = true ∧ vacant.answersTo 7 := by decide

theorem witness_LineFramesWithoutEffect :
    linePortFrame (.poll 8 [1]) = some (8, 0x01, [1]) ∧ ¬guest.answersTo 8 ∧ (8 : Half) ≠ 0xFFFF ∧
      linePortFrame (.lineUnknownKind 7 0x80 []) = some (7, 0x80, []) ∧
      (∀ n, ((0x06 : Byte), n) ∈ [((0x02 : Byte), 4), (0x03, 12), (0x04, 1), (0x05, 2), (0x06, 4)] →
        [0, 0, (0 : Byte)].length < n) ∧
      (∀ n, ((0x01 : Byte), n) ∉ [((0x02 : Byte), 4), (0x03, 12), (0x04, 1), (0x05, 2), (0x06, 4)]) ∧
      State.reset.phase ≠ .running ∧ (withReceiver .deaf guest).line.receiver = .deaf ∧
      (withReceiver .waiting guest).phase = .running ∧
      (let bytes := [0, 7, 1, 0, 0, (0 : Byte)]
       6 ≤ bytes.length ∧ byteAt bytes 3 ≤ 120 ∧ bytes.length = 6 + byteAt bytes 3 ∧
         (crc16 (bytes.take (bytes.length - 2))).toNat ≠ natAt bytes (bytes.length - 2) 2) ∧
      ¬(6 ≤ [0, 7, 1, 0, (0 : Byte)].length) := by
  refine ⟨rfl, by decide, by decide, rfl, ?_, ?_, by decide, rfl, rfl, by decide +kernel, by decide⟩
  · intro n
    simp
    omega
  · intro n
    simp

theorem witness_ReceiverAndTransmitterFollowTheLine :
    guest.phase = .running ∧ guest.line.receiver = .idle ∧ (withReceiver .waiting guest).line.receiver = .waiting ∧
      (withReceiver .deaf guest).line.receiver = .deaf ∧ (List.replicate 125 (0 : Byte)).length < 126 ∧
      126 ≤ (List.replicate 126 (0 : Byte)).length ∧ linePortFrame (.poll 7 [1]) = some (7, 0x01, [1]) ∧
      (withReceiver (.receiving (lineFrameBytes 7 0x01 [1]) false false) guest).line.receiver =
        .receiving (lineFrameBytes 7 0x01 [1]) false false ∧
      (withReceiver (.receiving (List.replicate 126 0) true true) guest).line.receiver =
        .receiving (List.replicate 126 0) true true ∧
      (let r : LineReply := { address := 7, kind := 0x80, payload := [1, 0] }
       (guest.replying 7 0x80 [1, 0]).line.transmit = .waiting r ∧
         ({ guest.line with transmit := .sending r } : Line).transmit = .sending r) := by decide +kernel

/-- A part that is OFFLINE with an offline spend. -/
def offline : State :=
  { guest with
    line := { guest.line with online := false, watchdog := 0 }, folio := { guest.folio with offlineSpend := 100 } }

theorem witness_PollReportsAfterPresenceUpdate :
    guest.line.online = true ∧ offline.line.online = false ∧ offline.folio.offlineSpend ≠ 0 ∧ guest.takesMessage ∧
      guest.answersTo 7 ∧ 1 ≤ [(0 : Byte)].length := by decide

theorem witness_AddressedFramesAnswered :
    guest.takesMessage ∧ guest.answersTo 7 ∧ linePortFrame (.lineUnknownKind 7 0x07 []) = some (7, 0x07, []) ∧
      (0x07 : Byte) ∉ lineKinds ∧ linePortFrame (.checkIn 7 []) = some (7, 0x10, []) ∧
      (List.replicate 23 (0 : Byte)).length < 24 ∧ (List.replicate 12 (0 : Byte)).length ≤ 120 := by decide

theorem witness_TimeAndKeyMessagesTakeEffect :
    guest.takesMessage ∧ guest.settled = true ∧ (BitVec.ofNat 16 (natAt [0, 0, 5, 0xA0] 0 2) : Half) = guest.clock.day ∧
      (BitVec.ofNat 16 (natAt [0, 1, 5, 0x9F] 0 2) : Half) ≠ guest.clock.day ∧
      guest.keys[15]? = some { even := .empty, odd := .empty } ∧ guest.keys.length ≤ byteAt [16] 0 ∧
      byteAt [15] 0 < guest.keys.length ∧
      (let args := [15, 1, 0, 0, 0, 0, 0, 0, 0, 9, 0, (1 : Byte)]
       12 ≤ args.length ∧ byteAt args 1 = 1) ∧ byteAt [15, 0] 1 = 0 ∧ 2 ≤ byteAt [15, 2] 1 := by decide

theorem witness_TableEntryWritesPending :
    guest.takesMessage ∧ guest.settled = true ∧
      (let args := [0, 63] ++ List.replicate 19 (0 : Byte)
       byteAt args 0 = 0 ∧ byteAt args 1 ≤ 63 ∧ (args.drop 2).length = 19) ∧
      (let args := [1, 31] ++ List.replicate 28 (0 : Byte)
       byteAt args 0 = 1 ∧ byteAt args 1 ≤ 31 ∧ (args.drop 2).length = 28) ∧
      2 ≤ byteAt [2, 0] 0 ∧ 63 < byteAt [0, 64] 1 ∧ 31 < byteAt [1, 32] 1 := by decide

theorem tables_sound_guest : TablesSound guest := by
  refine ⟨⟨?_, ?_, ?_, ?_, ?_, fun _ h => by cases h⟩, ⟨?_, ?_, ?_, ?_, ?_, fun _ h => by cases h⟩⟩ <;> decide +kernel

/-- The channel table with entry 0 written. -/
def wrote : State :=
  { guest with channels := { guest.channels with written := guest.channels.written.set 0 true } }

theorem tables_sound_wrote : TablesSound wrote := by
  refine ⟨⟨?_, ?_, ?_, ?_, ?_, fun _ h => by cases h⟩, ⟨?_, ?_, ?_, ?_, ?_, fun _ h => by cases h⟩⟩ <;> decide +kernel

theorem witness_TableCommitIsJudged :
    guest.takesMessage ∧ guest.settled = true ∧ TablesSound guest ∧ 2 ≤ byteAt [2, 0, 0, 0] 0 ∧
      (let args := [0, 65, 0, (0 : Byte)]
       byteAt args 0 = 0 ∧ TableId.channel.size < byteAt args 1) ∧
      (byteAt [1, 32, 0, 0] 0 = 1 ∧ byteAt [1, 32, 0, 0] 1 ≤ TableId.offer.size ∧
        guest.offers.written[31]? = some false) ∧
      TablesSound wrote ∧ (∀ i, i < 1 → wrote.channels.written[i]? = some true) ∧
      (crc16 (wrote.channels.pending.take 1).flatten).toNat ≠ natAt [0, 1, 0, 0] 2 2 ∧
      (crc16 (wrote.channels.pending.take 1).flatten).toNat =
        natAt ([0, 1] ++ be 2 (crc16 (wrote.channels.pending.take 1).flatten).toNat) 2 2 := by
  refine ⟨by decide, by decide, tables_sound_guest, by decide, by decide, by decide, tables_sound_wrote, ?_, by decide +kernel,
    by decide +kernel⟩
  intro i hi
  rw [Nat.lt_one_iff.1 hi]
  rfl

/-- The arguments of a CHECK_IN: folio 9, policy 1. -/
def checkInArgs : List Byte :=
  be 4 9 ++ be 4 20000 ++ be 4 5000 ++ be 2 3001 ++ [1, 1] ++ be 4 3000 ++ [8, 3] ++ be 2 0

theorem witness_CheckInOpensFolio :
    vacant.takesMessage ∧ vacant.settled = true ∧ vacant.answersTo 7 ∧ 24 ≤ checkInArgs.length ∧
      vacant.folio.state = .closed ∧ natAt checkInArgs 0 4 ≠ 0 ∧ byteAt checkInArgs 15 ≤ 1 ∧
      guest.takesMessage ∧ guest.folio.state ≠ .closed ∧ natAt (List.replicate 24 0) 0 4 = 0 ∧
      (∀ p, vacant.onTitle p = false) := by
  refine ⟨by decide, by decide, by decide, by decide, by decide, by decide, by decide, by decide, by decide, by decide, ?_⟩
  intro p
  cases p <;> decide

/-- The film bought, released, its ORDER still waiting for the record's slot. -/
def leaving (w : Nat) : State :=
  withBusy (.store (.order 4 0 1100 0 w)) (withLog [{ paid (.bought w) with collected := true, released := true }] guest)

theorem log_sound_leaving : LogSound (leaving 180) ∧ LogSound (leaving 1) := by unfold LogSound; decide +kernel

theorem witness_CheckOutClosesFolio :
    watching.takesMessage ∧ watching.settled = true ∧ LogSound watching ∧ watching.answersTo 7 ∧
      watching.folio.state ≠ .closed ∧ vacant.folio.state = .closed ∧
      (∀ seq slot b v w, ¬(watching.port.busy = .store (.order seq slot b v w))) ∧
      (leaving 180).takesMessage ∧ (leaving 180).settled = true ∧ LogSound (leaving 180) ∧
      (leaving 180).port.busy = .store (.order 4 0 1100 0 180) ∧
      (∃ r ∈ (leaving 180).log, r.seq = 4 ∧ r.released = true ∧ r.final = false) :=
  ⟨by decide, by decide, log_sound_guest.2.1, by decide, by decide, by decide, fun _ _ _ _ _ => nofun, by decide,
    by decide, log_sound_leaving.1, rfl, by decide⟩

theorem witness_HoldAndPackagesChangeFolio :
    guest.takesMessage ∧ guest.settled = true ∧ guest.answersTo 7 ∧ 2 ≤ byteAt [2] 0 ∧ byteAt [1] 0 = 1 ∧
      byteAt [0] 0 = 0 ∧ vacant.folio.state = .closed ∧ guest.folio.state ≠ .closed ∧
      { guest.folio with state := .held } ≠ (bringOnline 10 guest).folio ∧
      { guest.folio with state := .opened } = (bringOnline 10 guest).folio := by decide

theorem witness_CollectReportsRecords :
    owner.takesMessage ∧ owner.answersTo 7 ∧ LogSound owner ∧ 2 ≤ [0, (4 : Byte)].length ∧
      (BitVec.ofNat 16 (natAt [0xFF, 0xFF] 0 2) : Half) = 0xFFFF ∧
      (∀ r ∈ owner.log, r.seq ≠ BitVec.ofNat 16 (natAt [0, 5] 0 2)) ∧
      (∃ r ∈ owner.log, r.seq = BitVec.ofNat 16 (natAt [0, 4] 0 2)) :=
  ⟨by decide, by decide, log_sound_guest.2.2, by decide, by decide, by decide, by decide⟩

theorem witness_ReleaseReleasesCollected :
    owner.takesMessage ∧ owner.settled = true ∧ owner.answersTo 7 ∧ LogSound owner ∧
      (∀ r ∈ owner.log, r.seq ≠ BitVec.ofNat 16 (natAt [0, 5] 0 2)) ∧
      owner.log = [] ++ paid (.bought 180) :: [] ∧ (paid (.bought 180)).seq = BitVec.ofNat 16 (natAt [0, 4] 0 2) ∧
      (∀ x ∈ owner.log, ∀ slot b v w, owner.port.busy ≠ .store (.order x.seq slot b v w)) ∧
      (let r := { paid .ended with collected := true }
       let s := withBusy (.store (.order 4 0 1100 0 180)) (withLog [r] guest)
       s.takesMessage ∧ s.settled = true ∧ LogSound s ∧ s.log = [] ++ r :: [] ∧ r.collected = true ∧
         r.released = false ∧ r.final = true ∧ s.port.busy = .store (.order r.seq 0 1100 0 180)) :=
  ⟨by decide, by decide, by decide, log_sound_guest.2.2, by decide, rfl, by decide, fun _ _ _ _ _ _ => nofun,
    by unfold LogSound; decide +kernel⟩

/-- The path that an ENDED record's title was ended for stands as a judging without a preview leaves it. -/
theorem barred_recalled : (barred [paid .ended]).pathRecalled .a := by
  intro i hi
  cases hi
  have ha : (barred [paid .ended]).asksLog 12 := by
    unfold State.asksLog State.isNoService State.isTableFault State.isOverCeiling
    decide +kernel
  refine ⟨fun h => absurd ha h, fun _ => ⟨by decide +kernel, by rw [judgedState_asks ha]; rfl, ?_, ?_⟩⟩
  · exact ⟨nofun, fun ⟨r, hr, ⟨w, hw⟩, _⟩ => by rw [List.mem_singleton.1 hr] at hw; cases hw⟩
  · exact ⟨nofun, fun ⟨_, r, hr, hw, _⟩ => by rw [List.mem_singleton.1 hr] at hw; cases hw⟩

theorem witness_VoidRefundsCharge :
    vacant.takesMessage ∧ vacant.folio.state = .closed ∧ watching.takesMessage ∧ watching.answersTo 7 ∧
      LogSound watching ∧ (∀ r ∈ watching.log, r.seq ≠ BitVec.ofNat 16 (natAt [0, 5] 0 2)) ∧
      (∃ r ∈ watching.log, r.seq = BitVec.ofNat 16 (natAt [0, 4] 0 2) ∧ r.folio = watching.folio.number ∧
        r.state = .preview) ∧
      owner.takesMessage ∧ owner.settled = true ∧ owner.answersTo 7 ∧ LogSound owner ∧ owner.folio.state ≠ .closed ∧
      paid (.bought 180) ∈ owner.log ∧ (paid (.bought 180)).seq = BitVec.ofNat 16 (natAt [0, 4] 0 2) ∧
      (paid (.bought 180)).folio = owner.folio.number ∧ (∃ w, (paid (.bought 180)).state = .bought w) ∧
      ({ owner with pathA := watching.pathA } : State).showsTitle .a (paid (.bought 180)).title ∧
      ¬owner.showsTitle .b (paid (.bought 180)).title ∧
      LogSound (withLog [paid .ended] guest) ∧ (paid .ended).state = .ended ∧
      (leaving 180).takesMessage ∧ (leaving 180).settled = true ∧ LogSound (leaving 180) ∧
      (∃ r ∈ (leaving 180).log, r.released = true ∧ r.folio = (leaving 180).folio.number ∧
        (leaving 180).port.busy = .store (.order r.seq 0 1100 0 180)) ∧
      (barred [paid .ended]).showsTitle .a (paid .ended).title ∧ (barred [paid .ended]).pathRecalled .a :=
  ⟨by decide, by decide, by decide, by decide, log_sound_guest.2.1, by decide, by decide, by decide, by decide, by decide,
    log_sound_guest.2.2, by decide, List.mem_singleton.2 rfl, by decide, by decide, ⟨180, rfl⟩,
    ⟨12, rfl, by decide +kernel, by decide +kernel⟩, nofun, by unfold LogSound; decide +kernel, rfl, by decide, by decide, log_sound_leaving.1,
    ⟨_, List.mem_singleton.2 rfl, rfl, by decide, rfl⟩, ⟨12, rfl, by decide +kernel, by decide +kernel⟩,
    barred_recalled⟩

theorem witness_LockSetsCeilingAndClearsPin :
    guest.takesMessage ∧ guest.settled = true ∧ guest.answersTo 7 ∧ 2 ≤ byteAt [8, 2] 1 ∧ byteAt [8, 0] 1 = 0 ∧
      byteAt [2, 1] 1 = 1 := by decide

/-! Cells and the engine. -/

def assembling (n : Nat) (first : Byte) : State :=
  { guest with pathA := { guest.pathA with assembly := some (first :: List.replicate (n - 1) 0) } }

theorem witness_CellInputAssemblesAndQueues :
    guest.phase.awake = true ∧ guest.pathA.assembly = none ∧
      (assembling 126 0xB8).pathA.assembly = some (0xB8 :: List.replicate 125 0) ∧
      ((0xB8 : Byte) :: List.replicate 125 0).length < 127 ∧
      (assembling 127 0xB8).pathA.assembly = some (0xB8 :: List.replicate 126 0) ∧
      ((0xB8 : Byte) :: List.replicate 126 0).length = 127 ∧ guest.pathA.fifo.length < 4 ∧
      4 ≤ [scrambled, scrambled, scrambled, scrambled].length := by decide +kernel

/-- A scrambled cell of channel 2 at the head of path A's FIFO, the path in this state. -/
def atHead (selected : Option Nat) (st : PathState) (keyAbsent : Bool) (c : Cell) : State :=
  { guest with
    pathA := { guest.pathA with selected := selected, admitted := st, keyAbsent := keyAbsent, fifo := [c] } }

/-- The same cell unscrambled. -/
def clear : Cell := [0xB8, 0x00, 0xB0, 0x00] ++ List.replicate 124 0

theorem witness_CellTakenAndLeaves :
    guest.phase.awake = true ∧ guest.pathA.fifo = [] ∧ (atHead none .unselected false clear).pathA.fifo = clear :: [] ∧
      (atHead none .unselected false clear).pathA.progress = none ∧
      (guest.channelAt 0).cls = .empty ∧
      (guest.channelAt 2).cls ≠ .empty ∧ byteAt clear 1 * 16 + byteAt clear 2 / 16 = (guest.channelAt 2).tag ∧
      byteAt clear 1 * 16 + byteAt clear 2 / 16 ≠ 4095 ∧
      (atHead (some 2) (.muted .rating) false clear).pathA.state = .muted .rating ∧
      (atHead (some 2) .descrambling true clear).pathA.state = .muted .keyAbsent ∧
      (clear.getD 3 0).getLsbD 7 = false ∧ (atHead (some 2) .passing false clear).pathA.state = .passing ∧
      (atHead (some 2) .previewing false clear).pathA.state = .previewing ∧
      (∀ how, ({ guest.pathA with progress := some ⟨clear, .leaving how⟩ } : Path).progress =
        some ⟨clear, .leaving how⟩) ∧ guest.pathA.outgoing = none ∧ clear.length = 128 ∧ clear[0]? = some 0xB8 := by
  refine ⟨by decide, by decide, by decide, by decide, by decide +kernel, by decide +kernel, by decide +kernel,
    by decide +kernel, by decide, by decide, by decide, by decide, by decide, fun _ => rfl, by decide, by decide +kernel,
    rfl⟩

/-- The same part with key half 0, EVEN, LOADED. -/
def keyed (s : State) : State := { s with keys := s.keys.set 0 { even := .loaded 1 1440, odd := .empty } }

theorem witness_KeyCheckAtTaking :
    let s := atHead (some 2) .descrambling false scrambled
    EngineSound s ∧ s.pathA.fifo = scrambled :: [] ∧ s.pathA.progress = none ∧ s.pathA.selected = some 2 ∧
      ((s.channelAt 2).cls ≠ .empty ∧ (s.channelAt 2).cls ≠ .clear) ∧
      byteAt scrambled 1 * 16 + byteAt scrambled 2 / 16 = (s.channelAt 2).tag ∧ (s.channelAt 2).tag ≠ 4095 ∧
      (scrambled.getD 3 0).getLsbD 7 = true ∧ s.pathA.state = .descrambling ∧
      s.keys[(s.channelAt 2).context]? = some { even := .empty, odd := .empty } ∧
      (keyed s).keys[(s.channelAt 2).context]? = some { even := .loaded 1 1440, odd := .empty } ∧
      EngineSound (keyed s) ∧ (keyed s).engine.serving = none ∧
      (servingB false).engine.serving ≠ none ∧ EngineSound (servingB false) := by
  refine ⟨⟨fun _ r => by rcases r with (_ | _) | _ <;> rfl, fun p => by cases p <;> rfl, by decide, by decide⟩, rfl, rfl,
    rfl, by decide +kernel, by decide +kernel, by decide +kernel, by decide, by decide, by decide +kernel,
    by decide +kernel, ⟨fun _ r => by rcases r with (_ | _) | _ <;> rfl, fun p => by cases p <;> rfl, by decide,
      by decide⟩, rfl, by simp [servingB], engine_sound_serving.1 _⟩

theorem witness_EngineCompletesGrant :
    EngineSound guest ∧ guest.engine.serving = none ∧
      (∀ d, EngineSound (servingB d) ∧ (∀ r, (servingB d).waits r = false) ∧
        (servingB d).engine.serving = some (serviceOf (.cell .b (scrambled.drop 8))) ∧
        ((servingB d).path .b).progress = some ⟨scrambled, .serving d⟩) ∧
      EngineSound servingTest ∧ (∀ r, servingTest.waits r = false) ∧
      servingTest.engine.serving = some (serviceOf (.test 14 (List.replicate 8 0))) :=
  ⟨engine_sound_guest, rfl, fun _ => ⟨engine_sound_serving.1 _, fun r => by rcases r with (_ | _) | _ <;> rfl, rfl, rfl⟩,
    engine_sound_serving.2, fun r => by rcases r with (_ | _) | _ <;> rfl, rfl⟩

/-- Path B is served, path A and a test wait; path A's half is LOADED. -/
def contended : State :=
  { keyed (servingB false) with
    pathA := { guest.pathA with
      selected := some 2, admitted := .descrambling, progress := some ⟨scrambled, .waiting false⟩ }
    port := { guest.port with busy := .engine }
    engine :=
      { serving := some (serviceOf (.cell .b (scrambled.drop 8))), lastServed := .path .b
        testWaiting := some { key := 1, tag := 1, count := 0, stamp := 0, index := 0, word := List.replicate 8 0 } } }

/-- The same with path A next in the order: its cell's half is LOADED or, with no key, EMPTY; alone or with a test. -/
def nextA (key selectTaken alone : Bool) : State :=
  let s := if key then contended else { contended with keys := guest.keys }
  { s with
    pathA := { s.pathA with progress := some ⟨scrambled, .waiting selectTaken⟩ }
    port := { s.port with busy := if alone then .clear else .engine }
    engine := { s.engine with lastServed := .test, testWaiting := if alone then none else s.engine.testWaiting } }

theorem engine_sound_contended : EngineSound contended ∧ ∀ k t a, EngineSound (nextA k t a) :=
  ⟨⟨fun h => by simp [contended] at h, fun p => by cases p <;> rfl, by decide, by decide⟩,
    fun k t a => ⟨fun h => by cases k <;> simp [nextA, contended] at h,
      fun p => by cases k <;> cases t <;> cases a <;> cases p <;> rfl,
      by cases k <;> cases t <;> cases a <;> decide, by cases k <;> cases t <;> cases a <;> decide⟩⟩

theorem witness_ArbiterGrantsInCyclicOrder :
    EngineSound contended ∧ contended.engine.serving.isSome = true ∧ contended.waits .test = true ∧
      contended.waits (.path .a) = true ∧ contended.engine.testWaiting.isSome = true ∧
      (let order : List Requester := [.test, .path .a, .path .b]
       order.idxOf .test < order.idxOf (.path .a)) ∧
      (∀ key selectTaken alone,
        let s := nextA key selectTaken alone
        EngineSound s ∧ s.engine.serving.isSome = true ∧ s.waits (.path .a) = true ∧ s.waits .test = !alone ∧
          s.waits (.path .b) = false ∧ (s.path .a).progress = some ⟨scrambled, .waiting selectTaken⟩ ∧
          (s.path .a).selected = some 2 ∧
          s.lookupHalf .a scrambled = if key then .loaded 1 1440 else .empty) ∧
      (let order : List Requester := [.path .a, .path .b, .test]
       order.idxOf (.path .a) < order.idxOf .test) :=
  ⟨engine_sound_contended.1, rfl, rfl, rfl, rfl, by decide,
    fun k t a => ⟨engine_sound_contended.2 k t a, by cases k <;> rfl, by cases k <;> rfl,
      by cases k <;> cases a <;> rfl, by cases k <;> rfl, by cases k <;> rfl, by cases k <;> rfl,
      by cases k <;> cases t <;> cases a <;> decide +kernel⟩,
    by decide⟩

/-! Time. -/

theorem witness_SecondsMakeMinutes :
    State.reset.phase ≠ .running ∧ guest.phase = .running ∧ guest.settled = true ∧
      ({ guest with seconds := 58 } : State).seconds < 59 ∧ ({ guest with seconds := 59 } : State).seconds = 59 ∧
      guest.clock.minute < 1439 ∧ ({ guest.clock with minute := 1439 } : Clock).minute = 1439 ∧
      (keyed guest).keys[0]? = some { even := .loaded 1 1440, odd := .empty } ∧
      (guest.line.online = true ∧ 2 ≤ guest.line.watchdog) ∧ ({ guest.line with watchdog := 1 } : Line).watchdog ≤ 1 ∧
      offline.line.online = false ∧ guest.lock.state = .locked ∧
      (unlocked.lock.state = .unlocked ∧ unlocked.lock.minutes ≤ 1 ∧ unlocked.settled = true) ∧
      (lockedOut.lock.state = .lockout ∧ lockedOut.lock.minutes ≤ 1 ∧ lockedOut.settled = true) ∧
      (LogSound watching ∧ watching.folio.policy = .confirm ∧
        (let s := { watching with folio := { watching.folio with policy := .auto }, log := [{ film .preview with used := 0 }] }
         LogSound s ∧ s.folio.policy ≠ .confirm ∧ ∀ r ∈ s.log, r.state = .preview → r.used + 1 < r.limit) ∧
        1439 ≤ ({ guest.clock with minute := 1439 } : Clock).minute ∧
        ({ guest.folio with daySpend := 1 } : Folio).daySpend ≠ 0) := by
  unfold LogSound
  decide +kernel

theorem witness_WindowsCountDown :
    owner.phase = .running ∧ owner.settled = true ∧ LogSound owner ∧ paid (.bought 180) ∈ owner.log ∧
      (let s := withLog [paid (.bought 1), { film .ended with seq := 5, slot := 1 }] guest
       LogSound s ∧ s.settled = true ∧ paid (.bought 1) ∈ s.log ∧ (paid (.bought 1)).state = .bought 1 ∧
         (paid (.bought 1)).released = false ∧ ∃ r ∈ s.log, r.final = true) ∧
      (let s := withLog [{ paid (.bought 1) with collected := true, released := true }] guest
       LogSound s ∧ ∃ r ∈ s.log, r.state = .bought 1 ∧ r.released = true) ∧
      (LogSound (leaving 1) ∧ (leaving 1).settled = true ∧ ∃ r ∈ (leaving 1).log, r.state = .bought 1 ∧
        r.released = true ∧ (leaving 1).port.busy = .store (.order r.seq 0 1100 0 1)) ∧
      (let s := withLog [{ film .preview with used := 0 }, { paid (.bought 16) with seq := 5, slot := 1, title := 8 }] watching
       LogSound s ∧ s.settled = true ∧ s.lock.state = .locked ∧ (∀ r ∈ s.log, r.isBought = true → 2 ≤ r.window) ∧
         (∀ r ∈ s.log, r.state = .preview → s.watched r.title = true → r.used + 1 < r.limit) ∧
         (∃ r ∈ s.log, r.state = .preview ∧ s.watched r.title = true) ∧
         ∃ r ∈ s.log, r.state = .bought 16 ∧ (16 - 1) % 15 = 0) := by
  unfold LogSound
  decide +kernel

/-- The film's path after an upset has taken the film from its entry. -/
def upsetWatching : State := { watching with offers := vacant.offers }

/-- A path shows the film by its entry's offer, or previews it though its entry no longer carries it. -/
theorem watching_shows_film : watching.showsOrPreviews .a (film .preview).title ∧
    watching.showsTitle .a (film .preview).title ∧ upsetWatching.showsOrPreviews .a (film .preview).title ∧
      ¬upsetWatching.showsTitle .a (film .preview).title :=
  ⟨.inr ⟨nofun, rfl, rfl⟩, ⟨12, rfl, by decide +kernel, by decide +kernel⟩, .inr ⟨nofun, rfl, rfl⟩,
    fun ⟨i, hi, _, ht⟩ => by cases hi; exact absurd ht (by decide +kernel)⟩

/-- R11: at its preview's end the path judges though its entry no longer carries the film; at another record's end it
stands (R88). -/
theorem test_upset_preview_ends :
    (after (.previewLapse 4) upsetWatching).pathA.state = .muted .noService ∧
      (after (.void 7 [0, 5]) (withLog [film .preview, { paid .ended with seq := 5, slot := 1 }]
        upsetWatching)).pathA = watching.pathA := by decide +kernel

theorem witness_LastMinutesTakeEffect :
    guest.phase = .running ∧ guest.settled = true ∧ ({ guest.clock with minute := 1439 } : Clock).minute = 1439 ∧
      (guest.folio.daySpend = 0 ∧ ({ guest.folio with daySpend := 5 } : Folio).daySpend ≠ 0) ∧
      ({ guest with keys := guest.keys.set 15 { even := .loaded 1 1, odd := .loaded 2 1 } } : State).keys[15]? =
        some { even := .loaded 1 1, odd := .loaded 2 1 } ∧
      (unlocked.phase = .running ∧ unlocked.lock.state = .unlocked ∧ unlocked.lock.minutes = 1 ∧
        unlocked.lock.guest < unlocked.lock.hard) ∧
      (lockedOut.phase = .running ∧ lockedOut.lock.state = .lockout ∧ lockedOut.lock.minutes = 1) ∧
      (guest.line.online = true ∧ ({ guest.line with watchdog := 1 } : Line).watchdog = 1) := by decide

theorem witness_PreviewEndsByPolicy :
    watching.phase = .running ∧ watching.settled = true ∧ LogSound watching ∧ film .preview ∈ watching.log ∧
      (film .preview).state = .preview ∧ (film .preview).released = false ∧
      (film .preview).limit = (film .preview).used + 1 ∧ watching.folio.policy = .confirm ∧
      (watching.path .a).state = .previewing ∧ (watching.path .a).title = (film .preview).title ∧
      (let s := { watching with folio := { watching.folio with policy := .auto } }
       LogSound s ∧ s.folio.policy = .auto ∧ (s.offerAt 5).valid = true ∧
         (s.offerAt 5).title = (film .preview).title ∧ s.offers.bad = false ∧ s.chargeRefusal (s.offerAt 5) = none ∧
         { s with folio := { s.folio with creditLimit := 1099 } }.chargeRefusal (s.offerAt 5) = some .credit ∧
         (∀ j, j < 5 → ¬((s.offerAt j).valid = true ∧ (s.offerAt j).title = (film .preview).title)) ∧
         (∀ i, i < 32 →
           ¬(({ s with offers := vacant.offers }.offerAt i).valid = true ∧
             ({ s with offers := vacant.offers }.offerAt i).title = (film .preview).title))) := by
  unfold LogSound
  decide +kernel

/-! Tables, store, supply. -/

/-- The channel table's scan at an entry. -/
def scanning (position : Nat) (diagnostic : Bool) : State :=
  { guest with
    channels := { guest.channels with scan := some { position := position, crc := 0, diagnostic := diagnostic } } }

theorem witness_ScanComparesLiveTable :
    guest.phase.awake = true ∧ guest.settled = true ∧ guest.channels.scan = none ∧
      (∀ d, (scanning 62 d).channels.scan = some { position := 62, crc := 0, diagnostic := d }) ∧
      62 + 1 < TableId.channel.size ∧ 63 + 1 = TableId.channel.size ∧
      guest.channels.live[62]? = some (List.replicate 19 0) ∧ guest.channels.live[63]? = some (List.replicate 19 0) ∧
      (List.replicate 19 (0 : Byte)).foldl crcByte 0 = guest.channels.check ∧ guest.channels.bad = false ∧
      31 < TableId.offer.size ∧ (List.replicate 28 (0 : Byte)).length = TableId.offer.entryBytes := by
  refine ⟨by decide, by decide, by decide, fun _ => rfl, by decide, by decide, by decide +kernel, by decide +kernel,
    by decide +kernel, by decide, by decide, by decide⟩

theorem witness_SlotWritesCaptureAndRelease :
    (exec (.order [5]) guest = .next (after (.order [5]) guest) ∧ (Instr.order [5]) ≠ .slotWriteComplete ∧
      (Instr.order [5]) ≠ .resetTakesEffect ∧ (Instr.order [5]) ≠ .powerLoss ∧ (Instr.order [5]) ≠ .powerOnReset) ∧
    (let s := withBusy (.store .setRoom) (withWrite 50 guest)
     s.phase = .running ∧ s.store.write ≠ none ∧ s.port.busy ≠ .reset ∧ s.store.dirty = [] ∧ Waiting.setRoom.slot = 50) ∧
      LogSound owner ∧ paid (.bought 180) ∈ owner.log ∧ (paid (.bought 180)).state = .bought 180 ∧
      (∀ r ∈ owner.log, r.slot ≠ 47) ∧ LogSound watching ∧ film .preview ∈ watching.log :=
  ⟨⟨rfl, nofun, nofun, nofun, nofun⟩, by decide, log_sound_guest.2.2, List.mem_singleton.2 rfl, rfl, by decide,
    log_sound_guest.2.1, List.mem_singleton.2 rfl⟩

theorem witness_SupplyAndPinReset :
    ({ guest with phase := .off } : State).phase = .off ∧ guest.phase ≠ .off ∧
      ({ guest with phase := .inReset } : State).phase = .inReset ∧
      (let s := { withWrite 48 guest with phase := .released }
       s.phase = .released ∧ s.store.write ≠ none ∧ s.store.dirty = [] ∧ s.port.busy = .clear) ∧
      (let s := { withWrite 48 guest with phase := .inReset }
       s.phase = .inReset ∧ s.store.write ≠ none ∧ s.store.dirty = [] ∧ s.port.busy = .clear) := by decide

/-- A record slot gives its record back: every slot below it holds another number. -/
theorem givesRecord_of {st : Store} {k : Nat} {r : Record} (hk : k < 48) (hs : st.slots[k]? = some (.intact (.record r)))
    (hl : r.legal = true)
    (hb : (List.range k).all (fun j => match st.slots[j]? with
      | some (.intact (.record x)) => x.seq != r.seq
      | _ => true) = true) : st.givesRecord k r := by
  refine ⟨hk, hs, hl, fun j x hj hx _ => ?_⟩
  have := List.all_eq_true.1 hb j (List.mem_range.2 hj)
  rw [hx] at this
  simpa using this

/-- Slots for a start-up check under folio 9: records that stay, leave, end and repeat a number, and a torn slot. -/
def stored (last : Slot) : Store :=
  { State.reset.store with
    slots :=
      [.intact (.record (paid .ended)), .intact (.record { paid .ended with seq := 5, released := true }),
        .intact (.record { paid (.bought 15) with seq := 6 }),
        .intact (.record { paid (.bought 15) with seq := 7, folio := 8 }),
        .intact (.record { film .preview with seq := 8, folio := 8, released := true }),
        .intact (.record { film .lapsed with seq := 4 }), .damaged] ++
      List.replicate 41 (.intact .free) ++ [last, .intact (.lock Lock.default), .intact (.config 0xFFFF)] }

def storedFolio : Slot := .intact (.folio guest.folio 9)

theorem stored_gives :
    (stored storedFolio).givesRecord 0 (paid .ended) ∧
      (stored storedFolio).givesRecord 1 { paid .ended with seq := 5, released := true } ∧
      (stored storedFolio).givesRecord 2 { paid (.bought 15) with seq := 6 } ∧
      (stored storedFolio).givesRecord 3 { paid (.bought 15) with seq := 7, folio := 8 } ∧
      (stored storedFolio).givesRecord 4 { film .preview with seq := 8, folio := 8, released := true } := by
  refine ⟨?_, ?_, ?_, ?_, ?_⟩ <;> exact givesRecord_of (by decide) rfl (by decide) (by decide)

/-- A slot that repeats a lower slot's number, a torn one, and the broadcast address as a room are damaged. -/
theorem stored_damaged :
    ¬(stored storedFolio).slotGood 5 ∧ ¬(stored storedFolio).slotGood 6 ∧ ¬(stored storedFolio).slotGood 50 ∧
      ¬(stored .damaged).slotGood 48 := by
  refine ⟨?_, ?_, ?_, ?_⟩
  · rintro (⟨-, h | ⟨r, hr⟩⟩ | ⟨h, -⟩ | ⟨h, -⟩ | ⟨h, -⟩)
    · cases h
    · have h := hr.2.1
      obtain rfl : { film .lapsed with seq := 4 } = r := by injection h with h; injection h with h; injection h
      exact hr.2.2.2 0 (paid .ended) (by decide) rfl (by decide) rfl
    all_goals cases h
  · rintro (⟨-, h | ⟨r, hr⟩⟩ | ⟨h, -⟩ | ⟨h, -⟩ | ⟨h, -⟩)
    · cases h
    · cases hr.2.1
    all_goals cases h
  · rintro (⟨h, -⟩ | ⟨h, -⟩ | ⟨h, -⟩ | ⟨-, room, h, hne⟩)
    · exact absurd h (by decide)
    · cases h
    · cases h
    · injection h with h
      injection h with h
      injection h with h
      exact hne h.symm
  · rintro (⟨h, -⟩ | ⟨-, f, next, h, -⟩ | ⟨h, -⟩ | ⟨h, -⟩)
    · exact absurd h (by decide)
    · cases h
    all_goals cases h

/-- Slots without a record but these in slots 0 and 1. -/
def storedTwo (a b : Record) : Store :=
  { State.reset.store with slots := (State.reset.store.slots.set 0 (.intact (.record a))).set 1 (.intact (.record b)) }

/-- The records that the two slots give. -/
theorem storedTwo_gives {a b r : Record} {k : Nat} (h : (storedTwo a b).givesRecord k r) : r = a ∨ r = b := by
  obtain ⟨hk, hs, -, -⟩ := h
  rcases k with _ | _ | k
  · injection hs with hs; injection hs with hs; injection hs with hs; exact .inl hs.symm
  · injection hs with hs; injection hs with hs; injection hs with hs; exact .inr hs.symm
  · have : ∀ j, j < 46 → (storedTwo a b).slots[j + 2]? = some (.intact .free) := by
      intro j hj
      simp only [storedTwo]
      rw [List.getElem?_set_ne (by omega), List.getElem?_set_ne (by omega)]
      revert j
      decide +kernel
    rw [this k (by omega)] at hs
    cases hs

/-- The latest number is unique, or, where two stand half the numbers apart, it is not (R140). -/
theorem stored_latest :
    (storedTwo (film .lapsed) { film .lapsed with seq := 3 }).latestSeq 4 ∧
      (∀ q, (storedTwo (film .lapsed) { film .lapsed with seq := 3 }).latestSeq q → q = 4) ∧
      (storedTwo (film .lapsed) { film .lapsed with seq := 32772 }).latestSeq 4 ∧
      (storedTwo (film .lapsed) { film .lapsed with seq := 32772 }).latestSeq 32772 := by
  have g0 : ∀ b : Record, (storedTwo (film .lapsed) b).givesRecord 0 (film .lapsed) := fun _ =>
    givesRecord_of (by decide) rfl (by decide) rfl
  refine ⟨⟨⟨0, _, g0 _, rfl⟩, ?_⟩, ?_, ⟨⟨0, _, g0 _, rfl⟩, ?_⟩,
    ⟨⟨1, _, givesRecord_of (by decide) rfl (by decide) (by decide), rfl⟩, ?_⟩⟩
  · intro k r h
    rcases storedTwo_gives h with rfl | rfl <;> decide
  · rintro q ⟨⟨k, r, h, rfl⟩, hl⟩
    rcases storedTwo_gives h with rfl | rfl
    · rfl
    · exact absurd (by decide) (hl 0 _ (g0 _))
  · intro k r h
    rcases storedTwo_gives h with rfl | rfl <;> decide
  · intro k r h
    rcases storedTwo_gives h with rfl | rfl <;> decide

theorem witness_StartUpRebuildsWorkingCopies :
    State.reset.phase = .checking ∧ State.reset.store.dirty = [] ∧ State.reset.store.write = none ∧
      State.reset.port.busy = .clear ∧ State.reset.store.slots.length = 51 ∧
      State.reset.store.slots[48]? = some (.intact (.folio Folio.default 0)) ∧ Folio.default.legal = true ∧
      State.reset.store.slots[49]? = some (.intact (.lock Lock.default)) ∧ Lock.default.legal = true ∧
      State.reset.store.slots[50]? = some (.intact (.config 0)) ∧
      (let s := { State.reset with store := stored storedFolio }
       s.phase = .checking ∧ s.store.dirty = [] ∧ s.store.write = none ∧ s.port.busy = .clear ∧
         s.store.slots.length = 51 ∧
         (paid .ended).final = true ∧ (paid .ended).released = false ∧ (paid (.bought 15)).final = false ∧
         (paid (.bought 15)).folio = guest.folio.number ∧ (film .preview).final = false) := by decide +kernel

/-- What the check makes of those slots: two records stay, one of another folio has ended. -/
theorem test_start_up_gives_records_back :
    let t := after .startUpCheckComplete { State.reset with store := stored storedFolio }
    t.log.map (fun r => (r.seq, r.state, r.slot)) = [(4, .ended, 0), (6, .bought 15, 2), (7, .ended, 3)] ∧
      (t.store.write.map (·.slot), t.store.dirty, t.store.damagedCount) = (some 5, [6, 50, 1, 3, 4], 3) := by
  decide +kernel

theorem witness_TaxRoundsHalfUp : 99999 ≤ 99999 ∧ 3000 ≤ 3000 ∧ 2 * (14 * 1000 % 10000) < 10000 ∧
    10000 ≤ 2 * (15 * 1000 % 10000) := by decide

/-! The invariants: a part that holds them and steps on. -/

/-- The guest's part with an ORDER waiting. -/
def ordering : State := { guest with pending := [.order [5]] }

theorem ordering_steps : step ordering = .next (after (.order [5]) guest) := rfl

theorem ordering_images :
    ordering.store.images =
      List.replicate 48 .free ++ [.folio Folio.default 0, .lock Lock.default, .config 0] := by decide +kernel

theorem witness_StepKeepsMoneyAndCharges :
    MoneySound ordering ∧ ChargesBalance ordering ∧ step ordering = .next (after (.order [5]) guest) := by
  refine ⟨⟨⟨by decide, by decide, fun _ => by decide⟩, ?_⟩, ⟨fun r h => absurd h (List.not_mem_nil), ?_⟩,
    ordering_steps⟩ <;> rw [ordering_images]
  · intro f next h
    simp at h
    rw [h.1]
    exact ⟨by decide, by decide, fun h => absurd rfl h⟩
  · intro r h
    simp at h

theorem witness_StepKeepsLogAndPreviews :
    LogSound ordering ∧ PreviewSound ordering ∧ step ordering = .next (after (.order [5]) guest) :=
  ⟨log_sound_guest.1, preview_sound_guest, ordering_steps⟩

theorem witness_StepKeepsRanges :
    LockSound ordering ∧ PathsSound ordering ∧ TablesSound ordering ∧ KeysSound ordering ∧ TimeSound ordering ∧
      LineSound ordering ∧ step ordering = .next (after (.order [5]) guest) := by
  refine ⟨⟨by decide, by decide, by decide, by decide⟩,
    ⟨⟨by decide, fun _ h => absurd h (List.not_mem_nil), fun _ h => (by cases h), by decide⟩,
      ⟨by decide, fun _ h => absurd h (List.not_mem_nil), fun _ h => (by cases h), by decide⟩⟩,
    tables_sound_guest, ⟨by decide, ?_⟩, ⟨by decide, by decide⟩,
    ⟨by decide, by decide, by decide, by decide, by decide, fun _ _ _ h => (by cases h)⟩, ordering_steps⟩
  intro c h p key life hl
  rw [List.eq_of_mem_replicate h] at hl
  cases p <;> cases hl

theorem witness_StepKeepsEngineSound :
    EngineSound ordering ∧ step ordering = .next (after (.order [5]) guest) := ⟨engine_sound_guest, ordering_steps⟩

theorem witness_StepKeepsStoreSound :
    LogSound ordering ∧ StoreSound ordering ∧ step ordering = .next (after (.order [5]) guest) :=
  ⟨log_sound_guest.1, ⟨by decide, by decide, by decide, fun _ h => (by cases h), by decide, by decide⟩, ordering_steps⟩

end Sys2Proof.Tests
end

