-- ==== Sys2Proof/Proofs/ServicePathLaws.lean ====
section
/-!
SUPPORT. What the service paths' operations do, one equation per case: the cell input (R1 to R3), the taking of a cell
and its treatment (R13), the key check and the grant at an IDLE engine (R14, R24, R25).
-/
namespace Sys2Proof.Machine

/-! ### What a path's update leaves readable -/

@[simp] theorem channelAt_setPath (p : PathId) (x : Path) (s : State) (i : Nat) :
    (s.setPath p x).channelAt i = s.channelAt i := by simp [State.channelAt]

@[simp] theorem keyHalf_setPath (p : PathId) (x : Path) (s : State) (context : Nat) (parity : Parity) :
    (s.setPath p x).keyHalf context parity = s.keyHalf context parity := by simp [State.keyHalf]

@[simp] theorem path_withEngine (p : PathId) (e : Engine) (s : State) :
    ({ s with engine := e } : State).path p = s.path p := by cases p <;> rfl

theorem report_setPath (f : DetailFlag) (p : PathId) (x : Path) (s : State) :
    report f (s.setPath p x) = { s.setPath p x with status := s.status.report f } := by cases p <;> rfl

/-! ### Cells at the input (R1 to R3) -/

theorem inputStrobe_begins {p : PathId} {b : Byte} {s : State} (hw : s.phase.awake = true)
    (h : (s.path p).assembly = none) :
    inputStrobe p true b s = s.setPath p { s.path p with assembly := some [b] } := by
  simp [inputStrobe, hw, h]

theorem inputStrobe_ignored {p : PathId} {b : Byte} {s : State} (hw : s.phase.awake = true)
    (h : (s.path p).assembly = none) : inputStrobe p false b s = s := by
  simp [inputStrobe, hw, h]

theorem inputStrobe_restarts {p : PathId} {b : Byte} {bs : List Byte} {s : State} (hw : s.phase.awake = true)
    (h : (s.path p).assembly = some bs) :
    inputStrobe p true b s =
      s.setPath p { s.path p with assembly := some [b], syncErrors := (s.path p).syncErrors + 1 } := by
  simp [inputStrobe, hw, h]

theorem inputStrobe_joins {p : PathId} {b : Byte} {bs : List Byte} {s : State} (hw : s.phase.awake = true)
    (h : (s.path p).assembly = some bs) (hl : bs.length < 127) :
    inputStrobe p false b s = s.setPath p { s.path p with assembly := some (bs ++ [b]) } := by
  have hn : ¬cellBytes ≤ bs.length + 1 := by simp only [cellBytes]; omega
  simp only [inputStrobe, hw, h, hn, if_true, if_false]

theorem inputStrobe_completes {p : PathId} {b : Byte} {bs : List Byte} {s : State} (hw : s.phase.awake = true)
    (h : (s.path p).assembly = some bs) (hl : bs.length = 127) :
    inputStrobe p false b s = cellComplete p (bs ++ [b]) s := by
  simp [inputStrobe, hw, h, hl]

/-- A cell's first byte is the sync mark: in terms of the byte read with a default, which is no sync mark (R2). -/
theorem head?_eq_syncMark (c : Cell) : c.head? = some 0xB8 ↔ c.getD 0 0 = syncMark := by
  cases c <;> simp

theorem cellComplete_badSync {p : PathId} {c : Cell} {s : State} (h : c.head? ≠ some 0xB8) :
    cellComplete p c s =
      s.setPath p { s.path p with assembly := none, syncErrors := (s.path p).syncErrors + 1 } := by
  simp only [cellComplete, if_pos (mt (head?_eq_syncMark c).2 h)]

theorem cellComplete_queues {p : PathId} {c : Cell} {s : State} (h : c.head? = some 0xB8)
    (hf : (s.path p).fifo.length < 4) :
    cellComplete p c s = s.setPath p { s.path p with assembly := none, fifo := (s.path p).fifo ++ [c] } := by
  simp only [cellComplete, if_neg (not_not.2 ((head?_eq_syncMark c).1 h)), if_neg (Nat.not_le.2 hf)]

theorem cellComplete_overflows {p : PathId} {c : Cell} {s : State} (h : c.head? = some 0xB8)
    (hf : 4 ≤ (s.path p).fifo.length) :
    cellComplete p c s =
      { s.setPath p { s.path p with assembly := none, overflows := (s.path p).overflows + 1 } with
        status := s.status.report (overflowFlag p) } := by
  simp only [cellComplete, if_neg (not_not.2 ((head?_eq_syncMark c).1 h)), if_pos hf, report_setPath]

/-! ### The taking of a cell (R13) -/

/-- A path that has taken its head cell and left the cells after it queued (R13). -/
def Path.took (x : Path) (rest : List Cell) : Path := { x with fifo := rest, taken := x.taken + 1 }

@[simp] theorem took_selected (x : Path) (rest : List Cell) : (x.took rest).selected = x.selected := rfl
@[simp] theorem took_state (x : Path) (rest : List Cell) : (x.took rest).state = x.state := rfl

/-- A path without a cell in progress has none after the taking either, until the treatment. -/
theorem took_eq {x : Path} (rest : List Cell) (h : x.progress = none) :
    x.took rest = { x with fifo := rest, taken := x.taken + 1, progress := none } := by
  simp [Path.took, h]

theorem cellTake_nothing {p : PathId} {s : State} (h : (s.path p).fifo = [] ∨ (s.path p).progress ≠ none) :
    exec (.cellTake p) s = .next s := by
  have ht : takeCell p s = s := by
    rcases hg : (s.path p).progress with _ | g
    · simp only [takeCell, hg, h.resolve_right (fun hn => hn hg)]
    · simp only [takeCell, hg]
  simp [exec, execCellTake, ht]

/-- The head cell is treated where it belongs to the selected service and discarded elsewhere (R13). -/
theorem cellTake_head {p : PathId} {c : Cell} {rest : List Cell} {s : State} (hw : s.phase.awake = true)
    (hf : (s.path p).fifo = c :: rest) (hg : (s.path p).progress = none) :
    exec (.cellTake p) s =
      let u := s.setPath p ((s.path p).took rest)
      .next (if u.ofService p c then treatCell p c u else u) := by
  simp only [exec, execCellTake, takeCell, hw, hf, hg, if_true, Path.took]

theorem ofService_unselected {p : PathId} {s : State} (c : Cell) (h : (s.path p).selected = none) :
    s.ofService p c = false := by
  simp [State.ofService, h]

theorem ofService_iff {p : PathId} {s : State} {i : Nat} (c : Cell) (h : (s.path p).selected = some i) :
    s.ofService p c = true ↔
      (s.channelAt i).cls ≠ .empty ∧ cellTag c = (s.channelAt i).tag ∧ cellTag c ≠ 4095 := by
  simp [State.ofService, h, and_assoc]

section
variable {p : PathId} {c : Cell} {rest : List Cell} {i : Nat} {s : State}

theorem cellTake_unselected (hw : s.phase.awake = true) (hf : (s.path p).fifo = c :: rest)
    (hg : (s.path p).progress = none) (hs : (s.path p).selected = none) :
    exec (.cellTake p) s = .next (s.setPath p ((s.path p).took rest)) := by
  have ho : (s.setPath p ((s.path p).took rest)).ofService p c = false := ofService_unselected c (by simpa using hs)
  rw [cellTake_head hw hf hg]
  simp [ho]

/-- A cell that is not of the selected service is discarded. -/
theorem cellTake_foreign (hw : s.phase.awake = true) (hf : (s.path p).fifo = c :: rest)
    (hg : (s.path p).progress = none) (hs : (s.path p).selected = some i)
    (hc : (s.channelAt i).cls = .empty ∨ cellTag c ≠ (s.channelAt i).tag ∨ cellTag c = 4095) :
    exec (.cellTake p) s = .next (s.setPath p ((s.path p).took rest)) := by
  have hn : ¬(s.setPath p ((s.path p).took rest)).ofService p c = true := by
    rw [ofService_iff c (i := i) (by simpa using hs), channelAt_setPath]
    tauto
  rw [cellTake_head hw hf hg]
  simp only [if_neg hn]

/-- A cell of the selected service is treated by the path's state. -/
theorem cellTake_treats (hw : s.phase.awake = true) (hf : (s.path p).fifo = c :: rest)
    (hg : (s.path p).progress = none) (hs : (s.path p).selected = some i) (hc : (s.channelAt i).cls ≠ .empty)
    (ht : cellTag c = (s.channelAt i).tag) (hn : cellTag c ≠ 4095) :
    exec (.cellTake p) s = .next (treatCell p c (s.setPath p ((s.path p).took rest))) := by
  have ho : (s.setPath p ((s.path p).took rest)).ofService p c = true := by
    rw [ofService_iff c (i := i) (by simpa using hs), channelAt_setPath]
    exact ⟨hc, ht, hn⟩
  rw [cellTake_head hw hf hg]
  simp only [if_pos ho]

end

/-! ### The treatment of a cell of the selected service (R13) -/

section
variable {p : PathId} {c : Cell} {s : State}

theorem treatCell_muted {reason : MuteReason} (h : (s.path p).state = .muted reason) (hr : reason ≠ .keyAbsent) :
    treatCell p c s = leaveCell p fillCell .fill s := by
  unfold treatCell
  rw [h]
  cases reason with
  | keyAbsent => exact absurd rfl hr
  | noService | tableFault | rating | notEntitled => rfl

theorem treatCell_keyAbsent_plain (h : (s.path p).state = .muted .keyAbsent) (hc : cellScrambled c = false) :
    treatCell p c s = leaveCell p fillCell .fill s := by
  simp [treatCell, h, hc]

theorem treatCell_passing (h : (s.path p).state = .passing) : treatCell p c s = leaveCell p c .unchanged s := by
  simp [treatCell, h]

theorem treatCell_program_plain (h : (s.path p).state = .descrambling ∨ (s.path p).state = .previewing)
    (hc : cellScrambled c = false) : treatCell p c s = leaveCell p c .unchanged s := by
  rcases h with h | h <;> simp [treatCell, h, hc]

theorem treatCell_scrambled
    (h : (s.path p).state = .descrambling ∨ (s.path p).state = .previewing ∨ (s.path p).state = .muted .keyAbsent)
    (hc : cellScrambled c = true) : treatCell p c s = keyCheck p c s := by
  rcases h with h | h | h <;> simp [treatCell, h, hc]

end

@[simp] theorem leaveCell_setPath (p : PathId) (c : Cell) (how : Leaving) (x : Path) (s : State) :
    leaveCell p c how (s.setPath p x) = s.setPath p { x with progress := some ⟨c, .leaving how⟩ } := by
  simp [leaveCell]

/-! ### The key check and the grant at an IDLE engine (R14, R17, R24, R25) -/

/-- The half that a cell names at an entry whose class needs a key (R14). -/
theorem lookupHalf_keyed {p : PathId} {i : Nat} {s : State} (c : Cell) (hs : (s.path p).selected = some i)
    (he : (s.channelAt i).cls ≠ .empty) (hc : (s.channelAt i).cls ≠ .clear) :
    s.lookupHalf p c = s.keyHalf (s.channelAt i).context (cellParity c) := by
  simp only [State.lookupHalf, hs]
  cases hk : (s.channelAt i).cls with
  | empty => exact absurd hk he
  | clear => exact absurd hk hc
  | included | package | title => rfl

/-- A lookup reads the path's selection, not its progress, and not the engine. -/
theorem lookupHalf_withEngine (p : PathId) (c : Cell) (e : Engine) (s : State) :
    ({ s with engine := e } : State).lookupHalf p c = s.lookupHalf p c := by
  cases p <;> rfl

theorem lookupHalf_setPath {p : PathId} {x : Path} {s : State} (c : Cell)
    (h : x.selected = (s.path p).selected) : (s.setPath p x).lookupHalf p c = s.lookupHalf p c := by
  simp [State.lookupHalf, h]

/-- A miss that no SELECT came before: the count, the mark, the counter and, at its rise to 16, the flag (R14, R17). -/
theorem missCell_counts (p : PathId) (x : Path) (s : State) :
    missCell p false (s.setPath p x) =
      { s.setPath p { x with
          misses := x.misses + 1, keyAbsent := true, starvation := min 16 (x.starvation + 1)
          progress := some ⟨fillCell, .leaving .fill⟩ } with
        status := if x.starvation = 15 then s.status.report (starvedFlag p) else s.status } := by
  have hs : x.starvation + 1 = starvationLimit ↔ x.starvation = 15 := by simp only [starvationLimit]; omega
  by_cases h : x.starvation = 15
  · simp [missCell, h, report_setPath]
  · cases p <;> simp [missCell, hs, h, State.setPath, State.path]

theorem keyCheck_empty {p : PathId} {c : Cell} {s : State} (h : s.lookupHalf p c = .empty) :
    keyCheck p c s = missCell p false s := by
  simp [keyCheck, h]

theorem keyCheck_loaded {p : PathId} {c : Cell} {key : BitVec 64} {life : Nat} {x : Path} {s : State}
    (h : (s.setPath p x).lookupHalf p c = .loaded key life) :
    keyCheck p c (s.setPath p x) =
      arbitrate 3 (s.setPath p
        { x with starvation := 0, keyAbsent := false, progress := some ⟨c, .waiting false⟩ }) := by
  simp [keyCheck, h]

theorem waits_of_waiting {p : PathId} {c : Cell} {b : Bool} {s : State}
    (h : (s.path p).progress = some ⟨c, .waiting b⟩) : s.waits (.path p) = true := by
  simp [State.waits, h]

/-- A path's update makes no other requester wait, or stop waiting. -/
theorem waits_setPath_ne {p : PathId} {q : Requester} (x : Path) (s : State) (h : q ≠ .path p) :
    (s.setPath p x).waits q = s.waits q := by
  cases q with
  | test => simp [State.waits]
  | path q =>
    have hq : q ≠ p := fun e => h (by rw [e])
    simp [State.waits, path_setPath, hq]

/-- A grant whose half is LOADED puts the path's cell into the engine with the half's key (R25). -/
theorem grantCell_loaded {p : PathId} {c : Cell} {b : Bool} {key : BitVec 64} {life : Nat} {s : State}
    (h : s.lookupHalf p c = .loaded key life) :
    grantCell p c b s =
      { s.setPath p { s.path p with progress := some ⟨c, .serving false⟩ } with
        engine := { s.engine with
          serving := some (beginService (.cell p (cellPayload c)) key (cellTag c) (cellCount c) (cellStamp c))
          lastServed := .path p } } := by
  simp only [grantCell, lookupHalf_withEngine, h, path_withEngine]
  cases p <;> rfl

/-- A path that alone waits at an IDLE engine, its half LOADED, is served at once (R24, R25). -/
theorem arbitrate_grants_only_path {p : PathId} {c : Cell} {key : BitVec 64} {life : Nat} {x : Path} {s : State}
    (hi : s.engine.serving = none) (ho : ∀ q, q ≠ .path p → s.waits q = false)
    (hx : x.progress = some ⟨c, .waiting false⟩) (hl : (s.setPath p x).lookupHalf p c = .loaded key life) :
    arbitrate 3 (s.setPath p x) =
      { s.setPath p { x with progress := some ⟨c, .serving false⟩ } with
        engine := { s.engine with
          serving := some (beginService (.cell p (cellPayload c)) key (cellTag c) (cellCount c) (cellStamp c))
          lastServed := .path p } } := by
  have hw : (s.setPath p x).waits (.path p) = true := waits_of_waiting (by simpa using hx)
  have hq : ∀ q, q ≠ .path p → (s.setPath p x).waits q = false := fun q hq => by
    rw [waits_setPath_ne x s hq, ho q hq]
  have hg : grant (.path p) (s.setPath p x) = grantCell p c false (s.setPath p x) := by simp [grant, hx]
  rw [arbitrate_only (by simpa using hi) hw hq, hg, grantCell_loaded hl, arbitrate_serving rfl]
  simp

/-- The key check of a cell whose half is LOADED, at an IDLE engine for which nobody waits (R14, R24, R25). -/
theorem keyCheck_grants {p : PathId} {c : Cell} {key : BitVec 64} {life : Nat} {x : Path} {s : State}
    (hi : s.engine.serving = none) (hq : ∀ q, s.waits q = false)
    (h : (s.setPath p x).lookupHalf p c = .loaded key life) :
    keyCheck p c (s.setPath p x) =
      { s.setPath p { x with starvation := 0, keyAbsent := false, progress := some ⟨c, .serving false⟩ } with
        engine := { s.engine with
          serving := some (beginService (.cell p (cellPayload c)) key (cellTag c) (cellCount c) (cellStamp c))
          lastServed := .path p } } := by
  rw [keyCheck_loaded h,
    arbitrate_grants_only_path hi (fun q _ => hq q) rfl (by simpa [State.lookupHalf] using h)]

end Sys2Proof.Machine
end

