-- ==== Sys2Proof/Proofs/ServicePathCells.lean ====
section
/-!
PROOFS. Cells at the input, taken, checked for their key and leaving (R1 to R3, R13 to R18, R22 to R25), and the
values right after power-on reset.
-/
namespace Sys2Proof.Machine

/-- Settles O3, by evaluating the reset state, path by path and table by table. -/
theorem resetLeavesStatedValues : Obligations.ResetLeavesStatedValues := by
  have hpath : ∀ p, State.reset.path p = Path.reset := fun p => by cases p <;> rfl
  refine ⟨fun p => ?_, rfl, rfl, rfl, rfl, rfl, rfl, rfl, rfl, fun t => ?_, rfl, rfl, rfl, rfl, rfl, rfl, rfl, rfl, rfl,
    rfl, rfl, rfl, rfl, rfl, rfl, rfl⟩
  · rw [hpath]
    decide
  · cases t <;> exact ⟨rfl, rfl, rfl, rfl, rfl, rfl⟩

/-- Settles O41, by the cases of a strobe: no cell begun, a cell begun, and the 128th byte. -/
theorem cellInputAssemblesAndQueues : Obligations.CellInputAssemblesAndQueues := by
  refine ⟨fun p b s hw => ⟨fun hn => ⟨?_, ?_⟩, fun bs hb => ⟨?_, fun hl => ?_⟩⟩, fun p b bs s hw hb hl => ?_⟩
  · exact congrArg _ (inputStrobe_begins hw hn)
  · exact congrArg _ (inputStrobe_ignored hw hn)
  · exact congrArg _ (inputStrobe_restarts hw hb)
  · exact congrArg _ (inputStrobe_joins hw hb hl)
  · have he : exec (.cellArrives p b) s = .next (cellComplete p (bs ++ [b]) s) :=
      congrArg _ (inputStrobe_completes hw hb hl)
    refine ⟨rfl, fun hc => ?_, fun hc hf => ?_, fun hc hf => ?_⟩
    · rw [he, cellComplete_badSync hc]
    · rw [he, cellComplete_queues hc hf]
    · rw [he, cellComplete_overflows hc hf]
      cases p <;> rfl

/-- The strobes of a path's output: none while no cell leaves, and 128 of a cell that leaves (R16). -/
theorem outputStrobe_leaving {x : Path} {cell : Cell} {how : Leaving} (h : x.progress = some ⟨cell, .leaving how⟩)
    (hl : cell.length = 128) :
    (∀ n b, cell[n]? = some b → x.outputStrobe n = some (b, decide (n = 0))) ∧
      ∀ n, 128 ≤ n → x.outputStrobe n = none := by
  refine ⟨fun n b hb => ?_, fun n hn => ?_⟩
  · obtain ⟨hlt, -⟩ := List.getElem?_eq_some_iff.1 hb
    rw [hl] at hlt
    simp [Path.outputStrobe, Path.outgoing, h, cellBytes, hlt, List.getD_eq_getElem?_getD, hb]
  · simp [Path.outputStrobe, cellBytes, Nat.not_lt.2 hn]

/-- With no cell leaving, CELL_LEAVES changes nothing (log 2). -/
theorem cellLeft_nothing {p : PathId} {s : State} (h : (s.path p).outgoing = none) : cellLeft p s = s := by
  rcases hg : (s.path p).progress with _ | ⟨c, _ | _ | how⟩
  case some.leaving => simp [Path.outgoing, hg] at h
  all_goals simp only [cellLeft, hg]

theorem fillCell_header :
    cellTag fillCell = 4095 ∧ cellCount fillCell = 0 ∧ cellScrambled fillCell = false ∧
      cellParity fillCell = .even ∧ cellStamp fillCell = 0 := by decide

/-- Settles O42: nothing to take, the head cell by selection and state, the leaving by its kind, and the strobes. -/
theorem cellTakenAndLeaves : Obligations.CellTakenAndLeaves := by
  refine ⟨fun p s hw => ⟨cellTake_nothing, fun c rest hf hg => ?_⟩, fun p s c => ?_, ⟨rfl, fillCell_header⟩,
    fun x => ?_⟩
  · have htook := took_eq rest hg
    refine ⟨fun hs => ?_, fun i hs => ⟨fun hc => ?_, fun hc ht hn => ?_⟩⟩
    · rw [cellTake_unselected hw hf hg hs, htook]
    · rw [cellTake_foreign hw hf hg hs hc, htook]
    · rw [cellTake_treats hw hf hg hs hc ht hn]
      refine ⟨fun reason hst hr => ?_, fun hst hp => ?_, fun hst => ?_, fun hst hp => ?_⟩
      · rw [treatCell_muted (by simpa using hst) hr, leaveCell_setPath]
        rfl
      · rw [treatCell_keyAbsent_plain (by simpa using hst) hp, leaveCell_setPath]
        rfl
      · rw [treatCell_passing (by simpa using hst), leaveCell_setPath]
        rfl
      · rw [treatCell_program_plain (by simpa using hst) hp, leaveCell_setPath]
        rfl
  · refine ⟨fun hg => ?_, fun hg => ?_, fun hg => ?_, fun hn => congrArg _ (cellLeft_nothing hn)⟩ <;>
      simp [exec, execCellLeaves, cellLeft, hg]
  · refine ⟨fun hn n => ?_, fun cell how h hl => outputStrobe_leaving h hl⟩
    simp [Path.outputStrobe, hn]

/-- The half that a cell's parity names in a context, written out by the parity bit (R14). -/
theorem keyHalf_cellParity (context : Nat) (c : Cell) (s : State) :
    s.keyHalf context (cellParity c) =
      match s.keys[context]? with
      | some k => if (c.getD 3 0).getLsbD 6 then k.odd else k.even
      | none => .empty := by
  unfold State.keyHalf cellParity
  cases s.keys[context]? with
  | none => rfl
  | some k => cases hb : (c.getD 3 0).getLsbD 6 <;> simp [KeyContext.half]

/-- Settles O43: the scrambled cell reaches the key check; an EMPTY half is a miss, a LOADED one posts the request,
which waits while the engine serves and is granted by an IDLE one, where nobody else waits. -/
theorem keyCheckAtTaking : Obligations.KeyCheckAtTaking := by
  intro p s c rest i hw he x e hf hg hs hcls htag hfill hscr hstate half starved took
  have hexec : exec (.cellTake p) s = .next (keyCheck p c (s.setPath p (x.took rest))) := by
    rw [cellTake_treats hw hf hg hs hcls.1 htag (htag.trans_ne hfill), treatCell_scrambled (by simpa using hstate) hscr]
  have hhalf : (s.setPath p (x.took rest)).lookupHalf p c = half := by
    rw [lookupHalf_setPath c (x := x.took rest) rfl, lookupHalf_keyed c hs hcls.1 hcls.2]
    exact keyHalf_cellParity e.context c s
  refine ⟨fun hempty => ?_, fun key life hload => ⟨fun hserve => ?_, fun hidle => ?_⟩⟩
  · rw [hexec, keyCheck_empty (hhalf.trans hempty), missCell_counts]
    cases p <;> rfl
  · rw [hexec, keyCheck_loaded (hhalf.trans hload),
      arbitrate_serving (by simpa using Option.isSome_iff_ne_none.2 hserve)]
    rfl
  · obtain ⟨hquiet, -, -, -⟩ := he
    rw [hexec, keyCheck_grants hidle (hquiet hidle) (hhalf.trans hload)]
    rfl

end Sys2Proof.Machine
end

