-- ==== Sys2Proof/Proofs/ServicePathSelect.lean ====
section
/-!
PROOFS. READ_PATH (R19) and SELECT (R4): what the commands do with their arguments, the judging of a SELECT that
starts no preview (R8, R9, R85), and the judging that starts one (R83, R86, R88).
-/
namespace Sys2Proof.Machine

/-! ### Path arguments, and a command row that is taken -/

theorem pathArg_named {n : Nat} {p : PathId} (h : n = 0 ∧ p = .a ∨ n = 1 ∧ p = .b) : pathArg n = some p := by
  rcases h with ⟨rfl, rfl⟩ | ⟨rfl, rfl⟩ <;> rfl

theorem pathArg_none {n : Nat} (h : 2 ≤ n) : pathArg n = none := by
  rw [pathArg, if_neg (by omega), if_neg (by omega)]

/-- A row of the set port whose frame is taken and long enough runs its command when the frame is over (R155). -/
theorem exec_command {c : Instr} {code : Byte} {args : List Byte} {k : SetCommand} {s : State}
    (hc : setPortFrame c = some (code, args)) (h : s.takesCommand) (hk : setCommand code = some k)
    (hn : k.needs ≤ args.length) (h47 : k.needs ≤ 47) :
    exec c s = .next (k.run (args.take 47) (s.frameOver (1 + args.length))) := by
  rw [exec_setFrame hc, setFrame_run h hk hn h47]

/-! ### What the end of a frame and a reply leave readable -/

@[simp] theorem path_placeReply (code : Byte) (r : ResultCode) (data : List Byte) (s : State) (p : PathId) :
    (placeReply code r data s).path p = s.path p := by cases p <;> rfl

@[simp] theorem path_startWrite (s : State) (p : PathId) : (startWrite s).path p = s.path p := by
  cases p <;> simp [State.path]

/-- A reply placed after a path's update, the frame being over. -/
theorem placeReply_frameOver_setPath (code : Byte) (r : ResultCode) (data : List Byte) (n : Nat) (p : PathId) (x : Path)
    (s : State) :
    placeReply code r data ((s.frameOver n).setPath p x) = (s.setPath p x).replied code r data := by
  cases p <;> rfl

/-- What a slot's listing reads is no part of the set port. -/
theorem listed_placeReply (code : Byte) (r : ResultCode) (data : List Byte) (s : State) (k : Nat) :
    (placeReply code r data s).listed k ↔ s.listed k := Iff.rfl

/-! ### READ_PATH (R19) -/

/-- The path argument lies within the kept bytes of the frame (R153). -/
theorem readPathCommand_take (args : List Byte) (s : State) :
    readPathCommand (args.take 47) s = readPathCommand args s := by
  simp only [readPathCommand, byteAt_take (show 0 < 47 by decide)]

theorem exec_readPath {args : List Byte} {s : State} (h : s.takesCommand) (hn : 1 ≤ args.length) :
    exec (.readPath args) s = .next (readPathCommand args (s.frameOver (1 + args.length))) := by
  rw [exec_command (c := .readPath args) (k := ⟨0x11, 1, readPathCommand⟩) rfl h rfl hn (by decide)]
  exact congrArg _ (readPathCommand_take args _)

theorem pathReport_frameOver (n : Nat) (s : State) (p : PathId) : (s.frameOver n).pathReport p = s.pathReport p := by
  cases p <;> rfl

/-- READ_PATH's marks byte, bit by bit (11). -/
theorem marks_bits (x : Path) (waits : Bool) :
    [x.marks waits] =
      be 1 ((if 2 ≤ x.fifo.length then 1 else 0) + (if x.progress.isSome then 2 else 0) + (if waits then 4 else 0) +
        (if x.keyAbsent then 8 else 0)) := by
  have bit : ∀ (k : Nat) (b : Bool), k * b.toNat = if b then k else 0 := fun k b => by cases b <;> simp
  have full : x.halfFull.toNat = if 2 ≤ x.fifo.length then 1 else 0 := by
    rw [← Nat.one_mul x.halfFull.toNat, bit]
    simp [Path.halfFull]
  simp only [Path.marks, bit, full, be, Nat.pow_zero, Nat.div_one]

/-- The key-absent mark as reason 5 (R8, R10, R11). -/
theorem state_keyAbsent {x : Path} (hk : x.keyAbsent = true)
    (h : x.admitted = .descrambling ∨ x.admitted = .previewing) : x.state = .muted .keyAbsent := by
  rcases h with h | h <;> simp [Path.state, h, hk]

/-- Where the mark is clear or does not matter, the state is the one that reasons 1 to 4 left (R11). -/
theorem state_admitted {x : Path}
    (h : x.keyAbsent = false ∨ (x.admitted ≠ .descrambling ∧ x.admitted ≠ .previewing)) : x.state = x.admitted := by
  unfold Path.state
  cases ha : x.admitted with
  | unselected | passing | muted => rfl
  | descrambling | previewing =>
    have hk : x.keyAbsent = false := h.resolve_right (fun hn => by simp [ha] at hn)
    simp [hk]

theorem muteLine_iff (x : Path) : x.muteLine = true ↔ x.state = .unselected ∨ ∃ reason, x.state = .muted reason := by
  unfold Path.muteLine
  cases x.state <;> simp

/-- Settles O10: the path argument decides between the report, taken field by field, and BAD_ARG; the state and the
MUTE line follow the admitted state and the mark. -/
theorem readPathReports : Obligations.ReadPathReports := by
  refine ⟨fun args s h hn => ⟨fun p hp => ?_, fun hp => ?_⟩,
    fun x => ⟨state_keyAbsent, state_admitted, muteLine_iff x⟩⟩
  · rw [exec_readPath h hn]
    simp only [readPathCommand, pathArg_named hp, placeReply_frameOver, pathReport_frameOver]
    simp only [State.pathReport, State.reportedTag, marks_bits]
    cases (s.path p).selected <;> rfl
  · rw [exec_readPath h hn]
    simp only [readPathCommand, pathArg_none hp, placeReply_frameOver]

/-! ### SELECT (R4) -/

/-- Both arguments lie within the kept bytes of the frame (R153). -/
theorem selectCommand_take (args : List Byte) (s : State) : selectCommand (args.take 47) s = selectCommand args s := by
  simp only [selectCommand, byteAt_take (show 0 < 47 by decide), byteAt_take (show 1 < 47 by decide)]

theorem exec_select {args : List Byte} {s : State} (h : s.takesCommand) (hn : 2 ≤ args.length) :
    exec (.select args) s = .next (selectCommand args (s.frameOver (1 + args.length))) := by
  rw [exec_command (c := .select args) (k := ⟨0x10, 2, selectCommand⟩) rfl h rfl hn (by decide)]
  exact congrArg _ (selectCommand_take args _)

/-- The state that an accepted SELECT hands to the judging: the frame over and the path's selection taken (R4). -/
def State.selecting (s : State) (n : Nat) (p : PathId) (selected : Option Nat) : State :=
  (s.frameOver n).setPath p ((s.path p).select selected)

theorem select_none {args : List Byte} {s : State} {p : PathId} (h : s.takesCommand) (hn : 2 ≤ args.length)
    (hp : byteAt args 0 = 0 ∧ p = .a ∨ byteAt args 0 = 1 ∧ p = .b) (hi : byteAt args 1 = 255) :
    exec (.select args) s = .next ((s.setPath p ((s.path p).select none)).replied 0x10 .ok []) := by
  rw [exec_select h hn]
  simp only [selectCommand, pathArg_named hp, hi, if_true, frameOver_path, placeReply_frameOver_setPath]

theorem select_badArg {args : List Byte} {s : State} (h : s.takesCommand) (hn : 2 ≤ args.length)
    (hb : 2 ≤ byteAt args 0 ∨ 63 < byteAt args 1 ∧ byteAt args 1 ≠ 255) :
    exec (.select args) s = .next (s.replied 0x10 .badArg []) := by
  rw [exec_select h hn]
  unfold selectCommand
  cases hp : pathArg (byteAt args 0) with
  | none => rfl
  | some p =>
    obtain ⟨hi, hne⟩ := hb.resolve_left (fun h2 => by simp [pathArg_none h2] at hp)
    simp only [if_neg hne, if_pos hi, placeReply_frameOver]

theorem select_index {args : List Byte} {s : State} {p : PathId} {i : Nat} (h : s.takesCommand) (hn : 2 ≤ args.length)
    (hp : byteAt args 0 = 0 ∧ p = .a ∨ byteAt args 0 = 1 ∧ p = .b) (hi : byteAt args 1 = i) (hle : i ≤ 63) :
    exec (.select args) s =
      .next (placeReply 0x10 .ok [] (endEvent (judge p (s.selecting (1 + args.length) p (some i))))) := by
  rw [exec_select h hn]
  simp only [selectCommand, pathArg_named hp, hi, if_neg (show ¬i = 255 by omega), if_neg (show ¬63 < i by omega),
    frameOver_path, State.selecting]

/-! ### What the judging of a SELECT reads -/

section
variable (s : State) (n : Nat) (p : PathId) (selected : Option Nat)

@[simp] theorem selecting_keeps :
    (s.selecting n p selected).channels = s.channels ∧ (s.selecting n p selected).offers = s.offers ∧
    (s.selecting n p selected).folio = s.folio ∧ (s.selecting n p selected).log = s.log ∧
    (s.selecting n p selected).nextSeq = s.nextSeq ∧ (s.selecting n p selected).previewed = s.previewed ∧
    (s.selecting n p selected).lock = s.lock ∧ (s.selecting n p selected).store = s.store ∧
    (s.selecting n p selected).status = s.status ∧ (s.selecting n p selected).port = (s.frameOver n).port ∧
    (s.selecting n p selected).phase = s.phase ∧ (s.selecting n p selected).engine = s.engine ∧
    (s.selecting n p selected).keys = s.keys ∧ (s.selecting n p selected).seconds = s.seconds ∧
    (s.selecting n p selected).clock = s.clock ∧ (s.selecting n p selected).room = s.room ∧
    (s.selecting n p selected).line = s.line ∧ (s.selecting n p selected).choice = s.choice ∧
    (s.selecting n p selected).pending = s.pending := by
  simp [State.selecting]

@[simp] theorem selecting_path : (s.selecting n p selected).path p = (s.path p).select selected :=
  path_setPath_same p _ _

/-- A SELECT changes nothing that the reasons of R8 and the log's answers are read from. -/
theorem selecting_judges_alike (i : Nat) :
    ((s.selecting n p selected).asksLog i ↔ s.asksLog i) ∧
      (∀ answer, (s.selecting n p selected).judgedState i answer = s.judgedState i answer) ∧
      ∀ title index,
        ((s.selecting n p selected).hasBought title ↔ s.hasBought title) ∧
          ((s.selecting n p selected).hasPreview title ↔ s.hasPreview title) ∧
          ((s.selecting n p selected).startsPreview title index ↔ s.startsPreview title index) := by
  obtain ⟨hask, hstate⟩ :=
    reasons_congr (t := s.selecting n p selected) (s := s) (by simp) (by simp) (by simp) (by simp) i
  exact ⟨hask, hstate, answers_congr (by simp) (by simp) (by simp) (by simp)⟩

theorem selecting_entry (i : Nat) :
    (s.selecting n p selected).channelAt i = s.channelAt i ∧ (s.selecting n p selected).offerAt i = s.offerAt i := by
  simp [State.channelAt, State.offerAt]

end

/-! ### A SELECT whose judging starts no preview -/

/-- A path after an accepted SELECT of a channel index and its judging (R4, R9, R11). -/
def Path.chooses (x : Path) (i : Nat) (state : PathState) (title : Word) (answer : Answer) : Path :=
  { x.select (some i) with admitted := state, title := title, answer := answer }

/-- A cell that waits for the engine learns of the SELECT; another stands (R6, R14). -/
theorem progress_afterSelect (g : Option Progress) :
    g.map Progress.afterSelect =
      match g with
      | some ⟨c, .waiting _⟩ => some ⟨c, .waiting true⟩
      | other => other := by
  rcases g with _ | ⟨c, _ | _ | _⟩ <;> rfl

theorem select_progress {x : Path} {selected : Option Nat} {g : Option Progress}
    (h : x.progress.map Progress.afterSelect = g) :
    x.select selected =
      { x with
        selected := selected, admitted := .unselected, starvation := 0, keyAbsent := false, title := 0
        answer := .none, progress := g } := by
  rw [← h]
  rfl

theorem chooses_progress {x : Path} {i : Nat} {state : PathState} {title : Word} {answer : Answer} {g : Option Progress}
    (h : x.progress.map Progress.afterSelect = g) :
    x.chooses i state title answer =
      { x with
        selected := some i, admitted := state, starvation := 0, keyAbsent := false, title := title
        answer := answer, progress := g } := by
  rw [← h]
  rfl

/-- A SELECT whose judging writes the path and creates no record leaves the path's choice and the reply. -/
theorem select_judged {args : List Byte} {s : State} {p : PathId} {i : Nat} {x : Path} (h : s.takesCommand)
    (hset : s.settled = true) (hn : 2 ≤ args.length) (hp : byteAt args 0 = 0 ∧ p = .a ∨ byteAt args 0 = 1 ∧ p = .b)
    (hi : byteAt args 1 = i) (hle : i ≤ 63)
    (hj : judgeOnce p (s.selecting (1 + args.length) p (some i)) =
      { state := (s.selecting (1 + args.length) p (some i)).setPath p x, created := none }) :
    exec (.select args) s = .next ((s.setPath p x).replied 0x10 .ok []) := by
  have hstate : judge p (s.selecting (1 + args.length) p (some i)) = (s.frameOver (1 + args.length)).setPath p x := by
    rw [judge_once (by rw [hj]), hj]
    exact setPath_setPath p _ x _
  have hsettled : ((s.frameOver (1 + args.length)).setPath p x).settled = true := by
    simpa [State.settled, State.resetDue] using hset
  rw [select_index h hn hp hi hle, hstate, endEvent_settled hsettled, placeReply_frameOver_setPath]

/-- The judging of a SELECT that does not ask the log. -/
theorem judgeOnce_selecting_quiet {s : State} {p : PathId} {i : Nat} (n : Nat) (ha : ¬s.asksLog i) :
    judgeOnce p (s.selecting n p (some i)) =
      { state := (s.selecting n p (some i)).setPath p ((s.path p).chooses i (s.judgedState i .none) 0 .none)
        created := none } := by
  obtain ⟨hask, hstate, -⟩ := selecting_judges_alike s n p (some i) i
  rw [judgeOnce_quiet (i := i) (by simp [Path.select]) (mt hask.1 ha) .none, hstate]
  simp only [enterState, selecting_path]
  rfl

/-- The judging of a SELECT that asks the log and is answered without a new record. -/
theorem judgeOnce_selecting_answered {s : State} {p : PathId} {i : Nat} {n : Nat} {answer : Answer} (ha : s.asksLog i)
    (hr : ask (s.offerAt (s.channelAt i).offer).title (s.channelAt i).offer (s.selecting n p (some i)) =
      { state := s.selecting n p (some i), answer := answer, created := false }) :
    judgeOnce p (s.selecting n p (some i)) =
      { state := (s.selecting n p (some i)).setPath p
          ((s.path p).chooses i answer.pathState (s.offerAt (s.channelAt i).offer).title answer)
        created := none } := by
  obtain ⟨hask, -, -⟩ := selecting_judges_alike s n p (some i) i
  rw [judgeOnce_asks (i := i) (by simp [Path.select]) (hask.2 ha)]
  simp only [(selecting_entry s n p (some i) _).1, (selecting_entry s n p (some i) _).2, hr, selecting_path]
  rfl

/-- Settles O15: NONE and the refusals by the arguments; an index by whether its judging asks the log and, where it
does, by the answer of R85. -/
theorem selectWithoutNewPreview : Obligations.SelectWithoutNewPreview := by
  refine ⟨fun args s h hn => ⟨fun p hp hi => ?_, fun hb => select_badArg h hn hb⟩, ?_⟩
  · have hsel : (s.path p).select none = _ := select_progress (progress_afterSelect _)
    refine ⟨_, select_none h hn hp hi, ?_, congrArg (fun x => (s.setPath p x).replied 0x10 .ok []) hsel⟩
    cases p <;> rfl
  · intro args s p i h hset hn hp hi hle chosen index title
    have hchosen : ∀ state title answer,
        (s.setPath p ((s.path p).chooses i state title answer)).replied 0x10 .ok [] = chosen state title answer :=
      fun state title answer =>
        congrArg (fun x => (s.setPath p x).replied 0x10 .ok []) (chooses_progress (progress_afterSelect _))
    obtain ⟨-, -, halike⟩ := selecting_judges_alike s (1 + args.length) p (some i) i
    obtain ⟨hbought, hpreview, hstarts⟩ := halike title index
    refine ⟨fun ha => ?_, fun ha hb => ?_, fun ha hb hv => ?_, fun ha hb hv hs => ?_⟩ <;> rw [← hchosen]
    · exact select_judged h hset hn hp hi hle (judgeOnce_selecting_quiet _ ha)
    · exact select_judged h hset hn hp hi hle (judgeOnce_selecting_answered ha (ask_bought _ (hbought.2 hb)))
    · exact select_judged h hset hn hp hi hle
        (judgeOnce_selecting_answered ha (ask_preview _ (mt hbought.1 hb) (hpreview.2 hv)))
    · exact select_judged h hset hn hp hi hle
        (judgeOnce_selecting_answered ha (ask_none (mt hbought.1 hb) (mt hpreview.1 hv) (mt hstarts.1 hs)))

/-! ### A judging that starts a preview (R83, R86) -/

/-- A record's creation lists the folio slot and the record's (R83). -/
theorem createRecord_lists (title : Word) (origin : Origin) (rating limit : Nat) (state : RecordState)
    (charge : Option Charge) (s : State) :
    folioSlot ∈ (createRecord title origin rating limit state charge s).store.dirty ∧
      s.newSlot ∈ (createRecord title origin rating limit state charge s).store.dirty := by
  unfold createRecord
  dsimp only
  split
  · simp only [report_keeps]
    exact ⟨mem_listSlot_of_mem (mem_listSlot _ _), mem_listSlot _ _⟩
  · exact ⟨mem_listSlot_of_mem (mem_listSlot _ _), mem_listSlot _ _⟩

/-- A creation that leaves 40 records or more sets LOG_NEAR_FULL (R83). -/
theorem createRecord_nearFull (title : Word) (origin : Origin) (rating limit : Nat) (state : RecordState)
    (charge : Option Charge) (s : State) (h : 40 ≤ s.log.length + 1) :
    (createRecord title origin rating limit state charge s).status.detail.getLsbD 17 = true := by
  unfold createRecord
  dsimp only
  rw [if_pos (by simpa only [listSlot_keeps, List.length_append, List.length_singleton] using h)]
  simp [report, Status.report, DetailFlag.mark, DetailFlag.bit]

/-- The state in which the log has started a preview of a title found at an offer index (R86). -/
def State.previewStarted (s : State) (title : Word) (index : Nat) : State :=
  { createRecord title .preview (s.offerAt index).rating (min (s.offerAt index).preview 15) .preview none s with
    previewed := s.previewed ++ [title] }

/-- The record that the log creates for a preview (R83, R86). -/
def State.startedRecord (s : State) (title : Word) (index : Nat) : Record where
  seq := s.newSeq
  folio := s.folio.number
  title := title
  origin := .preview
  rating := (s.offerAt index).rating
  limit := min (s.offerAt index).preview 15
  used := 0
  state := .preview
  charge := none
  collected := false
  released := false
  slot := s.newSlot

section
variable (s : State) (title : Word) (index : Nat)

@[simp] theorem previewStarted_keeps :
    (s.previewStarted title index).phase = s.phase ∧ (s.previewStarted title index).pathA = s.pathA ∧
    (s.previewStarted title index).pathB = s.pathB ∧ (s.previewStarted title index).engine = s.engine ∧
    (s.previewStarted title index).keys = s.keys ∧ (s.previewStarted title index).channels = s.channels ∧
    (s.previewStarted title index).offers = s.offers ∧ (s.previewStarted title index).folio = s.folio ∧
    (s.previewStarted title index).lock = s.lock ∧ (s.previewStarted title index).seconds = s.seconds ∧
    (s.previewStarted title index).clock = s.clock ∧ (s.previewStarted title index).room = s.room ∧
    (s.previewStarted title index).line = s.line ∧ (s.previewStarted title index).port = s.port ∧
    (s.previewStarted title index).choice = s.choice ∧ (s.previewStarted title index).pending = s.pending := by
  simp [State.previewStarted]

@[simp] theorem previewStarted_path (p : PathId) : (s.previewStarted title index).path p = s.path p := by
  cases p <;> simp [State.path]

/-- What a preview's start writes: the log, the next sequence number, the set of previewed titles, and the listed
slots (R83, R86, R87). -/
theorem previewStarted_writes :
    (s.previewStarted title index).log = s.log ++ [s.startedRecord title index] ∧
      (s.previewStarted title index).nextSeq = (s.startedRecord title index).seq + 1 ∧
      (s.previewStarted title index).previewed = s.previewed ++ [title] ∧
      folioSlot ∈ (s.previewStarted title index).store.dirty ∧
      (s.startedRecord title index).slot ∈ (s.previewStarted title index).store.dirty ∧
      (40 ≤ s.log.length + 1 → (s.previewStarted title index).status.detail.getLsbD 17 = true) := by
  obtain ⟨hlog, hseq⟩ := createRecord_log title .preview (s.offerAt index).rating (min (s.offerAt index).preview 15)
    .preview none s
  obtain ⟨hfolio, hslot⟩ := createRecord_lists title .preview (s.offerAt index).rating
    (min (s.offerAt index).preview 15) .preview none s
  exact ⟨hlog, hseq, rfl, hfolio, hslot, createRecord_nearFull _ _ _ _ _ _ s⟩

variable {s title index}

/-- Once the preview has started, the log answers PREVIEW for its title (R85). -/
theorem previewStarted_answers (h : s.startsPreview title index) :
    ¬(s.previewStarted title index).hasBought title ∧ (s.previewStarted title index).hasPreview title := by
  obtain ⟨-, hanswer, -⟩ := ask_answers title index s
  rw [ask_starts h] at hanswer
  exact hanswer.1 rfl

end

/-- A path that shows a title with a preview running judges without starting another. -/
theorem judgeOnce_uncreated_of_hasPreview {p : PathId} {s : State} {title : Word} (h : s.showsTitle p title)
    (hb : ¬s.hasBought title) (hv : s.hasPreview title) : (judgeOnce p s).created = none := by
  obtain ⟨i, hs, -, rfl⟩ := h
  by_cases ha : s.asksLog i
  · rw [judgeOnce_asks hs ha]
    simp [ask_preview _ hb hv]
  · rw [judgeOnce_quiet hs ha .none]

/-- A judging that starts a preview: the record is created, the path is PREVIEWING its title, and of the other path,
which judges where it shows the title (R88), only the path itself can change. -/
theorem judge_starts {p : PathId} {s : State} {i : Nat} (hs : (s.path p).selected = some i) (ha : s.asksLog i)
    (hst : s.startsPreview (s.offerAt (s.channelAt i).offer).title (s.channelAt i).offer) :
    let title := (s.offerAt (s.channelAt i).offer).title
    ∃ other,
      judge p s =
        ((s.previewStarted title (s.channelAt i).offer).setPath p
          { s.path p with title := title, answer := .preview, admitted := .previewing }).setPath p.other other := by
  intro title
  set v := (s.previewStarted title (s.channelAt i).offer).setPath p
    { s.path p with title := title, answer := .preview, admitted := .previewing } with hv
  have hjudged : judgeOnce p s = { state := v, created := some title } := by
    rw [judgeOnce_asks hs ha]
    simp only [ask_starts hst, if_true]
    rw [hv, ← previewStarted_path s title (s.channelAt i).offer p]
    rfl
  have hanswers : ¬v.hasBought title ∧ v.hasPreview title := by
    obtain ⟨hbought, hpreview, -⟩ := answers_congr (t := v) (s := s.previewStarted title (s.channelAt i).offer)
      (by simp [hv]) (by simp [hv]) (by simp [hv]) (by simp [hv]) title 0
    rw [hbought, hpreview]
    exact previewStarted_answers hst
  simp only [judge, hjudged]
  split
  · rename_i hshow
    obtain ⟨t, a, st, hw⟩ := judgeOnce_uncreated p.other v
      (judgeOnce_uncreated_of_hasPreview ((shows_iff _ _ _).1 hshow) hanswers.1 hanswers.2)
    exact ⟨_, hw⟩
  · exact ⟨v.path p.other, (setPath_path p.other v).symm⟩

@[simp] theorem path_setPath_of_other (p : PathId) (x : Path) (s : State) :
    (s.setPath p.other x).path p = s.path p := by cases p <;> rfl

/-- A SELECT changes nothing that a created record is made of. -/
theorem selecting_startedRecord (s : State) (n : Nat) (p : PathId) (selected : Option Nat) (title : Word)
    (index : Nat) : (s.selecting n p selected).startedRecord title index = s.startedRecord title index := by
  simp [State.startedRecord, State.newSeq, State.newSlot, State.offerAt]

/-- A SELECT whose judging starts a preview: the record is created, the path is PREVIEWING, the other path may have
judged, the store begins a write if none is in flight, and the reply is OK. -/
theorem select_starts {args : List Byte} {s : State} {p : PathId} {i : Nat} (h : s.takesCommand)
    (hn : 2 ≤ args.length) (hp : byteAt args 0 = 0 ∧ p = .a ∨ byteAt args 0 = 1 ∧ p = .b) (hi : byteAt args 1 = i)
    (hle : i ≤ 63) (ha : s.asksLog i)
    (hst : s.startsPreview (s.offerAt (s.channelAt i).offer).title (s.channelAt i).offer) :
    let title := (s.offerAt (s.channelAt i).offer).title
    let u := s.selecting (1 + args.length) p (some i)
    ∃ other,
      exec (.select args) s =
        .next (placeReply 0x10 .ok [] (startWrite
          (((u.previewStarted title (s.channelAt i).offer).setPath p
            ((s.path p).chooses i .previewing title .preview)).setPath p.other other))) := by
  intro title u
  obtain ⟨hask, -, halike⟩ := selecting_judges_alike s (1 + args.length) p (some i) i
  obtain ⟨hchannel, -⟩ := selecting_entry s (1 + args.length) p (some i) i
  obtain ⟨-, hoffer⟩ := selecting_entry s (1 + args.length) p (some i) (s.channelAt i).offer
  obtain ⟨-, -, hstarts⟩ := halike title (s.channelAt i).offer
  have hjudge := judge_starts (p := p) (s := u) (i := i) (by simp [u, Path.select]) (hask.2 ha)
    (by rw [hchannel, hoffer]; exact hstarts.2 hst)
  rw [hchannel, hoffer] at hjudge
  obtain ⟨other, hother⟩ := hjudge
  rw [selecting_path] at hother
  refine ⟨other, ?_⟩
  rw [select_index h hn hp hi hle, hother, endEvent_notReset (by simp [u, h.2.2])]
  rfl

/-- Settles O16: the judging of the SELECT creates the record, whose slots the event's end lists, and everything that
no admission writes stands. -/
theorem selectStartsPreview : Obligations.SelectStartsPreview := by
  intro args s p i h _ hlog _ hn hp hi hle ha hst o
  obtain ⟨other, hexec⟩ := select_starts h hn hp hi hle ha hst
  obtain ⟨hcap, -, -, -⟩ := hlog
  have hfree : s.log.length < logCapacity := by
    obtain ⟨-, -, -, -, -, hlt, -⟩ := hst
    exact hlt
  obtain ⟨hslotLt, hslotNew⟩ := newSlot_free hfree
  obtain ⟨hlog', hseq, hprev, hfolio, hslot, hnear⟩ :=
    previewStarted_writes (s.selecting (1 + args.length) p (some i))
      (s.offerAt (s.channelAt i).offer).title (s.channelAt i).offer
  rw [selecting_startedRecord] at hlog' hseq hslot
  refine ⟨_, s.startedRecord o.title (s.channelAt i).offer, hexec, by simpa using hlog', rfl, rfl, rfl, rfl, rfl, rfl,
    rfl, rfl, rfl, rfl, newSeq_firstUnused hcap, fun x hx hsame => ?_, hslotLt, ?_, by simpa using hprev, ?_, ?_,
    fun hlen => ?_, ?_, ?_, ?_, ?_, ?_, ?_, ?_, ?_⟩
  · exact hslotNew (List.mem_map.2 ⟨x, hx, hsame⟩)
  · simpa using hseq
  · exact (listed_placeReply ..).2 (listed_startWrite (by simpa using hfolio))
  · exact (listed_placeReply ..).2 (listed_startWrite (by simpa using hslot))
  · simpa using hnear (by simpa [hlog'] using hlen)
  · simp [Path.chooses, Path.select, Path.state]
  · simp [Path.chooses, o]
  · simp [Path.chooses]
  · simp [Path.chooses, Path.select]
  · simp [Path.chooses, Path.select]
  · refine Eq.trans ?_ (progress_afterSelect _)
    simp [Path.chooses, Path.select]
  · simp [placeReply, State.replied, Frame.replace]
  · simp [State.withAdmissionOf]

end Sys2Proof.Machine
end

