-- ==== Sys2Proof/Proofs/EngineLaws.lean ====
section
/-!
SUPPORT. The engine and its arbiter, one equation per case: who waits, what a grant does to a waiting requester (R25,
R33), whom the arbiter grants (R24), and what a completion leaves before the arbiter grants again (R27).
-/
namespace Sys2Proof.Machine

/-! ### Who waits (R23) -/

theorem waits_path_iff (p : PathId) (s : State) :
    s.waits (.path p) = true ↔ ∃ c b, (s.path p).progress = some ⟨c, .waiting b⟩ := by
  rcases hg : (s.path p).progress with _ | ⟨c, _ | _ | _⟩ <;> simp [State.waits, hg]

theorem waits_test_iff (s : State) : s.waits .test = true ↔ ∃ t, s.engine.testWaiting = some t :=
  Option.isSome_iff_exists

/-- A path whose cell does not wait for the engine does not wait. -/
theorem waits_setPath_same {p : PathId} {x : Path} {s : State} (h : ∀ c b, x.progress ≠ some ⟨c, .waiting b⟩) :
    (s.setPath p x).waits (.path p) = false := by
  rw [Bool.eq_false_iff, ne_eq, waits_path_iff, path_setPath_same]
  exact fun ⟨c, b, hg⟩ => h c b hg

/-- Who waits is read from the paths and the waiting test, not from the grant, the port or the status. -/
theorem waits_withEngine {e : Engine} {s : State} (h : e.testWaiting = s.engine.testWaiting) (r : Requester) :
    ({ s with engine := e } : State).waits r = s.waits r :=
  waits_congr (s := s) (t := { s with engine := e }) rfl rfl h r

/-- How many requesters wait: at most three (R23). -/
def State.waiters (s : State) : Nat :=
  (s.waits (.path .a)).toNat + (s.waits (.path .b)).toNat + (s.waits .test).toNat

theorem waiters_le (s : State) : s.waiters ≤ 3 := by
  have h := fun r => Bool.toNat_le (s.waits r)
  have ha := h (.path .a)
  have hb := h (.path .b)
  have ht := h .test
  unfold State.waiters
  omega

theorem waiters_eq_zero {s : State} (h : s.waiters = 0) (r : Requester) : s.waits r = false := by
  unfold State.waiters at h
  rw [← Bool.toNat_eq_zero]
  rcases r with (_ | _) | _ <;> omega

/-! ### Whom the engine serves (R22) -/

theorem serves_idle {e : Engine} (h : e.serving = none) (r : Requester) : e.serves r = false := by
  simp [Engine.serves, h]

theorem serves_cell {e : Engine} {sv : Service} {p : PathId} {payload : List Byte} (h : e.serving = some sv)
    (hw : sv.work = .cell p payload) (r : Requester) : e.serves r = (r == .path p) := by
  obtain ⟨work, _, _, _, _, _, _⟩ := sv
  obtain rfl : work = _ := hw
  simp [Engine.serves, h]

theorem serves_test {e : Engine} {sv : Service} {index : Nat} {word : List Byte} (h : e.serving = some sv)
    (hw : sv.work = .test index word) (r : Requester) : e.serves r = (r == .test) := by
  obtain ⟨work, _, _, _, _, _, _⟩ := sv
  obtain rfl : work = _ := hw
  simp [Engine.serves, h]

theorem inEngine_iff (x : Path) : x.inEngine = true ↔ ∃ c b, x.progress = some ⟨c, .serving b⟩ := by
  rcases hg : x.progress with _ | ⟨c, _ | _ | _⟩ <;> simp [Path.inEngine, hg]

theorem inEngine_congr {x y : Path} (h : y.progress = x.progress) : y.inEngine = x.inEngine := by
  simp only [Path.inEngine, h]

/-- A path whose cell waits has no cell in the engine. -/
theorem inEngine_of_waits {p : PathId} {s : State} (h : s.waits (.path p) = true) : (s.path p).inEngine = false := by
  obtain ⟨c, b, hg⟩ := (waits_path_iff p s).1 h
  simp [Path.inEngine, hg]

/-! ### A key miss (R14, R17) -/

/-- A miss at a grant that a SELECT came before raises the miss count alone (R14). -/
theorem missCell_selectTaken (p : PathId) (s : State) :
    missCell p true s =
      s.setPath p { s.path p with
        misses := (s.path p).misses + 1, progress := some ⟨fillCell, .leaving .fill⟩ } := rfl

/-- Every miss leaves a fill cell on its path, and writes the path and the status unit alone. -/
theorem missCell_writes (p : PathId) (b : Bool) (s : State) :
    ∃ x status, missCell p b s = { s.setPath p x with status := status } ∧
      x.progress = some ⟨fillCell, .leaving .fill⟩ := by
  cases b with
  | true =>
    refine ⟨{ s.path p with misses := (s.path p).misses + 1, progress := some ⟨fillCell, .leaving .fill⟩ },
      s.status, ?_, rfl⟩
    rw [missCell_selectTaken]
    cases p <;> rfl
  | false =>
    have hm := missCell_counts p (s.path p) s
    rw [setPath_path] at hm
    exact ⟨_, _, hm, rfl⟩

/-! ### A grant (R24, R25, R33) -/

theorem grant_test {t : TestRequest} {s : State} (h : s.engine.testWaiting = some t) :
    grant .test s = grantTest t s := by
  simp only [grant, h]

theorem grant_path {p : PathId} {c : Cell} {b : Bool} {s : State} (h : (s.path p).progress = some ⟨c, .waiting b⟩) :
    grant (.path p) s = grantCell p c b s := by
  simp only [grant, h]

/-- A grant whose half is EMPTY is a key miss, and the mark becomes the path (R24, R25). -/
theorem grantCell_empty {p : PathId} {c : Cell} {b : Bool} {s : State} (h : s.lookupHalf p c = .empty) :
    grantCell p c b s = missCell p b { s with engine := { s.engine with lastServed := .path p } } := by
  simp only [grantCell, lookupHalf_withEngine, h]

/-- All that a grant to a waiting requester can do: serve the test, serve the path's cell, or miss its key. -/
theorem grant_cases {r : Requester} {s : State} (h : s.waits r = true) :
    (∃ t, r = .test ∧ s.engine.testWaiting = some t ∧ grant r s = grantTest t s) ∨
    (∃ p c sv, r = .path p ∧ sv.work = .cell p (cellPayload c) ∧
      grant r s =
        { s.setPath p { s.path p with progress := some ⟨c, .serving false⟩ } with
          engine := { s.engine with serving := some sv, lastServed := .path p } }) ∨
    (∃ p x status, r = .path p ∧ x.progress = some ⟨fillCell, .leaving .fill⟩ ∧
      grant r s =
        { s.setPath p x with status := status, engine := { s.engine with lastServed := .path p } }) := by
  cases r with
  | test =>
    obtain ⟨t, ht⟩ := (waits_test_iff s).1 h
    exact .inl ⟨t, rfl, ht, grant_test ht⟩
  | path p =>
    obtain ⟨c, b, hg⟩ := (waits_path_iff p s).1 h
    cases hl : s.lookupHalf p c with
    | loaded key life =>
      exact .inr (.inl ⟨p, c, beginService _ _ _ _ _, rfl, rfl, by rw [grant_path hg, grantCell_loaded hl]⟩)
    | empty =>
      obtain ⟨x, status, hm, hx⟩ := missCell_writes p b { s with engine := { s.engine with lastServed := .path p } }
      exact .inr (.inr ⟨p, x, status, rfl, hx, by rw [grant_path hg, grantCell_empty hl, hm]; cases p <;> rfl⟩)

/-- A granted requester waits no more, and nobody else's wait changes (R24). -/
theorem waits_grant {r : Requester} {s : State} (h : s.waits r = true) :
    (grant r s).waits r = false ∧ ∀ q, q ≠ r → (grant r s).waits q = s.waits q := by
  rcases grant_cases h with ⟨t, rfl, ht, hg⟩ | ⟨p, c, sv, rfl, hw, hg⟩ | ⟨p, x, status, rfl, hx, hg⟩
  · rw [hg]
    refine ⟨rfl, fun q hq => ?_⟩
    cases q with
    | test => exact absurd rfl hq
    | path q => cases q <;> rfl
  · rw [hg]
    have he := waits_withEngine (s := s.setPath p { s.path p with progress := some ⟨c, .serving false⟩ })
      (e := { s.engine with serving := some sv, lastServed := .path p }) (by simp)
    exact ⟨(he _).trans (waits_setPath_same (by simp)), fun q hq => (he _).trans (waits_setPath_ne _ s hq)⟩
  · rw [hg]
    have he := fun q => waits_congr (s := s.setPath p x)
      (t := { s.setPath p x with status := status, engine := { s.engine with lastServed := .path p } }) rfl rfl
      (by simp) q
    exact ⟨(he _).trans (waits_setPath_same (by simp [hx])), fun q hq => (he _).trans (waits_setPath_ne _ s hq)⟩

theorem waiters_grant {r : Requester} {s : State} (h : s.waits r = true) :
    (grant r s).waiters + 1 = s.waiters := by
  obtain ⟨hr, hq⟩ := waits_grant h
  have granted := congrArg Bool.toNat hr
  have waited := congrArg Bool.toNat h
  have others := fun q hne => congrArg Bool.toNat (hq q hne)
  simp only [Bool.toNat_false, Bool.toNat_true] at granted waited
  unfold State.waiters
  rcases r with (_ | _) | _
  · have hb := others (.path .b) (by decide)
    have ht := others .test (by decide)
    omega
  · have ha := others (.path .a) (by decide)
    have ht := others .test (by decide)
    omega
  · have ha := others (.path .a) (by decide)
    have hb := others (.path .b) (by decide)
    omega

/-! ### The arbiter (R24, R25) -/

/-- The first of a list to meet a condition is the one that stands before all others that meet it. -/
theorem find?_eq_of_idxOf_lt {f : Requester → Bool} {l : List Requester} {r : Requester} (hm : r ∈ l)
    (hr : f r = true) (h : ∀ q, f q = true → q ≠ r → l.idxOf r < l.idxOf q) : l.find? f = some r := by
  cases hf : l.find? f with
  | none => exact absurd hr (List.find?_eq_none.1 hf r hm)
  | some q =>
    obtain ⟨hq, before, after, hl, hbefore⟩ := List.find?_eq_some_iff_append.1 hf
    by_contra hne
    have hlt := h q hq (fun e => hne (by rw [e]))
    have hqb : q ∉ before := fun hmem => by simpa [hq] using hbefore q hmem
    have hrb : r ∉ before := fun hmem => by simpa [hr] using hbefore r hmem
    rw [hl, List.idxOf_append_of_notMem hqb, List.idxOf_append_of_notMem hrb, List.idxOf_cons_self] at hlt
    omega

/-- An IDLE engine is granted to the waiting requester that comes first in the cyclic order (R24). -/
theorem arbitrate_first {n : Nat} {s : State} {r : Requester} (hi : s.engine.serving = none)
    (hr : s.waits r = true)
    (ho : ∀ q, s.waits q = true → q ≠ r →
      (preference s.engine.lastServed).idxOf r < (preference s.engine.lastServed).idxOf q) :
    arbitrate (n + 1) s = arbitrate n (grant r s) := by
  simp [arbitrate, hi, find?_eq_of_idxOf_lt (mem_preference _ r) hr ho]

/-- One round of the arbiter: nothing to do, or one waiting requester granted at an IDLE engine. -/
theorem arbitrate_round (s : State) :
    (∀ n, arbitrate n s = s) ∧ (s.engine.serving.isSome = true ∨ ∀ r, s.waits r = false) ∨
    ∃ r, s.engine.serving = none ∧ s.waits r = true ∧ ∀ n, arbitrate (n + 1) s = arbitrate n (grant r s) := by
  cases hs : s.engine.serving with
  | some sv =>
    exact .inl ⟨fun n => arbitrate_serving (by simp [hs]), .inl rfl⟩
  | none =>
    cases hf : (preference s.engine.lastServed).find? s.waits with
    | none =>
      have hq : ∀ r, s.waits r = false := fun r => by simpa using List.find?_eq_none.1 hf r (mem_preference _ r)
      exact .inl ⟨fun n => arbitrate_quiet hq, .inr hq⟩
    | some r => exact .inr ⟨r, rfl, List.find?_some hf, fun n => by simp [arbitrate, hs, hf]⟩

/-- With a round for every waiting requester the arbiter ends at a SERVING engine or with nobody waiting (R24). -/
theorem arbitrate_ends {n : Nat} {s : State} (h : s.waiters ≤ n) :
    (arbitrate n s).engine.serving.isSome = true ∨ ∀ r, (arbitrate n s).waits r = false := by
  induction n generalizing s with
  | zero => exact .inr (waiters_eq_zero (Nat.le_zero.1 h))
  | succ n ih =>
    rcases arbitrate_round s with ⟨he, hs⟩ | ⟨r, -, hr, he⟩
    · rwa [he]
    · rw [he]
      have := waiters_grant hr
      exact ih (by omega)

/-- A round more than there are waiting requesters changes nothing. -/
theorem arbitrate_succ {n : Nat} {s : State} (h : s.waiters ≤ n) : arbitrate (n + 1) s = arbitrate n s := by
  induction n generalizing s with
  | zero =>
    have hq := waiters_eq_zero (Nat.le_zero.1 h)
    rw [arbitrate_quiet hq, arbitrate_quiet hq]
  | succ n ih =>
    rcases arbitrate_round s with ⟨he, -⟩ | ⟨r, -, hr, he⟩
    · rw [he, he]
    · have := waiters_grant hr
      rw [he, he]
      exact ih (by omega)

/-! ### What a completion leaves before the arbiter grants again (R27) -/

section
variable {s : State} {sv : Service}

theorem engineDone_plain {p : PathId} {payload : List Byte} {c : Cell} (hv : s.engine.serving = some sv)
    (hw : sv.work = .cell p payload) (hg : (s.path p).progress = some ⟨c, .serving false⟩) :
    s.engineDone =
      { s.setPath p { s.path p with
          progress := some
            ⟨c.take 3 ++ [c.getD 3 0 &&& 0x7F] ++ (c.drop 4).take 4 ++ sv.plainPayload payload,
              .leaving .descrambled⟩ } with engine := { s.engine with serving := none } } := by
  simp only [State.engineDone, hv, hw, hg]

theorem engineDone_dropped {p : PathId} {payload : List Byte} {c : Cell} (hv : s.engine.serving = some sv)
    (hw : sv.work = .cell p payload) (hg : (s.path p).progress = some ⟨c, .serving true⟩) :
    s.engineDone =
      { s.setPath p { s.path p with progress := none } with engine := { s.engine with serving := none } } := by
  simp only [State.engineDone, hv, hw, hg]

theorem engineDone_test {index : Nat} {word : List Byte} (hv : s.engine.serving = some sv)
    (hw : sv.work = .test index word) :
    s.engineDone =
      { s with
        engine := { s.engine with serving := none }
        port := { s.port with
          slot := some { code := 0x12, result := .ok, data := be 1 index ++ sv.plainTest index word }
          ready := true, busy := .clear, frame := s.port.frame.replace } } := by
  simp only [State.engineDone, hv, hw]

/-- All that a completion can leave: a path's cell out of the engine, leaving it or dropped, or a test answered. -/
theorem engineDone_cases (h : EngineSound s) (hv : s.engine.serving = some sv) :
    (∃ p payload x, sv.work = .cell p payload ∧ (∀ c b, x.progress ≠ some ⟨c, .waiting b⟩) ∧
      x.inEngine = false ∧ s.engineDone = { s.setPath p x with engine := { s.engine with serving := none } }) ∨
    (∃ index word port, sv.work = .test index word ∧ port.busy = .clear ∧
      s.engineDone = { s with engine := { s.engine with serving := none }, port := port }) := by
  obtain ⟨-, hin, -, -⟩ := h
  cases hw : sv.work with
  | test index word => exact .inr ⟨index, word, _, rfl, rfl, engineDone_test hv hw⟩
  | cell p payload =>
    have hp : (s.path p).inEngine = true := by rw [hin p, serves_cell hv hw]; simp
    obtain ⟨c, b, hg⟩ := (inEngine_iff _).1 hp
    refine .inl ⟨p, payload, ?_⟩
    cases b with
    | false => exact ⟨_, rfl, by simp, rfl, engineDone_plain hv hw hg⟩
    | true => exact ⟨_, rfl, by simp, rfl, engineDone_dropped hv hw hg⟩

/-- A completion leaves the engine IDLE, its mark and its waiting test as they were. -/
theorem engineDone_engine (hv : s.engine.serving.isSome = true) :
    s.engineDone.engine = { s.engine with serving := none } := by
  obtain ⟨sv, hv⟩ := Option.isSome_iff_exists.1 hv
  simp only [State.engineDone, hv]
  (repeat' split) <;> rfl

/-- A completion makes nobody wait, or stop waiting. -/
theorem waits_engineDone (h : EngineSound s) (hv : s.engine.serving.isSome = true) (r : Requester) :
    s.engineDone.waits r = s.waits r := by
  obtain ⟨sv, hv⟩ := Option.isSome_iff_exists.1 hv
  rcases engineDone_cases h hv with ⟨p, payload, x, hw, hx, -, hd⟩ | ⟨index, word, port, -, -, hd⟩
  · rw [hd, waits_withEngine (by simp)]
    by_cases hr : r = .path p
    · obtain ⟨-, hin, -, -⟩ := h
      have hp : (s.path p).inEngine = true := by rw [hin p, serves_cell hv hw]; simp
      rw [hr, waits_setPath_same hx]
      cases hwaits : s.waits (.path p) with
      | false => rfl
      | true => rw [inEngine_of_waits hwaits] at hp; cases hp
    · exact waits_setPath_ne x s hr
  · rw [hd]
    exact waits_congr rfl rfl rfl r

end

end Sys2Proof.Machine
end

