-- ==== Sys2Proof/Proofs/EngineKeystream.lean ====
section
/-!
PROOFS. The keystream computation in whole numbers (R28 to R31): the seed, the accumulator's step, the recovery of a
word, and the words of a grant.
-/
namespace Sys2Proof.Machine

/-! ### The seed (R29) -/

theorem seed_toNat (stamp : Word) (count tag : Nat) :
    (seed stamp count tag).toNat = (stamp.toNat * 65536 + 4096 * count + tag) % 2 ^ 40 :=
  BitVec.toNat_ofNat ..

/-- Settles O17: the seed's number is its stamp's low 24 bits, its count and its tag, side by side. -/
theorem seedFromStampCountAndTag : Obligations.SeedFromStampCountAndTag := by
  intro stamp count tag hc ht
  have parts : ∀ w : Word, (seed w count tag).toNat = w.toNat % 2 ^ 24 * 65536 + 4096 * count + tag := by
    intro w
    rw [seed_toNat]
    omega
  refine ⟨seed_toNat stamp count tag, ?_, ?_, ?_, fun other h => BitVec.eq_of_toNat_eq ?_⟩
  · rw [parts]; omega
  · rw [parts]; omega
  · rw [parts]; omega
  · rw [parts, parts, h]

/-! ### The accumulator's step (R28, R30) -/

/-- Key word k(i mod 4) as a number, k0 the most significant sixteen bits (R28). -/
theorem keyWord_toNat (key : BitVec 64) (i : Nat) :
    (keyWord key i).toNat = key.toNat / 65536 ^ (3 - i % 4) % 65536 := by
  have hpow : (65536 : Nat) ^ (3 - i % 4) = 2 ^ (48 - 16 * (i % 4)) := by
    rw [show (65536 : Nat) = 2 ^ 16 from rfl, ← pow_mul]
    congr 1
    omega
  rw [keyWord, BitVec.toNat_setWidth, BitVec.toNat_ushiftRight, Nat.shiftRight_eq_div_pow, hpow]

theorem accStep_toNat (key : BitVec 64) (i : Nat) (a : BitVec 40) :
    (accStep key i a).toNat =
      (a.toNat + ((a.toNat % 65536) ^^^ (keyWord key i).toNat) * (keyWord key (i + 1)).toNat + 1) % 2 ^ 40 := by
  have widen : ∀ h : Half, (h.setWidth 40).toNat = h.toNat := fun h =>
    BitVec.toNat_setWidth_of_le (by decide)
  have one : (1 : BitVec 40).toNat = 1 := rfl
  simp only [accStep, BitVec.toNat_add, BitVec.toNat_mul, widen, one, BitVec.toNat_xor, BitVec.toNat_setWidth,
    Nat.add_mod_mod, Nat.mod_add_mod]

/-! ### The recovery of one word (R31) -/

theorem laneBytes_toNat (l : Half) : laneBytes l = [BitVec.ofNat 8 l.toNat, BitVec.ofNat 8 (l.toNat / 256)] := by
  have low : l.setWidth 8 = BitVec.ofNat 8 l.toNat := BitVec.eq_of_toNat_eq (by simp)
  have high : (l >>> 8).setWidth 8 = BitVec.ofNat 8 (l.toNat / 256) :=
    BitVec.eq_of_toNat_eq (by simp [Nat.shiftRight_eq_div_pow])
  rw [laneBytes, low, high]

theorem keyLane_toNat (a : BitVec 40) (j : Nat) : (keyLane a j).toNat = a.toNat / 256 ^ j % 65536 := by
  rw [keyLane, BitVec.toNat_setWidth, BitVec.toNat_ushiftRight, Nat.shiftRight_eq_div_pow,
    show (256 : Nat) = 2 ^ 8 from rfl, ← pow_mul]

theorem receivedLane_toNat (word : List Byte) (j : Nat) :
    (receivedLane word j).toNat = byteAt word (2 * j) + 256 * byteAt word (2 * j + 1) := by
  have h : ∀ i, byteAt word i < 256 := fun i => BitVec.isLt _
  have h0 := h (2 * j)
  have h1 := h (2 * j + 1)
  rw [receivedLane, BitVec.toNat_ofNat]
  omega

theorem plainLane_toNat (key : BitVec 64) (i : Nat) (a : BitVec 40) (word : List Byte) (j : Nat) :
    (plainLane key i a word j).toNat =
      (receivedLane word ((j + (i + (keyWord key 3).toNat) % 4) % 4)).toNat ^^^ (a.toNat / 256 ^ j % 65536) := by
  rw [plainLane, BitVec.toNat_xor, keyLane_toNat]

/-! ### The words of a grant and of a test (R27, R30, R33) -/

/-- The accumulator at word `n` of a service begun at word 0, counted in steps from its seed (R30). -/
def Service.accAt (sv : Service) (n : Nat) : BitVec 40 :=
  (List.range (n + 1)).foldl (fun a i => accStep sv.key i a) sv.acc

theorem accRun_from_zero (sv : Service) (n : Nat) : accRun sv.key (n + 1) 0 sv.acc = sv.accAt n := by
  simp [accRun_foldl, Service.accAt]

/-- A run of words from word 0, each from the accumulator after its steps from the seed (R30). -/
theorem recoverWords_from_zero (sv : Service) (n : Nat) (payload : List Byte) :
    (recoverWords sv.key n 0 sv.acc payload).length = 8 * n ∧
      ∀ i, i < n → ((recoverWords sv.key n 0 sv.acc payload).drop (8 * i)).take 8 =
        plainWord sv.key i (sv.accAt i) ((payload.drop (8 * i)).take 8) := by
  obtain ⟨hlen, hword⟩ := recoverWords_word sv.key n 0 sv.acc payload
  refine ⟨hlen, fun i hi => ?_⟩
  rw [hword i hi, Nat.zero_add, accRun_from_zero]

/-- The payload of a service begun at word 0 is recovered whole (R27). -/
theorem plainPayload_from_zero {sv : Service} (payload : List Byte) (h : sv.position = 0) :
    sv.plainPayload payload = recoverWords sv.key 15 0 sv.acc payload := by
  rw [Service.plainPayload, h, Nat.mul_zero, List.take_zero, List.nil_append, List.drop_zero, Nat.sub_zero]

theorem plainTest_word {sv : Service} (index : Nat) (word : List Byte) (h : sv.position = 0) :
    sv.plainTest index word = plainWord sv.key index (sv.accAt index) word := by
  rw [Service.plainTest, h, Nat.sub_zero, accRun_from_zero]

/-- Settles O18: the step and the word by their numbers, lane by lane; the words of a grant and of a test by the
accumulator's steps from the seed. -/
theorem keystreamRecoversWord : Obligations.KeystreamRecoversWord := by
  refine ⟨fun key i a b0 b1 b2 b3 b4 b5 b6 b7 _ => ?_, fun sv payload word h _ => ?_⟩
  · intro k m r a' p
    have hlane : ∀ j, (plainLane key i a' [b0, b1, b2, b3, b4, b5, b6, b7] j).toNat = p j := by
      intro j
      have hk : (keyWord key 3).toNat = k 3 := keyWord_toNat key 3
      have hsum : (j + (i + k 3) % 4) % 4 < 4 := Nat.mod_lt _ (by decide)
      rw [plainLane_toNat, receivedLane_toNat, hk]
      simp only [p, r]
      generalize (j + (i + k 3) % 4) % 4 = n at hsum ⊢
      congr 1
      interval_cases n <;> rfl
    refine ⟨?_, ?_⟩
    · simp only [a', accStep_toNat, keyWord_toNat, m, k]
    · simp only [plainWord, laneBytes_toNat, hlane, List.cons_append, List.nil_append]
  · obtain ⟨hlen, hwords⟩ := recoverWords_from_zero sv 15 payload
    rw [plainPayload_from_zero payload h]
    exact ⟨hlen, hwords, fun index _ => plainTest_word index word h⟩

end Sys2Proof.Machine
end

