-- ==== Sys2Proof/Proofs/EngineGrants.lean ====
section
/-!
PROOFS. ENGINE_TEST (R32), and the engine's completion with nobody waiting and with requesters waiting (R24, R25,
R27, R33).
-/
namespace Sys2Proof.Machine

/-! ### ENGINE_TEST (R32) -/

/-- Every argument lies within the kept bytes of the frame (R153). -/
theorem engineTestCommand_take (args : List Byte) (s : State) :
    engineTestCommand (args.take 47) s = engineTestCommand args s := by
  have hword : ((args.take 47).drop 16).take 8 = (args.drop 16).take 8 := by
    rw [List.drop_take, List.take_take]
    rfl
  simp only [engineTestCommand, natAt_take (show 0 + 8 ≤ 47 by decide), natAt_take (show 8 + 2 ≤ 47 by decide),
    natAt_take (show 11 + 4 ≤ 47 by decide), byteAt_take (show 10 < 47 by decide),
    byteAt_take (show 15 < 47 by decide), hword]

theorem exec_engineTest {args : List Byte} {s : State} (h : s.takesCommand) (hn : 24 ≤ args.length) :
    exec (.engineTest args) s = .next (engineTestCommand args (s.frameOver (1 + args.length))) := by
  rw [exec_command (c := .engineTest args) (k := ⟨0x12, 24, engineTestCommand⟩) rfl h rfl hn (by decide)]
  exact congrArg _ (engineTestCommand_take args _)

/-- The arguments of an ENGINE_TEST as the request that it posts (R32). -/
def testRequest (args : List Byte) : TestRequest where
  key := BitVec.ofNat 64 (natAt args 0 8)
  tag := natAt args 8 2
  count := byteAt args 10
  stamp := BitVec.ofNat 32 (natAt args 11 4)
  index := byteAt args 15
  word := (args.drop 16).take 8

/-- The state in which a test has been posted: BUSY with cause ENGINE and the request waiting (R32, R157). -/
def State.posted (s : State) (t : TestRequest) : State :=
  { s with port := { s.port with busy := .engine }, engine := { s.engine with testWaiting := some t } }

theorem engineTestCommand_refused {args : List Byte} {s : State}
    (h : 4094 < natAt args 8 2 ∨ 15 < byteAt args 10 ∨ 14 < byteAt args 15) :
    engineTestCommand args s = placeReply 0x12 .badArg [] s := by
  simp only [engineTestCommand, if_pos h]

theorem engineTestCommand_posts {args : List Byte} {s : State} (n : Nat) (ht : natAt args 8 2 ≤ 4094)
    (hc : byteAt args 10 ≤ 15) (hi : byteAt args 15 ≤ 14) :
    engineTestCommand args (s.frameOver n) =
      arbitrate 3 ((s.replied 0x12 .pending []).posted (testRequest args)) := by
  simp only [engineTestCommand,
    if_neg (show ¬(4094 < natAt args 8 2 ∨ 15 < byteAt args 10 ∨ 14 < byteAt args 15) by omega)]
  rfl

/-- A test posted at an IDLE engine for which nobody waits is served at once (R24, R33). -/
theorem arbitrate_posted_idle {t : TestRequest} {s : State} (hi : s.engine.serving = none)
    (hq : ∀ r, s.waits r = false) : arbitrate 3 (s.posted t) = grantTest t (s.posted t) := by
  have hothers : ∀ q, q ≠ .test → (s.posted t).waits q = false := by
    intro q hne
    cases q with
    | test => exact absurd rfl hne
    | path p => exact Eq.trans (by cases p <;> rfl) (hq (.path p))
  rw [arbitrate_only (s := s.posted t) (r := .test) hi rfl hothers, grant_test (t := t) rfl, arbitrate_serving rfl]

/-- Settles O19: the arguments decide between BAD_ARG and the posted test, and the engine between its grant and its
wait. -/
theorem engineTestIsPosted : Obligations.EngineTestIsPosted := by
  intro args s h hsound hn key tag count stamp index word
  have hexec := exec_engineTest h hn
  refine ⟨fun hbad => ?_, fun ht hc hi => ⟨fun hidle => ?_, fun hserving => ?_⟩⟩
  · rw [hexec, engineTestCommand_refused hbad, placeReply_frameOver]
  · obtain ⟨hquiet, -, -, -⟩ := hsound
    have hq : ∀ r, (s.replied 0x12 .pending []).waits r = false := fun r =>
      (waits_congr (s := s) (t := s.replied 0x12 .pending []) rfl rfl rfl r).trans (hquiet hidle r)
    rw [hexec, engineTestCommand_posts _ ht hc hi, arbitrate_posted_idle (s := s.replied 0x12 .pending []) hidle hq]
    rfl
  · rw [hexec, engineTestCommand_posts _ ht hc hi,
      arbitrate_serving (s := (s.replied 0x12 .pending []).posted _) (Option.isSome_iff_ne_none.2 hserving)]
    rfl

/-! ### The completion with nobody waiting (R27) -/

/-- With nobody waiting the completion leaves the engine IDLE (R24, R27). -/
theorem engineComplete_quiet {s : State} (h : EngineSound s) (hv : s.engine.serving.isSome = true)
    (hq : ∀ r, s.waits r = false) : exec .engineComplete s = .next s.engineDone := by
  rw [engineComplete_eq hv, arbitrate_quiet fun r => (waits_engineDone h hv r).trans (hq r)]

/-- Settles O44: the completion leaves what R27 says of the finished grant, and nobody is granted after it. -/
theorem engineCompletesGrant : Obligations.EngineCompletesGrant := by
  intro s h
  refine ⟨fun hidle => ?_, fun sv hv hq => ?_⟩
  · simp only [exec, execEngineComplete, completeGrant, hidle]
  · rw [engineComplete_quiet h (by simp [hv]) hq]
    exact ⟨fun p payload c hw hg => congrArg _ (engineDone_plain hv hw hg),
      fun p payload c hw hg => congrArg _ (engineDone_dropped hv hw hg),
      fun index word hw => congrArg _ (engineDone_test hv hw)⟩

/-! ### The completion with requesters waiting (R24, R25) -/

section
variable {s : State}

/-- At a completion the finished grant leaves first, and the arbiter then grants the waiting requester that comes first
in the cyclic order (R24, R27). -/
theorem engineComplete_grants {r : Requester} (h : EngineSound s) (hv : s.engine.serving.isSome = true)
    (hr : s.waits r = true)
    (ho : ∀ q, s.waits q = true → q ≠ r →
      (preference s.engine.lastServed).idxOf r < (preference s.engine.lastServed).idxOf q) :
    exec .engineComplete s = .next (arbitrate 2 (grant r s.engineDone)) := by
  have he := engineDone_engine hv
  rw [engineComplete_eq hv, arbitrate_first (r := r) (by rw [he]) ((waits_engineDone h hv r).trans hr)
    (fun q hq => by rw [he]; exact ho q (by rwa [← waits_engineDone h hv q]))]

/-- A completion changes neither the channel table nor the keys. -/
theorem engineDone_keeps (hv : s.engine.serving.isSome = true) :
    s.engineDone.channels = s.channels ∧ s.engineDone.keys = s.keys := by
  obtain ⟨sv, hv⟩ := Option.isSome_iff_exists.1 hv
  simp only [State.engineDone, hv]
  (repeat' split) <;> simp

/-- A completion leaves a path alone whose cell waits (R27). -/
theorem engineDone_path {p : PathId} (h : EngineSound s) (hv : s.engine.serving.isSome = true)
    (hw : s.waits (.path p) = true) : s.engineDone.path p = s.path p := by
  obtain ⟨sv, hv⟩ := Option.isSome_iff_exists.1 hv
  rcases engineDone_cases h hv with ⟨q, payload, x, hwork, -, -, hd⟩ | ⟨index, word, port, -, -, hd⟩
  · obtain ⟨-, hin, -, -⟩ := h
    have hne : p ≠ q := by
      rintro rfl
      have := inEngine_of_waits hw
      rw [hin p, serves_cell hv hwork] at this
      simp at this
    rw [hd, path_withEngine, path_setPath, if_neg hne]
  · rw [hd]
    cases p <;> rfl

/-- A lookup reads its path, the channel table and the keys alone (R25). -/
theorem lookupHalf_congr {t : State} {p : PathId} (hp : t.path p = s.path p) (hc : t.channels = s.channels)
    (hk : t.keys = s.keys) (c : Cell) : t.lookupHalf p c = s.lookupHalf p c := by
  simp only [State.lookupHalf, State.keyHalf, State.channelAt, hp, hc, hk]

theorem lookupHalf_unselected {p : PathId} (c : Cell) (h : (s.path p).selected = none) :
    s.lookupHalf p c = .empty := by
  simp only [State.lookupHalf, h]

/-- An entry whose class has no key context has an EMPTY half (R14). -/
theorem lookupHalf_keyless {p : PathId} {i : Nat} (c : Cell) (hs : (s.path p).selected = some i)
    (h : (s.channelAt i).cls = .empty ∨ (s.channelAt i).cls = .clear) : s.lookupHalf p c = .empty := by
  rcases h with h | h <;> simp only [State.lookupHalf, hs, h]

end

/-- The path of a missed cell: the fill cell leaves and the miss is counted; the mark and the starvation counter follow
unless a SELECT was accepted since the cell's taking (R14, R17). -/
def Path.missed (x : Path) (selectTaken : Bool) : Path :=
  let x1 := { x with misses := x.misses + 1, progress := some ⟨fillCell, .leaving .fill⟩ }
  if selectTaken then x1 else { x1 with keyAbsent := true, starvation := min 16 (x.starvation + 1) }

/-- The state after a path's cell, as the path `x` held it, missed its key at its grant (R14, R17, R24, R25). -/
def State.missing (u : State) (p : PathId) (x : Path) (selectTaken : Bool) : State :=
  { u.setPath p (x.missed selectTaken) with
    engine := { u.engine with lastServed := .path p }
    status :=
      if selectTaken then u.status
      else if x.starvation = 15 then u.status.report (starvedFlag p) else u.status }

section
variable {s : State} {p : PathId} {c : Cell} {selectTaken : Bool}

theorem grantCell_missing (h : s.lookupHalf p c = .empty) :
    grantCell p c selectTaken s = s.missing p (s.path p) selectTaken := by
  rw [grantCell_empty h]
  cases selectTaken with
  | true =>
    rw [missCell_selectTaken]
    cases p <;> rfl
  | false =>
    have hm := missCell_counts p (s.path p) { s with engine := { s.engine with lastServed := .path p } }
    rw [← path_withEngine p { s.engine with lastServed := .path p } s, setPath_path] at hm
    rw [hm]
    cases p <;> simp [State.missing, Path.missed, State.setPath]

theorem waits_missing (u : State) (x : Path) :
    (u.missing p x selectTaken).waits (.path p) = false ∧
      ∀ q, q ≠ .path p → (u.missing p x selectTaken).waits q = u.waits q := by
  have he := fun q => waits_congr (s := u.setPath p (x.missed selectTaken)) (t := u.missing p x selectTaken)
    rfl rfl (by simp [State.missing]) q
  refine ⟨(he _).trans (waits_setPath_same ?_), fun q hq => (he q).trans (waits_setPath_ne _ u hq)⟩
  cases selectTaken <;> simp [Path.missed]

theorem eq_other_of_ne {p q : PathId} (h : q ≠ p) : q = p.other := by
  cases p <;> cases q <;> simp [PathId.other] at h ⊢

/-- It makes no difference whether a waiting cell misses its key before or after another's grant completes (R25). -/
theorem missing_engineDone (h : EngineSound s) (hv : s.engine.serving.isSome = true)
    (hw : s.waits (.path p) = true) (x : Path) :
    (s.missing p x selectTaken).engineDone = s.engineDone.missing p x selectTaken := by
  obtain ⟨sv, hv⟩ := Option.isSome_iff_exists.1 hv
  have hv' : (s.missing p x selectTaken).engine.serving = some sv := hv
  cases hwork : sv.work with
  | test index word =>
    rw [engineDone_test hv hwork, engineDone_test hv' hwork]
    cases p <;> rfl
  | cell q payload =>
    obtain ⟨-, hin, -, -⟩ := h
    have hq : (s.path q).inEngine = true := by rw [hin q, serves_cell hv hwork]; simp
    have hne : q ≠ p := by
      rintro rfl
      rw [inEngine_of_waits hw] at hq
      cases hq
    obtain rfl : q = p.other := eq_other_of_ne hne
    have hpath : (s.missing p x selectTaken).path p.other = s.path p.other := by cases p <;> rfl
    obtain ⟨c, b, hg⟩ := (inEngine_iff _).1 hq
    have hg' : ((s.missing p x selectTaken).path p.other).progress = some ⟨c, .serving b⟩ := by rw [hpath, hg]
    cases b with
    | false =>
      rw [engineDone_plain hv hwork hg, engineDone_plain hv' hwork hg', hpath]
      cases p <;> rfl
    | true =>
      rw [engineDone_dropped hv hwork hg, engineDone_dropped hv' hwork hg', hpath]
      cases p <;> rfl

/-- The half that a waiting cell names by the entry then standing, written out (R14, R25, R38). -/
theorem lookupHalf_written (s : State) (p : PathId) (c : Cell) :
    s.lookupHalf p c =
      match (s.path p).selected with
      | none => .empty
      | some i =>
        if (s.channelAt i).cls = .empty ∨ (s.channelAt i).cls = .clear then .empty
        else match s.keys[(s.channelAt i).context]? with
          | some k => if (c.getD 3 0).getLsbD 6 then k.odd else k.even
          | none => .empty := by
  cases hs : (s.path p).selected with
  | none => exact lookupHalf_unselected c hs
  | some i =>
    by_cases hc : (s.channelAt i).cls = .empty ∨ (s.channelAt i).cls = .clear
    · rw [lookupHalf_keyless c hs hc]
      exact (if_pos hc).symm
    · obtain ⟨he, hcl⟩ := not_or.1 hc
      rw [lookupHalf_keyed c hs he hcl, keyHalf_cellParity]
      exact (if_neg hc).symm

end

/-- Settles O45: the finished grant leaves, the first waiter of the cyclic order is granted, and a waiter that misses
its key is as good as one that had missed it before the completion. -/
theorem arbiterGrantsInCyclicOrder : Obligations.ArbiterGrantsInCyclicOrder := by
  intro s r h hv hr ho d
  have hgrants : exec .engineComplete s = .next (arbitrate 2 (grant r d)) := engineComplete_grants h hv hr ho
  refine ⟨fun t hrt ht => ?_, fun p c selectTaken hrp hg => ?_⟩
  · subst hrt
    have htd : d.engine.testWaiting = some t := by rw [engineDone_engine hv]; exact ht
    rw [hgrants, grant_test htd, arbitrate_serving rfl]
    rfl
  · subst hrp
    intro x half
    obtain ⟨hchannels, hkeys⟩ := engineDone_keeps hv
    have hpath : d.path p = x := engineDone_path h hv hr
    have hgd : (d.path p).progress = some ⟨c, .waiting selectTaken⟩ := by rw [hpath]; exact hg
    have hhalf : d.lookupHalf p c = half :=
      (lookupHalf_congr hpath hchannels hkeys c).trans (lookupHalf_written s p c)
    refine ⟨fun key life hload => ?_, fun hempty => ?_⟩
    · rw [hgrants, grant_path hgd, grantCell_loaded (hhalf.trans hload), arbitrate_serving rfl, hpath,
        engineDone_engine hv]
      rfl
    · intro starved missed after
      have hafter : ∀ u, after u = u.missing p x selectTaken := fun u => by
        cases selectTaken <;> cases p <;> rfl
      have hgrant : grant (.path p) d = d.missing p x selectTaken := by
        rw [grant_path hgd, grantCell_missing (hhalf.trans hempty), hpath]
      obtain ⟨hself, hothers⟩ := waits_missing (p := p) (selectTaken := selectTaken) d x
      refine ⟨fun hq => ?_, ?_⟩
      · have hnobody : ∀ q, (d.missing p x selectTaken).waits q = false := fun q => by
          by_cases hqr : q = .path p
          · rw [hqr, hself]
          · rw [hothers q hqr, waits_engineDone h hv, hq q hqr]
        rw [hgrants, hgrant, hafter, arbitrate_quiet hnobody]
      · have hwaiters : (grant (.path p) d).waiters ≤ 2 := by
          have hone := waiters_grant (s := d) ((waits_engineDone h hv (.path p)).trans hr)
          have hthree := waiters_le d
          omega
        rw [hgrants, hafter, engineComplete_eq (s := s.missing p x selectTaken) hv, missing_engineDone h hv hr,
          ← hgrant, arbitrate_succ hwaiters]

end Sys2Proof.Machine
end

