-- ==== Sys2Proof/Proofs/EngineAccount.lean ====
section
/-!
SUPPORT. The engine's account (R22 to R24, R157) under grants and completions, and the relation of two states between
which the engine stands: what an event that neither posts, nor grants, nor completes leaves of the account.
-/
namespace Sys2Proof.Machine

/-! ### The account, whoever waits (R22, R23, R157) -/

/-- The engine's account but for R24: it holds also between a completion and the grants that follow it. -/
def EngineAccount (s : State) : Prop :=
  (∀ p, (s.path p).inEngine = s.engine.serves (.path p)) ∧
    (s.port.busy = .engine ↔ (s.engine.testWaiting.isSome || s.engine.serves .test) = true) ∧
    (s.engine.testWaiting.isSome && s.engine.serves .test) = false

theorem engineSound_iff (s : State) :
    EngineSound s ↔ (s.engine.serving = none → ∀ r, s.waits r = false) ∧ EngineAccount s := Iff.rfl

theorem inEngine_idle {s : State} (h : EngineAccount s) (hi : s.engine.serving = none) (p : PathId) :
    (s.path p).inEngine = false := by
  obtain ⟨hin, -, -⟩ := h
  rw [hin p, serves_idle hi]

/-- A grant at an IDLE engine keeps the account (R23 to R25). -/
theorem grant_keeps_account {r : Requester} {s : State} (h : EngineAccount s) (hi : s.engine.serving = none)
    (hr : s.waits r = true) : EngineAccount (grant r s) := by
  have hin := inEngine_idle h hi
  obtain ⟨-, hbusy, -⟩ := h
  rcases grant_cases hr with ⟨t, rfl, ht, hg⟩ | ⟨p, c, sv, rfl, hw, hg⟩ | ⟨p, x, status, rfl, hx, hg⟩
  · have hserves := serves_test (e := (grantTest t s).engine) (sv := beginService _ _ _ _ _) rfl rfl
    have hengine : s.port.busy = .engine := hbusy.2 (by simp [ht])
    rw [hg]
    refine ⟨fun q => ?_, ?_, ?_⟩
    · rw [hserves]
      exact Eq.trans (by cases q <;> rfl) (hin q)
    · simp [hserves, hengine]
    · simp [grantTest]
  · have hserves := serves_cell (e := { s.engine with serving := some sv, lastServed := .path p }) rfl hw
    have htest : s.engine.serves .test = false := serves_idle hi _
    rw [hg]
    refine ⟨fun q => ?_, ?_, ?_⟩
    · rw [path_withEngine, path_setPath]
      dsimp only
      rw [hserves]
      by_cases hq : q = p
      · subst hq
        simp [Path.inEngine]
      · simp [hq, hin q]
    · simpa [hserves, htest] using hbusy
    · simp [hserves]
  · have hidle : ({ s.engine with lastServed := .path p } : Engine).serving = none := hi
    have htest : s.engine.serves .test = false := serves_idle hi _
    rw [hg]
    refine ⟨fun q => ?_, ?_, ?_⟩
    · dsimp only
      rw [serves_idle hidle]
      by_cases hq : q = p
      · subst hq
        exact Eq.trans (inEngine_congr (x := x) (by cases q <;> rfl)) (by simp [Path.inEngine, hx])
      · exact Eq.trans (inEngine_congr (x := (s.setPath p x).path q) (by cases q <;> rfl))
          (by rw [path_setPath, if_neg hq, hin q])
    · simpa [serves_idle hidle, htest] using hbusy
    · simp [serves_idle hidle]

theorem arbitrate_keeps_account {n : Nat} {s : State} (h : EngineAccount s) : EngineAccount (arbitrate n s) := by
  induction n generalizing s with
  | zero => exact h
  | succ n ih =>
    rcases arbitrate_round s with ⟨he, -⟩ | ⟨r, hi, hr, he⟩
    · rwa [he]
    · rw [he]
      exact ih (grant_keeps_account h hi hr)

/-- The arbiter's rounds leave nobody waiting at an IDLE engine (R24). -/
theorem arbitrate_sound {s : State} (h : EngineAccount s) : EngineSound (arbitrate 3 s) := by
  refine ⟨fun hi => ?_, arbitrate_keeps_account h⟩
  rcases arbitrate_ends (waiters_le s) with hs | hq
  · rw [hi] at hs
    cases hs
  · exact hq

/-- A completion keeps the account before the arbiter grants again (R27). -/
theorem engineDone_account {s : State} (h : EngineSound s) (hv : s.engine.serving.isSome = true) :
    EngineAccount s.engineDone := by
  obtain ⟨sv, hv⟩ := Option.isSome_iff_exists.1 hv
  have hidle : ({ s.engine with serving := none } : Engine).serving = none := rfl
  rcases engineDone_cases h hv with ⟨p, payload, x, hw, -, hx, hd⟩ | ⟨index, word, port, hw, hport, hd⟩
  · obtain ⟨-, hin, hbusy, -⟩ := h
    have hserves := serves_cell hv hw
    rw [hd]
    refine ⟨fun q => ?_, ?_, ?_⟩
    · rw [path_withEngine, path_setPath]
      dsimp only
      rw [serves_idle hidle]
      by_cases hq : q = p
      · simp [hq, hx]
      · simp [hq, hin q, hserves]
    · simpa [serves_idle hidle, hserves] using hbusy
    · simp [serves_idle hidle]
  · obtain ⟨-, hin, -, hboth⟩ := h
    have hserves := serves_test hv hw
    have hwaiting : s.engine.testWaiting.isSome = false := by simpa [hserves] using hboth
    rw [hd]
    refine ⟨fun q => ?_, ?_, ?_⟩
    · dsimp only
      rw [serves_idle hidle]
      exact Eq.trans (by cases q <;> rfl) ((hin q).trans (by simp [hserves]))
    · simp [serves_idle hidle, hport, hwaiting]
    · simp [serves_idle hidle]

/-! ### States between which the engine stands -/

/-- From `s` to `t` nothing is posted, granted or completed: the engine is the same, each path's cell is in it or not as
before, no path begins to wait, and BUSY has cause ENGINE or not as before. -/
structure EngineStands (s t : State) : Prop where
  engine : t.engine = s.engine
  inEngine : ∀ p, (t.path p).inEngine = (s.path p).inEngine
  waits : ∀ p, t.waits (.path p) = true → s.waits (.path p) = true
  busy : t.port.busy = .engine ↔ s.port.busy = .engine

namespace EngineStands

variable {s t u : State}

theorem refl (s : State) : EngineStands s s := ⟨rfl, fun _ => rfl, fun _ h => h, Iff.rfl⟩

theorem trans (h : EngineStands s t) (k : EngineStands t u) : EngineStands s u :=
  ⟨k.engine.trans h.engine, fun p => (k.inEngine p).trans (h.inEngine p), fun p hw => h.waits p (k.waits p hw),
    k.busy.trans h.busy⟩

/-- The account stands where the engine does. -/
theorem sound (h : EngineStands s t) (hs : EngineSound s) : EngineSound t := by
  obtain ⟨hq, hin, hbusy, hboth⟩ := hs
  refine ⟨fun hi r => ?_, fun p => ?_, ?_, ?_⟩
  · rw [h.engine] at hi
    cases r with
    | test => exact (congrArg (fun e => e.testWaiting.isSome) h.engine).trans (hq hi .test)
    | path p => exact Bool.eq_false_iff.2 fun hw => Bool.eq_false_iff.1 (hq hi (.path p)) (h.waits p hw)
  · rw [h.inEngine, h.engine, hin]
  · rw [h.busy, h.engine, hbusy]
  · rw [h.engine, hboth]

/-- The engine stands where each path's cell in progress does. -/
theorem of_progress (he : t.engine = s.engine) (hp : ∀ p, (t.path p).progress = (s.path p).progress)
    (hb : t.port.busy = .engine ↔ s.port.busy = .engine) : EngineStands s t :=
  ⟨he, fun p => inEngine_congr (hp p), fun p => by simp only [waits_path_iff, hp p, imp_self], hb⟩

/-- The engine stands where nothing is written that the account is read from. -/
theorem of_kept
    (h : t.engine = s.engine ∧ t.pathA = s.pathA ∧ t.pathB = s.pathB ∧ t.port.busy = s.port.busy) :
    EngineStands s t := by
  obtain ⟨he, ha, hb, hp⟩ := h
  exact of_progress he (fun p => by cases p <;> simp [State.path, ha, hb]) (by rw [hp])

/-- The engine stands where one path is written whose cell is in the engine as before and does not begin to wait. -/
theorem setPath {p : PathId} {x : Path} (hin : x.inEngine = (s.path p).inEngine)
    (hw : ∀ c b, x.progress = some ⟨c, .waiting b⟩ → s.waits (.path p) = true) : EngineStands s (s.setPath p x) := by
  refine ⟨by simp, fun q => ?_, fun q hq => ?_, by simp⟩
  · rw [path_setPath]
    split
    · simp [*]
    · rfl
  · by_cases he : q = p
    · subst he
      obtain ⟨c, b, hg⟩ := (waits_path_iff _ _).1 hq
      exact hw c b (by simpa using hg)
    · rwa [waits_setPath_ne x s (by simpa using he)] at hq

theorem setPath_progress {p : PathId} {x : Path} (h : x.progress = (s.path p).progress) :
    EngineStands s (s.setPath p x) :=
  setPath (inEngine_congr h) fun c b hg => (waits_path_iff p s).2 ⟨c, b, by rw [← h, hg]⟩

/-- Changes made one after the other, at each of which the engine stands. -/
theorem foldl {α : Type} {f : State → α → State} (hf : ∀ u a, EngineStands u (f u a)) :
    ∀ (l : List α) (s : State), EngineStands s (l.foldl f s)
  | [], s => refl s
  | a :: l, s => (hf s a).trans (foldl hf l (f s a))

end EngineStands

end Sys2Proof.Machine
end

