-- ==== Sys2Proof/Proofs/EngineStandsAtEvents.lean ====
section
/-!
SUPPORT. The engine stands at every event of the blocks beside it: admission, the log, the lock unit, the tables, the
clocks, the record store and the line port.
-/
namespace Sys2Proof.Machine

/-! ### Reports and listed slots (R133, R161) -/

theorem report_stands (f : DetailFlag) (s : State) : EngineStands s (report f s) := .of_kept (by simp)

theorem listSlot_stands (k : Nat) (s : State) : EngineStands s (listSlot k s) := .of_kept (by simp)

/-! ### Admission (R7 to R11, R88) -/

theorem judgeOnce_stands (p : PathId) (s : State) : EngineStands s (judgeOnce p s).state := by
  cases hs : (s.path p).selected with
  | none =>
    rw [judgeOnce_unselected hs]
    exact .refl s
  | some i =>
    by_cases ha : s.asksLog i
    · rw [judgeOnce_asks hs ha]
      exact EngineStands.trans (.of_kept (by simp)) (.setPath_progress rfl)
    · rw [judgeOnce_quiet hs ha .none]
      exact .setPath_progress rfl

theorem judge_stands (p : PathId) (s : State) : EngineStands s (judge p s) := by
  unfold judge
  dsimp only
  have hself := judgeOnce_stands p s
  split
  · exact hself
  · split
    · exact hself.trans (judgeOnce_stands _ _)
    · exact hself

theorem judgeBoth_stands (s : State) : EngineStands s (judgeBoth s) := by
  unfold judgeBoth
  split
  · exact EngineStands.trans (t := { s with choice := s.choice + 1 }) (.of_kept (by simp))
      ((judge_stands _ _).trans (judge_stands _ _))
  · exact (judge_stands _ _).trans (judge_stands _ _)

theorem judgeReached_stands (a b : Bool) (s : State) : EngineStands s (judgeReached a b s) := by
  cases a <;> cases b
  · exact .refl s
  · exact judge_stands _ _
  · exact judge_stands _ _
  · exact judgeBoth_stands s

theorem handTitle_stands (title : Word) (s : State) : EngineStands s (handTitle title s) := judgeReached_stands _ _ _

theorem handPreviewEnd_stands (title : Word) (s : State) : EngineStands s (handPreviewEnd title s) :=
  judgeReached_stands _ _ _

theorem judgeNoPreviewIfShown_stands (title : Word) (p : PathId) (s : State) :
    EngineStands s (judgeNoPreviewIfShown title p s) := by
  obtain ⟨⟨shown, answer, admitted, he⟩, -⟩ := judgeNoPreviewIfShown_cases title p s
  rw [he]
  exact .setPath_progress rfl

theorem handEndedTitle_stands (title : Word) (s : State) : EngineStands s (handEndedTitle title s) :=
  (judgeNoPreviewIfShown_stands _ _ _).trans (judgeNoPreviewIfShown_stands _ _ _)

/-! ### The set port's waiting commands (R95, R135, R157) -/

theorem finishWaiting_busy (w : Waiting) (s : State) : (finishWaiting w s).port.busy = .clear := by
  cases w <;> rfl

/-- A release of a command that waits for a slot leaves the engine's BUSY alone (R157). -/
theorem finishWaiting_stands {w c : Waiting} {s : State} (h : s.port.busy = .store c) :
    EngineStands s (finishWaiting w s) :=
  .of_progress (by simp) (fun p => by cases p <;> simp [State.path]) (by simp [finishWaiting_busy, h])

/-- A command is accepted to wait for a slot where BUSY does not stand for the engine (R135). -/
theorem acceptStore_stands (w : Waiting) (code : Byte) (data : List Byte) {s : State} (h : s.port.busy ≠ .engine) :
    EngineStands s (acceptStore w code data s) :=
  .of_progress (by simp) (fun p => by cases p <;> simp [State.path]) (by simp [acceptStore, placeReply, setBusy, h])

theorem placeReply_stands (code : Byte) (r : ResultCode) (data : List Byte) (s : State) :
    EngineStands s (placeReply code r data s) :=
  .of_kept ⟨by simp, by simp, by simp, rfl⟩

/-! ### The log (R84, R89 to R92, R97 to R101) -/

theorem removeRecord_stands (r : Record) (s : State) : EngineStands s (removeRecord r s) := by
  have hlisted : EngineStands s (listSlot r.slot { s with log := s.log.filter (fun x => x.seq != r.seq) }) :=
    .of_kept (by simp)
  unfold removeRecord
  dsimp only
  split
  · split
    · exact hlisted.trans (finishWaiting_stands ‹_›)
    · exact hlisted
  all_goals exact hlisted

theorem settleRecord_stands (r : Record) (s : State) : EngineStands s (settleRecord r s) := by
  have hlisted : EngineStands s (listSlot r.slot (replaceRecord r s)) := .of_kept (by simp)
  unfold settleRecord
  dsimp only
  split
  · exact hlisted.trans (removeRecord_stands _ _)
  · exact hlisted

theorem changeRecord_stands (r : Record) (s : State) : EngineStands s (changeRecord r s) :=
  (settleRecord_stands _ _).trans (handTitle_stands _ _)

theorem leavePreview_stands (r : Record) (s : State) : EngineStands s (leavePreview r s) :=
  (settleRecord_stands _ _).trans (handPreviewEnd_stands _ _)

theorem endAuto_stands (r : Record) (s : State) : EngineStands s (endAuto r s) := by
  unfold endAuto
  split
  · exact leavePreview_stands _ _
  · split
    · exact leavePreview_stands _ _
    · split
      · exact leavePreview_stands _ _
      · exact EngineStands.trans (.of_kept (by simp)) (leavePreview_stands _ _)

theorem countPreview_stands (r : Record) (s : State) : EngineStands s (countPreview r s) := by
  have hlisted : ∀ x, EngineStands s (listSlot r.slot (replaceRecord x s)) := fun x => .of_kept (by simp)
  unfold countPreview
  dsimp only
  split
  · exact hlisted _
  · split
    · exact (hlisted _).trans (leavePreview_stands _ _)
    · exact (hlisted _).trans (endAuto_stands _ _)

theorem previewMinute_stands (seq : Half) (s : State) : EngineStands s (previewMinute seq s) := by
  unfold previewMinute
  split
  · split
    · exact countPreview_stands _ _
    · exact .refl s
  · exact .refl s

theorem lastPreviewMinute_stands (policy : Policy) (seq : Half) (s : State) :
    EngineStands s (lastPreviewMinute policy seq s) := by
  unfold lastPreviewMinute
  split
  · split
    · exact countPreview_stands _ _
    · exact .refl s
  · exact .refl s

theorem endWindow_stands (r : Record) (s : State) : EngineStands s (endWindow r s) :=
  (report_stands .windowEnded s).trans
    ((settleRecord_stands _ _).trans (handEndedTitle_stands _ _))

theorem windowMinute_stands (seq : Half) (s : State) : EngineStands s (windowMinute seq s) := by
  unfold windowMinute
  split
  · exact .refl s
  · split
    · dsimp only
      split
      · exact endWindow_stands _ _
      · split <;> exact .of_kept (by simp)
    · exact .refl s

theorem lastWindowMinute_stands (seq : Half) (s : State) : EngineStands s (lastWindowMinute seq s) := by
  unfold lastWindowMinute
  split
  · split
    · exact endWindow_stands _ _
    · exact .refl s
  · exact .refl s

theorem closeLog_stands (s : State) : EngineStands s (closeLog s) := by
  refine EngineStands.foldl (fun u r => ?_) s.log s
  split
  · exact .refl u
  · exact settleRecord_stands _ _

theorem releaseRecord_stands (r : Record) (s : State) : EngineStands s (releaseRecord r s) := by
  unfold releaseRecord
  split
  · dsimp only
    split
    · exact .refl s
    · exact settleRecord_stands _ _
  · exact .refl s

theorem releaseThrough_stands (seq : Half) (s : State) : EngineStands s (releaseThrough seq s).1 := by
  unfold releaseThrough
  split
  · exact .refl s
  · exact EngineStands.foldl (fun u r => releaseRecord_stands r u) _ s

theorem voidRecord_stands (r : Record) (s : State) : EngineStands s (voidRecord r s) := by
  have hlisted : ∀ f, EngineStands s (listSlot folioSlot { s with folio := f }) := fun f => .of_kept (by simp)
  unfold voidRecord
  dsimp only
  split
  · exact (hlisted _).trans (changeRecord_stands _ _)
  · exact (hlisted _).trans ((settleRecord_stands _ _).trans (handEndedTitle_stands _ _))

theorem voidSeq_stands (seq : Half) (s : State) : EngineStands s (voidSeq seq s).1 := by
  unfold voidSeq
  split
  · exact .refl s
  · split
    · exact .refl s
    · split
      · exact .refl s
      · split
        case h_5 | h_6 => exact voidRecord_stands _ _
        all_goals exact .refl s

/-! ### The lock unit (R107 to R119) -/

theorem applyLock_stands (l : Lock) (s : State) : EngineStands s (applyLock l s) := by
  have hlisted : EngineStands s (if l.stored = s.lock.stored then { s with lock := l }
      else listSlot lockSlot { s with lock := l }) := by
    split <;> exact .of_kept (by simp)
  unfold applyLock
  dsimp only
  split
  · exact hlisted
  · exact hlisted.trans (judgeBoth_stands _)

theorem countWrong_stands (s : State) : EngineStands s (countWrong s) := by
  unfold countWrong
  dsimp only
  split
  · exact applyLock_stands _ _
  · exact (applyLock_stands _ _).trans (report_stands _ _)

theorem expireUnlock_stands (s : State) : EngineStands s (expireUnlock s) :=
  (report_stands .unlockExpired s).trans (applyLock_stands _ _)

theorem endLockout_stands (s : State) : EngineStands s (endLockout s) := applyLock_stands _ _

theorem lockMinute_stands (s : State) : EngineStands s (lockMinute s) := by
  unfold lockMinute
  split
  · exact .refl s
  · split
    · exact expireUnlock_stands s
    · exact .of_kept (by simp)
  · split
    · exact endLockout_stands s
    · exact .of_kept (by simp)

theorem lockMessage_stands (args : List Byte) (s : State) : EngineStands s (lockMessage args s).1 := by
  unfold lockMessage
  dsimp only
  split
  · exact .refl s
  · split <;> exact applyLock_stands _ _

/-! ### Tables (R48 to R56) and minutes (R123) -/

theorem tableCommitMessage_stands (args : List Byte) (s : State) : EngineStands s (tableCommitMessage args s) := by
  unfold tableCommitMessage
  dsimp only
  split
  · exact .refl s
  · split
    · exact .of_kept (by simp)
    · split
      · exact .of_kept (by simp)
      · exact EngineStands.trans (.of_kept (by simp)) (judgeBoth_stands _)

theorem endPass_stands (t : TableId) (crc : Half) (diagnostic : Bool) (s : State) :
    EngineStands s (endPass t crc diagnostic s) := by
  have hreported : ∀ (x : Table) (b : Bool) (f : DetailFlag),
      EngineStands s (if b then report f (s.setTable t x) else s.setTable t x) := fun x b f => by
    split <;> exact .of_kept (by simp)
  unfold endPass
  dsimp only
  split
  · exact hreported _ _ _
  · split
    · exact hreported _ _ _
    · exact (hreported _ _ _).trans (judgeBoth_stands _)

theorem takeMinute_stands (bought : List Half) (s : State) (taker : MinuteTaker) :
    EngineStands s (takeMinute bought s taker) := by
  cases taker with
  | clock => exact .of_kept (t := clockMinute s) (by simp)
  | keys => exact .of_kept (t := keysMinute s) (by simp)
  | watchdog => exact .of_kept (t := watchdogMinute s) (by simp)
  | lock => exact lockMinute_stands s
  | windows => exact EngineStands.foldl (fun u seq => windowMinute_stands seq u) bought s
  | preview seq => exact previewMinute_stands seq s

theorem minute_stands (order : List MinuteTaker) (s : State) : EngineStands s (minute order s) :=
  EngineStands.trans (t := { s with seconds := 0 }) (.of_kept (by simp)) (EngineStands.foldl (takeMinute_stands _) _ _)

theorem second_stands (order : List MinuteTaker) (s : State) : EngineStands s (second order s) := by
  unfold second
  split
  · exact minute_stands order s
  · exact .of_kept (by simp)

theorem expireHalf_stands (context : Nat) (parity : Parity) (s : State) :
    EngineStands s (expireHalf context parity s) := by
  unfold expireHalf
  split
  · split
    · exact .of_kept (by simp)
    · exact .refl s
  · exact .refl s

/-! ### The end of an event, and the RESET command's effect (R21, R134, R159) -/

/-- The RESET command discards a waiting cell and leaves a granted one in the engine (R21). -/
theorem resetCommand_progress (x : Path) :
    x.resetCommand.inEngine = x.inEngine ∧ ∀ c b, x.resetCommand.progress ≠ some ⟨c, .waiting b⟩ := by
  rcases hg : x.progress with _ | ⟨c, _ | _ | _⟩ <;> simp [Path.resetCommand, Path.inEngine, hg]

theorem resetEffect_writes (s : State) :
    (∀ p, (resetEffect s).path p = (s.path p).resetCommand) ∧ (resetEffect s).port.busy = .clear := by
  unfold resetEffect
  dsimp only
  split
  · exact ⟨fun p => by cases p <;> simp [State.path], by simp⟩
  · exact ⟨fun p => by cases p <;> rfl, rfl⟩

theorem resetEffect_stands {s : State} (h : s.port.busy ≠ .engine) : EngineStands s (resetEffect s) := by
  obtain ⟨hpath, hbusy⟩ := resetEffect_writes s
  refine ⟨by simp, fun p => ?_, fun p hw => ?_, by simp [hbusy, h]⟩
  · rw [hpath, (resetCommand_progress _).1]
  · obtain ⟨c, b, hg⟩ := (waits_path_iff _ _).1 hw
    rw [hpath] at hg
    exact absurd hg ((resetCommand_progress _).2 c b)

theorem endEvent_stands (s : State) : EngineStands s (endEvent s) := by
  have hwrite : ∀ u, EngineStands u (startWrite u) := fun u => .of_kept (by simp)
  unfold endEvent
  dsimp only
  split
  · rename_i hdue
    have hreset : (startWrite s).port.busy = .reset := by
      simp only [State.resetDue, Bool.and_eq_true, beq_iff_eq] at hdue
      obtain ⟨⟨hbusy, -⟩, -⟩ := hdue
      exact hbusy
    exact (hwrite s).trans ((resetEffect_stands (by rw [hreset]; decide)).trans (hwrite _))
  · exact hwrite s

theorem whenRunning_stands {f : State → State} (hf : ∀ u, EngineStands u (f u)) (s : State) :
    EngineStands s (whenRunning f s) := by
  unfold whenRunning
  split
  · exact (hf s).trans (endEvent_stands _)
  · exact .refl s

theorem scanStep_stands (t : TableId) (s : State) : EngineStands s (scanStep t s) := by
  unfold scanStep
  dsimp only
  split
  · exact .refl s
  · split
    · exact (endPass_stands _ _ _ _).trans (endEvent_stands _)
    · exact .of_kept (by simp)

theorem upset_stands (t : TableId) (index : Nat) (entry : List Byte) (s : State) :
    EngineStands s (upset t index entry s) := by
  unfold upset
  split
  · exact .of_kept (by simp)
  · exact .refl s

/-! ### The record store's events (R134, R138, R159) -/

theorem releaseWaiting_stands (w : SlotWrite) (s : State) : EngineStands s (releaseWaiting w s) := by
  unfold releaseWaiting
  split
  · split
    · exact finishWaiting_stands ‹_›
    · exact .refl s
  all_goals exact .refl s

theorem beginCheck_stands (s : State) : EngineStands s (beginCheck s) := by
  unfold beginCheck
  split
  · exact .of_kept (by simp)
  all_goals exact .refl s

theorem completeWrite_stands (s : State) : EngineStands s (completeWrite s) := by
  unfold completeWrite
  split
  · exact .refl s
  · rename_i w _
    exact EngineStands.trans (t := storeImage w s) (.of_kept ⟨rfl, rfl, rfl, rfl⟩)
      ((releaseWaiting_stands _ _).trans ((beginCheck_stands _).trans (endEvent_stands _)))

theorem resetEvent_stands (s : State) : EngineStands s (resetEvent s) := by
  unfold resetEvent
  split
  · split
    · exact completeWrite_stands s
    · exact endEvent_stands s
  · exact .refl s

theorem reportIf_stands (b : Bool) (f : DetailFlag) (s : State) : EngineStands s (reportIf b f s) := by
  unfold reportIf
  split
  · exact .of_kept (by simp)
  · exact .refl s

theorem listSlots_stands (ks : List Nat) (s : State) : EngineStands s (listSlots ks s) :=
  EngineStands.foldl (fun u k => listSlot_stands k u) ks s

theorem completeCheck_stands (s : State) : EngineStands s (completeCheck s) := by
  have hcopies : EngineStands s (rebuildCopies s) := .of_kept ⟨rfl, rfl, rfl, rfl⟩
  unfold completeCheck
  dsimp only
  refine EngineStands.trans ?_ (endEvent_stands _)
  split
  · exact hcopies.trans ((reportIf_stands _ _ _).trans ((reportIf_stands _ _ _).trans ((reportIf_stands _ _ _).trans
      ((listSlots_stands _ _).trans (listSlot_stands _ _)))))
  · exact hcopies.trans ((reportIf_stands _ _ _).trans ((reportIf_stands _ _ _).trans ((reportIf_stands _ _ _).trans
      (listSlots_stands _ _))))

/-! ### The folio's messages (R62 to R66) -/

theorem checkInMessage_stands (args : List Byte) (s : State) : EngineStands s (checkInMessage args s).1 := by
  unfold checkInMessage
  split
  · exact .refl s
  · split
    · exact .refl s
    · split
      · exact .refl s
      · exact EngineStands.trans (.of_kept (by simp)) (judgeBoth_stands _)

theorem checkOutMessage_stands (args : List Byte) (s : State) : EngineStands s (checkOutMessage args s).1 := by
  have hlock : ∀ u, EngineStands u (lockCheckOut u) := fun u => by
    unfold lockCheckOut
    dsimp only
    split <;> exact .of_kept (by simp)
  unfold checkOutMessage
  split
  · have hfolio : ∀ f, EngineStands s (listSlot folioSlot { s with folio := f }) := fun f =>
      .of_kept (by simp)
    exact (hfolio _).trans ((closeLog_stands _).trans ((hlock _).trans ((report_stands _ _).trans
      (judgeBoth_stands _))))
  · exact .refl s

theorem folioEvent_stands (f : Folio) (s : State) : EngineStands s (folioEvent f s) := by
  unfold folioEvent
  split
  · exact .refl s
  · exact EngineStands.trans (.of_kept (by simp)) (judgeBoth_stands _)

theorem holdMessage_stands (args : List Byte) (s : State) : EngineStands s (holdMessage args s).1 := by
  unfold holdMessage
  dsimp only
  split
  · exact .refl s
  · split
    · exact .refl s
    · exact folioEvent_stands _ _

theorem packagesMessage_stands (args : List Byte) (s : State) : EngineStands s (packagesMessage args s).1 := by
  unfold packagesMessage
  split
  · exact .refl s
  · exact folioEvent_stands _ _

/-! ### The line port (R143 to R149) -/

/-- One row of a table of codes: the row's value, or a later row's. -/
theorem row_or_later {α : Type} {c : Prop} [Decidable c] {a m : α} {later : Option α}
    (h : (if c then some a else later) = some m) : a = m ∨ later = some m := by
  split at h
  · exact .inl (Option.some.inj h)
  · exact .inr h

/-- The engine stands at whatever an owner of a message does (R146). -/
theorem messageKind_stands {kind : Byte} {m : MessageKind} (h : messageKind kind = some m) (payload : List Byte)
    (s : State) : EngineStands s (m.act payload s).1 := by
  unfold messageKind at h
  obtain rfl | h := row_or_later h
  · exact .refl s
  obtain rfl | h := row_or_later h
  · exact .of_kept (t := timeMessage payload s) (by simp)
  obtain rfl | h := row_or_later h
  · exact .of_kept (t := keyMessage payload s) (by simp)
  obtain rfl | h := row_or_later h
  · exact .of_kept (t := keyClearMessage payload s) (by simp)
  obtain rfl | h := row_or_later h
  · exact .of_kept (t := tableEntryMessage payload s) (by simp)
  obtain rfl | h := row_or_later h
  · exact tableCommitMessage_stands payload s
  obtain rfl | h := row_or_later h
  · exact checkInMessage_stands payload s
  obtain rfl | h := row_or_later h
  · exact checkOutMessage_stands payload s
  obtain rfl | h := row_or_later h
  · exact holdMessage_stands payload s
  obtain rfl | h := row_or_later h
  · exact packagesMessage_stands payload s
  obtain rfl | h := row_or_later h
  · exact .of_kept (t := (collectRecords _ s).1) (by simp)
  obtain rfl | h := row_or_later h
  · exact releaseThrough_stands _ s
  obtain rfl | h := row_or_later h
  · exact voidSeq_stands _ s
  obtain rfl | h := row_or_later h
  · exact lockMessage_stands payload s
  cases h

theorem bringOnline_stands (setting : Nat) (s : State) : EngineStands s (bringOnline setting s) := by
  unfold bringOnline
  dsimp only
  split <;> exact .of_kept (by simp)

theorem addressedFrame_stands (address : Half) (kind : Byte) (payload : List Byte) (s : State) :
    EngineStands s (addressedFrame address kind payload s) := by
  have hact : ∀ u, EngineStands u (addressedAct kind payload u).1 := fun u => by
    unfold addressedAct
    split
    · exact .refl u
    · split
      · exact .refl u
      · exact messageKind_stands ‹_› _ _
  have hreply : ∀ (u : State) (reply : LineReply),
      EngineStands u { u with line := { u.line with receiver := .deaf, transmit := .waiting reply } } :=
    fun u reply => .of_kept (by simp)
  exact (bringOnline_stands _ s).trans ((hact _).trans ((hreply _ _).trans (endEvent_stands _)))

theorem broadcastFrame_stands (kind : Byte) (payload : List Byte) (s : State) :
    EngineStands s (broadcastFrame kind payload s) := by
  unfold broadcastFrame
  split
  · exact .refl s
  · split
    · exact (messageKind_stands ‹_› _ _).trans (endEvent_stands _)
    · exact .refl s

theorem soundFrame_stands (address : Half) (kind : Byte) (payload : List Byte) (s : State) :
    EngineStands s (soundFrame address kind payload s) := by
  unfold soundFrame
  split
  · exact .refl s
  · split
    · exact broadcastFrame_stands _ _ _
    · split
      · exact addressedFrame_stands _ _ _ _
      · exact .refl s

theorem setReceiver_stands (r : Receiver) (s : State) : EngineStands s (setReceiver r s) :=
  .of_kept ⟨rfl, rfl, rfl, rfl⟩

theorem frameArrives_stands (bytes : List Byte) (tooLong framingError : Bool) (s : State) :
    EngineStands s (frameArrives bytes tooLong framingError s) := by
  refine (setReceiver_stands .idle s).trans ?_
  unfold frameArrives
  dsimp only
  split
  · split
    · exact .of_kept ⟨rfl, rfl, rfl, rfl⟩
    · exact .refl _
  · exact soundFrame_stands _ _ _ _

theorem wholeFrame_stands (bytes : List Byte) (tooLong framingError : Bool) (s : State) :
    EngineStands s (wholeFrame bytes tooLong framingError s) := by
  unfold wholeFrame
  split
  · exact setReceiver_stands _ _
  · exact frameArrives_stands _ _ _ _
  · split
    · exact frameArrives_stands _ _ _ _
    · exact .refl s
  · exact .refl s

theorem lineIdle_stands (s : State) : EngineStands s (lineIdle s) := by
  unfold lineIdle
  split
  · exact setReceiver_stands _ _
  · exact .refl s
  · exact frameArrives_stands _ _ _ _
  · exact .refl s

theorem characterArrives_stands (b : Byte) (stopLow : Bool) (s : State) :
    EngineStands s (characterArrives b stopLow s) := by
  unfold characterArrives
  split
  · exact .refl s
  · exact setReceiver_stands _ _
  · exact setReceiver_stands _ _
  · exact .refl s

theorem startReply_stands (s : State) : EngineStands s (startReply s) := by
  unfold startReply
  split <;> exact .of_kept (by simp)

theorem endReply_stands (s : State) : EngineStands s (endReply s) := by
  unfold endReply
  split <;> exact .of_kept (by simp)

theorem whenLineRuns_stands {f : State → State} (hf : ∀ u, EngineStands u (f u)) (s : State) :
    EngineStands s (whenLineRuns f s) := by
  unfold whenLineRuns
  split
  · exact hf s
  · exact .refl s

end Sys2Proof.Machine
end

