-- ==== Sys2Proof/Proofs/EngineInvariant.lean ====
section
/-!
PROOFS. Every step keeps the engine's account (R22 to R24, R157): the set port's commands, the paths' events, the
completion and the resets, and the dispatch over all rows.
-/
namespace Sys2Proof.Machine

/-! ### Commands of the set port beside ENGINE_TEST -/

theorem clearFlagsCommand_stands (args : List Byte) (s : State) : EngineStands s (clearFlagsCommand args s) := by
  have hstatus : ∀ st, EngineStands s { s with status := st } := fun st => .of_kept (by simp)
  have hfolio : ∀ (f : Folio) (u : State), EngineStands u (setFolio f u) := fun f u => .of_kept (by simp)
  unfold clearFlagsCommand
  dsimp only
  refine EngineStands.trans ?_ ((endEvent_stands _).trans (placeReply_stands _ _ _ _))
  split
  · exact (hstatus _).trans (hfolio _ _)
  · exact hstatus _

theorem setMasksCommand_stands (args : List Byte) (s : State) : EngineStands s (setMasksCommand args s) := by
  have hstatus : ∀ st, EngineStands s { s with status := st } := fun st => .of_kept (by simp)
  exact (hstatus _).trans (placeReply_stands _ _ _ _)

/-- An accepted SELECT leaves a cell in the engine, or waiting for it, where it was (R6, R14). -/
theorem afterSelect_stands (selected : Option Nat) (p : PathId) (s : State) :
    EngineStands s (s.setPath p ((s.path p).select selected)) := by
  rcases hg : (s.path p).progress with _ | ⟨c, b | b | how⟩
  case some.waiting =>
    refine .setPath ?_ (fun _ _ _ => waits_of_waiting hg)
    simp [Path.select, Path.inEngine, Progress.afterSelect, hg]
  all_goals
    refine .setPath_progress ?_
    simp [Path.select, Progress.afterSelect, hg]

theorem selectCommand_stands (args : List Byte) (s : State) : EngineStands s (selectCommand args s) := by
  unfold selectCommand
  dsimp only
  split
  · exact placeReply_stands _ _ _ s
  · split
    · exact (afterSelect_stands _ _ s).trans (placeReply_stands _ _ _ _)
    · split
      · exact placeReply_stands _ _ _ s
      · exact (afterSelect_stands _ _ s).trans ((judge_stands _ _).trans
          ((endEvent_stands _).trans (placeReply_stands _ _ _ _)))

theorem readPathCommand_stands (args : List Byte) (s : State) : EngineStands s (readPathCommand args s) := by
  unfold readPathCommand
  split <;> exact placeReply_stands _ _ _ s

theorem readChannelCommand_stands (args : List Byte) (s : State) : EngineStands s (readChannelCommand args s) := by
  unfold readChannelCommand
  dsimp only
  split <;> exact placeReply_stands _ _ _ s

theorem readOfferCommand_stands (args : List Byte) (s : State) : EngineStands s (readOfferCommand args s) := by
  unfold readOfferCommand
  dsimp only
  split <;> exact placeReply_stands _ _ _ s

theorem tableTestCommand_stands (args : List Byte) (s : State) : EngineStands s (tableTestCommand args s) := by
  have htable : ∀ t x, EngineStands s (s.setTable t x) := fun t x => .of_kept (by simp)
  unfold tableTestCommand
  split
  · exact placeReply_stands _ _ _ s
  · exact (htable _ _).trans (placeReply_stands _ _ _ _)

theorem readRecordCommand_stands (args : List Byte) (s : State) : EngineStands s (readRecordCommand args s) := by
  unfold readRecordCommand
  dsimp only
  split
  · exact placeReply_stands _ _ _ s
  · split <;> exact placeReply_stands _ _ _ s

theorem enterPinCommand_stands (args : List Byte) (s : State) : EngineStands s (enterPinCommand args s) := by
  unfold enterPinCommand
  dsimp only
  split
  · exact placeReply_stands _ _ _ s
  · split
    · exact placeReply_stands _ _ _ s
    · split
      · exact (applyLock_stands _ s).trans ((endEvent_stands _).trans (placeReply_stands _ _ _ _))
      · exact (countWrong_stands s).trans ((endEvent_stands _).trans (placeReply_stands _ _ _ _))

theorem relockCommand_stands (args : List Byte) (s : State) : EngineStands s (relockCommand args s) := by
  unfold relockCommand
  split
  · exact placeReply_stands _ _ _ s
  · exact (applyLock_stands _ s).trans ((endEvent_stands _).trans (placeReply_stands _ _ _ _))

/-! ### Commands that leave BUSY set, taken where BUSY does not stand for the engine (R135, R155, R158) -/

section
variable {s : State} (h : s.port.busy ≠ .engine)
include h

/-- A command that waits for a slot is accepted after other changes, and its event ends (R135). -/
theorem acceptStore_stands_after {t : State} (w : Waiting) (code : Byte) (data : List Byte)
    (ht : EngineStands s t) : EngineStands s (acceptStore w code data t) :=
  ht.trans (acceptStore_stands w code data (mt ht.busy.1 h))

theorem acceptLock_stands (w : Waiting) (code : Byte) (l : Lock) : EngineStands s (acceptLock w code l s) :=
  (acceptStore_stands_after h _ _ _ ((applyLock_stands l s).trans (listSlot_stands _ _))).trans (endEvent_stands _)

theorem setPinCommand_stands (args : List Byte) : EngineStands s (setPinCommand args s) := by
  unfold setPinCommand
  dsimp only
  split
  · exact placeReply_stands _ _ _ s
  · split
    · exact acceptLock_stands h _ _ _
    · split
      · exact acceptLock_stands h _ _ _
      · exact (countWrong_stands s).trans ((endEvent_stands _).trans (placeReply_stands _ _ _ _))

theorem setCeilingCommand_stands (args : List Byte) : EngineStands s (setCeilingCommand args s) := by
  unfold setCeilingCommand
  dsimp only
  split
  · exact placeReply_stands _ _ _ s
  · split
    · exact acceptLock_stands h _ _ _
    · split
      · exact acceptLock_stands h _ _ _
      · exact (countWrong_stands s).trans ((endEvent_stands _).trans (placeReply_stands _ _ _ _))

theorem setRoomCommand_stands (args : List Byte) : EngineStands s (setRoomCommand args s) := by
  unfold setRoomCommand
  dsimp only
  split
  · exact placeReply_stands _ _ _ s
  · split
    · exact placeReply_stands _ _ _ s
    · exact (acceptStore_stands_after h _ _ _ (.of_kept (by simp))).trans (endEvent_stands _)

theorem acceptOrder_stands (o : OfferEntry) (f : Folio) (c : Charge) : EngineStands s (acceptOrder o f c s) := by
  have hcharge : EngineStands s (grantCharge f c s) := .of_kept (by simp)
  have hcreate : ∀ title origin rating limit state charge (u : State),
      EngineStands u (createRecord title origin rating limit state charge u) := fun _ _ _ _ _ _ _ =>
    .of_kept (by simp)
  unfold acceptOrder
  dsimp only
  split
  · exact (acceptStore_stands_after h _ _ _ (hcharge.trans (settleRecord_stands _ _))).trans
      ((handPreviewEnd_stands _ _).trans (endEvent_stands _))
  · exact (acceptStore_stands_after h _ _ _ (hcharge.trans (hcreate _ _ _ _ _ _ _))).trans
      ((handTitle_stands _ _).trans (endEvent_stands _))

theorem orderCommand_stands (args : List Byte) : EngineStands s (orderCommand args s) := by
  have hrefuse : ∀ code, EngineStands s (refuseOrder code s) := fun code => placeReply_stands _ _ _ s
  unfold orderCommand
  dsimp only
  repeat' split
  case h_2 => exact acceptOrder_stands h _ _ _
  all_goals exact hrefuse _

theorem resetCommand_stands (args : List Byte) : EngineStands s (resetCommand args s) := by
  have hbusy : ∀ (u : State), u.port.busy ≠ .engine → EngineStands u (setBusy .reset u) := fun u hu =>
    .of_progress (by simp) (fun p => by cases p <;> rfl) (by simp [setBusy, hu])
  have hreply := placeReply_stands 0x7F .pending [] s
  exact hreply.trans ((hbusy _ (mt hreply.busy.1 h)).trans (endEvent_stands _))

/-! ### ENGINE_TEST (R32) -/

/-- Where BUSY does not stand for the engine no test waits or is served, so a test can be posted (R23, R157). -/
theorem account_posted {t : State} {request : TestRequest} (hs : EngineAccount s)
    (he : t.engine = { s.engine with testWaiting := some request }) (hp : ∀ p, t.path p = s.path p)
    (hb : t.port.busy = .engine) : EngineAccount t := by
  obtain ⟨hin, hbusy, -⟩ := hs
  have hserves : ∀ r, t.engine.serves r = s.engine.serves r := fun r => by rw [he]; rfl
  have htest : s.engine.serves .test = false := by
    have := mt hbusy.2 h
    simp only [Bool.or_eq_true, not_or, Bool.not_eq_true] at this
    obtain ⟨-, hnot⟩ := this
    exact hnot
  refine ⟨fun p => by rw [hp, hserves, hin], ?_, ?_⟩
  · simp [hb, he]
  · rw [hserves, htest, Bool.and_false]

theorem engineTestCommand_sound (args : List Byte) (hs : EngineSound s) : EngineSound (engineTestCommand args s) := by
  unfold engineTestCommand
  dsimp only
  split
  · exact (placeReply_stands _ _ _ s).sound hs
  · obtain ⟨-, haccount⟩ := (engineSound_iff s).1 hs
    exact arbitrate_sound (account_posted h haccount rfl (fun p => by cases p <;> rfl) rfl)

/-! ### The end of a set port frame (R155) -/

/-- Every command of the table keeps the account where BUSY does not stand for the engine. -/
theorem setCommand_sound {code : Byte} {c : SetCommand} (hc : setCommand code = some c) (args : List Byte)
    (hs : EngineSound s) : EngineSound (c.run args s) := by
  have hreply : ∀ code r data, EngineSound (placeReply code r data s) := fun _ _ _ =>
    (placeReply_stands _ _ _ s).sound hs
  unfold setCommand at hc
  obtain rfl | hc := row_or_later hc
  · exact hs
  obtain rfl | hc := row_or_later hc
  · exact hreply _ _ _
  obtain rfl | hc := row_or_later hc
  · exact (clearFlagsCommand_stands args s).sound hs
  obtain rfl | hc := row_or_later hc
  · exact (setMasksCommand_stands args s).sound hs
  obtain rfl | hc := row_or_later hc
  · exact (selectCommand_stands args s).sound hs
  obtain rfl | hc := row_or_later hc
  · exact (readPathCommand_stands args s).sound hs
  obtain rfl | hc := row_or_later hc
  · exact engineTestCommand_sound h args hs
  obtain rfl | hc := row_or_later hc
  · exact (readChannelCommand_stands args s).sound hs
  obtain rfl | hc := row_or_later hc
  · exact (readOfferCommand_stands args s).sound hs
  obtain rfl | hc := row_or_later hc
  · exact (tableTestCommand_stands args s).sound hs
  obtain rfl | hc := row_or_later hc
  · exact (orderCommand_stands h args).sound hs
  obtain rfl | hc := row_or_later hc
  · exact hreply _ _ _
  obtain rfl | hc := row_or_later hc
  · exact (readRecordCommand_stands args s).sound hs
  obtain rfl | hc := row_or_later hc
  · exact (enterPinCommand_stands args s).sound hs
  obtain rfl | hc := row_or_later hc
  · exact (setPinCommand_stands h args).sound hs
  obtain rfl | hc := row_or_later hc
  · exact (setCeilingCommand_stands h args).sound hs
  obtain rfl | hc := row_or_later hc
  · exact (relockCommand_stands args s).sound hs
  obtain rfl | hc := row_or_later hc
  · exact (setRoomCommand_stands h args).sound hs
  obtain rfl | hc := row_or_later hc
  · exact hreply _ _ _
  obtain rfl | hc := row_or_later hc
  · exact (resetCommand_stands h args).sound hs
  cases hc

theorem takeCommand_sound (code : Byte) (args : List Byte) (hs : EngineSound s) :
    EngineSound (takeCommand code args s) := by
  unfold takeCommand
  split
  · exact (placeReply_stands _ _ _ s).sound hs
  · unfold SetCommand.take
    split
    · exact (placeReply_stands _ _ _ s).sound hs
    · exact setCommand_sound h ‹_› args hs

end

/-- Where BUSY stands for the engine every frame is discarded (R155, R157). -/
theorem busy_ne_engine_of_taken {b : Busy} {code : Byte} (h : b.discardsFrame code = false) : b ≠ .engine := by
  rintro rfl
  cases h

theorem setFrame_sound (code : Byte) (args : List Byte) {s : State} (hs : EngineSound s) :
    EngineSound (setFrame code args s) := by
  have hport : ∀ port : SetPort, port.busy = s.port.busy → EngineStands s { s with port := port } := fun port hb =>
    .of_kept ⟨rfl, rfl, rfl, hb⟩
  by_cases hrun : s.phase ≠ .running ∨ s.port.frame = .abandoned
  · rw [setFrame_notTaken hrun]
    exact (hport _ rfl).sound hs
  · obtain ⟨hphase, hframe⟩ := not_or.1 hrun
    rw [not_not] at hphase
    cases hd : s.port.busy.discardsFrame code with
    | true =>
      rw [setFrame_discarded hphase hframe hd]
      exact (hport _ rfl).sound hs
    | false =>
      have hover : EngineStands s (s.frameOver (1 + args.length)) := .of_kept (by simp)
      rw [setFrame_taken hphase hframe hd]
      exact takeCommand_sound (by simpa using busy_ne_engine_of_taken hd) _ _ (hover.sound hs)

theorem frameStart_stands (s : State) : EngineStands s (frameStart s) := by
  unfold frameStart
  split <;> exact .of_kept (by simp)

/-! ### The paths' events (R1, R13, R14, R16) -/

theorem cellComplete_stands (p : PathId) (c : Cell) (s : State) : EngineStands s (cellComplete p c s) := by
  unfold cellComplete
  dsimp only
  split
  · exact .setPath_progress rfl
  · split
    · refine EngineStands.trans ?_ (report_stands _ _)
      exact .setPath_progress rfl
    · exact .setPath_progress rfl

theorem inputStrobe_stands (p : PathId) (mark : Bool) (b : Byte) (s : State) :
    EngineStands s (inputStrobe p mark b s) := by
  unfold inputStrobe
  dsimp only
  split
  · split
    · exact .setPath_progress rfl
    · exact .setPath_progress rfl
    · exact .refl s
    · split
      · exact cellComplete_stands _ _ s
      · exact .setPath_progress rfl
  · exact .refl s

theorem cellLeft_stands (p : PathId) (s : State) : EngineStands s (cellLeft p s) := by
  rcases hg : (s.path p).progress with _ | ⟨c, b | b | how⟩
  case some.leaving =>
    cases how <;> simp only [cellLeft, hg] <;> exact .setPath (by simp [Path.inEngine, hg]) (by simp)
  all_goals
    simp only [cellLeft, hg]
    exact .refl s

section
variable {p : PathId} {s : State} (hg : (s.path p).progress = none)
include hg

/-- A path with no cell in progress can let one leave without the engine (R13). -/
theorem leaveCell_stands (c : Cell) (how : Leaving) : EngineStands s (leaveCell p c how s) :=
  .setPath (by simp [Path.inEngine, hg]) (by simp)

theorem missCell_stands (selectTaken : Bool) : EngineStands s (missCell p selectTaken s) := by
  obtain ⟨x, status, he, hx⟩ := missCell_writes p selectTaken s
  have hset : EngineStands s (s.setPath p x) := .setPath (by simp [Path.inEngine, hg, hx]) (by simp [hx])
  have hstatus : EngineStands (s.setPath p x) { s.setPath p x with status := status } :=
    .of_kept (by simp)
  rw [he]
  exact hset.trans hstatus

/-- A path with no cell in progress can post its cell's request without touching the account (R14, R23). -/
theorem account_requested {x : Path} {c : Cell} {b : Bool} (hx : x.progress = some ⟨c, .waiting b⟩)
    (hs : EngineAccount s) : EngineAccount (s.setPath p x) := by
  obtain ⟨hin, hbusy, hboth⟩ := hs
  refine ⟨fun q => ?_, by simpa using hbusy, by simpa using hboth⟩
  have he : (s.setPath p x).engine = s.engine := by simp
  rw [path_setPath, he, ← hin q]
  by_cases hq : q = p
  · subst hq
    simp [Path.inEngine, hx, hg]
  · rw [if_neg hq]

theorem keyCheck_sound (c : Cell) (hs : EngineSound s) : EngineSound (keyCheck p c s) := by
  obtain ⟨-, haccount⟩ := (engineSound_iff s).1 hs
  unfold keyCheck
  split
  · exact (missCell_stands hg false).sound hs
  · exact arbitrate_sound (account_requested hg rfl haccount)

theorem treatCell_sound (c : Cell) (hs : EngineSound s) : EngineSound (treatCell p c s) := by
  have hleave : ∀ c how, EngineSound (leaveCell p c how s) := fun c how => (leaveCell_stands hg c how).sound hs
  have hscrambled : ∀ d how, EngineSound (if cellScrambled c then keyCheck p c s else leaveCell p d how s) :=
    fun d how => by
      split
      · exact keyCheck_sound hg c hs
      · exact hleave d how
  unfold treatCell
  split
  case h_1 => exact hs
  case h_2 | h_8 | h_9 => exact hscrambled _ _
  all_goals exact hleave _ _

end

theorem takeCell_sound (p : PathId) {s : State} (hs : EngineSound s) : EngineSound (takeCell p s) := by
  unfold takeCell
  dsimp only
  split
  · rename_i c rest hg hf
    have htakes : EngineStands s (s.setPath p { s.path p with fifo := rest, taken := (s.path p).taken + 1 }) :=
      .setPath_progress rfl
    have htaken := htakes.sound hs
    split
    · exact treatCell_sound (by simpa using hg) c htaken
    · exact htaken
  · exact hs
  · exact hs

/-! ### The completion and the resets (R20, R27, R40, R137 to R160) -/

theorem engineComplete_sound {s : State} (hs : EngineSound s) :
    ∃ t, exec .engineComplete s = .next t ∧ EngineSound t := by
  cases hv : s.engine.serving with
  | none => exact ⟨s, by simp only [exec, execEngineComplete, completeGrant, hv], hs⟩
  | some sv =>
    have hserving : s.engine.serving.isSome = true := by rw [hv]; rfl
    exact ⟨_, engineComplete_eq hserving, arbitrate_sound (engineDone_account hs hserving)⟩

/-- A part whose volatile state is reset has an IDLE engine that nobody waits for (R20, R40). -/
theorem volatileReset_sound (s : State) : EngineSound (volatileReset s) :=
  ⟨fun _ r => by rcases r with (_ | _) | _ <;> rfl, fun p => by cases p <;> rfl,
    iff_of_false nofun nofun, rfl⟩

/-- Neither the phase nor the store is read in the account. -/
theorem withPhase_stands (phase : Phase) (store : Store) (s : State) :
    EngineStands s { s with phase := phase, store := store } := .of_kept (by simp)

theorem losePower_sound (s : State) : EngineSound (losePower s) :=
  (withPhase_stands .off (volatileReset { s with store := { s.store with slots := tearWrite s.store } }).store _).sound
    (volatileReset_sound _)

theorem applyPower_sound (s : State) : EngineSound (applyPower s) :=
  (withPhase_stands .checking (losePower s).store _).sound (losePower_sound s)

theorem takeReset_sound (s : State) : EngineSound (takeReset s) :=
  (withPhase_stands .inReset (takeReset s).store _).sound (volatileReset_sound s)

theorem releaseReset_stands (s : State) : EngineStands s (releaseReset s) := withPhase_stands _ s.store s

/-! ### Every row, and the step -/

/-- A row whose event the engine stands at keeps the account. -/
theorem next_sound {s t : State} (h : EngineStands s t) (hs : EngineSound s) :
    ∃ u, (Host.Outcome.next t : Host.Outcome State Fault Refusal) = .next u ∧ EngineSound u :=
  ⟨t, rfl, h.sound hs⟩

/-- An event that has an effect under a condition only. -/
theorem ite_sound {c : Prop} [Decidable c] {s t : State} (hs : EngineSound s) (ht : EngineSound t) :
    EngineSound (if c then t else s) := by
  split
  · exact ht
  · exact hs

/-- Every row keeps the account: the ends of set port frames, the message frames, and the rest one by one. -/
theorem exec_sound (c : Instr) {s : State} (hs : EngineSound s) : ∃ t, exec c s = .next t ∧ EngineSound t := by
  cases hset : setPortFrame c with
  | some frame => exact ⟨_, exec_setFrame hset, setFrame_sound _ _ hs⟩
  | none =>
  cases hline : linePortFrame c with
  | some frame =>
    exact ⟨_, exec_messageFrame hline, (whenLineRuns_stands (fun u => wholeFrame_stands _ _ _ u) s).sound hs⟩
  | none =>
  cases c with
  | cellArrives p b => exact next_sound (inputStrobe_stands p false b s) hs
  | cellInputStrobe p mark b => exact next_sound (inputStrobe_stands p mark b s) hs
  | cellTake p => exact ⟨_, rfl, ite_sound hs (takeCell_sound p hs)⟩
  | cellLeaves p => exact next_sound (cellLeft_stands p s) hs
  | engineComplete => exact engineComplete_sound hs
  | slotWriteComplete => exact next_sound (completeWrite_stands s) hs
  | resetTakesEffect => exact next_sound (resetEvent_stands s) hs
  | setFrameStart => exact next_sound (frameStart_stands s) hs
  | setFrameDiscarded frame =>
    cases frame with
    | nil => exact next_sound (t := closeFrame s) (.of_kept ⟨rfl, rfl, rfl, rfl⟩) hs
    | cons code args => cases hset
  | lineIdleDetected => exact next_sound (whenLineRuns_stands lineIdle_stands s) hs
  | lineFrameIgnored bytes framingError tooLong =>
    exact next_sound (whenLineRuns_stands (fun u => wholeFrame_stands _ _ _ u) s) hs
  | lineCharacterArrives b stopLow =>
    exact next_sound (whenLineRuns_stands (fun u => characterArrives_stands b stopLow u) s) hs
  | replyTransmitStart => exact next_sound (whenLineRuns_stands startReply_stands s) hs
  | replyTransmitEnd => exact next_sound (whenLineRuns_stands endReply_stands s) hs
  | secondTick order => exact next_sound (whenRunning_stands (fun u => second_stands order u) s) hs
  | minuteOfTheTimebase order => exact next_sound (whenRunning_stands (fun u => minute_stands order u) s) hs
  | midnightDayChange =>
    refine next_sound (whenRunning_stands (fun u => ?_) s) hs
    split <;> exact .of_kept (by simp)
  | previewLapse seq => exact next_sound (whenRunning_stands (fun u => lastPreviewMinute_stands _ seq u) s) hs
  | autoCharge seq => exact next_sound (whenRunning_stands (fun u => lastPreviewMinute_stands _ seq u) s) hs
  | windowEnd seq => exact next_sound (whenRunning_stands (fun u => lastWindowMinute_stands seq u) s) hs
  | keyLifeExpiry context parity =>
    exact next_sound (whenRunning_stands (fun u => expireHalf_stands context parity u) s) hs
  | unlockExpiry =>
    refine next_sound (whenRunning_stands (fun u => ?_) s) hs
    split
    · exact expireUnlock_stands u
    · exact .refl u
  | lockoutEnd =>
    refine next_sound (whenRunning_stands (fun u => ?_) s) hs
    split
    · exact endLockout_stands u
    · exact .refl u
  | watchdogExpiry =>
    refine next_sound (whenRunning_stands (fun u => ?_) s) hs
    split <;> exact .of_kept (by simp)
  | scanStep table => exact ⟨_, rfl, ite_sound hs ((scanStep_stands table s).sound hs)⟩
  | liveTableUpset table index entry => exact ⟨_, rfl, ite_sound hs ((upset_stands table index entry s).sound hs)⟩
  | powerLoss => exact ⟨_, rfl, losePower_sound s⟩
  | powerOnReset => exact ⟨_, rfl, applyPower_sound s⟩
  | pinReset =>
    refine ⟨_, rfl, ?_⟩
    split
    · exact hs
    · exact takeReset_sound s
  | pinResetRelease => exact ⟨_, rfl, ite_sound hs ((releaseReset_stands s).sound hs)⟩
  | startUpCheckComplete => exact ⟨_, rfl, ite_sound hs ((completeCheck_stands s).sound hs)⟩
  | unknownCommand | nop | readStatus | clearFlags | setMasks | select | readPath | engineTest | readChannel | readOffer
  | tableTest | order | readFolio | readRecord | enterPin | setPin | setCeiling | relock | setRoom | readTime
  | reset => cases hset
  | lineUnknownKind | poll | time | key | keyClear | tableEntry | tableCommit | checkIn | checkOut | hold | packages
  | collect | release | void | lock => cases hline

/-- Settles O59: taking a command off the queue is nothing to the account, and every row keeps it. -/
theorem stepKeepsEngineSound : Obligations.StepKeepsEngineSound := by
  intro s t hs hstep
  unfold step at hstep
  split at hstep
  · cases hstep
    exact hs
  · rename_i c rest _
    have hqueue : EngineStands s { s with pending := rest } := .of_kept (by simp)
    obtain ⟨u, he, hu⟩ := exec_sound c (hqueue.sound hs)
    rw [he] at hstep
    cases hstep
    exact hu

end Sys2Proof.Machine
end

