-- ==== Sys2Proof/Proofs/LineFrameLaws.lean ====
section
/-!
SUPPORT. A line frame reads back as its fields (R144, layout in 11), and a broadcast message that is taken is its
owner's act and the event's end (R146).
-/
namespace Sys2Proof.Machine

/-! ### Numbers in bytes -/

/-- A number of `n` bytes is below 256 to the `n`. -/
theorem natAt_lt (bs : List Byte) (i n : Nat) : natAt bs i n < 256 ^ n := by
  have bound : ∀ l : List Byte, l.foldl (fun a b => a * 256 + b.toNat) 0 < 256 ^ l.length := by
    intro l
    induction l with
    | nil => simp
    | cons b l ih =>
      rw [List.foldl_cons, foldl_bytes, List.length_cons, pow_succ']
      have hb : b.toNat < 256 := b.isLt
      nlinarith
  calc natAt bs i n < 256 ^ ((bs.drop i).take n).length := bound _
    _ ≤ 256 ^ n := Nat.pow_le_pow_right (by decide) (List.length_take_le _ _)

/-- A number that stands after `l` is read past `l`. -/
theorem natAt_append_length (l rest : List Byte) (n : Nat) : natAt (l ++ rest) l.length n = natAt rest 0 n := by
  simp [natAt]

/-- A register in two bytes reads back. -/
theorem natAt_be_half (h : Half) (rest : List Byte) : natAt (be 2 h.toNat ++ rest) 0 2 = h.toNat := by
  rw [natAt_be]
  exact Nat.mod_eq_of_lt h.isLt

/-! ### The line frame (R144) -/

/-- The bytes of a line frame that its check value covers (11). -/
def lineFrameBody (address : Half) (kind : Byte) (payload : List Byte) : List Byte :=
  be 2 address.toNat ++ [kind] ++ be 1 payload.length ++ payload

section
variable (address : Half) (kind : Byte) (payload : List Byte)

theorem lineFrameBytes_eq :
    lineFrameBytes address kind payload =
      lineFrameBody address kind payload ++ be 2 (crc16 (lineFrameBody address kind payload)).toNat := rfl

theorem lineFrameBody_length : (lineFrameBody address kind payload).length = 4 + payload.length := by
  simp [lineFrameBody]
  omega

theorem lineFrameBytes_length : (lineFrameBytes address kind payload).length = 6 + payload.length := by
  rw [lineFrameBytes_eq, List.length_append, lineFrameBody_length, be_length]
  omega

/-- The fields of a frame, read at their places (11). -/
theorem lineFrameBytes_fields (h : payload.length ≤ 120) :
    natAt (lineFrameBytes address kind payload) 0 2 = address.toNat ∧
      (lineFrameBytes address kind payload).getD 2 0 = kind ∧
      byteAt (lineFrameBytes address kind payload) 3 = payload.length ∧
      ((lineFrameBytes address kind payload).drop 4).take payload.length = payload := by
  have hlen : payload.length % 256 = payload.length := Nat.mod_eq_of_lt (by omega)
  refine ⟨?_, rfl, ?_, ?_⟩
  · simp only [lineFrameBytes_eq, lineFrameBody, List.append_assoc, natAt_be_half]
  · simp [lineFrameBytes_eq, lineFrameBody, be, byteAt, hlen]
  · simp [lineFrameBytes_eq, lineFrameBody, be]

/-- The check value stands in the last two bytes, over all bytes before it. -/
theorem lineFrameBytes_check :
    let bytes := lineFrameBytes address kind payload
    (crc16 (bytes.take (bytes.length - 2))).toNat = natAt bytes (bytes.length - 2) 2 := by
  intro bytes
  have hbody : bytes.length - 2 = (lineFrameBody address kind payload).length := by
    rw [lineFrameBytes_length, lineFrameBody_length]
    omega
  rw [hbody, show bytes = _ from lineFrameBytes_eq address kind payload, List.take_left, natAt_append_length,
    ← List.append_nil (be 2 _), natAt_be_half]

/-- A frame with a payload of 120 bytes or fewer passes checks 1 and 2 of R144 and reads back as its fields. -/
theorem checkFrame_lineFrameBytes (h : payload.length ≤ 120) :
    checkFrame (lineFrameBytes address kind payload) false false = .sound address kind payload := by
  obtain ⟨haddress, hkind, hlength, hpayload⟩ := lineFrameBytes_fields address kind payload h
  have hshape : shapeSound (lineFrameBytes address kind payload) false false = true := by
    simp [shapeSound, lineFrameBytes_length, hlength, maxPayload, h]
  have hcheck := lineFrameBytes_check address kind payload
  simp only [checkFrame, hshape, haddress, hkind, hlength, hpayload, BitVec.ofNat_toNat, BitVec.setWidth_eq]
  rw [if_neg (by decide), if_neg (not_not.2 hcheck)]

end

/-! ### A broadcast message that is taken (R146) -/

/-- The row of a broadcast kind with all its fixed arguments is its owner's act and the end of the event. -/
theorem exec_broadcast {c : Instr} {kind : Byte} {payload : List Byte} {m : MessageKind} {s : State}
    (hc : linePortFrame c = some (0xFFFF, kind, payload)) (h : s.takesMessage) (hl : payload.length ≤ 120)
    (hr : replyKind kind = false) (hm : messageKind kind = some m) (hb : m.broadcast = true)
    (hn : m.needs ≤ payload.length) : exec c s = .next (endEvent (m.act payload s).1) := by
  obtain ⟨hphase, hidle⟩ := h
  rw [exec_messageFrame hc, whenLineRuns, if_pos hphase,
    messageFrame_idle hidle hl (checkFrame_lineFrameBytes _ _ _ hl)]
  simp [soundFrame, broadcastFrame, hr, hm, hb, hn, broadcastAddress]

end Sys2Proof.Machine
end

