-- ==== Sys2Proof/Proofs/JudgingLaws.lean ====
section
/-!
SUPPORT. An event of admission handed to both paths (R7, R88): what one judging can do, what it leaves of the other
path, and that both paths then stand as judgings leave them.
-/
namespace Sys2Proof.Machine

/-! ### What one judging can do (R7 to R9, R85, R86) -/

@[simp] theorem other_other (p : PathId) : p.other.other = p := by cases p <;> rfl

/-- The log creates a record for a path only where R86 starts a preview. -/
theorem ask_not_created {s : State} {title : Word} {index : Nat} (h : ¬s.startsPreview title index) :
    (ask title index s).created = false := by
  by_cases hb : s.hasBought title
  · rw [ask_bought index hb]
  by_cases hp : s.hasPreview title
  · rw [ask_preview index hb hp]
  rw [ask_none hb hp h]

/-- One judging writes its path and, where the log starts a preview, what the preview's start writes. -/
theorem judgeOnce_cases (p : PathId) (s : State) :
    (∃ x, judgeOnce p s = { state := s.setPath p x, created := none }) ∨
      ∃ title index x, s.startsPreview title index ∧
        judgeOnce p s = { state := (s.previewStarted title index).setPath p x, created := some title } := by
  cases hs : (s.path p).selected with
  | none => exact .inl ⟨s.path p, by rw [judgeOnce_unselected hs, setPath_path]⟩
  | some i =>
    by_cases ha : s.asksLog i
    · by_cases hst : s.startsPreview (s.offerAt (s.channelAt i).offer).title (s.channelAt i).offer
      · refine .inr ⟨_, _, { s.path p with
          title := (s.offerAt (s.channelAt i).offer).title, answer := .preview, admitted := .previewing }, hst, ?_⟩
        rw [judgeOnce_asks hs ha, ← previewStarted_path s _ (s.channelAt i).offer p]
        simp only [ask_starts hst, if_true]
        rfl
      · have hnone := ask_not_created hst
        have hjudged := judgeOnce_asks hs ha
        simp only [ask_uncreated hnone, hnone, Bool.false_eq_true, if_false] at hjudged
        exact .inl ⟨_, hjudged⟩
    · exact .inl ⟨_, judgeOnce_quiet hs ha .none⟩

/-! ### What a judging leaves of a path that has judged -/

/-- Writing the other path leaves a path standing as its judging left it. -/
theorem setPath_other_pathJudged {p : PathId} {s : State} (x : Path) (h : s.pathJudged p) :
    (s.setPath p.other x).pathJudged p :=
  pathJudged_congr (path_setPath_of_other p x s) (by simp) (by simp) (by simp) (by simp) (by simp) (by simp) h

/-- A preview's start changes no answer to another title, and starts no preview that could not start before. -/
theorem previewStarted_otherTitle {s : State} {title title' : Word} (index : Nat) (h : title' ≠ title) :
    ((s.previewStarted title index).hasBought title' ↔ s.hasBought title') ∧
      ((s.previewStarted title index).hasPreview title' ↔ s.hasPreview title') ∧
      ∀ index', (s.previewStarted title index).startsPreview title' index' → s.startsPreview title' index' := by
  obtain ⟨hlog, -, hprev, -⟩ := previewStarted_writes s title index
  have hnew : (s.startedRecord title index).title ≠ title' := fun e => h e.symm
  have hbought : (s.previewStarted title index).hasBought title' ↔ s.hasBought title' := by
    simp [State.hasBought, hlog, or_and_right, exists_or, hnew]
  have hpreview : (s.previewStarted title index).hasPreview title' ↔ s.hasPreview title' := by
    simp [State.hasPreview, hlog, or_and_right, exists_or, hnew]
  refine ⟨hbought, hpreview, fun index' => ?_⟩
  rintro ⟨hopen, hb, hp, hnot, hroom, hrecords, hvalid, htitle, hlimit⟩
  have hoffer : (s.previewStarted title index).offerAt index' = s.offerAt index' := by simp [State.offerAt]
  rw [hoffer] at hvalid htitle hlimit
  simp only [hprev, List.mem_append, not_or] at hnot
  simp only [hprev, List.length_append] at hroom
  simp only [hlog, List.length_append] at hrecords
  exact ⟨by simpa using hopen, mt hbought.2 hb, mt hpreview.2 hp, hnot.1, by omega, by omega, hvalid, htitle, hlimit⟩

/-- A preview's start leaves a path that does not show its title standing as its judging left it. -/
theorem previewStarted_pathJudged {p : PathId} {s : State} {title : Word} (index : Nat)
    (hshow : ¬s.showsTitle p title) (h : s.pathJudged p) : (s.previewStarted title index).pathJudged p := by
  intro i hi
  rw [previewStarted_path] at hi
  obtain ⟨hquiet, hasks⟩ := h i hi
  obtain ⟨hask, hstate⟩ := reasons_congr (s := s) (t := s.previewStarted title index) (by simp) (by simp) (by simp)
    (by simp) i
  have hentry : (s.previewStarted title index).channelAt i = s.channelAt i := by simp [State.channelAt]
  have hoffer : ∀ k, (s.previewStarted title index).offerAt k = s.offerAt k := fun k => by simp [State.offerAt]
  refine ⟨fun hn => ?_, fun ha => ?_⟩
  · rw [previewStarted_path, hstate]
    exact hquiet (mt hask.2 hn)
  · obtain ⟨htitle, hadmitted, hbought, hpreview, hstarts⟩ := hasks (hask.1 ha)
    have hne : (s.path p).title ≠ title := fun e => hshow ⟨i, hi, (hask.1 ha).1, htitle.symm.trans e⟩
    obtain ⟨hb, hp, hs⟩ := previewStarted_otherTitle (s := s) index hne
    rw [previewStarted_path, hstate, hentry, hoffer, hb, hp]
    exact ⟨htitle, hadmitted, hbought, hpreview, mt (hs _) hstarts⟩

/-- All that a judging can do: its path stands as a judging leaves it, and either nothing else is written, or a preview
has started and of the other path, which judges where it shows the title (R88), only the path itself is written. -/
theorem judge_cases (p : PathId) (s : State) :
    (judge p s).pathJudged p ∧
      ((∃ x, judge p s = s.setPath p x) ∨
        ∃ title index x y, s.startsPreview title index ∧
          judge p s = ((s.previewStarted title index).setPath p x).setPath p.other y ∧
          (s.showsTitle p.other title → (judge p s).pathJudged p.other) ∧
          (¬s.showsTitle p.other title → y = s.path p.other)) := by
  have hself := judgeOnce_pathJudged p s
  rcases judgeOnce_cases p s with ⟨x, hj⟩ | ⟨title, index, x, hst, hj⟩
  · rw [hj] at hself
    rw [judge_once (by rw [hj]), hj]
    exact ⟨hself, .inl ⟨x, rfl⟩⟩
  · set v := (s.previewStarted title index).setPath p x with hv
    rw [hj] at hself
    have hshow : v.shows p.other title = true ↔ s.showsTitle p.other title := by
      rw [shows_iff]
      exact showsTitle_congr (by simp [hv]) (by simp [hv]) (by simp [hv]) title
    by_cases h : s.showsTitle p.other title
    · have hjudge : judge p s = (judgeOnce p.other v).state := by simp [judge, hj, hshow.2 h]
      obtain ⟨hb, hp⟩ := previewStarted_answers hst
      obtain ⟨hb', hp', -⟩ := answers_congr (t := v) (s := s.previewStarted title index) (by simp [hv]) (by simp [hv])
        (by simp [hv]) (by simp [hv]) title index
      obtain ⟨_, _, _, hw⟩ := judgeOnce_uncreated p.other v
        (judgeOnce_uncreated_of_hasPreview ((shows_iff _ _ _).1 (hshow.2 h)) (mt hb'.1 hb) (hp'.2 hp))
      refine ⟨?_, .inr ⟨title, index, x, _, hst, hjudge.trans hw, fun _ => ?_, fun hn => absurd h hn⟩⟩
      · rw [hjudge, hw]
        exact setPath_other_pathJudged _ hself
      · rw [hjudge]
        exact judgeOnce_pathJudged _ _
    · have hjudge : judge p s = v := by simp [judge, hj, mt hshow.1 h]
      rw [hjudge]
      refine ⟨hself, .inr ⟨title, index, x, s.path p.other, hst, ?_, fun hs => absurd hs h, fun _ => rfl⟩⟩
      have : s.path p.other = v.path p.other := by simp [hv]
      rw [this, setPath_path]

/-- A path that has judged stands so after the other path's judging. -/
theorem judge_other_pathJudged {p : PathId} {s : State} (h : s.pathJudged p) : (judge p.other s).pathJudged p := by
  obtain ⟨-, ⟨x, hw⟩ | ⟨title, index, x, y, -, hw, hshown, hnot⟩⟩ := judge_cases p.other s
  · rw [hw]
    exact setPath_other_pathJudged x h
  · rw [other_other] at hw hshown hnot
    by_cases hs : s.showsTitle p title
    · exact hshown hs
    · have hstands := setPath_other_pathJudged x (previewStarted_pathJudged index hs h)
      have hy : y = ((s.previewStarted title index).setPath p.other x).path p := by simp [hnot hs]
      rwa [hw, hy, setPath_path]

/-! ### What events of admission let grow -/

/-- What an event of admission does to the log, the write in flight and the detail flags: records join the tail, no
write begins and no flag is cleared. -/
structure AdmissionGrows (s t : State) : Prop where
  log : s.log <+: t.log
  write : t.store.write = s.store.write
  detail : ∀ k, s.status.detail.getLsbD k = true → t.status.detail.getLsbD k = true

theorem AdmissionGrows.trans {s t u : State} (h : AdmissionGrows s t) (h' : AdmissionGrows t u) :
    AdmissionGrows s u where
  log := h.log.trans h'.log
  write := h'.write.trans h.write
  detail k hk := h'.detail k (h.detail k hk)

theorem setPath_grows (p : PathId) (x : Path) (s : State) : AdmissionGrows s (s.setPath p x) where
  log := by simp
  write := by simp
  detail := by simp

/-- A report clears no flag (R161). -/
theorem report_detail (f : DetailFlag) (s : State) (k : Nat) (h : s.status.detail.getLsbD k = true) :
    (report f s).status.detail.getLsbD k = true := by
  simp [report, Status.report, h]

theorem previewStarted_grows (s : State) (title : Word) (index : Nat) :
    AdmissionGrows s (s.previewStarted title index) where
  log := ⟨_, (previewStarted_writes s title index).1.symm⟩
  write := by
    simp only [State.previewStarted, createRecord]
    split <;> simp [(listSlot_store _ _).2.1]
  detail k h := by
    simp only [State.previewStarted, createRecord]
    split
    · exact report_detail _ _ k (by simpa using h)
    · simpa using h

theorem judge_grows (p : PathId) (s : State) : AdmissionGrows s (judge p s) := by
  obtain ⟨-, ⟨x, hw⟩ | ⟨title, index, x, y, -, hw, -⟩⟩ := judge_cases p s
  · rw [hw]
    exact setPath_grows p x s
  · rw [hw]
    exact (previewStarted_grows s title index).trans ((setPath_grows _ _ _).trans (setPath_grows _ _ _))

/-! ### The event handed to both paths -/

/-- The order of the two judgings is all that the free choice decides (log 6). -/
theorem judgeBoth_eq (s : State) :
    ∃ (p : PathId) (n : Nat), judgeBoth s = judge p.other (judge p { s with choice := n }) := by
  unfold judgeBoth
  split
  · exact ⟨_, _, rfl⟩
  · exact ⟨.a, s.choice, rfl⟩

theorem judgeBoth_grows (s : State) : AdmissionGrows s (judgeBoth s) := by
  obtain ⟨p, n, h⟩ := judgeBoth_eq s
  rw [h]
  obtain ⟨hlog, hwrite, hdetail⟩ := (judge_grows p { s with choice := n }).trans (judge_grows p.other _)
  exact ⟨hlog, hwrite, hdetail⟩

/-- Both paths stand as judgings leave them: the second judging leaves the first path so. -/
theorem judgeBoth_judgedAfresh (s : State) : (judgeBoth s).judgedAfresh := by
  obtain ⟨p, n, h⟩ := judgeBoth_eq s
  rw [h]
  have hfirst := judge_other_pathJudged (judge_cases p { s with choice := n }).1
  have hsecond := (judge_cases p.other (judge p { s with choice := n })).1
  intro q
  cases p <;> cases q <;> assumption

/-! ### The end of an event of admission -/

/-- In a part whose events have ended, an event of admission ends with the beginning of a write at most. -/
theorem endEvent_judgeBoth {s : State} (h : s.settled = true) : endEvent (judgeBoth s) = startWrite (judgeBoth s) :=
  endEvent_writing fun hb => by
    rw [(judgeBoth_grows s).write]
    exact write_of_settled h (by simpa using hb)

/-- All that an event of admission does in a part whose events have ended (R7, R88). -/
theorem judgeBoth_event {s : State} (h : s.settled = true) :
    let t := endEvent (judgeBoth s)
    t.judgedAfresh ∧ s.log <+: t.log ∧
      (∀ k, s.status.detail.getLsbD k = true → t.status.detail.getLsbD k = true) ∧ t.withAdmissionOf s = s ∧
      ∀ i, t.table i = s.table i := by
  obtain ⟨hlog, -, hdetail⟩ := judgeBoth_grows s
  rw [endEvent_judgeBoth h]
  refine ⟨fun p => ?_, by simpa using hlog, by simpa using hdetail, by simp [State.withAdmissionOf], fun i => ?_⟩
  · exact pathJudged_congr (path_startWrite _ p) (by simp) (by simp) (by simp) (by simp) (by simp) (by simp)
      (judgeBoth_judgedAfresh s p)
  · cases i <;> simp [State.table]

end Sys2Proof.Machine
end

