-- ==== Sys2Proof/Proofs/TableLaws.lean ====
section
/-!
SUPPORT. What the table store's and the scan monitor's operations do, one equation per case: entry writes (R47), commits
(R48, R49, R50), the beginning and the end of a pass (R52, R53, R55, R56), and the fields of a read (R57, R58).
-/
namespace Sys2Proof.Machine

/-! ### Tables by name -/

theorem tableArg_named {n : Nat} {t : TableId} (h : n = 0 ∧ t = .channel ∨ n = 1 ∧ t = .offer) :
    tableArg n = some t := by
  rcases h with ⟨rfl, rfl⟩ | ⟨rfl, rfl⟩ <;> rfl

theorem tableArg_none {n : Nat} (h : 2 ≤ n) : tableArg n = none := by
  rw [tableArg, if_neg (by omega), if_neg (by omega)]

/-- The table that an event did not write stands. -/
theorem table_setTable_other {t t' : TableId} (x : Table) (s : State) (h : t' ≠ t) :
    (s.setTable t x).table t' = s.table t' := by
  rw [table_setTable, if_neg h]

@[simp] theorem table_withStatus (t : TableId) (st : Status) (s : State) :
    ({ s with status := st } : State).table t = s.table t := by cases t <;> rfl

/-- That every event has ended is read from the store and the set port alone. -/
theorem settled_congr {s t : State} (hst : t.store = s.store) (hp : t.port = s.port) : t.settled = s.settled := by
  simp only [State.settled, State.resetDue, hst, hp]

/-- Writing a table lists no slot, so the part stays settled. -/
@[simp] theorem settled_setTable (t : TableId) (x : Table) (s : State) : (s.setTable t x).settled = s.settled :=
  settled_congr (by simp) (by simp)

/-- A report lists no slot, so the part stays settled. -/
@[simp] theorem settled_report (f : DetailFlag) (s : State) : (report f s).settled = s.settled := rfl

theorem report_setTable (f : DetailFlag) (t : TableId) (x : Table) (s : State) :
    report f (s.setTable t x) = { s.setTable t x with status := s.status.report f } := by cases t <;> rfl

/-- A flag's mark is its bit (11). -/
theorem mark_bit (f : DetailFlag) : f.mark.getLsbD f.bit = true := by cases f <;> rfl

/-- A flag that was just reported is set (R161). -/
theorem report_sets (f : DetailFlag) (s : State) : (report f s).status.detail.getLsbD f.bit = true := by
  simp [report, Status.report, mark_bit]

/-- A set flag shows under its mark. -/
theorem and_mark_ne_zero {f : DetailFlag} {d : BitVec 20} (h : d.getLsbD f.bit = true) : d &&& f.mark ≠ 0 := by
  intro hz
  have hbit := congrArg (fun x => x.getLsbD f.bit) hz
  simp [h, mark_bit] at hbit

/-- An event of admission after a write of the tables and the status unit leaves everything else as it was. -/
theorem tableEvent_frame {s t u : State} (h : t.withAdmissionOf u = u)
    (hu : { u with status := s.status, channels := s.channels, offers := s.offers } = s) :
    { t.withAdmissionOf s with channels := s.channels, offers := s.offers } = s := by
  have hback : { t.withAdmissionOf s with channels := s.channels, offers := s.offers } =
      ({ t.withAdmissionOf u with status := s.status, channels := s.channels, offers := s.offers } :
        State).withAdmissionOf s := rfl
  rw [hback, h, hu]
  rfl

/-! ### Entry writes (R47) -/

/-- A pending entry and its written mark written (R47). -/
def Table.writeEntry (x : Table) (index : Nat) (entry : List Byte) : Table :=
  { x with pending := x.pending.set index entry, written := x.written.set index true }

theorem tableEntryMessage_writes {args : List Byte} {t : TableId} {s : State} (ht : tableArg (byteAt args 0) = some t)
    (hi : byteAt args 1 < t.size) (hl : (args.drop 2).length = t.entryBytes) :
    tableEntryMessage args s = s.setTable t ((s.table t).writeEntry (byteAt args 1) (args.drop 2)) := by
  simp only [tableEntryMessage, ht]
  rw [if_neg (by omega)]
  rfl

theorem tableEntryMessage_noTable {args : List Byte} (s : State) (ht : tableArg (byteAt args 0) = none) :
    tableEntryMessage args s = s := by
  simp only [tableEntryMessage, ht]

theorem tableEntryMessage_misfit {args : List Byte} {t : TableId} (s : State) (ht : tableArg (byteAt args 0) = some t)
    (h : t.size ≤ byteAt args 1 ∨ (args.drop 2).length ≠ t.entryBytes) : tableEntryMessage args s = s := by
  simp only [tableEntryMessage, ht]
  rw [if_pos h]

/-! ### The beginning of a pass (R52, R55, R56) -/

/-- The pass that begins when a diagnostic request is held, or none is (R52, R56). -/
def Scan.fresh (diagnostic : Bool) : Scan where
  position := 0
  crc := if diagnostic then 0xFF00 else 0xFFFF
  diagnostic := diagnostic

/-- The byte that makes a pass diagnostic moves the register to 0xFF00 (R56). -/
theorem crcByte_diagnostic : crcByte 0xFFFF 0xFF = 0xFF00 := by decide

/-- What the scan of a fresh pass holds (R52, R56). -/
theorem fresh_scan {diagnostic : Bool} {p : Prop} (h : diagnostic = true ↔ p) :
    (Scan.fresh diagnostic).position = 0 ∧ ((Scan.fresh diagnostic).diagnostic = true ↔ p) ∧
      (¬p → (Scan.fresh diagnostic).crc = 0xFFFF) ∧ (p → (Scan.fresh diagnostic).crc = 0xFF00) := by
  refine ⟨rfl, h, fun hn => ?_, fun hp => ?_⟩
  · simp [Scan.fresh, mt h.1 hn]
  · simp [Scan.fresh, h.2 hp]

theorem beginPass_eq (x : Table) :
    x.beginPass = { x with scan := some (Scan.fresh x.diagHeld), diagHeld := false } := by
  simp only [Table.beginPass, crcByte_diagnostic, Scan.fresh]

/-! ### Commits (R48 to R50) -/

/-- Stage 1 of a commit misses an entry: the count is above the table size, or a mark is clear (R48). -/
def Table.misses (x : Table) (size n : Nat) : Prop := size < n ∨ ∃ i, i < n ∧ x.written[i]? = some false

theorem complete_iff (x : Table) (size n : Nat) : x.complete size n = true ↔ ¬x.misses size n := by
  simp only [Table.complete, Table.misses, Bool.and_eq_true, decide_eq_true_eq, not_or, not_lt, List.all_eq_true,
    List.mem_take_iff_getElem, not_exists, not_and]
  refine and_congr_right fun _ => ⟨fun h i hi hf => ?_, ?_⟩
  · obtain ⟨hlt, hf⟩ := List.getElem?_eq_some_iff.1 hf
    exact absurd (h _ ⟨i, by omega, hf⟩) (by decide)
  · rintro h _ ⟨i, hi, rfl⟩
    have := h i (by omega)
    rw [List.getElem?_eq_getElem (by omega)] at this
    simpa using this

/-- A commit that names no more entries than the table has, each of them written, misses none (R48). -/
theorem not_misses {x : Table} {size n : Nat} (hn : n ≤ size) (hw : ∀ i, i < n → x.written[i]? = some true) :
    ¬x.misses size n := by
  rintro (hlt | ⟨i, hi, hclear⟩)
  · omega
  · rw [hw i hi] at hclear
    cases hclear

section
variable {args : List Byte} {t : TableId} {s : State}

theorem tableCommitMessage_noTable (s : State) (ht : tableArg (byteAt args 0) = none) :
    tableCommitMessage args s = s := by
  simp only [tableCommitMessage, ht]

theorem tableCommitMessage_missing (ht : tableArg (byteAt args 0) = some t)
    (hm : (s.table t).misses t.size (byteAt args 1)) :
    tableCommitMessage args s = report .commitRejected (s.setTable t { s.table t with outcome := .missing }) := by
  have hc : (s.table t).complete t.size (byteAt args 1) = false :=
    Bool.eq_false_iff.2 fun h => (complete_iff _ _ _).1 h hm
  simp only [tableCommitMessage, ht, hc, Bool.not_false, if_true]

/-- The check value of a commit's arguments agrees with that of its entries (R48). -/
theorem entriesCheck_eq_iff (entries : List (List Byte)) (args : List Byte) :
    entriesCheck entries = BitVec.ofNat 16 (natAt args 2 2) ↔ (crc16 entries.flatten).toNat = natAt args 2 2 := by
  have hlt : natAt args 2 2 < 2 ^ 16 := natAt_lt args 2 2
  rw [entriesCheck, ← BitVec.toNat_inj, BitVec.toNat_ofNat, Nat.mod_eq_of_lt hlt]

theorem tableCommitMessage_mismatch (ht : tableArg (byteAt args 0) = some t)
    (hm : ¬(s.table t).misses t.size (byteAt args 1))
    (hc : (crc16 ((s.table t).pending.take (byteAt args 1)).flatten).toNat ≠ natAt args 2 2) :
    tableCommitMessage args s = report .commitRejected (s.setTable t { s.table t with outcome := .mismatch }) := by
  simp only [tableCommitMessage, ht, (complete_iff _ _ _).2 hm, Bool.not_true, Bool.false_eq_true, if_false]
  rw [if_pos (mt (entriesCheck_eq_iff _ _).1 hc)]

theorem tableCommitMessage_accepted (ht : tableArg (byteAt args 0) = some t)
    (hm : ¬(s.table t).misses t.size (byteAt args 1))
    (hc : (crc16 ((s.table t).pending.take (byteAt args 1)).flatten).toNat = natAt args 2 2) :
    tableCommitMessage args s =
      judgeBoth (s.setTable t ((s.table t).accept t.size t.entryBytes (byteAt args 1))) := by
  simp only [tableCommitMessage, ht, (complete_iff _ _ _).2 hm, Bool.not_true, Bool.false_eq_true, if_false]
  rw [if_neg (not_not.2 ((entriesCheck_eq_iff _ _).2 hc))]

end

/-- The next pass is diagnostic if a request is held, or if the pass abandoned was diagnostic (R55). -/
theorem abandonPass_diagHeld_iff (x : Table) :
    x.abandonPass.diagHeld = true ↔ x.diagHeld = true ∨ ∃ sc, x.scan = some sc ∧ sc.diagnostic = true := by
  cases h : x.scan <;> simp [Table.abandonPass, h]

/-- An accepted commit, field by field (R49, R50). -/
theorem accept_eq (x : Table) (size bytes n : Nat) :
    let live := x.pending.take n ++ List.replicate (size - n) (List.replicate bytes 0)
    x.accept size bytes n =
      { live := live, pending := x.pending, written := List.replicate size false, check := crc16 live.flatten
        generation := if live = x.live then x.generation else x.generation + 1, bad := false, outcome := .accepted
        scan := some (Scan.fresh x.abandonPass.diagHeld), diagHeld := false } := by
  simp only [Table.accept, beginPass_eq]
  rfl

/-! ### Scan steps and the end of a pass (R52, R53, R56) -/

section
variable {t : TableId} {s : State}

theorem scanStep_stopped (h : (s.table t).scan = none) : scanStep t s = s := by
  simp only [scanStep, h]

variable {sc : Scan} {e : List Byte}

theorem scanStep_advances (h : (s.table t).scan = some sc) (hp : sc.position + 1 < t.size)
    (he : (s.table t).live[sc.position]? = some e) :
    scanStep t s = s.setTable t { s.table t with
      scan := some { sc with position := sc.position + 1, crc := crcFold sc.crc e } } := by
  simp only [scanStep, h, List.getD_eq_getElem?_getD, he, Option.getD_some]
  rw [if_neg (by omega)]

theorem scanStep_ends (h : (s.table t).scan = some sc) (hp : sc.position + 1 = t.size)
    (he : (s.table t).live[sc.position]? = some e) :
    scanStep t s = endEvent (endPass t (crcFold sc.crc e) sc.diagnostic s) := by
  simp only [scanStep, h, List.getD_eq_getElem?_getD, he, Option.getD_some]
  rw [if_pos (by omega)]

/-- A diagnostic pass ends: a difference is reported, and nothing else but the scan moves (R56). -/
theorem endPass_diagnostic (t : TableId) (crc : Half) (s : State) :
    endPass t crc true s = { s.setTable t (s.table t).beginPass with
      status := if crc ≠ (s.table t).check then s.status.report .diagMismatch else s.status } := by
  simp only [endPass, if_true, bne_iff_ne]
  split
  · exact report_setTable _ _ _ _
  · cases t <;> rfl

/-- The state in which an ordinary pass has compared: the new pass, table-bad and the report (R53). -/
def comparedPass (t : TableId) (differs : Bool) (s : State) : State :=
  { s.setTable t { (s.table t).beginPass with bad := differs } with
    status := if differs then s.status.report (mismatchFlag t) else s.status }

theorem endPass_ordinary (t : TableId) (crc : Half) (s : State) :
    endPass t crc false s =
      let differs := decide (crc ≠ (s.table t).check)
      if differs = (s.table t).bad then comparedPass t differs s else judgeBoth (comparedPass t differs s) := by
  by_cases h : crc = (s.table t).check
  · have hstate : s.setTable t ({ s.table t with bad := false } : Table).beginPass = comparedPass t false s := by
      cases t <;> rfl
    simp [endPass, h, hstate]
  · have hstate : report (mismatchFlag t) (s.setTable t ({ s.table t with bad := true } : Table).beginPass) =
        comparedPass t true s := by
      cases t <;> rfl
    have hdiffers : (crc != (s.table t).check) = true := bne_iff_ne.2 h
    simp [endPass, h, hdiffers, hstate]

variable {crc : Half}

/-- An ordinary pass whose comparison leaves table-bad as it was is handed to no path (R53). -/
theorem endPass_keepsBad (h : decide (crc ≠ (s.table t).check) = (s.table t).bad) :
    endPass t crc false s = comparedPass t (decide (crc ≠ (s.table t).check)) s := by
  rw [endPass_ordinary]
  exact if_pos h

/-- An ordinary pass whose comparison changes table-bad is handed to both paths (R53). -/
theorem endPass_changesBad (h : decide (crc ≠ (s.table t).check) ≠ (s.table t).bad) :
    endPass t crc false s = judgeBoth (comparedPass t (decide (crc ≠ (s.table t).check)) s) := by
  rw [endPass_ordinary]
  exact if_neg h

end

/-- A comparison lists no slot, so the part stays settled. -/
theorem comparedPass_settled {t : TableId} {differs : Bool} {s : State} (h : s.settled = true) :
    (comparedPass t differs s).settled = true := by
  rw [← h]
  exact settled_congr (by simp [comparedPass]) (by simp [comparedPass])

/-- A comparison that leaves table-bad as it was. -/
theorem comparedPass_same {t : TableId} {differs : Bool} {s : State} (h : differs = (s.table t).bad) :
    comparedPass t differs s = { s.setTable t (s.table t).beginPass with
      status := if differs then s.status.report (mismatchFlag t) else s.status } := by
  subst h
  rfl

/-- A comparison that finds a difference sets the table's mismatch flag (R53). -/
theorem comparedPass_flag (t : TableId) (s : State) :
    (comparedPass t true s).status.detail.getLsbD (mismatchFlag t).bit = true := report_sets (mismatchFlag t) s

/-! ### Reads (R57, R58) -/

/-- A class code of 4 or below is reported as stored, another as EMPTY (R42, R57). -/
theorem code_ofCode (n : Nat) : (ServiceClass.ofCode n).code = if n ≤ 4 then BitVec.ofNat 8 n else 0 := by
  by_cases h : n ≤ 4
  · rw [if_pos h]
    interval_cases n <;> rfl
  · rw [if_neg h]
    simp only [ServiceClass.ofCode]
    rw [if_neg (by omega), if_neg (by omega), if_neg (by omega), if_neg (by omega)]
    rfl

/-- The title code of an offer entry has four bytes and reads back as sent. -/
theorem offerEntry_title (e : List Byte) : (offerEntry e).title.toNat = natAt e 1 4 := by
  rw [offerEntry, BitVec.toNat_ofNat]
  exact Nat.mod_eq_of_lt (natAt_lt e 1 4)

/-- An offer entry as READ_OFFER reports it, field by field (R44, R58). -/
theorem offerEntry_reported (e : List Byte) :
    (offerEntry e).reported =
      if byteAt e 0 = 1 ∧ natAt e 1 4 ≠ 0 then
        [1] ++ be 4 (natAt e 1 4) ++ be 1 (byteAt e 5) ++ be 4 (min (natAt e 6 4) 99999) ++
          be 1 (min (byteAt e 10) 15) ++ be 1 (max 1 (min (byteAt e 11) 48)) ++ (e.drop 12).take 16
      else List.replicate 28 0 := by
  have hvalid : (offerEntry e).valid = true ↔ byteAt e 0 = 1 ∧ natAt e 1 4 ≠ 0 := by simp [offerEntry]
  simp only [OfferEntry.reported, hvalid, offerEntry_title]
  rfl

end Sys2Proof.Machine
end

