-- ==== Sys2Proof/Proofs/TableStatements.lean ====
section
/-!
PROOFS. The statements about the channel and offer tables: the reads and TABLE_TEST (R55, R57, R58), TABLE_ENTRY (R47),
TABLE_COMMIT (R48 to R50), and the scan with its upsets (R46, R52, R53, R56).
-/
namespace Sys2Proof.Machine

/-! ### The reads and TABLE_TEST (R55, R57, R58) -/

section
variable {args : List Byte} {s : State}

theorem exec_readChannel (h : s.takesCommand) (hn : 1 ≤ args.length) :
    exec (.readChannel args) s = .next (readChannelCommand args (s.frameOver (1 + args.length))) := by
  rw [exec_command (c := .readChannel args) (k := ⟨0x18, 1, readChannelCommand⟩) rfl h rfl hn (by decide)]
  simp only [readChannelCommand, byteAt_take (show 0 < 47 by decide)]

theorem exec_readOffer (h : s.takesCommand) (hn : 1 ≤ args.length) :
    exec (.readOffer args) s = .next (readOfferCommand args (s.frameOver (1 + args.length))) := by
  rw [exec_command (c := .readOffer args) (k := ⟨0x19, 1, readOfferCommand⟩) rfl h rfl hn (by decide)]
  simp only [readOfferCommand, byteAt_take (show 0 < 47 by decide)]

theorem exec_tableTest (h : s.takesCommand) (hn : 1 ≤ args.length) :
    exec (.tableTest args) s = .next (tableTestCommand args (s.frameOver (1 + args.length))) := by
  rw [exec_command (c := .tableTest args) (k := ⟨0x1A, 1, tableTestCommand⟩) rfl h rfl hn (by decide)]
  simp only [tableTestCommand, byteAt_take (show 0 < 47 by decide)]

end

/-- The table fields of a read are read from that table alone. -/
theorem fields_eq (x : Table) : x.fields = [x.generation, if x.bad then 1 else 0, x.outcome.code] := rfl

/-- A channel entry as READ_CHANNEL reports it (R42, R57). -/
theorem channelEntry_reported (e : List Byte) :
    (channelEntry e).reported e = (if byteAt e 0 ≤ 4 then BitVec.ofNat 8 (byteAt e 0) else 0) :: e.drop 1 := by
  rw [← code_ofCode]
  rfl

/-- Settles O11: the index decides between the entry's report and BAD_ARG, the table argument between the two requests
and BAD_ARG. -/
theorem tableReadsAndTest : Obligations.TableReadsAndTest := by
  refine ⟨fun args s h hn => ⟨fun hi => ?_, fun hi => ?_, fun hi => ?_, fun hi => ?_⟩,
    fun args s h hn => ⟨fun ht => ?_, fun ht => ?_, fun ht => ?_⟩⟩
  · rw [exec_readChannel h hn]
    simp only [readChannelCommand, if_neg (Nat.not_lt.2 hi), State.channelAt, frameOver_keeps, placeReply_frameOver,
      channelEntry_reported, fields_eq]
  · rw [exec_readChannel h hn]
    simp only [readChannelCommand, if_pos hi, placeReply_frameOver]
  · rw [exec_readOffer h hn]
    simp only [readOfferCommand, if_neg (Nat.not_lt.2 hi), State.offerAt, frameOver_keeps, placeReply_frameOver,
      offerEntry_reported, fields_eq]
  · rw [exec_readOffer h hn]
    simp only [readOfferCommand, if_pos hi, placeReply_frameOver]
  · rw [exec_tableTest h hn]
    simp only [tableTestCommand, tableArg_named (.inl ⟨ht, rfl⟩)]
    rfl
  · rw [exec_tableTest h hn]
    simp only [tableTestCommand, tableArg_named (.inr ⟨ht, rfl⟩)]
    rfl
  · rw [exec_tableTest h hn]
    simp only [tableTestCommand, tableArg_none ht, placeReply_frameOver]

/-! ### TABLE_ENTRY (R47) -/

section
variable {payload : List Byte} {s : State}

/-- A TABLE_ENTRY broadcast is the table store's act and nothing else (R47). -/
theorem exec_tableEntry (h : s.takesMessage) (hs : s.settled = true) (hn : 2 ≤ payload.length)
    (hl : payload.length ≤ 120) : exec (.tableEntry 0xFFFF payload) s = .next (tableEntryMessage payload s) := by
  rw [exec_broadcast (kind := 0x05) (m := ⟨true, 2, silently 0x05 tableEntryMessage⟩) rfl h hl rfl rfl rfl hn]
  have hsettled : (tableEntryMessage payload s).settled = true := by
    unfold tableEntryMessage
    dsimp only
    (repeat' split) <;> simpa using hs
  exact congrArg _ (endEvent_settled hsettled)

theorem tableEntry_writes {t : TableId} (h : s.takesMessage) (hs : s.settled = true) (hn : 2 ≤ payload.length)
    (hl : payload.length ≤ 120) (ht : byteAt payload 0 = 0 ∧ t = .channel ∨ byteAt payload 0 = 1 ∧ t = .offer)
    (hi : byteAt payload 1 < t.size) (he : (payload.drop 2).length = t.entryBytes) :
    exec (.tableEntry 0xFFFF payload) s =
      .next (s.setTable t ((s.table t).writeEntry (byteAt payload 1) (payload.drop 2))) := by
  rw [exec_tableEntry h hs hn hl, tableEntryMessage_writes (tableArg_named ht) hi he]

end

/-- Settles O32: an entry that fits its table is written there, and any other leaves the table store as it was. -/
theorem tableEntryWritesPending : Obligations.TableEntryWritesPending := by
  intro payload s h hs hn hl index entry written
  refine ⟨fun ht hi he => ?_, fun ht hi he => ?_, fun hbad => ?_⟩
  · exact tableEntry_writes h hs hn hl (.inl ⟨ht, rfl⟩) (Nat.lt_succ_of_le hi) he
  · exact tableEntry_writes h hs hn hl (.inr ⟨ht, rfl⟩) (Nat.lt_succ_of_le hi) he
  · rw [exec_tableEntry h hs hn hl]
    rcases hbad with ht | ⟨ht, hmisfit⟩ | ⟨ht, hmisfit⟩
    · rw [tableEntryMessage_noTable s (tableArg_none ht)]
    · rw [tableEntryMessage_misfit s (tableArg_named (.inl ⟨ht, rfl⟩)) (hmisfit.imp_left Nat.succ_le_of_lt)]
    · rw [tableEntryMessage_misfit s (tableArg_named (.inr ⟨ht, rfl⟩)) (hmisfit.imp_left Nat.succ_le_of_lt)]

/-! ### TABLE_COMMIT (R48 to R50) -/

section
variable {payload : List Byte} {s : State}

theorem exec_tableCommit (h : s.takesMessage) (hn : 4 ≤ payload.length) (hl : payload.length ≤ 120) :
    exec (.tableCommit 0xFFFF payload) s = .next (endEvent (tableCommitMessage payload s)) :=
  exec_broadcast (kind := 0x06) (m := ⟨true, 4, silently 0x06 tableCommitMessage⟩) rfl h hl rfl rfl rfl hn

/-- A rejected commit is the outcome and the report, after which nothing is to be written (R48). -/
theorem endEvent_rejected (t : TableId) (x : Table) (hs : s.settled = true) :
    endEvent (report .commitRejected (s.setTable t x)) =
      { s.setTable t x with status := s.status.report .commitRejected } := by
  rw [endEvent_settled (by simpa using hs), report_setTable]

end

/-- Settles O33: by the table argument, then by the two stages; an accepted commit is handed to both paths. -/
theorem tableCommitIsJudged : Obligations.TableCommitIsJudged := by
  refine ⟨?_, ?_, ?_⟩
  · intro payload s h hs hn hl ht
    rw [exec_tableCommit h hn hl, tableCommitMessage_noTable s (tableArg_none ht), endEvent_settled hs]
  · intro payload s t h hs _ hn hl ht n x missing rejected
    refine ⟨fun hm => ?_, fun hm hc => ?_⟩ <;> rw [exec_tableCommit h hn hl]
    · rw [tableCommitMessage_missing (tableArg_named ht) hm, endEvent_rejected _ _ hs]
    · rw [tableCommitMessage_mismatch (tableArg_named ht) hm hc, endEvent_rejected _ _ hs]
  · intro payload s t h hs _ hn hl ht n x hcount hwritten hcheck live diagnostic
    have hm : ¬x.misses t.size n := not_misses hcount hwritten
    have hsettled : (s.setTable t (x.accept t.size t.entryBytes n)).settled = true := by simpa using hs
    obtain ⟨hjudged, hlog, -, hframe, htable⟩ := judgeBoth_event hsettled
    obtain ⟨hposition, hdiagnostic, hordinary, hextra⟩ := fresh_scan (abandonPass_diagHeld_iff x)
    refine ⟨_, _, by rw [exec_tableCommit h hn hl, tableCommitMessage_accepted (tableArg_named ht) hm hcheck], ?_,
      hposition, hdiagnostic, hordinary, hextra, hjudged, by simpa using hlog, ?_, fun t' hne => ?_⟩
    · rw [htable, table_setTable_same, accept_eq]
    · exact tableEvent_frame hframe (by cases t <;> rfl)
    · rw [htable, table_setTable_other _ s hne]

/-! ### The scan, and upsets (R46, R52, R53, R56) -/

theorem exec_scanStep {t : TableId} {s : State} (h : s.phase.awake = true) :
    exec (.scanStep t) s = .next (scanStep t s) := by
  simp only [exec, execScanStep, h, if_true]

/-- Settles O50: a step by whether the scan runs and stands before the last entry; the end of a pass by its kind and by
whether the comparison changes table-bad. -/
theorem scanComparesLiveTable : Obligations.ScanComparesLiveTable := by
  refine ⟨fun t s hw => ⟨fun hstop => ?_, fun sc e hsc hp he => ?_⟩, ?_, fun t i e s hw hi he => ?_⟩
  · rw [exec_scanStep hw, scanStep_stopped hstop]
  · rw [exec_scanStep hw, scanStep_advances hsc hp he]
    rfl
  · intro t s sc e hw hs hsc hp he x differs next mismatch
    have hmismatch : mismatch = mismatchFlag t := by cases t <;> rfl
    rw [exec_scanStep hw, scanStep_ends hsc hp he]
    refine ⟨fun hd => ?_, fun hd hsame => ?_, fun hd hchange => ?_⟩
    · rw [hd, endPass_diagnostic, beginPass_eq, endEvent_settled ((settled_congr (by simp) (by simp)).trans hs)]
      simp only [differs, decide_eq_true_eq]
      rfl
    · have hpass : endPass t (crcFold sc.crc e) false s = comparedPass t differs s := endPass_keepsBad hsame
      rw [hd, hpass, endEvent_settled (comparedPass_settled hs), hmismatch, comparedPass_same hsame,
        beginPass_eq]
      rfl
    · have hpass : endPass t (crcFold sc.crc e) false s = judgeBoth (comparedPass t differs s) :=
        endPass_changesBad hchange
      rw [hd, hpass, hmismatch]
      obtain ⟨hjudged, hlog, hdetail, hframe, htable⟩ :=
        judgeBoth_event (comparedPass_settled (t := t) (differs := differs) hs)
      refine ⟨_, rfl, ?_, fun t' hne => ?_, fun hdiffers => ?_, hjudged, ?_,
        tableEvent_frame hframe (by cases t <;> rfl)⟩
      · rw [htable, comparedPass, table_withStatus, table_setTable_same]
        rfl
      · rw [htable, comparedPass, table_withStatus, table_setTable_other _ s hne]
      · refine and_mark_ne_zero (hdetail _ ?_)
        rw [hdiffers]
        exact comparedPass_flag t s
      · simpa [comparedPass] using hlog
  · have hfits : i < t.size ∧ e.length = t.entryBytes := ⟨hi, he⟩
    simp only [exec, execLiveTableUpset, upset, hw, if_true, if_pos hfits]

end Sys2Proof.Machine
end

