-- ==== Sys2Proof/Proofs/LedgerLaws.lean ====
section
/-!
SUPPORT. The ledger: every copy of the folio record and every purchase record, in the working copies, in the slots and in
the write in flight. What the single operations write to it, for any property of folio records and any property of
purchase records that the folio unit's and the log's changes keep (R61 to R79, R83, R131 to R134).
-/
namespace Sys2Proof.Machine

/-- The folio record or the purchase record of an image has its property. -/
def SlotImage.meets (F : Folio → Prop) (R : Record → Prop) : SlotImage → Prop
  | .free => True
  | .record r => R r
  | .folio f _ => F f
  | .lock _ => True
  | .config _ => True

/-- Every copy of the folio record has the property `F` and every purchase record the property `R`, in the working copies
and in every image. -/
structure Ledger (F : Folio → Prop) (R : Record → Prop) (s : State) : Prop where
  folio : F s.folio
  log : ∀ r ∈ s.log, R r
  images : ∀ i ∈ s.store.images, i.meets F R

/-- A property of folio records and one of purchase records that every change keeps which the part makes of them: the
record of a damaged slot (R81), check-in (R62, R63), the changes beside the amounts (R64 to R66, R74), the spends set to 0
(R75, R76), the refund (R78) and the grant of a charge (R72); of a purchase record only the charge is read. -/
structure LedgerRule (F : Folio → Prop) (R : Record → Prop) : Prop where
  default : F Folio.default
  checkIn : ∀ args policy, F (checkInFolio args policy)
  marks : ∀ {f : Folio} (state packages capMark),
    F f → F { f with state := state, packages := packages, capMark := capMark }
  newDay : ∀ {f : Folio}, F f → F { f with daySpend := 0 }
  headendBack : ∀ {f : Folio}, F f → F { f with offlineSpend := 0 }
  refunded : ∀ {f : Folio} (billed sameDay), F f → F (f.refunded billed sameDay)
  granted : ∀ {s : State} {price f c}, chargeRequest price s = .granted f c → F s.folio → F f
  uncharged : ∀ {r : Record}, r.charge = none → R r
  charged : ∀ {s : State} {price f c}, chargeRequest price s = .granted f c → ∀ {r : Record}, r.charge = some c → R r
  sameCharge : ∀ {r x : Record}, R x → r.charge = x.charge → R r

/-! ### What the images are made of (R131, R134) -/

/-- An image stands in a slot whose check value agrees, or is being written. -/
theorem mem_images (i : SlotImage) (st : Store) :
    i ∈ st.images ↔ .intact i ∈ st.slots ∨ ∃ w, st.write = some w ∧ w.image = i := by
  simp only [Store.images, List.mem_append, List.mem_filterMap, Option.mem_toList, Option.map_eq_some_iff]
  refine or_congr_left ⟨?_, fun h => ⟨_, h, rfl⟩⟩
  rintro ⟨_ | _, hmem, he⟩ <;> simp_all

/-- Listing a slot changes no image. -/
@[simp] theorem listSlot_images (k : Nat) (s : State) : (listSlot k s).store.images = s.store.images := by
  obtain ⟨-, hwrite, -⟩ := listSlot_store k s
  simp [Store.images, hwrite]

/-- The acceptance of a command that waits for a slot changes no image: a write in flight goes on with its own (R135). -/
@[simp] theorem acceptStore_images (w : Waiting) (code : Byte) (data : List Byte) (s : State) :
    (acceptStore w code data s).store.images = s.store.images := by
  simp [acceptStore, Store.images, Function.comp_def]

/-- A stored record carries the charge of its working copy (R136). -/
theorem stored_charge (r : Record) : r.stored.charge = r.charge := by
  unfold Record.stored
  split <;> rfl

/-- An ended or lapsed record carries the charge it had (R97). -/
theorem closed_charge (r : Record) : r.closed.charge = r.charge := by
  unfold Record.closed
  split <;> rfl

/-- The log finds a record by number among its own. -/
theorem mem_of_recordOf {s : State} {seq : Half} {r : Record} (h : s.recordOf seq = some r) : r ∈ s.log :=
  List.mem_of_find?_eq_some h

/-- The records that a RELEASE names stand in the log (R100). -/
theorem mem_of_mem_throughSeq {seq : Half} {r : Record} {l : List Record} (h : r ∈ throughSeq seq l) : r ∈ l := by
  induction l with
  | nil => exact h
  | cons x l ih =>
    unfold throughSeq at h
    split at h
    · exact List.mem_cons.2 (.inl (List.mem_singleton.1 h))
    · rcases List.mem_cons.1 h with rfl | h
      · exact List.mem_cons_self
      · exact List.mem_cons_of_mem _ (ih h)

/-- The log's order is one of the same records (R140). -/
theorem mem_of_mem_logOrder {next : Half} {r : Record} {records : List Record} (h : r ∈ logOrder next records) :
    r ∈ records := by
  have hinsert : ∀ {x : Record} {l : List Record}, r ∈ insertByDistance next x l → r = x ∨ r ∈ l := by
    intro x l
    induction l with
    | nil => simp [insertByDistance]
    | cons y l ih =>
      unfold insertByDistance
      split
      · simp
      · rw [List.mem_cons, List.mem_cons]
        rintro (rfl | hr)
        · exact .inr (.inl rfl)
        · exact (ih hr).imp_right .inr
  induction records with
  | nil => exact h
  | cons x l ih => exact List.mem_cons.2 ((hinsert h).imp_right ih)

section
variable {F : Folio → Prop} {R : Record → Prop} {s t : State}

namespace Ledger

/-- The ledger stands where nothing is written that it is read from. -/
theorem of_kept (h : Ledger F R s) (hk : t.folio = s.folio ∧ t.log = s.log ∧ t.store.images = s.store.images) :
    Ledger F R t := by
  obtain ⟨hf, hl, hi⟩ := hk
  exact ⟨hf ▸ h.folio, hl ▸ h.log, hi ▸ h.images⟩

/-- Changes made one after the other, each of which keeps the ledger. -/
theorem foldl {α : Type} {f : State → α → State} (hf : ∀ u a, Ledger F R u → Ledger F R (f u a)) :
    ∀ (l : List α) {s : State}, Ledger F R s → Ledger F R (l.foldl f s)
  | [], _, h => h
  | a :: l, _, h => foldl hf l (hf _ a h)

/-- Records taken one by one from a list of records that have the property. -/
theorem foldl_records {f : State → Record → State} (hf : ∀ u r, R r → Ledger F R u → Ledger F R (f u r))
    {l : List Record} (hl : ∀ r ∈ l, R r) (h : Ledger F R s) : Ledger F R (l.foldl f s) := by
  induction l generalizing s with
  | nil => exact h
  | cons r l ih =>
    rw [List.forall_mem_cons] at hl
    exact ih hl.2 (hf s r hl.1 h)

/-- The folio record takes a new content that has the property. -/
theorem withFolio (h : Ledger F R s) {f : Folio} (hf : F f) : Ledger F R { s with folio := f } :=
  ⟨hf, h.log, h.images⟩

theorem setFolio (h : Ledger F R s) {f : Folio} (hf : F f) : Ledger F R (setFolio f s) := by
  unfold Machine.setFolio
  split
  · exact h
  · exact (h.withFolio hf).of_kept (by simp)

theorem listSlot (h : Ledger F R s) (k : Nat) : Ledger F R (listSlot k s) := h.of_kept (by simp)

theorem report (h : Ledger F R s) (f : DetailFlag) : Ledger F R (report f s) := h.of_kept (by simp)

theorem placeReply (h : Ledger F R s) (code : Byte) (r : ResultCode) (data : List Byte) :
    Ledger F R (placeReply code r data s) := h.of_kept (by simp)

theorem setPath (h : Ledger F R s) (p : PathId) (x : Path) : Ledger F R (s.setPath p x) := h.of_kept (by simp)

end Ledger

variable (rule : LedgerRule F R)
include rule

/-! ### The beginning of a write and the end of an event (R134, R159) -/

/-- The image of a slot is made of the working copies. -/
theorem captureImage_meets (h : Ledger F R s) (k : Nat) : (captureImage s k).meets F R := by
  unfold captureImage
  split
  · exact h.folio
  split
  · trivial
  split
  · trivial
  split
  · rename_i r hr
    exact rule.sameCharge (h.log r (List.mem_of_find?_eq_some hr)) (stored_charge r)
  · trivial

theorem startWrite_ledger (h : Ledger F R s) : Ledger F R (startWrite s) := by
  rcases hw : s.store.write with _ | w
  · rcases hd : s.store.dirty with _ | ⟨k, rest⟩
    · rwa [startWrite_empty hd]
    · rw [startWrite_begins hw hd]
      refine ⟨h.folio, h.log, fun i hi => ?_⟩
      rcases (mem_images _ _).1 hi with hslot | ⟨w, hbegun, rfl⟩
      · exact h.images i ((mem_images _ _).2 (.inl hslot))
      · cases hbegun
        exact captureImage_meets rule h k
  · rwa [startWrite_busy (by simp [hw])]

theorem endEvent_ledger (h : Ledger F R s) : Ledger F R (endEvent s) := by
  have hreset : ∀ {u}, Ledger F R u → Ledger F R (resetEffect u) := fun {u} hu => by
    unfold resetEffect
    dsimp only
    split <;> exact hu.of_kept (by simp)
  unfold endEvent
  dsimp only
  split
  · exact startWrite_ledger rule (hreset (startWrite_ledger rule h))
  · exact startWrite_ledger rule h

/-! ### The folio unit (R72, R75, R76) -/

theorem grantCharge_ledger {u : State} {price : Nat} {f : Folio} {c : Charge}
    (hc : chargeRequest price u = .granted f c) (hu : F u.folio) (h : Ledger F R s) :
    Ledger F R (grantCharge f c s) := by
  unfold grantCharge
  refine Ledger.setFolio ?_ (rule.granted hc hu)
  split
  · exact h.report _
  · exact h

theorem dayChange_ledger (h : Ledger F R s) : Ledger F R (dayChange s) := h.setFolio (rule.newDay h.folio)

theorem offlineSpendReset_ledger (h : Ledger F R s) : Ledger F R (offlineSpendReset s) :=
  h.setFolio (rule.headendBack h.folio)

/-! ### The log's records (R83, R84, R101) -/

omit rule in
theorem createRecord_ledger (h : Ledger F R s) (title : Word) (origin : Origin) (rating limit : Nat)
    (state : RecordState) {charge : Option Charge} (hr : ∀ r : Record, r.charge = charge → R r) :
    Ledger F R (createRecord title origin rating limit state charge s) := by
  obtain ⟨hlog, -⟩ := createRecord_log title origin rating limit state charge s
  refine ⟨?_, fun r hmem => ?_, ?_⟩
  · simpa using h.folio
  · rw [hlog, List.mem_append, List.mem_singleton] at hmem
    rcases hmem with hmem | rfl
    · exact h.log r hmem
    · exact hr _ rfl
  · have himages : (createRecord title origin rating limit state charge s).store.images = s.store.images := by
      unfold createRecord
      dsimp only
      split <;> simp
    rw [himages]
    exact h.images

omit rule in
theorem replaceRecord_ledger (h : Ledger F R s) {r : Record} (hr : R r) : Ledger F R (replaceRecord r s) := by
  refine ⟨h.folio, fun x hx => ?_, h.images⟩
  obtain ⟨y, hy, rfl⟩ := List.mem_map.1 hx
  split
  · exact hr
  · exact h.log y hy

omit rule in
theorem finishWaiting_ledger (h : Ledger F R s) (w : Waiting) : Ledger F R (finishWaiting w s) := h.of_kept (by simp)

omit rule in
theorem removeRecord_ledger (h : Ledger F R s) (r : Record) : Ledger F R (removeRecord r s) := by
  have hleft : Ledger F R { s with log := s.log.filter (fun x => x.seq != r.seq) } :=
    ⟨h.folio, fun x hx => h.log x (List.mem_of_mem_filter hx), h.images⟩
  unfold removeRecord
  dsimp only
  split
  · split
    · exact finishWaiting_ledger (hleft.listSlot _) _
    · exact hleft.listSlot _
  all_goals exact hleft.listSlot _

omit rule in
theorem settleRecord_ledger (h : Ledger F R s) {r : Record} (hr : R r) : Ledger F R (settleRecord r s) := by
  have hlisted := (replaceRecord_ledger h hr).listSlot r.slot
  unfold settleRecord
  dsimp only
  split
  · exact removeRecord_ledger hlisted r
  · exact hlisted

/-! ### Admission (R7 to R11, R86, R88) -/

theorem previewStarted_ledger (h : Ledger F R s) (title : Word) (index : Nat) :
    Ledger F R (s.previewStarted title index) :=
  (createRecord_ledger h _ _ _ _ _ fun _ => rule.uncharged).of_kept ⟨rfl, rfl, rfl⟩

theorem judge_ledger (h : Ledger F R s) (p : PathId) : Ledger F R (judge p s) := by
  obtain ⟨-, ⟨x, hw⟩ | ⟨title, index, x, y, -, hw, -⟩⟩ := judge_cases p s
  · rw [hw]
    exact h.setPath p x
  · rw [hw]
    exact ((previewStarted_ledger rule h title index).setPath p x).setPath _ y

theorem judgeBoth_ledger (h : Ledger F R s) : Ledger F R (judgeBoth s) := by
  obtain ⟨p, n, he⟩ := judgeBoth_eq s
  have hchosen : Ledger F R { s with choice := n } := h.of_kept ⟨rfl, rfl, rfl⟩
  rw [he]
  exact judge_ledger rule (judge_ledger rule hchosen _) _

theorem judgeReached_ledger (h : Ledger F R s) (a b : Bool) : Ledger F R (judgeReached a b s) := by
  cases a <;> cases b
  · exact h
  · exact judge_ledger rule h _
  · exact judge_ledger rule h _
  · exact judgeBoth_ledger rule h

theorem changeRecord_ledger (h : Ledger F R s) {r : Record} (hr : R r) : Ledger F R (changeRecord r s) :=
  judgeReached_ledger rule (settleRecord_ledger h hr) _ _

theorem leavePreview_ledger (h : Ledger F R s) {r : Record} (hr : R r) : Ledger F R (leavePreview r s) :=
  judgeReached_ledger rule (settleRecord_ledger h hr) _ _

omit rule in
theorem handEndedTitle_ledger (h : Ledger F R s) (title : Word) : Ledger F R (handEndedTitle title s) :=
  h.of_kept (by simp)

end

end Sys2Proof.Machine
end

