-- ==== Sys2Proof/Proofs/LedgerAtEvents.lean ====
section
/-!
SUPPORT. The ledger keeps its properties at every event of the blocks: the log, the lock unit, the tables, the clocks, the
record store and the line port.
-/
namespace Sys2Proof.Machine

section
variable {F : Folio → Prop} {R : Record → Prop} {s : State} (rule : LedgerRule F R)
include rule

/-! ### The log (R89 to R92, R97 to R100, R77 to R79) -/

theorem endAuto_ledger (h : Ledger F R s) {r : Record} (hr : R r) : Ledger F R (endAuto r s) := by
  have hstate : ∀ state, R { r with state := state } := fun _ => rule.sameCharge hr rfl
  unfold endAuto
  split
  · exact leavePreview_ledger rule h (hstate _)
  · split
    · exact leavePreview_ledger rule h (hstate _)
    · split
      · exact leavePreview_ledger rule h (hstate _)
      · rename_i f c hc
        exact leavePreview_ledger rule ((grantCharge_ledger rule hc h.folio h).report _) (rule.charged hc rfl)

theorem countPreview_ledger (h : Ledger F R s) {r : Record} (hr : R r) : Ledger F R (countPreview r s) := by
  have hused : R { r with used := r.used + 1 } := rule.sameCharge hr rfl
  have hlisted := (replaceRecord_ledger h hused).listSlot r.slot
  unfold countPreview
  dsimp only
  split
  · exact hlisted
  · split
    · exact leavePreview_ledger rule hlisted (rule.sameCharge hused rfl)
    · exact endAuto_ledger rule hlisted hused

theorem previewMinute_ledger (h : Ledger F R s) (seq : Half) : Ledger F R (previewMinute seq s) := by
  unfold previewMinute
  split
  · split
    · exact countPreview_ledger rule h (h.log _ (mem_of_recordOf ‹_›))
    · exact h
  · exact h

theorem lastPreviewMinute_ledger (h : Ledger F R s) (policy : Policy) (seq : Half) :
    Ledger F R (lastPreviewMinute policy seq s) := by
  unfold lastPreviewMinute
  split
  · split
    · exact countPreview_ledger rule h (h.log _ (mem_of_recordOf ‹_›))
    · exact h
  · exact h

theorem endWindow_ledger (h : Ledger F R s) {r : Record} (hr : R r) : Ledger F R (endWindow r s) :=
  handEndedTitle_ledger (settleRecord_ledger (r := { r with state := .ended }) (h.report _) (rule.sameCharge hr rfl)) _

theorem windowMinute_ledger (h : Ledger F R s) (seq : Half) : Ledger F R (windowMinute seq s) := by
  unfold windowMinute
  split
  · exact h
  · rename_i r hfound
    have hr := h.log r (mem_of_recordOf hfound)
    split
    · dsimp only
      split
      · exact endWindow_ledger rule h hr
      · have hcounted := replaceRecord_ledger h (r := { r with state := .bought (r.window - 1) }) (rule.sameCharge hr rfl)
        split
        · exact hcounted.listSlot _
        · exact hcounted
    · exact h

theorem lastWindowMinute_ledger (h : Ledger F R s) (seq : Half) : Ledger F R (lastWindowMinute seq s) := by
  unfold lastWindowMinute
  split
  · split
    · exact endWindow_ledger rule h (h.log _ (mem_of_recordOf ‹_›))
    · exact h
  · exact h

theorem closeLog_ledger (h : Ledger F R s) : Ledger F R (closeLog s) := by
  refine Ledger.foldl_records (fun u r hr hu => ?_) h.log h
  split
  · exact hu
  · exact settleRecord_ledger hu (rule.sameCharge hr (closed_charge r))

theorem collectRecords_ledger (h : Ledger F R s) (after : Half) : Ledger F R (collectRecords after s).1 := by
  refine ⟨h.folio, fun x hx => ?_, h.images⟩
  obtain ⟨y, hy, rfl⟩ := List.mem_map.1 hx
  split
  · exact rule.sameCharge (h.log y hy) rfl
  · exact h.log y hy

theorem releaseThrough_ledger (h : Ledger F R s) (seq : Half) : Ledger F R (releaseThrough seq s).1 := by
  unfold releaseThrough
  split
  · exact h
  · refine Ledger.foldl_records (fun u r hr hu => ?_) (fun r hr => h.log r (mem_of_mem_throughSeq hr)) h
    unfold releaseRecord
    dsimp only
    (repeat' split)
    · exact hu
    · exact settleRecord_ledger hu (rule.sameCharge hr rfl)
    · exact hu

theorem voidRecord_ledger (h : Ledger F R s) {r : Record} (hr : R r) : Ledger F R (voidRecord r s) := by
  have hvoided : R { r with state := .voided } := rule.sameCharge hr rfl
  have hrefunded : ∀ billed sameDay,
      Ledger F R (listSlot folioSlot { s with folio := s.folio.refunded billed sameDay }) := fun billed sameDay =>
    (h.withFolio (rule.refunded billed sameDay h.folio)).listSlot _
  unfold voidRecord
  dsimp only
  split
  · exact changeRecord_ledger rule (hrefunded _ _) hvoided
  · exact handEndedTitle_ledger (settleRecord_ledger (hrefunded _ _) hvoided) _

theorem voidSeq_ledger (h : Ledger F R s) (seq : Half) : Ledger F R (voidSeq seq s).1 := by
  unfold voidSeq
  split
  · exact h
  · split
    · exact h
    · rename_i r hfound
      have hr := h.log r (mem_of_recordOf hfound)
      split
      · exact h
      · split
        case h_5 | h_6 => exact voidRecord_ledger rule h hr
        all_goals exact h

theorem acceptOrder_ledger (h : Ledger F R s) {price : Nat} (o : OfferEntry) {f : Folio} {c : Charge}
    (hc : chargeRequest price s = .granted f c) : Ledger F R (acceptOrder o f c s) := by
  have hgranted := grantCharge_ledger rule hc h.folio h
  have hwaits : ∀ {u}, Ledger F R u → ∀ w code data, Ledger F R (acceptStore w code data u) := fun hu _ _ _ =>
    hu.of_kept (by simp)
  unfold acceptOrder
  dsimp only
  split
  · exact endEvent_ledger rule (judgeReached_ledger rule
      (hwaits (settleRecord_ledger hgranted (rule.charged hc rfl)) _ _ _) _ _)
  · exact endEvent_ledger rule (judgeReached_ledger rule
      (hwaits (createRecord_ledger hgranted _ _ _ _ _ fun _ => rule.charged hc) _ _ _) _ _)

/-! ### The lock unit (R107 to R119) -/

theorem applyLock_ledger (h : Ledger F R s) (l : Lock) : Ledger F R (applyLock l s) := by
  have hlisted : Ledger F R (if l.stored = s.lock.stored then { s with lock := l }
      else listSlot lockSlot { s with lock := l }) := by
    split <;> exact h.of_kept (by simp)
  unfold applyLock
  dsimp only
  split
  · exact hlisted
  · exact judgeBoth_ledger rule hlisted

theorem countWrong_ledger (h : Ledger F R s) : Ledger F R (countWrong s) := by
  unfold countWrong
  dsimp only
  split
  · exact applyLock_ledger rule h _
  · exact (applyLock_ledger rule h _).report _

theorem expireUnlock_ledger (h : Ledger F R s) : Ledger F R (expireUnlock s) :=
  applyLock_ledger rule (h.report _) _

theorem lockMinute_ledger (h : Ledger F R s) : Ledger F R (lockMinute s) := by
  have hcounted : ∀ l, Ledger F R { s with lock := l } := fun l => h.of_kept ⟨rfl, rfl, rfl⟩
  unfold lockMinute
  split
  · exact h
  · split
    · exact expireUnlock_ledger rule h
    · exact hcounted _
  · split
    · exact applyLock_ledger rule h _
    · exact hcounted _

theorem lockMessage_ledger (h : Ledger F R s) (args : List Byte) : Ledger F R (lockMessage args s).1 := by
  unfold lockMessage
  dsimp only
  split
  · exact h
  · split <;> exact applyLock_ledger rule h _

/-! ### Tables and minutes (R48 to R56, R123 to R126) -/

theorem tableCommitMessage_ledger (h : Ledger F R s) (args : List Byte) :
    Ledger F R (tableCommitMessage args s) := by
  unfold tableCommitMessage
  dsimp only
  (repeat' split)
  · exact h
  · exact h.of_kept (by simp)
  · exact h.of_kept (by simp)
  · exact judgeBoth_ledger rule (h.of_kept (by simp))

theorem endPass_ledger (h : Ledger F R s) (t : TableId) (crc : Half) (diagnostic : Bool) :
    Ledger F R (endPass t crc diagnostic s) := by
  have hreported : ∀ (x : Table) (b : Bool) (f : DetailFlag),
      Ledger F R (if b then report f (s.setTable t x) else s.setTable t x) := fun x b f => by
    split <;> exact h.of_kept (by simp)
  unfold endPass
  dsimp only
  split
  · exact hreported _ _ _
  · split
    · exact hreported _ _ _
    · exact judgeBoth_ledger rule (hreported _ _ _)

theorem scanStep_ledger (h : Ledger F R s) (t : TableId) : Ledger F R (scanStep t s) := by
  unfold scanStep
  dsimp only
  (repeat' split)
  · exact h
  · exact endEvent_ledger rule (endPass_ledger rule h _ _ _)
  · exact h.of_kept (by simp)

theorem midnight_ledger (h : Ledger F R s) : Ledger F R (midnight s) :=
  dayChange_ledger rule (h.of_kept ⟨rfl, rfl, rfl⟩)

theorem clockMinute_ledger (h : Ledger F R s) : Ledger F R (clockMinute s) := by
  unfold clockMinute
  split
  · exact midnight_ledger rule h
  · exact h.of_kept ⟨rfl, rfl, rfl⟩

theorem timeMessage_ledger (h : Ledger F R s) (args : List Byte) : Ledger F R (timeMessage args s) := by
  have hset : ∀ clock, Ledger F R { s with clock := clock } := fun clock => h.of_kept ⟨rfl, rfl, rfl⟩
  unfold timeMessage
  dsimp only
  split
  · exact hset _
  · exact dayChange_ledger rule (hset _)

theorem takeMinute_ledger (h : Ledger F R s) (bought : List Half) (taker : MinuteTaker) :
    Ledger F R (takeMinute bought s taker) := by
  cases taker with
  | clock => exact clockMinute_ledger rule h
  | keys => exact h.of_kept (t := keysMinute s) (by simp)
  | watchdog => exact h.of_kept (t := watchdogMinute s) (by simp)
  | lock => exact lockMinute_ledger rule h
  | windows => exact Ledger.foldl (fun u seq hu => windowMinute_ledger rule hu seq) bought h
  | preview seq => exact previewMinute_ledger rule h seq

theorem minute_ledger (h : Ledger F R s) (order : List MinuteTaker) : Ledger F R (minute order s) :=
  Ledger.foldl (fun _ taker hu => takeMinute_ledger rule hu _ taker) _ (h.of_kept ⟨rfl, rfl, rfl⟩)

theorem second_ledger (h : Ledger F R s) (order : List MinuteTaker) : Ledger F R (second order s) := by
  unfold second
  split
  · exact minute_ledger rule h order
  · exact h.of_kept ⟨rfl, rfl, rfl⟩

theorem whenRunning_ledger {f : State → State} (hf : ∀ u, Ledger F R u → Ledger F R (f u)) (h : Ledger F R s) :
    Ledger F R (whenRunning f s) := by
  unfold whenRunning
  split
  · exact endEvent_ledger rule (hf s h)
  · exact h

/-! ### The record store's events (R134, R137, R138, R159) -/

omit rule in
/-- A write completes: its slot holds the image that was being written (R134). -/
theorem storeImage_ledger (h : Ledger F R s) {w : SlotWrite} (hw : s.store.write = some w) :
    Ledger F R (storeImage w s) := by
  refine ⟨h.folio, h.log, fun i hi => h.images i ((mem_images _ _).2 ?_)⟩
  rcases (mem_images _ _).1 hi with hslot | ⟨_, hnone, -⟩
  · rcases List.mem_or_eq_of_mem_set hslot with hstood | hwritten
    · exact .inl hstood
    · cases hwritten
      exact .inr ⟨w, hw, rfl⟩
  · cases hnone

theorem completeWrite_ledger (h : Ledger F R s) : Ledger F R (completeWrite s) := by
  have hreleased : ∀ {u}, Ledger F R u → ∀ w, Ledger F R (releaseWaiting w u) := fun {u} hu w => by
    unfold releaseWaiting
    split
    · split
      · exact finishWaiting_ledger hu _
      · exact hu
    all_goals exact hu
  have hbegun : ∀ {u}, Ledger F R u → Ledger F R (beginCheck u) := fun {u} hu => by
    unfold beginCheck
    split
    · exact hu.of_kept ⟨rfl, rfl, rfl⟩
    all_goals exact hu
  unfold completeWrite
  split
  · exact h
  · exact endEvent_ledger rule (hbegun (hreleased (storeImage_ledger h ‹_›) _))

theorem resetEvent_ledger (h : Ledger F R s) : Ledger F R (resetEvent s) := by
  unfold resetEvent
  split
  · split
    · exact completeWrite_ledger rule h
    · exact endEvent_ledger rule h
  · exact h

/-- The slots give back records that have the property of records: those of their images, placed (R131, R140). -/
theorem readRecords_meets {slots : List Slot} (hs : ∀ r, .intact (.record r) ∈ slots → R r) (k : Nat)
    {kept : List Record} (hk : ∀ r ∈ kept, R r) : ∀ r ∈ (readRecords k slots kept).1, R r := by
  induction slots generalizing k kept with
  | nil => exact hk
  | cons slot rest ih =>
    have hrest : ∀ r, .intact (.record r) ∈ rest → R r := fun r hr => hs r (List.mem_cons_of_mem _ hr)
    have hskip := ih hrest (k + 1) hk
    rcases slot with (_ | r | _ | _ | _) | _
    case intact.record =>
      have hplaced : R { r with slot := k } := rule.sameCharge (hs r List.mem_cons_self) rfl
      unfold readRecords
      split
      · exact hskip
      · exact ih hrest (k + 1) fun x hx => (List.mem_append.1 hx).elim (hk x)
          fun hx => by rwa [List.mem_singleton.1 hx]
    all_goals exact hskip

/-- The working copies that the start-up check rebuilds are those of the images, or the given ones (R81, R105). -/
theorem rebuildCopies_ledger (h : Ledger F R s) : Ledger F R (rebuildCopies s) := by
  have hslot : ∀ {i}, .intact i ∈ s.store.slots → i.meets F R := fun hi => h.images _ ((mem_images _ _).2 (.inl hi))
  refine ⟨?_, fun x hx => ?_, h.images⟩
  · show F ((s.store.folioImage.map (·.1)).getD Folio.default)
    rcases hf : s.store.folioImage with _ | ⟨f, next⟩
    · exact rule.default
    · unfold Store.folioImage at hf
      split at hf
      · rename_i g _ hstored
        split at hf
        · cases hf
          exact hslot (List.mem_of_getElem? hstored)
        · cases hf
      · cases hf
  · obtain ⟨r, hr, he⟩ := List.mem_filterMap.1 hx
    have hread : R r := readRecords_meets rule (fun y hy => hslot (List.mem_of_mem_take hy)) 0
      (fun _ hn => absurd hn List.not_mem_nil) r (mem_of_mem_logOrder hr)
    unfold Record.rebuilt at he
    (repeat' split at he) <;> cases he
    · exact hread
    · exact hread
    · exact rule.sameCharge hread (closed_charge r)

theorem completeCheck_ledger (h : Ledger F R s) : Ledger F R (completeCheck s) := by
  have hreported : ∀ {u}, Ledger F R u → ∀ {b f}, Ledger F R (reportIf b f u) := fun hu b f => by
    unfold reportIf
    split
    · exact hu.report f
    · exact hu
  have hlisted : ∀ {u}, Ledger F R u → ∀ {ks}, Ledger F R (listSlots ks u) := fun hu ks =>
    Ledger.foldl (fun _ k hv => hv.listSlot k) ks hu
  have hcopies := rebuildCopies_ledger rule h
  unfold completeCheck
  dsimp only
  refine endEvent_ledger rule ?_
  split
  · exact (hlisted (hreported (hreported (hreported hcopies)))).listSlot _
  · exact hlisted (hreported (hreported (hreported hcopies)))

/-- Power-on and pin reset give the folio record of a damaged slot and an empty log; the slots stand, or the one being
written is damaged, and a write in flight goes on with its image or is cut off (R137, R138). -/
theorem reset_ledger (h : Ledger F R s) {t : State} (hf : t.folio = Folio.default) (hl : t.log = [])
    (hs : ∀ i, .intact i ∈ t.store.slots → .intact i ∈ s.store.slots)
    (hw : ∀ w, t.store.write = some w → ∃ v, s.store.write = some v ∧ v.image = w.image) : Ledger F R t := by
  refine ⟨hf ▸ rule.default, by simp [hl], fun i hi => h.images i ((mem_images _ _).2 ?_)⟩
  rcases (mem_images _ _).1 hi with hslot | ⟨w, hbegun, rfl⟩
  · exact .inl (hs i hslot)
  · exact .inr (hw w hbegun)

theorem losePower_ledger (h : Ledger F R s) : Ledger F R (losePower s) := by
  refine reset_ledger rule h rfl rfl (fun i hi => ?_) nofun
  change _ ∈ tearWrite s.store at hi
  unfold tearWrite at hi
  split at hi
  · exact (List.mem_or_eq_of_mem_set hi).resolve_right nofun
  · exact hi

theorem applyPower_ledger (h : Ledger F R s) : Ledger F R (applyPower s) :=
  (losePower_ledger rule h).of_kept ⟨rfl, rfl, rfl⟩

theorem takeReset_ledger (h : Ledger F R s) : Ledger F R (takeReset s) := by
  refine reset_ledger rule h rfl rfl (fun _ hi => hi) fun w hw => ?_
  obtain ⟨v, hv, rfl⟩ := Option.map_eq_some_iff.1 hw
  exact ⟨v, hv, rfl⟩

/-! ### The folio's messages (R62 to R66) -/

theorem checkInMessage_ledger (h : Ledger F R s) (args : List Byte) : Ledger F R (checkInMessage args s).1 := by
  have hopened : ∀ policy lock, Ledger F R
      { s with folio := checkInFolio args policy, previewed := [], lock := lock } := fun policy lock =>
    ⟨rule.checkIn args policy, h.log, h.images⟩
  unfold checkInMessage
  (repeat' split)
  · exact h
  · exact h
  · exact h
  · exact judgeBoth_ledger rule ((((hopened _ _).listSlot _).listSlot _).report _)

theorem checkOutMessage_ledger (h : Ledger F R s) (args : List Byte) : Ledger F R (checkOutMessage args s).1 := by
  have hlock : ∀ {u}, Ledger F R u → Ledger F R (lockCheckOut u) := fun {u} hu => by
    unfold lockCheckOut
    dsimp only
    split <;> exact hu.of_kept (by simp)
  unfold checkOutMessage
  split
  · exact judgeBoth_ledger rule ((hlock (closeLog_ledger rule
      ((h.withFolio (rule.marks .closed 0 s.folio.capMark h.folio)).listSlot _))).report _)
  · exact h

theorem folioEvent_ledger (h : Ledger F R s) {f : Folio} (hf : F f) : Ledger F R (folioEvent f s) := by
  unfold folioEvent
  split
  · exact h
  · exact judgeBoth_ledger rule (h.setFolio hf)

theorem holdMessage_ledger (h : Ledger F R s) (args : List Byte) : Ledger F R (holdMessage args s).1 := by
  unfold holdMessage
  dsimp only
  (repeat' split)
  · exact h
  · exact h
  all_goals exact folioEvent_ledger rule h (rule.marks _ s.folio.packages s.folio.capMark h.folio)

theorem packagesMessage_ledger (h : Ledger F R s) (args : List Byte) : Ledger F R (packagesMessage args s).1 := by
  unfold packagesMessage
  split
  · exact h
  · exact folioEvent_ledger rule h (rule.marks s.folio.state _ s.folio.capMark h.folio)

/-! ### The line port (R143 to R149) -/

/-- The ledger keeps its properties at whatever an owner of a message does (R146). -/
theorem messageKind_ledger {kind : Byte} {m : MessageKind} (hm : messageKind kind = some m) (payload : List Byte)
    (h : Ledger F R s) : Ledger F R (m.act payload s).1 := by
  unfold messageKind at hm
  obtain rfl | hm := row_or_later hm
  · exact h
  obtain rfl | hm := row_or_later hm
  · exact timeMessage_ledger rule h payload
  obtain rfl | hm := row_or_later hm
  · exact h.of_kept (t := keyMessage payload s) (by simp)
  obtain rfl | hm := row_or_later hm
  · exact h.of_kept (t := keyClearMessage payload s) (by simp)
  obtain rfl | hm := row_or_later hm
  · exact h.of_kept (t := tableEntryMessage payload s) (by simp)
  obtain rfl | hm := row_or_later hm
  · exact tableCommitMessage_ledger rule h payload
  obtain rfl | hm := row_or_later hm
  · exact checkInMessage_ledger rule h payload
  obtain rfl | hm := row_or_later hm
  · exact checkOutMessage_ledger rule h payload
  obtain rfl | hm := row_or_later hm
  · exact holdMessage_ledger rule h payload
  obtain rfl | hm := row_or_later hm
  · exact packagesMessage_ledger rule h payload
  obtain rfl | hm := row_or_later hm
  · exact collectRecords_ledger rule h _
  obtain rfl | hm := row_or_later hm
  · exact releaseThrough_ledger rule h _
  obtain rfl | hm := row_or_later hm
  · exact voidSeq_ledger rule h _
  obtain rfl | hm := row_or_later hm
  · exact lockMessage_ledger rule h payload
  cases hm

theorem addressedFrame_ledger (h : Ledger F R s) (address : Half) (kind : Byte) (payload : List Byte) :
    Ledger F R (addressedFrame address kind payload s) := by
  have honline : ∀ setting, Ledger F R (bringOnline setting s) := fun setting => by
    unfold bringOnline
    dsimp only
    split
    · exact h.of_kept ⟨rfl, rfl, rfl⟩
    · exact offlineSpendReset_ledger rule (h.of_kept (by simp))
  have hact : ∀ {u}, Ledger F R u → Ledger F R (addressedAct kind payload u).1 := fun {u} hu => by
    unfold addressedAct
    split
    · exact hu
    · split
      · exact hu
      · exact messageKind_ledger rule ‹_› _ hu
  exact endEvent_ledger rule ((hact (honline _)).of_kept ⟨rfl, rfl, rfl⟩)

theorem soundFrame_ledger (h : Ledger F R s) (address : Half) (kind : Byte) (payload : List Byte) :
    Ledger F R (soundFrame address kind payload s) := by
  unfold soundFrame broadcastFrame
  (repeat' split)
  · exact h
  · exact h
  · exact endEvent_ledger rule (messageKind_ledger rule ‹_› _ h)
  · exact h
  · exact addressedFrame_ledger rule h _ _ _
  · exact h

theorem frameArrives_ledger (h : Ledger F R s) (bytes : List Byte) (tooLong framingError : Bool) :
    Ledger F R (frameArrives bytes tooLong framingError s) := by
  have hidle : Ledger F R (setReceiver .idle s) := h.of_kept ⟨rfl, rfl, rfl⟩
  unfold frameArrives
  dsimp only
  (repeat' split)
  · exact hidle.of_kept ⟨rfl, rfl, rfl⟩
  · exact hidle
  · exact soundFrame_ledger rule hidle _ _ _

theorem wholeFrame_ledger (h : Ledger F R s) (bytes : List Byte) (tooLong framingError : Bool) :
    Ledger F R (wholeFrame bytes tooLong framingError s) := by
  unfold wholeFrame
  (repeat' split)
  · exact h.of_kept ⟨rfl, rfl, rfl⟩
  · exact frameArrives_ledger rule h _ _ _
  · exact frameArrives_ledger rule h _ _ _
  · exact h
  · exact h

theorem lineIdle_ledger (h : Ledger F R s) : Ledger F R (lineIdle s) := by
  unfold lineIdle
  split
  · exact h.of_kept ⟨rfl, rfl, rfl⟩
  · exact h
  · exact frameArrives_ledger rule h _ _ _
  · exact h

omit rule in
theorem whenLineRuns_ledger {f : State → State} (hf : ∀ u, Ledger F R u → Ledger F R (f u)) (h : Ledger F R s) :
    Ledger F R (whenLineRuns f s) := by
  unfold whenLineRuns
  split
  · exact hf s h
  · exact h

end

end Sys2Proof.Machine
end

