-- ==== Sys2Proof/Proofs/LedgerInvariant.lean ====
section
/-!
PROOFS. Every step keeps the ledger's properties: the set port's commands, the paths' events, and the dispatch over all
rows; the folio totals within their limits and the charges in balance (R69 to R71).
-/
namespace Sys2Proof.Machine

section
variable {F : Folio → Prop} {R : Record → Prop} {s : State} (rule : LedgerRule F R)
include rule

/-! ### Commands of the set port (R155) -/

theorem clearFlagsCommand_ledger (h : Ledger F R s) (args : List Byte) :
    Ledger F R (clearFlagsCommand args s) := by
  have hstatus : ∀ st, Ledger F R { s with status := st } := fun st => h.of_kept ⟨rfl, rfl, rfl⟩
  unfold clearFlagsCommand
  dsimp only
  refine (endEvent_ledger rule ?_).placeReply _ _ _
  split
  · exact (hstatus _).setFolio (rule.marks s.folio.state s.folio.packages false h.folio)
  · exact hstatus _

theorem selectCommand_ledger (h : Ledger F R s) (args : List Byte) : Ledger F R (selectCommand args s) := by
  unfold selectCommand
  dsimp only
  (repeat' split)
  · exact h.placeReply _ _ _
  · exact (h.setPath _ _).placeReply _ _ _
  · exact h.placeReply _ _ _
  · exact (endEvent_ledger rule (judge_ledger rule (h.setPath _ _) _)).placeReply _ _ _

theorem orderCommand_ledger (h : Ledger F R s) (args : List Byte) : Ledger F R (orderCommand args s) := by
  unfold orderCommand
  dsimp only
  repeat' split
  case h_2 => exact acceptOrder_ledger rule h _ ‹_›
  all_goals exact h.placeReply _ _ _

theorem enterPinCommand_ledger (h : Ledger F R s) (args : List Byte) : Ledger F R (enterPinCommand args s) := by
  unfold enterPinCommand
  dsimp only
  (repeat' split)
  · exact h.placeReply _ _ _
  · exact h.placeReply _ _ _
  · exact (endEvent_ledger rule (applyLock_ledger rule h _)).placeReply _ _ _
  · exact (endEvent_ledger rule (countWrong_ledger rule h)).placeReply _ _ _

theorem acceptLock_ledger (h : Ledger F R s) (w : Waiting) (code : Byte) (l : Lock) :
    Ledger F R (acceptLock w code l s) :=
  endEvent_ledger rule (((applyLock_ledger rule h l).listSlot lockSlot).of_kept (by simp))

theorem setPinCommand_ledger (h : Ledger F R s) (args : List Byte) : Ledger F R (setPinCommand args s) := by
  unfold setPinCommand
  dsimp only
  (repeat' split)
  · exact h.placeReply _ _ _
  · exact acceptLock_ledger rule h _ _ _
  · exact acceptLock_ledger rule h _ _ _
  · exact (endEvent_ledger rule (countWrong_ledger rule h)).placeReply _ _ _

theorem setCeilingCommand_ledger (h : Ledger F R s) (args : List Byte) : Ledger F R (setCeilingCommand args s) := by
  unfold setCeilingCommand
  dsimp only
  (repeat' split)
  · exact h.placeReply _ _ _
  · exact acceptLock_ledger rule h _ _ _
  · exact acceptLock_ledger rule h _ _ _
  · exact (endEvent_ledger rule (countWrong_ledger rule h)).placeReply _ _ _

theorem relockCommand_ledger (h : Ledger F R s) (args : List Byte) : Ledger F R (relockCommand args s) := by
  unfold relockCommand
  split
  · exact h.placeReply _ _ _
  · exact (endEvent_ledger rule (applyLock_ledger rule h _)).placeReply _ _ _

theorem setRoomCommand_ledger (h : Ledger F R s) (args : List Byte) : Ledger F R (setRoomCommand args s) := by
  unfold setRoomCommand
  dsimp only
  (repeat' split)
  · exact h.placeReply _ _ _
  · exact h.placeReply _ _ _
  · exact endEvent_ledger rule (h.of_kept (by simp))

theorem resetCommand_ledger (h : Ledger F R s) (args : List Byte) : Ledger F R (resetCommand args s) :=
  endEvent_ledger rule (h.of_kept (by simp))

/-- Every command of the table keeps the ledger's properties. -/
theorem setCommand_ledger {code : Byte} {c : SetCommand} (hc : setCommand code = some c) (args : List Byte)
    (h : Ledger F R s) : Ledger F R (c.run args s) := by
  unfold setCommand at hc
  obtain rfl | hc := row_or_later hc
  · exact h
  obtain rfl | hc := row_or_later hc
  · exact h.placeReply _ _ _
  obtain rfl | hc := row_or_later hc
  · exact clearFlagsCommand_ledger rule h args
  obtain rfl | hc := row_or_later hc
  · exact h.of_kept ⟨rfl, rfl, rfl⟩
  obtain rfl | hc := row_or_later hc
  · exact selectCommand_ledger rule h args
  obtain rfl | hc := row_or_later hc
  · dsimp only [readPathCommand]
    split <;> exact h.placeReply _ _ _
  obtain rfl | hc := row_or_later hc
  · dsimp only [engineTestCommand]
    split
    · exact h.placeReply _ _ _
    · exact h.of_kept (by simp)
  obtain rfl | hc := row_or_later hc
  · dsimp only [readChannelCommand]
    split <;> exact h.placeReply _ _ _
  obtain rfl | hc := row_or_later hc
  · dsimp only [readOfferCommand]
    split <;> exact h.placeReply _ _ _
  obtain rfl | hc := row_or_later hc
  · dsimp only [tableTestCommand]
    split <;> exact h.of_kept (by simp)
  obtain rfl | hc := row_or_later hc
  · exact orderCommand_ledger rule h args
  obtain rfl | hc := row_or_later hc
  · exact h.placeReply _ _ _
  obtain rfl | hc := row_or_later hc
  · dsimp only [readRecordCommand]
    (repeat' split) <;> exact h.placeReply _ _ _
  obtain rfl | hc := row_or_later hc
  · exact enterPinCommand_ledger rule h args
  obtain rfl | hc := row_or_later hc
  · exact setPinCommand_ledger rule h args
  obtain rfl | hc := row_or_later hc
  · exact setCeilingCommand_ledger rule h args
  obtain rfl | hc := row_or_later hc
  · exact relockCommand_ledger rule h args
  obtain rfl | hc := row_or_later hc
  · exact setRoomCommand_ledger rule h args
  obtain rfl | hc := row_or_later hc
  · exact h.placeReply _ _ _
  obtain rfl | hc := row_or_later hc
  · exact resetCommand_ledger rule h args
  cases hc

theorem setFrame_ledger (h : Ledger F R s) (code : Byte) (args : List Byte) : Ledger F R (setFrame code args s) := by
  have hport : ∀ port : SetPort, Ledger F R { s with port := port } := fun port => h.of_kept ⟨rfl, rfl, rfl⟩
  by_cases hrun : s.phase ≠ .running ∨ s.port.frame = .abandoned
  · rw [setFrame_notTaken hrun]
    exact hport _
  · obtain ⟨hphase, hframe⟩ := not_or.1 hrun
    rw [not_not] at hphase
    cases hd : s.port.busy.discardsFrame code with
    | true =>
      rw [setFrame_discarded hphase hframe hd]
      exact hport _
    | false =>
      have hover : Ledger F R (s.frameOver (1 + args.length)) := hport _
      rw [setFrame_taken hphase hframe hd]
      unfold takeCommand SetCommand.take
      split
      · exact hover.placeReply _ _ _
      · split
        · exact hover.placeReply _ _ _
        · exact setCommand_ledger rule ‹_› _ hover

/-! ### The paths' events (R1, R13, R14, R16) -/

omit rule in
theorem inputStrobe_ledger (h : Ledger F R s) (p : PathId) (mark : Bool) (b : Byte) :
    Ledger F R (inputStrobe p mark b s) := by
  have hcomplete : ∀ c, Ledger F R (cellComplete p c s) := fun c => by
    unfold cellComplete
    dsimp only
    (repeat' split)
    · exact h.setPath _ _
    · exact (h.setPath _ _).report _
    · exact h.setPath _ _
  unfold inputStrobe
  dsimp only
  (repeat' split)
  · exact h.setPath _ _
  · exact h.setPath _ _
  · exact h
  · exact hcomplete _
  · exact h.setPath _ _
  · exact h

omit rule in
theorem takeCell_ledger (h : Ledger F R s) (p : PathId) : Ledger F R (takeCell p s) := by
  have hkey : ∀ {u}, Ledger F R u → ∀ c, Ledger F R (keyCheck p c u) := fun {u} hu c => by
    unfold keyCheck
    split <;> exact hu.of_kept (by simp)
  have htreat : ∀ {u}, Ledger F R u → ∀ c, Ledger F R (treatCell p c u) := fun {u} hu c => by
    have hleave : ∀ cell how, Ledger F R (leaveCell p cell how u) := fun _ _ => hu.setPath _ _
    unfold treatCell
    split
    case h_1 => exact hu
    case h_2 | h_8 | h_9 =>
      split
      · exact hkey hu c
      · exact hleave _ _
    all_goals exact hleave _ _
  unfold takeCell
  dsimp only
  (repeat' split)
  · exact htreat (h.setPath _ _) _
  · exact h.setPath _ _
  · exact h
  · exact h

omit rule in
theorem cellLeft_ledger (h : Ledger F R s) (p : PathId) : Ledger F R (cellLeft p s) := by
  unfold cellLeft
  dsimp only
  split
  case h_1 | h_2 | h_3 => exact h.setPath _ _
  all_goals exact h

/-! ### Every row (R69 to R71) -/

/-- Every row keeps the ledger's properties: the ends of set port frames, the message frames, and the rest one by one. -/
theorem exec_ledger (c : Instr) (h : Ledger F R s) : ∃ t, exec c s = .next t ∧ Ledger F R t := by
  have hwhen : ∀ {f : State → State}, (∀ u, Ledger F R u → Ledger F R (f u)) → Ledger F R (whenRunning f s) :=
    fun hf => whenRunning_ledger rule hf h
  have hline : ∀ {f : State → State}, (∀ u, Ledger F R u → Ledger F R (f u)) → Ledger F R (whenLineRuns f s) :=
    fun hf => whenLineRuns_ledger hf h
  have hif : ∀ {q : Prop} [Decidable q] {t u : State}, Ledger F R t → Ledger F R u →
      Ledger F R (if q then t else u) := fun ht hu => by split <;> assumption
  cases hset : setPortFrame c with
  | some frame => exact ⟨_, exec_setFrame hset, setFrame_ledger rule h _ _⟩
  | none =>
  cases hmessage : linePortFrame c with
  | some frame => exact ⟨_, exec_messageFrame hmessage, hline fun u hu => wholeFrame_ledger rule hu _ _ _⟩
  | none =>
  cases c with
  | cellArrives p b => exact ⟨_, rfl, inputStrobe_ledger h p false b⟩
  | cellInputStrobe p mark b => exact ⟨_, rfl, inputStrobe_ledger h p mark b⟩
  | cellTake p => exact ⟨_, rfl, hif (takeCell_ledger h p) h⟩
  | cellLeaves p => exact ⟨_, rfl, cellLeft_ledger h p⟩
  | engineComplete => exact ⟨_, rfl, h.of_kept (by simp)⟩
  | slotWriteComplete => exact ⟨_, rfl, completeWrite_ledger rule h⟩
  | resetTakesEffect => exact ⟨_, rfl, resetEvent_ledger rule h⟩
  | setFrameStart =>
    refine ⟨_, rfl, ?_⟩
    unfold frameStart
    split <;> exact h.of_kept ⟨rfl, rfl, rfl⟩
  | setFrameDiscarded frame =>
    cases frame with
    | nil => exact ⟨closeFrame s, rfl, h.of_kept ⟨rfl, rfl, rfl⟩⟩
    | cons code args => cases hset
  | lineIdleDetected => exact ⟨_, rfl, hline fun u hu => lineIdle_ledger rule hu⟩
  | lineFrameIgnored bytes framingError tooLong =>
    exact ⟨_, rfl, hline fun u hu => wholeFrame_ledger rule hu _ _ _⟩
  | lineCharacterArrives b stopLow =>
    refine ⟨_, rfl, hline fun u hu => ?_⟩
    unfold characterArrives
    split <;> exact hu.of_kept ⟨rfl, rfl, rfl⟩
  | replyTransmitStart =>
    refine ⟨_, rfl, hline fun u hu => ?_⟩
    unfold startReply
    split <;> exact hu.of_kept ⟨rfl, rfl, rfl⟩
  | replyTransmitEnd =>
    refine ⟨_, rfl, hline fun u hu => ?_⟩
    unfold endReply
    split <;> exact hu.of_kept ⟨rfl, rfl, rfl⟩
  | secondTick order => exact ⟨_, rfl, hwhen fun u hu => second_ledger rule hu order⟩
  | minuteOfTheTimebase order => exact ⟨_, rfl, hwhen fun u hu => minute_ledger rule hu order⟩
  | midnightDayChange =>
    refine ⟨_, rfl, hwhen fun u hu => ?_⟩
    split
    · exact midnight_ledger rule hu
    · exact hu
  | previewLapse seq => exact ⟨_, rfl, hwhen fun u hu => lastPreviewMinute_ledger rule hu _ seq⟩
  | autoCharge seq => exact ⟨_, rfl, hwhen fun u hu => lastPreviewMinute_ledger rule hu _ seq⟩
  | windowEnd seq => exact ⟨_, rfl, hwhen fun u hu => lastWindowMinute_ledger rule hu seq⟩
  | keyLifeExpiry context parity =>
    refine ⟨_, rfl, hwhen fun u hu => ?_⟩
    unfold expireHalf
    (repeat' split)
    · exact hu.of_kept (by simp)
    · exact hu
    · exact hu
  | unlockExpiry =>
    refine ⟨_, rfl, hwhen fun u hu => ?_⟩
    split
    · exact expireUnlock_ledger rule hu
    · exact hu
  | lockoutEnd =>
    refine ⟨_, rfl, hwhen fun u hu => ?_⟩
    split
    · exact applyLock_ledger rule hu _
    · exact hu
  | watchdogExpiry =>
    refine ⟨_, rfl, hwhen fun u hu => ?_⟩
    split
    · exact hu.of_kept (by simp)
    · exact hu
  | scanStep table => exact ⟨_, rfl, hif (scanStep_ledger rule h table) h⟩
  | liveTableUpset table index entry =>
    refine ⟨_, rfl, hif ?_ h⟩
    unfold upset
    split
    · exact h.of_kept (by simp)
    · exact h
  | powerLoss => exact ⟨_, rfl, losePower_ledger rule h⟩
  | powerOnReset => exact ⟨_, rfl, applyPower_ledger rule h⟩
  | pinReset => exact ⟨_, rfl, hif h (takeReset_ledger rule h)⟩
  | pinResetRelease => exact ⟨_, rfl, hif (h.of_kept (t := releaseReset s) ⟨rfl, rfl, rfl⟩) h⟩
  | startUpCheckComplete => exact ⟨_, rfl, hif (completeCheck_ledger rule h) h⟩
  | unknownCommand | nop | readStatus | clearFlags | setMasks | select | readPath | engineTest | readChannel | readOffer
  | tableTest | order | readFolio | readRecord | enterPin | setPin | setCeiling | relock | setRoom | readTime
  | reset => cases hset
  | lineUnknownKind | poll | time | key | keyClear | tableEntry | tableCommit | checkIn | checkOut | hold | packages
  | collect | release | void | lock => cases hmessage

/-- Taking a command off the queue is nothing to the ledger, and every row keeps its properties. -/
theorem step_ledger {t : State} (h : Ledger F R s) (hstep : step s = .next t) : Ledger F R t := by
  unfold step at hstep
  split at hstep
  · cases hstep
    exact h
  · rename_i c rest _
    have hqueue : Ledger F R { s with pending := rest } := h.of_kept ⟨rfl, rfl, rfl⟩
    obtain ⟨u, he, hu⟩ := exec_ledger rule c hqueue
    rw [he] at hstep
    cases hstep
    exact hu

end

/-! ### A granted charge (R67 to R72) -/

/-- What a granted charge says: its amounts, and that they stand within the credit limit and, OFFLINE, within the
allowance. -/
theorem chargeRequest_granted {price : Nat} {s : State} {f : Folio} {c : Charge}
    (h : chargeRequest price s = .granted f c) :
    let full := price + taxOf price s.folio.taxRate
    let billed := s.folio.billed full
    f = s.folio.charged s.line.online billed (full - billed) ∧
      c = { list := price, tax := taxOf price s.folio.taxRate, billed := billed, waived := full - billed
            day := s.clock.day, minute := s.clock.minute } ∧
      s.folio.total + billed ≤ s.folio.creditLimit ∧
      (s.line.online = false → s.folio.offlineSpend + billed ≤ s.folio.allowance) := by
  unfold chargeRequest at h
  dsimp only at h
  (repeat' split at h) <;> cases h
  rename_i hcredit hoffline
  refine ⟨rfl, rfl, by omega, fun honline => ?_⟩
  simpa [honline] using hoffline

/-- No more is billed than the full charge, and no more than the daily cap leaves (R69). -/
theorem billed_le (f : Folio) (full : Nat) :
    f.billed full ≤ full ∧ (f.dailyCap ≠ 0 → f.billed full ≤ f.dailyCap - f.daySpend) := by
  unfold Folio.billed
  split
  · exact ⟨le_rfl, fun h => absurd ‹_› h⟩
  · exact ⟨min_le_left _ _, fun _ => min_le_right _ _⟩

/-- A granted charge leaves the totals within their limits (R69 to R71). -/
theorem granted_sound {price : Nat} {s : State} {f : Folio} {c : Charge} (h : chargeRequest price s = .granted f c)
    (hs : s.folio.sound) : f.sound := by
  obtain ⟨rfl, -, hcredit, hoffline⟩ := chargeRequest_granted h
  obtain ⟨-, hcap⟩ := billed_le s.folio (price + taxOf price s.folio.taxRate)
  obtain ⟨-, hspend, hday⟩ := hs
  refine ⟨hcredit, ?_, fun hne => ?_⟩
  · show (if s.line.online then _ else _) ≤ s.folio.allowance
    split
    · exact hspend
    · rename_i honline
      exact hoffline (by simpa using honline)
  · have := hcap hne
    have := hday hne
    show s.folio.daySpend + _ ≤ s.folio.dailyCap
    omega

/-- Billed and waived make up the full charge (R69). -/
theorem granted_balanced {price : Nat} {s : State} {f : Folio} {c : Charge}
    (h : chargeRequest price s = .granted f c) : c.billed + c.waived = c.list + c.tax := by
  obtain ⟨-, rfl, -, -⟩ := chargeRequest_granted h
  obtain ⟨hle, -⟩ := billed_le s.folio (price + taxOf price s.folio.taxRate)
  exact Nat.add_sub_cancel' hle

/-- Every change that the part makes of a folio record leaves the totals within their limits (R69 to R71). -/
theorem money_rule : LedgerRule Folio.sound (fun _ => True) where
  default := ⟨le_rfl, le_rfl, fun _ => le_rfl⟩
  checkIn _ _ := ⟨Nat.zero_le _, Nat.zero_le _, fun _ => Nat.zero_le _⟩
  marks _ _ _ h := h
  newDay := fun ⟨htotal, hoffline, _⟩ => ⟨htotal, hoffline, fun _ => Nat.zero_le _⟩
  headendBack := fun ⟨htotal, _, hday⟩ => ⟨htotal, Nat.zero_le _, hday⟩
  refunded billed sameDay := fun ⟨htotal, hoffline, hday⟩ => by
    refine ⟨(Nat.sub_le _ _).trans htotal, hoffline, fun hne => le_trans ?_ (hday hne)⟩
    cases sameDay
    · exact le_rfl
    · exact Nat.sub_le _ _
  granted := granted_sound
  uncharged _ := trivial
  charged _ _ _ := trivial
  sameCharge _ _ := trivial

/-- Every charge that a record gets is a granted one, which balances (R69, R72). -/
theorem charges_rule : LedgerRule (fun _ => True) Record.balanced where
  default := trivial
  checkIn _ _ := trivial
  marks _ _ _ _ := trivial
  newDay _ := trivial
  headendBack _ := trivial
  refunded _ _ _ := trivial
  granted _ _ := trivial
  uncharged hnone c hc := by rw [hnone] at hc; cases hc
  charged hgranted r hr c hc := by
    rw [hr] at hc
    cases hc
    exact granted_balanced hgranted
  sameCharge hx he c hc := hx c (he ▸ hc)

theorem moneySound_iff (s : State) : MoneySound s ↔ Ledger Folio.sound (fun _ => True) s := by
  refine ⟨fun ⟨hfolio, himages⟩ => ⟨hfolio, fun _ _ => trivial, fun i hi => ?_⟩, fun h => ⟨h.folio, fun f next hi =>
    h.images _ hi⟩⟩
  cases i with
  | folio f next => exact himages f next hi
  | _ => trivial

theorem chargesBalance_iff (s : State) : ChargesBalance s ↔ Ledger (fun _ => True) Record.balanced s := by
  refine ⟨fun ⟨hlog, himages⟩ => ⟨trivial, hlog, fun i hi => ?_⟩, fun h => ⟨h.log, fun r hi => h.images _ hi⟩⟩
  cases i with
  | record r => exact himages r hi
  | _ => trivial

/-- Settles O56: a ledger of folio records within their limits, and one of charges in balance, both kept by every step. -/
theorem stepKeepsMoneyAndCharges : Obligations.StepKeepsMoneyAndCharges :=
  ⟨fun s t h hstep => (moneySound_iff t).2 (step_ledger money_rule ((moneySound_iff s).1 h) hstep),
    fun s t h hstep => (chargesBalance_iff t).2 (step_ledger charges_rule ((chargesBalance_iff s).1 h) hstep)⟩

end Sys2Proof.Machine
end

