-- ==== Sys2Proof/Proofs/AddressedMessageLaws.lean ====
section
/-!
SUPPORT. An addressed message that is taken (R144 to R149): the presence update, the owner's act, the reply that waits and
the event's end, which begins a write at most.
-/
namespace Sys2Proof.Machine

/-! ### What an event lists (R133, R134, R159) -/

/-- From `s` to `t` slots join the dirty list and none leaves it, no write begins, and no RESET command begins to wait. -/
structure ListsSlots (s t : State) : Prop where
  write : t.store.write = s.store.write
  dirty : ∀ k, k ∈ s.store.dirty → k ∈ t.store.dirty
  busy : t.port.busy = .reset → s.port.busy = .reset

namespace ListsSlots

variable {s t u : State}

theorem trans (h : ListsSlots s t) (h' : ListsSlots t u) : ListsSlots s u where
  write := h'.write.trans h.write
  dirty k hk := h'.dirty k (h.dirty k hk)
  busy hb := h.busy (h'.busy hb)

theorem of_kept (h : t.store = s.store ∧ t.port = s.port) : ListsSlots s t := by
  obtain ⟨hstore, hport⟩ := h
  exact ⟨by rw [hstore], fun k hk => by rwa [hstore], fun hb => by rwa [← hport]⟩

theorem refl (s : State) : ListsSlots s s := of_kept ⟨rfl, rfl⟩

/-- Changes made one after the other, each of which only lists slots. -/
theorem foldl {α : Type} {f : State → α → State} (hf : ∀ u a, ListsSlots u (f u a)) :
    ∀ (l : List α) (s : State), ListsSlots s (l.foldl f s)
  | [], s => refl s
  | a :: l, s => (hf s a).trans (foldl hf l (f s a))

end ListsSlots

theorem listSlot_lists (k : Nat) (s : State) : ListsSlots s (listSlot k s) where
  write := by
    obtain ⟨-, hwrite, -⟩ := listSlot_store k s
    exact hwrite
  dirty _ := mem_listSlot_of_mem
  busy hb := by simpa using hb

theorem ListsSlots.listSlot {s t : State} (h : ListsSlots s t) (k : Nat) : ListsSlots s (listSlot k t) :=
  h.trans (listSlot_lists k t)

theorem ListsSlots.report {s t : State} (h : ListsSlots s t) (f : DetailFlag) : ListsSlots s (report f t) :=
  h.trans (.of_kept (by simp))

theorem setFolio_lists (f : Folio) (s : State) : ListsSlots s (setFolio f s) := by
  unfold setFolio
  split
  · exact .refl s
  · have hwritten : ListsSlots s { s with folio := f } := .of_kept ⟨rfl, rfl⟩
    exact hwritten.listSlot _

theorem previewStarted_lists (s : State) (title : Word) (index : Nat) :
    ListsSlots s (s.previewStarted title index) where
  write := (previewStarted_grows s title index).write
  dirty k hk := by
    simp only [State.previewStarted, createRecord]
    split <;> simp [mem_listSlot_of_mem, hk]
  busy hb := by simpa using hb

theorem judge_lists (p : PathId) (s : State) : ListsSlots s (judge p s) := by
  obtain ⟨-, ⟨x, hw⟩ | ⟨title, index, x, y, -, hw, -⟩⟩ := judge_cases p s
  · rw [hw]
    exact .of_kept (by simp)
  · rw [hw]
    exact (previewStarted_lists s title index).trans (.of_kept (by simp))

theorem judgeBoth_lists (s : State) : ListsSlots s (judgeBoth s) := by
  obtain ⟨p, n, h⟩ := judgeBoth_eq s
  rw [h]
  exact ListsSlots.trans (t := { s with choice := n }) (.of_kept ⟨rfl, rfl⟩)
    ((judge_lists p _).trans (judge_lists p.other _))

theorem settleRecord_lists (r : Record) (s : State) : ListsSlots s (settleRecord r s) where
  write := settleRecord_write r s
  dirty k hk := by
    unfold settleRecord removeRecord
    dsimp only
    (repeat' split) <;> simp [mem_listSlot_of_mem, hk]
  busy := settleRecord_busy r s

/-! ### The presence update (R76, R149) -/

@[simp] theorem bringOnline_keeps (setting : Nat) (s : State) :
    (bringOnline setting s).phase = s.phase ∧ (bringOnline setting s).pathA = s.pathA ∧
    (bringOnline setting s).pathB = s.pathB ∧ (bringOnline setting s).engine = s.engine ∧
    (bringOnline setting s).keys = s.keys ∧ (bringOnline setting s).channels = s.channels ∧
    (bringOnline setting s).offers = s.offers ∧ (bringOnline setting s).log = s.log ∧
    (bringOnline setting s).nextSeq = s.nextSeq ∧ (bringOnline setting s).previewed = s.previewed ∧
    (bringOnline setting s).lock = s.lock ∧ (bringOnline setting s).seconds = s.seconds ∧
    (bringOnline setting s).clock = s.clock ∧ (bringOnline setting s).room = s.room ∧
    (bringOnline setting s).port = s.port ∧ (bringOnline setting s).choice = s.choice ∧
    (bringOnline setting s).pending = s.pending := by
  unfold bringOnline
  dsimp only
  split <;> simp

@[simp] theorem bringOnline_path (setting : Nat) (s : State) (p : PathId) :
    (bringOnline setting s).path p = s.path p := by cases p <;> simp [State.path]

/-- The folio record written is the one that stands after it. -/
@[simp] theorem setFolio_folio (f : Folio) (s : State) : (setFolio f s).folio = f := by
  unfold setFolio
  split
  · exact Eq.symm ‹_›
  · simp

/-- Of the folio record the presence update writes the offline spend alone (R76). -/
@[simp] theorem bringOnline_folio (setting : Nat) (s : State) :
    (bringOnline setting s).folio.state = s.folio.state ∧ (bringOnline setting s).folio.number = s.folio.number ∧
    (bringOnline setting s).folio.packages = s.folio.packages ∧ (bringOnline setting s).folio.total = s.folio.total ∧
    (bringOnline setting s).folio.daySpend = s.folio.daySpend := by
  unfold bringOnline
  dsimp only
  split <;> simp [offlineSpendReset]

theorem bringOnline_lists (setting : Nat) (s : State) : ListsSlots s (bringOnline setting s) := by
  unfold bringOnline
  dsimp only
  split
  · exact .of_kept ⟨rfl, rfl⟩
  · exact ListsSlots.trans (.of_kept (by simp)) (setFolio_lists _ _)

/-- A report sets its own flag and no other (R161). -/
theorem report_detail_ne (f : DetailFlag) (s : State) {k : Nat} (hk : k ≠ f.bit) :
    (report f s).status.detail.getLsbD k = s.status.detail.getLsbD k := by
  have hmark : f.mark.getLsbD k = false := by
    simp only [DetailFlag.mark, BitVec.getLsbD_shiftLeft, BitVec.getLsbD_one]
    simp
    omega
  simp [report, Status.report, hmark]

/-- Of the detail flags the presence update sets LINE_BACK alone (R149). -/
theorem bringOnline_detail (setting : Nat) (s : State) {k : Nat} (hk : k ≠ 1) :
    (bringOnline setting s).status.detail.getLsbD k = s.status.detail.getLsbD k := by
  unfold bringOnline
  dsimp only
  split
  · rfl
  · simp only [offlineSpendReset_keeps]
    exact report_detail_ne .lineBack _ hk

/-! ### The reply and the event's end (R147) -/

@[simp] theorem replying_keeps (address : Half) (kind : Byte) (payload : List Byte) (s : State) :
    (s.replying address kind payload).phase = s.phase ∧ (s.replying address kind payload).pathA = s.pathA ∧
    (s.replying address kind payload).pathB = s.pathB ∧ (s.replying address kind payload).engine = s.engine ∧
    (s.replying address kind payload).keys = s.keys ∧ (s.replying address kind payload).channels = s.channels ∧
    (s.replying address kind payload).offers = s.offers ∧ (s.replying address kind payload).folio = s.folio ∧
    (s.replying address kind payload).log = s.log ∧ (s.replying address kind payload).nextSeq = s.nextSeq ∧
    (s.replying address kind payload).previewed = s.previewed ∧ (s.replying address kind payload).lock = s.lock ∧
    (s.replying address kind payload).seconds = s.seconds ∧ (s.replying address kind payload).clock = s.clock ∧
    (s.replying address kind payload).store = s.store ∧ (s.replying address kind payload).room = s.room ∧
    (s.replying address kind payload).port = s.port ∧ (s.replying address kind payload).status = s.status ∧
    (s.replying address kind payload).choice = s.choice ∧ (s.replying address kind payload).pending = s.pending := by
  simp [State.replying]

@[simp] theorem replying_path (address : Half) (kind : Byte) (payload : List Byte) (s : State) (p : PathId) :
    (s.replying address kind payload).path p = s.path p := by cases p <;> rfl

/-- The reply takes the place of the last one in the line port as the act left it. -/
theorem replying_line {s u : State} (h : u.line = s.line) (address : Half) (kind : Byte) (payload : List Byte) :
    (u.replying address kind payload).line = (s.replying address kind payload).line := by
  simp [State.replying, h]

section
variable {s u : State} (hs : s.settled = true) (h : ListsSlots s u) (address : Half) (kind : Byte)
  (payload : List Byte)
include hs h

/-- In a part whose events had ended, an act that lists slots ends with the beginning of a write at most (R134, R159). -/
theorem endEvent_replying :
    endEvent (u.replying address kind payload) = startWrite (u.replying address kind payload) :=
  endEvent_writing fun hb => by
    simp only [replying_keeps] at hb ⊢
    rw [h.write]
    exact write_of_settled hs (h.busy hb)

/-- What an act's end leaves to be read: the slots that were listed, and the paths as the act left them. -/
theorem endEvent_replying_leaves :
    let t := endEvent (u.replying address kind payload)
    (∀ k, k ∈ u.store.dirty → t.listed k) ∧ (∀ p, t.path p = u.path p) ∧ (∀ p, u.pathJudged p → t.pathJudged p) ∧
      ∀ p, u.pathRecalled p → t.pathRecalled p := by
  rw [endEvent_replying hs h]
  refine ⟨fun k hk => listed_startWrite (by simpa using hk), fun p => by simp, fun p hp => ?_, fun p hp => ?_⟩
  · exact pathJudged_congr (by simp) (by simp) (by simp) (by simp) (by simp) (by simp) (by simp) hp
  · exact pathRecalled_congr (by simp) (by simp) (by simp) (by simp) (by simp) (by simp) (by simp) hp

end

/-! ### An addressed message that is taken (R146) -/

section
variable {c : Instr} {address : Half} {kind : Byte} {payload : List Byte} {m : MessageKind} {s : State}

/-- The row of an addressed kind with all its fixed arguments is the presence update, its owner's act, the reply and the
end of the event. -/
theorem exec_addressed (hc : linePortFrame c = some (address, kind, payload)) (h : s.takesMessage)
    (ha : s.answersTo address) (hl : payload.length ≤ 120) (hr : replyKind kind = false) (hpoll : kind ≠ 0x01)
    (hm : messageKind kind = some m) (hn : m.needs ≤ payload.length) :
    let r := m.act payload (bringOnline s.line.setting s)
    exec c s = .next (endEvent (r.1.replying address r.2.1 r.2.2)) := by
  obtain ⟨hphase, hidle⟩ := h
  obtain ⟨hroom, hnonzero, hsingle⟩ := ha
  have hsetting : s.settingAfter kind payload = s.line.setting :=
    if_neg fun ⟨hkind, _⟩ => hpoll hkind
  have hhere : address = s.room ∧ s.room ≠ 0 := ⟨hroom, hroom ▸ hnonzero⟩
  rw [exec_messageFrame hc, whenLineRuns, if_pos hphase,
    messageFrame_idle hidle hl (checkFrame_lineFrameBytes _ _ _ hl)]
  unfold soundFrame addressedFrame addressedAct
  rw [hr, if_neg (by decide), if_neg hsingle, if_pos hhere, hsetting, hm]
  simp only [if_neg (Nat.not_lt.2 hn)]
  rfl

/-- The row of a kind whose owner gives a result: the ACK carries it (R147). -/
theorem exec_acked {f : List Byte → State → State × ResultCode} {b : Bool} {n : Nat}
    (hc : linePortFrame c = some (address, kind, payload)) (h : s.takesMessage) (ha : s.answersTo address)
    (hl : payload.length ≤ 120) (hr : replyKind kind = false) (hpoll : kind ≠ 0x01)
    (hm : messageKind kind = some { broadcast := b, needs := n, act := acked kind f }) (hn : n ≤ payload.length)
    {t : State} {code : ResultCode} (hf : f payload (bringOnline s.line.setting s) = (t, code)) :
    exec c s = .next (endEvent (t.replying address 0x80 [kind, code.code])) := by
  rw [exec_addressed hc h ha hl hr hpoll hm hn]
  simp [acked, ack, hf]

end

end Sys2Proof.Machine
end

