-- ==== Sys2Proof/Proofs/PreviewLaws.lean ====
section
/-!
SUPPORT. Which judgings start no preview (R8, R86), and what an event of admission that may start some leaves of the log,
the previewed-title set and the path that it does not reach (R83, R87, R88).
-/
namespace Sys2Proof.Machine

/-! ### Judgings that start no preview -/

/-- No preview starts on a folio that is not OPEN (R86). -/
theorem judge_of_not_opened {p : PathId} {s : State} (h : s.folio.state ≠ .opened) :
    ∃ x, judge p s = s.setPath p x := by
  obtain ⟨-, hw | ⟨_, _, _, _, ⟨hopen, _⟩, _⟩⟩ := judge_cases p s
  · exact hw
  · exact absurd hopen h

/-- No preview starts by a path whose entry is not of class TITLE (R8, R9). -/
theorem judge_of_not_onTitle {p : PathId} {s : State} (h : s.onTitle p = false) :
    ∃ x, judge p s = s.setPath p x := by
  cases hs : (s.path p).selected with
  | none =>
    have hj := judgeOnce_unselected hs
    exact ⟨s.path p, by rw [judge_once (by rw [hj]), hj, setPath_path]⟩
  | some i =>
    have hclass : (s.channelAt i).cls ≠ .title := fun hc => by simp [State.onTitle, State.titleOffer, hs, hc] at h
    have hj := judgeOnce_quiet hs (fun ⟨hc, _⟩ => hclass hc) .none
    exact ⟨_, by rw [judge_once (by rw [hj]), hj]; rfl⟩

/-- An event handed to both paths that starts no preview writes the two paths and the count of free choices. -/
theorem judgeBoth_of_quiet {s : State} (h : s.folio.state ≠ .opened ∨ ∀ p, s.onTitle p = false) :
    ∃ p x y n, judgeBoth s = (({ s with choice := n } : State).setPath p x).setPath p.other y := by
  obtain ⟨p, n, he⟩ := judgeBoth_eq s
  have hquiet : ∀ q (u : State), (s.folio.state ≠ .opened → u.folio.state ≠ .opened) →
      (s.onTitle q = false → u.onTitle q = false) → ∃ x, judge q u = u.setPath q x := fun q u hf ht =>
    h.elim (fun hopen => judge_of_not_opened (hf hopen)) (fun hall => judge_of_not_onTitle (ht (hall q)))
  obtain ⟨x, hx⟩ := hquiet p { s with choice := n } id (fun ht => by cases p <;> exact ht)
  obtain ⟨y, hy⟩ := hquiet p.other (({ s with choice := n } : State).setPath p x) (by simp) fun ht => by
    cases p <;> exact ht
  exact ⟨p, x, y, n, by rw [he, hx, hy]⟩

/-! ### Previews that an event of admission starts (R83, R87) -/

/-- From `s` to `t` PREVIEW records join the tail of the log, and their titles the previewed-title set. -/
def PreviewsStarted (s t : State) : Prop :=
  ∃ started : List Record, t.log = s.log ++ started ∧ t.previewed = s.previewed ++ started.map (·.title) ∧
    ∀ r ∈ started, r.state = .preview

namespace PreviewsStarted

variable {s t u : State}

theorem of_kept (h : t.log = s.log ∧ t.previewed = s.previewed) : PreviewsStarted s t := by
  obtain ⟨hlog, hprev⟩ := h
  exact ⟨[], by simp [hlog], by simp [hprev], by simp⟩

theorem trans (h : PreviewsStarted s t) (h' : PreviewsStarted t u) : PreviewsStarted s u := by
  obtain ⟨l, hlog, hprev, hstate⟩ := h
  obtain ⟨l', hlog', hprev', hstate'⟩ := h'
  refine ⟨l ++ l', by simp [hlog', hlog], by simp [hprev', hprev], fun r hr => ?_⟩
  exact (List.mem_append.1 hr).elim (hstate r) (hstate' r)

end PreviewsStarted

theorem judge_previews (p : PathId) (s : State) : PreviewsStarted s (judge p s) := by
  obtain ⟨-, ⟨x, hw⟩ | ⟨title, index, x, y, -, hw, -⟩⟩ := judge_cases p s
  · rw [hw]
    exact .of_kept (by simp)
  · obtain ⟨hlog, -, hprev, -⟩ := previewStarted_writes s title index
    exact ⟨[s.startedRecord title index], by simp [hw, hlog], by simp [hw, hprev, State.startedRecord],
      by simp [State.startedRecord]⟩

theorem judgeBoth_previews (s : State) : PreviewsStarted s (judgeBoth s) := by
  obtain ⟨p, n, h⟩ := judgeBoth_eq s
  rw [h]
  exact PreviewsStarted.trans (t := { s with choice := n }) (.of_kept ⟨rfl, rfl⟩)
    ((judge_previews p _).trans (judge_previews p.other _))

/-! ### A title handed to both paths (R88) -/

/-- A path shows one title at most. -/
theorem showsTitle_unique {p : PathId} {s : State} {title title' : Word} (h : s.showsTitle p title)
    (h' : s.showsTitle p title') : title = title' := by
  obtain ⟨i, hi, -, rfl⟩ := h
  obtain ⟨j, hj, -, rfl⟩ := h'
  rw [hi] at hj
  cases hj
  rfl

/-- The record that a judging creates carries the title that its path shows (R86). -/
theorem judgeOnce_created_shown {p : PathId} {s : State} {title : Word}
    (h : (judgeOnce p s).created = some title) : s.showsTitle p title := by
  cases hs : (s.path p).selected with
  | none => simp [judgeOnce_unselected hs] at h
  | some i =>
    by_cases ha : s.asksLog i
    · have ⟨hclass, _⟩ := ha
      rw [judgeOnce_asks hs ha] at h
      dsimp only at h
      split at h <;> cases h
      exact ⟨i, hs, hclass, rfl⟩
    · simp [judgeOnce_quiet hs ha .none] at h

/-- A judging leaves the other path as it stood where that shows another title. -/
theorem judge_path_other {p : PathId} {s : State} {title : Word} (h : s.showsTitle p title)
    (ho : ¬s.showsTitle p.other title) : (judge p s).path p.other = s.path p.other := by
  rcases judgeOnce_cases p s with ⟨x, hj⟩ | ⟨started, index, x, -, hj⟩
  · rw [judge_once (by rw [hj]), hj, path_setPath_other]
  · obtain rfl := showsTitle_unique h (judgeOnce_created_shown (by rw [hj]))
    have hnot : ((s.previewStarted title index).setPath p x).shows p.other title = false := by
      rw [Bool.eq_false_iff, Ne, shows_iff, showsTitle_congr (s := s) (by simp) (by simp) (by simp)]
      exact ho
    simp [judge, hj, hnot]

/-- All that a title handed to both paths does: a path that shows it stands as a judging leaves it, and one that does not
stands (R88). -/
theorem handTitle_paths (title : Word) (s : State) (q : PathId) :
    (s.showsTitle q title → (handTitle title s).pathJudged q) ∧
      (¬s.showsTitle q title → (handTitle title s).path q = s.path q) := by
  have hone : ∀ p, s.showsTitle p title → ¬s.showsTitle p.other title →
      (s.showsTitle q title → (judge p s).pathJudged q) ∧
        (¬s.showsTitle q title → (judge p s).path q = s.path q) := fun p hp ho => by
    obtain rfl | rfl : q = p ∨ q = p.other := by cases q <;> cases p <;> simp [PathId.other]
    · exact ⟨fun _ => (judge_cases q s).1, fun hn => absurd hp hn⟩
    · exact ⟨fun hshown => absurd hshown ho, fun _ => judge_path_other hp ho⟩
  have hmarks := fun p => shows_iff s p title
  unfold handTitle
  cases ha : s.shows .a title <;> cases hb : s.shows .b title <;>
    simp only [← hmarks, Bool.not_eq_true] at hone ⊢
  · exact ⟨fun hshown => absurd hshown (by cases q <;> simp [ha, hb]), fun _ => rfl⟩
  · exact hone .b hb ha
  · exact hone .a ha hb
  · exact ⟨fun _ => judgeBoth_judgedAfresh s q, fun hn => absurd hn (by cases q <;> simp [ha, hb])⟩

theorem judgeReached_lists (a b : Bool) (s : State) : ListsSlots s (judgeReached a b s) := by
  cases a <;> cases b
  · exact .refl s
  · exact judge_lists _ s
  · exact judge_lists _ s
  · exact judgeBoth_lists s

theorem judgeReached_previews (a b : Bool) (s : State) : PreviewsStarted s (judgeReached a b s) := by
  cases a <;> cases b
  · exact .of_kept ⟨rfl, rfl⟩
  · exact judge_previews _ s
  · exact judge_previews _ s
  · exact judgeBoth_previews s

end Sys2Proof.Machine
end

