-- ==== Sys2Proof/Proofs/CheckOutLaws.lean ====
section
/-!
SUPPORT. What check-out does to the log, the set port and the lock record (R64, R95, R97, R101, R119).
-/
namespace Sys2Proof.Machine

/-! ### Removals, and the ORDER that waits (R95) -/

section
variable {s t u : State} {gone gone' : Half → Prop}

theorem portAfterRemoval_congr (hg : ∀ seq, gone seq ↔ gone' seq) (h : s.portAfterRemoval t gone) :
    s.portAfterRemoval t gone' := by
  rwa [show gone' = gone from funext fun seq => (propext (hg seq)).symm]

/-- No record leaves where the set port stands. -/
theorem portAfterRemoval_none (hp : t.port = s.port) (hg : ∀ seq, ¬gone seq) : s.portAfterRemoval t gone :=
  ⟨fun seq _ _ _ _ _ h => absurd h (hg seq), fun _ => hp⟩

/-- The set port of the states between is all that is read of them. -/
theorem portAfterRemoval_of_port {s' t' : State} (hs : s'.port = s.port) (ht : t'.port = t.port)
    (h : s.portAfterRemoval t gone) : s'.portAfterRemoval t' gone := by
  unfold State.portAfterRemoval at h ⊢
  rwa [hs, ht]

/-- Records that leave, and then others: an answered ORDER waits no more. -/
theorem portAfterRemoval_trans (h : s.portAfterRemoval t gone) (h' : t.portAfterRemoval u gone') :
    s.portAfterRemoval u (fun seq => gone seq ∨ gone' seq) := by
  obtain ⟨hanswered, hstands⟩ := h
  obtain ⟨hanswered', hstands'⟩ := h'
  by_cases hfirst : ∀ seq slot b v w, s.port.busy = .store (.order seq slot b v w) → ¬gone seq
  · have ht := hstands hfirst
    rw [ht] at hanswered' hstands'
    exact ⟨fun seq slot b v w hb hg => hanswered' seq slot b v w hb (hg.resolve_left (hfirst _ _ _ _ _ hb)),
      fun hn => hstands' fun seq slot b v w hb hg => hn seq slot b v w hb (.inr hg)⟩
  · push Not at hfirst
    obtain ⟨seq, slot, b, v, w, hb, hg⟩ := hfirst
    have ht := hanswered seq slot b v w hb hg
    have hu : u.port = t.port := hstands' fun _ _ _ _ _ hclear => by simp [ht] at hclear
    exact ⟨fun seq slot b v w hb' _ => hu.trans (hanswered seq slot b v w hb' (by
        rw [hb] at hb'
        cases hb'
        exact hg)),
      fun hn => absurd (.inl hg) (hn seq slot b v w hb)⟩

end

/-! ### The log at check-out (R97, R101) -/

theorem closed_keeps (r : Record) :
    r.closed.seq = r.seq ∧ r.closed.slot = r.slot ∧ r.closed.released = r.released := by
  unfold Record.closed
  split <;> exact ⟨rfl, rfl, rfl⟩

/-- An active record that check-out ends is active no more. -/
theorem closed_final (r : Record) : r.closed.final = true := by
  unfold Record.closed Record.final Record.isPreview Record.isBought
  split <;> simp [*]

/-- What check-out leaves of a record: a final one stands, and an active one ends, or leaves the log if it was released. -/
def Record.atCheckOut (r : Record) : Option Record :=
  if r.final then some r else if r.released then none else some r.closed

/-- Check-out of one record in its turn (R97). -/
def closeOne (s : State) (r : Record) : State := if r.final then s else settleRecord r.closed s

theorem closeOne_lists (s : State) (r : Record) : ListsSlots s (closeOne s r) := by
  unfold closeOne
  split
  · exact .refl s
  · exact settleRecord_lists _ _

theorem closeLog_lists (s : State) : ListsSlots s (closeLog s) := ListsSlots.foldl closeOne_lists _ s

/-- A list in which no record carries the number stands where the records with that number are changed. -/
theorem filterMap_of_seq_ne {seq : Half} {x : Option Record} {l : List Record} (h : ∀ r ∈ l, r.seq ≠ seq) :
    l.filterMap (fun r => if r.seq = seq then x else some r) = l := by
  rw [List.filterMap_congr fun r hr => if_neg (h r hr), List.filterMap_some]

/-- One record's turn changes that record alone. -/
theorem closeOne_log {s : State} {done rest : List Record} {r : Record} (hl : s.log = done ++ r :: rest)
    (hn : (s.log.map (·.seq)).Nodup) :
    (closeOne s r).log = done ++ (r.atCheckOut.toList ++ rest) := by
  unfold closeOne Record.atCheckOut
  split
  · simp [hl]
  · obtain ⟨hseq, -, hreleased⟩ := closed_keeps r
    rw [hl, List.map_append, List.map_cons, List.nodup_append, List.nodup_cons] at hn
    obtain ⟨-, ⟨hrest, -⟩, hdone⟩ := hn
    have hbefore : ∀ x ∈ done, x.seq ≠ r.seq := fun x hx =>
      hdone _ (List.mem_map_of_mem hx) _ List.mem_cons_self
    have hafter : ∀ x ∈ rest, x.seq ≠ r.seq := fun x hx he => hrest (he ▸ List.mem_map_of_mem hx)
    rw [settleRecord_log hseq (closed_final r) hreleased, hl, List.filterMap_append, filterMap_of_seq_ne hbefore,
      List.filterMap_cons, filterMap_of_seq_ne hafter]
    cases r.released <;> simp

/-- Check-out of a log whose numbers differ leaves of each record what its turn leaves (R97). -/
theorem closeLog_log {s : State} (hn : (s.log.map (·.seq)).Nodup) :
    (closeLog s).log = s.log.filterMap Record.atCheckOut := by
  have turns : ∀ (rest done : List Record) (u : State), u.log = done ++ rest → (u.log.map (·.seq)).Nodup →
      (rest.foldl closeOne u).log = done ++ rest.filterMap Record.atCheckOut := by
    intro rest
    induction rest with
    | nil => exact fun done u hl _ => hl
    | cons r rest ih =>
      intro done u hl hn
      have hlog := closeOne_log hl hn
      have hnodup : ((closeOne u r).log.map (·.seq)).Nodup := by
        refine hn.sublist ?_
        rw [hlog, hl, List.map_append, List.map_append, List.map_append, List.map_cons]
        refine List.Sublist.append_left ?_ _
        unfold Record.atCheckOut
        (repeat' split) <;> simp [(closed_keeps r)]
      rw [List.foldl_cons, ih (done ++ r.atCheckOut.toList) _ (by rw [hlog, List.append_assoc]) hnodup]
      cases h : r.atCheckOut <;> simp [h]
  exact turns s.log [] s rfl hn

/-- Check-out lists the slot of every active record (R97). -/
theorem closeLog_listed {s : State} {r : Record} (hr : r ∈ s.log) (hf : r.final = false) :
    r.slot ∈ (closeLog s).store.dirty := by
  have turns : ∀ (l : List Record) (u : State), r ∈ l → r.slot ∈ (l.foldl closeOne u).store.dirty := by
    intro l
    induction l with
    | nil => exact fun _ hmem => absurd hmem List.not_mem_nil
    | cons x l ih =>
      intro u hmem
      rcases List.mem_cons.1 hmem with rfl | hmem
      · refine (ListsSlots.foldl closeOne_lists l _).dirty _ ?_
        obtain ⟨-, hslot, -⟩ := closed_keeps r
        have hlisted := settleRecord_listed r.closed u
        rw [hslot] at hlisted
        simpa [closeOne, hf] using hlisted
      · exact ih _ hmem
  exact turns s.log s hr

/-- Check-out answers the ORDER that waits for a record that leaves (R95). -/
theorem closeLog_port (s : State) :
    s.portAfterRemoval (closeLog s) (fun seq => ∃ r ∈ s.log, r.seq = seq ∧ r.released = true ∧ r.final = false) := by
  have one : ∀ (u : State) (r : Record),
      u.portAfterRemoval (closeOne u r) (fun seq => r.seq = seq ∧ r.released = true ∧ r.final = false) := by
    intro u r
    unfold closeOne
    cases hf : r.final
    · obtain ⟨hseq, -, hreleased⟩ := closed_keeps r
      refine portAfterRemoval_congr (fun seq => ?_) (settleRecord_port r.closed u)
      rw [hseq, hreleased, closed_final, eq_comm]
      simp
    · exact portAfterRemoval_none rfl fun seq => by simp
  have turns : ∀ (l : List Record) (u : State), u.portAfterRemoval (l.foldl closeOne u)
      (fun seq => ∃ r ∈ l, r.seq = seq ∧ r.released = true ∧ r.final = false) := by
    intro l
    induction l with
    | nil => exact fun u => portAfterRemoval_none rfl fun seq ⟨_, hmem, _⟩ => absurd hmem List.not_mem_nil
    | cons r l ih =>
      exact fun u => portAfterRemoval_congr (fun seq => by simp) (portAfterRemoval_trans (one u r) (ih _))
  exact turns s.log s

/-! ### The lock record at check-out (R119) -/

theorem lockCheckOut_lists (s : State) : ListsSlots s (lockCheckOut s) := by
  have hwritten : ListsSlots s { s with lock := s.lock.checkOut } := .of_kept ⟨rfl, rfl⟩
  unfold lockCheckOut
  dsimp only
  split
  · exact hwritten
  · exact hwritten.listSlot _

/-- A lock record that check-out changes differs in what its slot holds: the minutes change with the state alone. -/
theorem lockCheckOut_listed {s : State} (h : s.lock.checkOut ≠ s.lock) :
    lockSlot ∈ (lockCheckOut s).store.dirty := by
  have hstored : s.lock.checkOut.stored ≠ s.lock.stored := by
    intro he
    unfold Lock.checkOut Lock.endUnlock Lock.stored at he
    unfold Lock.checkOut Lock.endUnlock at h
    rcases hl : s.lock with ⟨hard, guest, pin, unlockMinutes, state, minutes, length, wrong, lockouts⟩
    rw [hl] at he h
    cases state <;> simp_all
  unfold lockCheckOut
  simp only [if_neg hstored]
  exact mem_listSlot _ _

end Sys2Proof.Machine
end

