-- ==== Sys2Proof/Proofs/FolioStatements.lean ====
section
/-!
PROOFS. The tax (R68), HOLD and PACKAGES (R65, R66), CHECK_IN (R62, R63, R87, R118) and CHECK_OUT (R64, R97, R119).
-/
namespace Sys2Proof.Machine

/-! ### The tax (R68) -/

/-- Settles O54: the quotient by its remainder, and the bound from the greatest product of a price and a rate. -/
theorem taxRoundsHalfUp : Obligations.TaxRoundsHalfUp := by
  intro price rate hp hr
  have hproduct : price * rate ≤ 99999 * 3000 := Nat.mul_le_mul hp hr
  have htax : taxOf price rate = (price * rate + 5000) / 10000 := rfl
  have hmost : taxOf price rate ≤ 30000 := by omega
  exact ⟨htax, fun hbelow => by omega, fun habove => by omega, by simp [taxOf], by simp [taxOf], hproduct, hmost,
    by omega, rfl, rfl⟩

/-! ### HOLD and PACKAGES (R65, R66) -/

theorem folioEvent_same (s : State) : folioEvent s.folio s = s := if_pos rfl

theorem folioEvent_changes {f : Folio} {s : State} (h : f ≠ s.folio) : folioEvent f s = judgeBoth (setFolio f s) :=
  if_neg h

/-- A changed folio record has its slot listed (R61). -/
theorem setFolio_listed {f : Folio} {s : State} (h : f ≠ s.folio) : folioSlot ∈ (setFolio f s).store.dirty := by
  unfold setFolio
  rw [if_neg h]
  exact mem_listSlot _ _

/-- What an addressed change of the folio state or the package mask does, by whether it changes something (R65, R66). -/
theorem folioEvent_replied {c : Instr} {s : State} {f : Folio} {address : Half} {payload : List Byte}
    (hs : s.settled = true) :
    let u := bringOnline s.line.setting s
    exec c s = .next (endEvent ((folioEvent f u).replying address 0x80 payload)) →
      (f = u.folio → exec c s = .next (endEvent (u.replying address 0x80 payload))) ∧
      (f ≠ u.folio → ∃ t, exec c s = .next t ∧ t.folio = f ∧ t.listed folioSlot ∧ t.judgedAfresh ∧ s.log <+: t.log ∧
        t.line = (u.replying address 0x80 payload).line ∧
        { t.withAdmissionOf s with folio := s.folio, line := s.line } = s) := by
  intro u hexec
  refine ⟨fun hsame => by rw [hexec, hsame, folioEvent_same], fun hne => ?_⟩
  have hlists : ListsSlots s (judgeBoth (setFolio f u)) :=
    (bringOnline_lists _ s).trans ((setFolio_lists f u).trans (judgeBoth_lists _))
  obtain ⟨hlisted, -, hjudged, -⟩ := endEvent_replying_leaves hs hlists address 0x80 payload
  obtain ⟨hlog, -, -⟩ := judgeBoth_grows (setFolio f u)
  rw [folioEvent_changes hne] at hexec
  refine ⟨_, hexec, ?_, hlisted _ ((judgeBoth_lists _).dirty _ (setFolio_listed hne)),
    fun p => hjudged p (judgeBoth_judgedAfresh _ p), ?_, ?_, ?_⟩ <;> rw [endEvent_replying hs hlists]
  · simp
  · simpa [u] using hlog
  · simp only [startWrite_keeps]
    exact replying_line (by simp) _ _ _
  · simp [State.withAdmissionOf, u]

section
variable {address : Half} {payload : List Byte} {s : State}

/-- A HOLD that is taken is the folio unit's answer to it (R65). -/
theorem exec_hold (h : s.takesMessage) (ha : s.answersTo address) (hn : 1 ≤ payload.length)
    (hl : payload.length ≤ 120) {t : State} {code : ResultCode}
    (hf : holdMessage payload (bringOnline s.line.setting s) = (t, code)) :
    exec (.hold address payload) s = .next (endEvent (t.replying address 0x80 [0x12, code.code])) :=
  exec_acked rfl h ha hl rfl (by decide) rfl hn hf

/-- A PACKAGES that is taken is the folio unit's answer to it (R66). -/
theorem exec_packages (h : s.takesMessage) (ha : s.answersTo address) (hn : 1 ≤ payload.length)
    (hl : payload.length ≤ 120) {t : State} {code : ResultCode}
    (hf : packagesMessage payload (bringOnline s.line.setting s) = (t, code)) :
    exec (.packages address payload) s = .next (endEvent (t.replying address 0x80 [0x13, code.code])) :=
  exec_acked rfl h ha hl rfl (by decide) rfl hn hf

end

section
variable {args : List Byte} {s : State}

theorem holdMessage_badArg (h : 2 ≤ byteAt args 0) : holdMessage args s = (s, .badArg) := if_pos h

theorem holdMessage_closed (h : byteAt args 0 ≤ 1) (hc : s.folio.state = .closed) :
    holdMessage args s = (s, .folioClosed) := by
  simp [holdMessage, hc, Nat.not_lt.2 h]

theorem holdMessage_open (h : byteAt args 0 ≤ 1) (hc : s.folio.state ≠ .closed) :
    holdMessage args s =
      (folioEvent { s.folio with state := if byteAt args 0 = 1 then .held else .opened } s, .ok) := by
  simp [holdMessage, hc, Nat.not_lt.2 h]

theorem packagesMessage_closed (hc : s.folio.state = .closed) : packagesMessage args s = (s, .folioClosed) := if_pos hc

theorem packagesMessage_open (hc : s.folio.state ≠ .closed) :
    packagesMessage args s =
      (folioEvent { s.folio with packages := BitVec.ofNat 8 (byteAt args 0) } s, .ok) := by
  simp [packagesMessage, hc, byteAt]

end

/-- Settles O36: HOLD by its argument and the folio's state, PACKAGES by the folio's state; both accepted forms are one
event of the folio record. -/
theorem holdAndPackagesChangeFolio : Obligations.HoldAndPackagesChangeFolio := by
  intro address payload s h hs ha hn hl u on refused changed
  have hstate : u.folio.state = s.folio.state := by simp [u]
  refine ⟨fun hbad => ?_, fun hon hc => ?_, fun hon hc => ?_, fun hon hc => ?_, fun hc => ?_, fun hc => ?_⟩
  · have hexec := exec_hold h ha hn hl (holdMessage_badArg hbad)
    exact hexec
  · have hexec := exec_hold h ha hn hl (holdMessage_closed hon (hstate.trans hc))
    exact hexec
  · refine folioEvent_replied hs (exec_hold (code := .ok) h ha hn hl ?_)
    rw [holdMessage_open (Nat.le_of_eq hon) (hstate ▸ hc), if_pos hon]
  · refine folioEvent_replied hs (exec_hold (code := .ok) h ha hn hl ?_)
    rw [holdMessage_open (Nat.le_of_eq hon |>.trans (by decide)) (hstate ▸ hc), if_neg (fun hone => by omega)]
  · have hexec := exec_packages h ha hn hl (packagesMessage_closed (hstate.trans hc))
    exact hexec
  · exact folioEvent_replied hs (exec_packages (code := .ok) h ha hn hl (packagesMessage_open (hstate ▸ hc)))

/-! ### CHECK_IN (R62, R63, R118) -/

section
variable {address : Half} {payload args : List Byte} {s : State}

/-- A CHECK_IN that is taken is the folio unit's answer to it (R62). -/
theorem exec_checkIn (h : s.takesMessage) (ha : s.answersTo address) (hn : 24 ≤ payload.length)
    (hl : payload.length ≤ 120) {t : State} {code : ResultCode}
    (hf : checkInMessage payload (bringOnline s.line.setting s) = (t, code)) :
    exec (.checkIn address payload) s = .next (endEvent (t.replying address 0x80 [0x10, code.code])) :=
  exec_acked rfl h ha hl rfl (by decide) rfl hn hf

theorem checkInMessage_open (h : s.folio.state ≠ .closed) : checkInMessage args s = (s, .folioOpen) :=
  if_pos ((isOpen_iff _).2 h)

theorem checkInMessage_badArg (h : s.folio.state = .closed) (hbad : natAt args 0 4 = 0 ∨ 2 ≤ byteAt args 15) :
    checkInMessage args s = (s, .badArg) := by
  unfold checkInMessage
  rw [if_neg (mt (isOpen_iff _).1 (not_not.2 h))]
  rcases hbad with hzero | hpolicy
  · split
    · rfl
    · exact if_pos hzero
  · rw [show policyArg (byteAt args 15) = none from (if_neg (by omega)).trans (if_neg (by omega))]

theorem checkInMessage_accepts (h : s.folio.state = .closed) (hn : natAt args 0 4 ≠ 0) (hp : byteAt args 15 ≤ 1) :
    checkInMessage args s = (acceptCheckIn args (if byteAt args 15 = 1 then .auto else .confirm) s, .ok) := by
  have hpolicy : policyArg (byteAt args 15) = some (if byteAt args 15 = 1 then .auto else .confirm) := by
    rcases Nat.le_one_iff_eq_zero_or_eq_one.1 hp with hzero | hone
    · simp [policyArg, hzero]
    · simp [policyArg, hone]
  unfold checkInMessage
  rw [if_neg (mt (isOpen_iff _).1 (not_not.2 h)), hpolicy]
  exact if_neg hn

end

/-- The records of a guest's check-in: the folio and the lock set up, the previewed-title set empty, CHECKED_IN reported,
before the paths judge (R63, R87, R118). -/
def State.checkedIn (s : State) (args : List Byte) (policy : Policy) : State :=
  report .checkedIn (listSlot lockSlot (listSlot folioSlot { s with
    folio := checkInFolio args policy, previewed := []
    lock := s.lock.checkIn (byteAt args 20) (byteAt args 21) (natAt args 22 2) }))

theorem acceptCheckIn_eq (args : List Byte) (policy : Policy) (s : State) :
    acceptCheckIn args policy s = judgeBoth (s.checkedIn args policy) := rfl

theorem checkedIn_lists (args : List Byte) (policy : Policy) (s : State) :
    ListsSlots s (s.checkedIn args policy) ∧ folioSlot ∈ (s.checkedIn args policy).store.dirty ∧
      lockSlot ∈ (s.checkedIn args policy).store.dirty := by
  refine ⟨?_, by simp [State.checkedIn, mem_listSlot_of_mem, mem_listSlot], by simp [State.checkedIn, mem_listSlot]⟩
  have hwritten : ListsSlots s { s with
      folio := checkInFolio args policy, previewed := []
      lock := s.lock.checkIn (byteAt args 20) (byteAt args 21) (natAt args 22 2) } := .of_kept ⟨rfl, rfl⟩
  exact ((hwritten.listSlot folioSlot).listSlot lockSlot).report .checkedIn

/-- Whether a path's entry is of class TITLE follows from the paths and the channel table. -/
theorem onTitle_congr {s t : State} {p : PathId} (hp : t.path p = s.path p) (hc : t.channels = s.channels) :
    t.onTitle p = s.onTitle p := by
  simp [State.onTitle, State.titleOffer, State.channelAt, hp, hc]

/-- Settles O34: the refusals in the order of R62, and the accepted CHECK_IN as the records set up and one judging of both
paths, which alone adds to the log and to the previewed-title set. -/
theorem checkInOpensFolio : Obligations.CheckInOpensFolio := by
  intro address payload s h hs ha hn hl u refused
  have hstate : u.folio.state = s.folio.state := by simp [u]
  refine ⟨fun hopen => ?_, fun hc hbad => ?_, fun hc hnumber hpolicy => ?_⟩
  · have hexec := exec_checkIn h ha hn hl (checkInMessage_open (hstate ▸ hopen))
    exact hexec
  · have hexec := exec_checkIn h ha hn hl (checkInMessage_badArg (hstate.trans hc) hbad)
    exact hexec
  · set v := u.checkedIn payload (if byteAt payload 15 = 1 then .auto else .confirm) with hv
    have hexec := exec_checkIn h ha hn hl (checkInMessage_accepts (hstate.trans hc) hnumber hpolicy)
    rw [acceptCheckIn_eq, ← hv] at hexec
    obtain ⟨hset, hfolio, hlock⟩ := checkedIn_lists payload (if byteAt payload 15 = 1 then .auto else .confirm) u
    have hjudging := judgeBoth_lists v
    have hlists : ListsSlots s (judgeBoth v) := (bringOnline_lists _ s).trans (hset.trans hjudging)
    obtain ⟨hlisted, -, hjudged, -⟩ := endEvent_replying_leaves hs hlists address 0x80 [0x10, 0x00]
    obtain ⟨started, hlog, hpreviewed, -⟩ := judgeBoth_previews v
    have hlogv : v.log = s.log := by simp [hv, State.checkedIn, u]
    have hflag : v.status.detail.getLsbD 18 = true := report_sets .checkedIn _
    refine ⟨_, hexec, ?_, ?_, ?_, ?_, fun hquiet => ?_, ?_, hlisted _ (hjudging.dirty _ hfolio),
      hlisted _ (hjudging.dirty _ hlock), fun p => hjudged p (judgeBoth_judgedAfresh v p), ?_, ?_⟩ <;>
      simp only [ResultCode.code] <;> rw [endEvent_replying hs hlists]
    · simp [hv, State.checkedIn, checkInFolio, clampTo, byteAt]
    · simp [hv, State.checkedIn, Lock.checkIn, Lock.cleared, clampTo, clampIn]
    · simp [hlog, hlogv]
    · simp [hlog, hlogv, hpreviewed]
      simp [hv, State.checkedIn]
    · have hpaths : ∀ p, v.onTitle p = false := fun p => by
        rw [onTitle_congr (s := s) (by cases p <;> simp [hv, State.checkedIn, State.path, u])
          (by simp [hv, State.checkedIn, u]), hquiet p]
      obtain ⟨p, x, y, n, hw⟩ := judgeBoth_of_quiet (.inr hpaths)
      simp [hw, hlogv]
    · simpa using (judgeBoth_grows v).detail 18 hflag
    · simp only [startWrite_keeps]
      exact replying_line (by simp [hv, State.checkedIn]) _ _ _
    · simp [State.withAdmissionOf, hv, State.checkedIn, u]

/-! ### CHECK_OUT (R64, R97, R119) -/

section
variable {address : Half} {payload : List Byte} {s : State}

/-- A CHECK_OUT that is taken is the folio unit's answer to it (R64). -/
theorem exec_checkOut (h : s.takesMessage) (ha : s.answersTo address) (hl : payload.length ≤ 120) {t : State}
    {code : ResultCode} (hf : checkOutMessage payload (bringOnline s.line.setting s) = (t, code)) :
    exec (.checkOut address payload) s = .next (endEvent (t.replying address 0x80 [0x11, code.code])) :=
  exec_acked rfl h ha hl rfl (by decide) rfl (Nat.zero_le _) hf

theorem checkOutMessage_closed (h : s.folio.state = .closed) : checkOutMessage payload s = (s, .folioClosed) :=
  if_neg (mt (isOpen_iff _).1 (not_not.2 h))

theorem checkOutMessage_open (h : s.folio.state ≠ .closed) :
    checkOutMessage payload s = (acceptCheckOut s, .ok) := if_pos ((isOpen_iff _).2 h)

end

/-- The folio record closed with its package mask clear, and its slot listed (R64). -/
def State.folioLeft (s : State) : State :=
  listSlot folioSlot { s with folio := { s.folio with packages := 0, state := .closed } }

/-- The part at check-out before the paths judge: the folio closed, the active records ended, the PIN removed,
CHECKED_OUT reported (R64, R97, R119). -/
def State.checkedOut (s : State) : State := report .checkedOut (lockCheckOut (closeLog s.folioLeft))

theorem acceptCheckOut_eq (s : State) : acceptCheckOut s = judgeBoth s.checkedOut := rfl

/-- What check-out writes before the paths judge, beside the slots it lists. -/
@[simp] theorem checkedOut_keeps (s : State) :
    s.checkedOut.folio = { s.folio with packages := 0, state := .closed } ∧ s.checkedOut.lock = s.lock.checkOut ∧
      s.checkedOut.log = (closeLog s.folioLeft).log ∧ s.checkedOut.port = (closeLog s.folioLeft).port ∧
      s.checkedOut.status = (report .checkedOut s).status ∧ s.checkedOut.phase = s.phase ∧
      s.checkedOut.engine = s.engine ∧ s.checkedOut.keys = s.keys ∧ s.checkedOut.channels = s.channels ∧
      s.checkedOut.offers = s.offers ∧ s.checkedOut.nextSeq = s.nextSeq ∧ s.checkedOut.previewed = s.previewed ∧
      s.checkedOut.seconds = s.seconds ∧ s.checkedOut.clock = s.clock ∧ s.checkedOut.room = s.room ∧
      s.checkedOut.line = s.line ∧ s.checkedOut.pending = s.pending := by
  unfold State.checkedOut lockCheckOut
  dsimp only
  split <;> simp [State.folioLeft, report]

theorem checkedOut_lists (s : State) :
    ListsSlots s s.checkedOut ∧ folioSlot ∈ s.checkedOut.store.dirty ∧
      (∀ r ∈ s.log, r.final = false → r.slot ∈ s.checkedOut.store.dirty) ∧
      (s.lock.checkOut ≠ s.lock → lockSlot ∈ s.checkedOut.store.dirty) := by
  have hwritten : ListsSlots s { s with folio := { s.folio with packages := 0, state := .closed } } :=
    .of_kept ⟨rfl, rfl⟩
  have hleft : ListsSlots s s.folioLeft := hwritten.listSlot folioSlot
  have hclosed := closeLog_lists s.folioLeft
  have hlock : ListsSlots (closeLog s.folioLeft) s.checkedOut := (lockCheckOut_lists _).report .checkedOut
  refine ⟨hleft.trans (hclosed.trans hlock), (hclosed.trans hlock).dirty _ (mem_listSlot _ _), fun r hr hf => ?_,
    fun hne => ?_⟩
  · exact hlock.dirty _ (closeLog_listed (s := s.folioLeft) (by simpa [State.folioLeft] using hr) hf)
  · have hlisted := lockCheckOut_listed (s := closeLog s.folioLeft) (by simpa [State.folioLeft] using hne)
    simpa [State.checkedOut] using hlisted

/-- A record at check-out in the words of the statement (R97). -/
theorem atCheckOut_eq (r : Record) :
    r.atCheckOut =
      match r.state with
      | .preview => if r.released then none else some { r with state := .lapsed }
      | .bought _ => if r.released then none else some { r with state := .ended }
      | _ => some r := by
  unfold Record.atCheckOut Record.closed Record.final Record.isPreview Record.isBought
  split <;> simp_all

/-- The lock record at check-out in the words of the statement (R119). -/
theorem lock_checkOut_eq (l : Lock) :
    l.checkOut = if l.state = .unlocked then { l with pin := none, state := .locked, minutes := 0 }
      else { l with pin := none } := by
  unfold Lock.checkOut Lock.endUnlock
  split <;> simp_all

/-- Settles O35: the folio closed, each active record's turn, the lock record, and one judging of both paths, which starts
no preview on a CLOSED folio. -/
theorem checkOutClosesFolio : Obligations.CheckOutClosesFolio := by
  intro address payload s h hs hsound ha hl u
  obtain ⟨-, hseqs, -⟩ := hsound
  have hstate : u.folio.state = s.folio.state := by simp [u]
  refine ⟨fun hc => ?_, fun hopen => ?_⟩
  · have hexec := exec_checkOut h ha hl (checkOutMessage_closed (payload := payload) (hstate.trans hc))
    exact hexec
  have hexec := exec_checkOut h ha hl (checkOutMessage_open (payload := payload) (s := u) (hstate ▸ hopen))
  rw [acceptCheckOut_eq] at hexec
  obtain ⟨hset, hfolioSlot, hslots, hlockSlot⟩ := checkedOut_lists u
  have hjudging := judgeBoth_lists u.checkedOut
  have hlists : ListsSlots s (judgeBoth u.checkedOut) := (bringOnline_lists _ s).trans (hset.trans hjudging)
  obtain ⟨hlisted, -, hjudged, -⟩ := endEvent_replying_leaves hs hlists address 0x80 [0x11, 0x00]
  obtain ⟨p, x, y, n, hw⟩ := judgeBoth_of_quiet (s := u.checkedOut) (.inl (by simp))
  have hlog : (judgeBoth u.checkedOut).log = s.log.filterMap Record.atCheckOut := by
    have hclosed := closeLog_log (s := u.folioLeft) (by simpa [State.folioLeft, u] using hseqs)
    simpa [hw, State.folioLeft, u] using hclosed
  have hlock : (judgeBoth u.checkedOut).lock = s.lock.checkOut := by simp [hw, u]
  have hport : s.portAfterRemoval (judgeBoth u.checkedOut)
      (fun seq => ∃ r ∈ s.log, r.seq = seq ∧ r.released = true ∧ r.final = false) := by
    have hclosed := closeLog_port u.folioLeft
    simp only [State.folioLeft, listSlot_keeps, bringOnline_keeps, u] at hclosed
    exact portAfterRemoval_of_port (by simp) (by simp [hw, State.folioLeft, u]) hclosed
  have hdetail : (judgeBoth u.checkedOut).status.detail.getLsbD 15 = s.status.detail.getLsbD 15 := by
    have hreport : (report .checkedOut u).status.detail.getLsbD 15 = u.status.detail.getLsbD 15 :=
      report_detail_ne _ _ (by decide)
    simpa [hw] using hreport.trans (bringOnline_detail _ s (by decide))
  refine ⟨_, hexec, ?_, ?_, ?_, ?_, ?_, hlisted _ (hjudging.dirty _ hfolioSlot), fun r hr hf => ?_, fun hne => ?_, ?_, ?_,
    fun q => hjudged q (judgeBoth_judgedAfresh _ q), ?_, ?_, ?_⟩
  case refine_6 => exact hlisted _ (hjudging.dirty _ (hslots r (by simpa [u] using hr) hf))
  case refine_7 =>
    refine hlisted _ (hjudging.dirty _ (hlockSlot fun heq => hne ?_))
    simpa [endEvent_replying hs hlists, hlock, u] using heq
  all_goals simp only [ResultCode.code]; rw [endEvent_replying hs hlists]
  · simp
  · simp only [startWrite_keeps, replying_keeps, hlog]
    exact List.filterMap_congr fun r _ => atCheckOut_eq r
  · simp [hw, u]
  · simp [hw, u]
  · simp only [startWrite_keeps, replying_keeps, hlock, lock_checkOut_eq]
  · simpa using (judgeBoth_grows u.checkedOut).detail 19 (report_sets .checkedOut _)
  · simpa using hdetail
  · exact portAfterRemoval_of_port rfl (by simp) hport
  · simp only [startWrite_keeps]
    exact replying_line (by simp) _ _ _
  · simp [State.withAdmissionOf, u]

end Sys2Proof.Machine
end

