-- ==== Sys2Proof/Proofs/VoidStatement.lean ====
section
/-!
PROOF. VOID (R77 to R79): the refund, the record, and its title handed to the paths.
-/
namespace Sys2Proof.Machine

/-! ### The log after a void (R78, R101) -/

/-- The log with a record voided, or without it if it was released. -/
def voidedLog (r : Record) (log : List Record) : List Record :=
  log.filterMap fun x => if x.seq = r.seq then if r.released then none else some { r with state := .voided } else some x

section
variable {r x : Record} {log : List Record}

theorem voided_mem_voidedLog (hr : r ∈ log) (hreleased : r.released = false) :
    { r with state := .voided } ∈ voidedLog r log :=
  List.mem_filterMap.2 ⟨r, hr, by simp [hreleased]⟩

/-- No record of a released record's number stays. -/
theorem seq_ne_of_mem_voidedLog (hreleased : r.released = true) (hx : x ∈ voidedLog r log) : x.seq ≠ r.seq := by
  obtain ⟨y, -, hy⟩ := List.mem_filterMap.1 hx
  by_cases hseq : y.seq = r.seq
  · simp [hseq, hreleased] at hy
  · simp only [if_neg hseq, Option.some.injEq] at hy
    exact hy ▸ hseq

/-- The void of a final record leaves the active records as they were. -/
theorem mem_voidedLog_of_active (hn : (log.map (·.seq)).Nodup) (hr : r ∈ log) (hf : r.final = true)
    (hx : x.final = false) : x ∈ voidedLog r log ↔ x ∈ log := by
  refine ⟨fun hmem => ?_, fun hmem => List.mem_filterMap.2 ⟨x, hmem, if_neg fun hseq => ?_⟩⟩
  · obtain ⟨y, hy, hvoid⟩ := List.mem_filterMap.1 hmem
    split at hvoid
    · split at hvoid
      · cases hvoid
      · cases hvoid
        exact absurd hx (by simp [Record.final, Record.isPreview, Record.isBought])
    · cases hvoid
      exact hy
  · rw [List.inj_on_of_nodup_map hn hmem hr hseq, hf] at hx
    cases hx

end

/-! ### The record voided, before its title is handed to the paths -/

/-- The folio with the record's charge taken back, its slot listed (R78). -/
def State.refundedFor (s : State) (r : Record) : State :=
  listSlot folioSlot { s with
    folio := s.folio.refunded ((r.charge.map (·.billed)).getD 0) ((r.charge.map (·.day)) == some s.clock.day) }

/-- The charge taken back and the record voided (R78). -/
def State.afterVoid (s : State) (r : Record) : State := settleRecord { r with state := .voided } (s.refundedFor r)

theorem voidRecord_of_bought {r : Record} {w : Nat} (h : r.state = .bought w) (s : State) :
    voidRecord r s = handTitle r.title (s.afterVoid r) :=
  if_pos (by simp [Record.isBought, h])

theorem voidRecord_of_ended {r : Record} (h : r.state = .ended) (s : State) :
    voidRecord r s = handEndedTitle r.title (s.afterVoid r) :=
  if_neg (by simp [Record.isBought, h])

@[simp] theorem afterVoid_keeps (r : Record) (s : State) :
    (s.afterVoid r).channels = s.channels ∧ (s.afterVoid r).offers = s.offers ∧ (s.afterVoid r).lock = s.lock ∧
      (s.afterVoid r).nextSeq = s.nextSeq ∧ (s.afterVoid r).previewed = s.previewed := by
  simp [State.afterVoid, State.refundedFor]

@[simp] theorem afterVoid_path (r : Record) (s : State) (p : PathId) : (s.afterVoid r).path p = s.path p := by
  cases p <;> simp [State.afterVoid, State.refundedFor, State.path]

/-- Of the folio a void writes the total and the day's spend alone (R78). -/
theorem afterVoid_folio (r : Record) (s : State) :
    (s.afterVoid r).folio =
      s.folio.refunded ((r.charge.map (·.billed)).getD 0) ((r.charge.map (·.day)) == some s.clock.day) := by
  simp [State.afterVoid, State.refundedFor]

/-- The refund in the words of the statement: what the charge billed, and whether it was made today (R78). -/
theorem refunded_eq (f : Folio) (charge : Option Charge) (day : Half) :
    f.refunded ((charge.map (·.billed)).getD 0) ((charge.map (·.day)) == some day) =
      let billed := match charge with | some c => c.billed | none => 0
      let today := match charge with | some c => decide (c.day = day) | none => false
      { f with total := f.total - billed, daySpend := if today then f.daySpend - billed else f.daySpend } := by
  cases charge <;> simp [Folio.refunded]

theorem afterVoid_log (r : Record) (s : State) : (s.afterVoid r).log = voidedLog r s.log := by
  have hlog := settleRecord_log (r := r) (r' := { r with state := .voided }) (s := s.refundedFor r) rfl rfl rfl
  simp only [State.refundedFor, listSlot_keeps] at hlog
  exact hlog

theorem afterVoid_port (r : Record) (s : State) :
    s.portAfterRemoval (s.afterVoid r) (fun seq => seq = r.seq ∧ r.released = true) := by
  have hport := settleRecord_port { r with state := .voided } (s.refundedFor r)
  have hstands : (s.refundedFor r).port = s.port := by simp [State.refundedFor]
  exact portAfterRemoval_congr (fun seq => by simp [Record.final, Record.isPreview, Record.isBought])
    (portAfterRemoval_of_port hstands.symm rfl hport)

theorem afterVoid_lists (r : Record) (s : State) :
    ListsSlots s (s.afterVoid r) ∧ folioSlot ∈ (s.afterVoid r).store.dirty ∧ r.slot ∈ (s.afterVoid r).store.dirty := by
  have hwritten : ListsSlots s { s with
      folio := s.folio.refunded ((r.charge.map (·.billed)).getD 0) ((r.charge.map (·.day)) == some s.clock.day) } :=
    .of_kept ⟨rfl, rfl⟩
  have hsettled := settleRecord_lists { r with state := .voided } (s.refundedFor r)
  exact ⟨(hwritten.listSlot folioSlot).trans hsettled, hsettled.dirty _ (mem_listSlot _ _),
    settleRecord_listed { r with state := .voided } (s.refundedFor r)⟩

/-! ### The title handed to the paths (R79, R88) -/

/-- What a voided record's title, handed to the paths of `s`, leaves standing and adds in `t`. -/
structure HandsTitle (title : Word) (s t : State) : Prop where
  folio : t.folio = s.folio
  port : t.port = s.port
  lists : ListsSlots s t
  starts : PreviewsStarted s t
  others : ∀ q, ¬s.showsTitle q title → t.path q = s.path q

theorem handTitle_hands (title : Word) (s : State) : HandsTitle title s (handTitle title s) where
  folio := by simp
  port := by simp
  lists := judgeReached_lists _ _ s
  starts := judgeReached_previews _ _ s
  others q := (handTitle_paths title s q).2

theorem handEndedTitle_hands (title : Word) (s : State) : HandsTitle title s (handEndedTitle title s) where
  folio := by simp
  port := by simp
  lists := .of_kept (by simp)
  starts := .of_kept (by simp)
  others q := by
    obtain ⟨-, hothers, -⟩ := handEndedTitle_paths title s q
    exact hothers

theorem voidRecord_hands {r : Record} (h : r.state = .ended ∨ ∃ w, r.state = .bought w) (s : State) :
    HandsTitle r.title (s.afterVoid r) (voidRecord r s) := by
  rcases h with hended | ⟨w, hbought⟩
  · rw [voidRecord_of_ended hended]
    exact handEndedTitle_hands _ _
  · rw [voidRecord_of_bought hbought]
    exact handTitle_hands _ _

/-! ### A final record's void moves no path (R79) -/

/-- What a judging without a preview reads of the folio and the log: the state, the packages and the active records. -/
theorem pathRecalled_of_answers {s t : State} {p : PathId} (hp : t.path p = s.path p) (hc : t.channels = s.channels)
    (ho : t.offers = s.offers) (hl : t.lock = s.lock) (hstate : t.folio.state = s.folio.state)
    (hpackages : t.folio.packages = s.folio.packages) (hb : ∀ title, t.hasBought title ↔ s.hasBought title)
    (hv : ∀ title, t.hasPreview title ↔ s.hasPreview title) (h : s.pathRecalled p) : t.pathRecalled p := by
  intro i hi
  obtain ⟨hasks, hjudged⟩ := reasons_congr (s := s) (t := { t with folio := s.folio }) hc ho hl rfl i
  have hsame : ∀ answer, t.judgedState i answer = s.judgedState i answer := fun answer => by
    rw [← hjudged answer]
    unfold State.judgedState
    rw [hstate, hpackages]
    rfl
  obtain ⟨hquiet, hasked⟩ := h i (hp ▸ hi)
  refine ⟨fun hn => ?_, fun ha => ?_⟩
  · rw [hp, hsame]
    exact hquiet fun ha => hn (hasks.2 ha)
  · obtain ⟨htitle, hadmitted, hbought, hpreview⟩ := hasked (hasks.1 ha)
    rw [hp, hsame, hb, hv]
    exact ⟨by simpa [State.offerAt, State.channelAt, hc, ho] using htitle, hadmitted, hbought, hpreview⟩

/-- The presence update changes no path and nothing that a judging without a preview reads. -/
theorem bringOnline_pathRecalled {setting : Nat} {s : State} {p : PathId} (h : s.pathRecalled p) :
    (bringOnline setting s).pathRecalled p := by
  refine pathRecalled_of_answers (by simp) (by simp) (by simp) (by simp) (by simp) (by simp) (fun _ => ?_)
    (fun _ => ?_) h <;> simp [State.hasBought, State.hasPreview]

theorem afterVoid_pathRecalled {r : Record} {s : State} {p : PathId} (hn : (s.log.map (·.seq)).Nodup) (hr : r ∈ s.log)
    (hf : r.final = true) (h : s.pathRecalled p) : (s.afterVoid r).pathRecalled p := by
  have hfolio := afterVoid_folio r s
  have hactive := fun x : Record => mem_voidedLog_of_active (x := x) hn hr hf
  refine pathRecalled_of_answers (by simp) (by simp) (by simp) (by simp) (by simp [hfolio, Folio.refunded])
    (by simp [hfolio, Folio.refunded]) (fun title => ?_) (fun title => ?_) h
  · refine exists_congr fun x => ?_
    rw [afterVoid_log, hfolio]
    refine and_congr_left fun ⟨⟨w, hx⟩, _⟩ => hactive x ?_
    simp [Record.final, Record.isBought, hx]
  · refine exists_congr fun x => ?_
    rw [afterVoid_log, hfolio]
    refine and_congr_left fun ⟨hx, _⟩ => hactive x ?_
    simp [Record.final, Record.isPreview, hx]

/-! ### The VOID message (R77) -/

section
variable {seq : Half} {r : Record} {s : State}

theorem voidSeq_closed (h : s.folio.state = .closed) : voidSeq seq s = (s, .wrongFolio) := if_pos h

theorem voidSeq_notFound (ho : s.folio.state ≠ .closed) (hr : s.recordOf seq = none) :
    voidSeq seq s = (s, .notFound) := by
  simp [voidSeq, ho, hr]

theorem voidSeq_wrongFolio (ho : s.folio.state ≠ .closed) (hr : s.recordOf seq = some r)
    (hf : r.folio ≠ s.folio.number) : voidSeq seq s = (s, .wrongFolio) := by
  simp [voidSeq, ho, hr, hf]

theorem voidSeq_already (ho : s.folio.state ≠ .closed) (hr : s.recordOf seq = some r) (hf : r.folio = s.folio.number)
    (h : r.state = .voided) : voidSeq seq s = (s, .already) := by
  simp [voidSeq, ho, hr, hf, h]

theorem voidSeq_notBilled (ho : s.folio.state ≠ .closed) (hr : s.recordOf seq = some r)
    (hf : r.folio = s.folio.number) (h : r.state = .preview ∨ r.state = .lapsed ∨ ∃ d, r.state = .declined d) :
    voidSeq seq s = (s, .notBilled) := by
  rcases h with h | h | ⟨d, h⟩ <;> simp [voidSeq, ho, hr, hf, h]

theorem voidSeq_accepts (ho : s.folio.state ≠ .closed) (hr : s.recordOf seq = some r) (hf : r.folio = s.folio.number)
    (h : r.state = .ended ∨ ∃ w, r.state = .bought w) : voidSeq seq s = (voidRecord r s, .ok) := by
  rcases h with h | ⟨w, h⟩ <;> simp [voidSeq, ho, hr, hf, h]

end

/-- The presence update changes no record. -/
theorem bringOnline_recordOf (setting : Nat) (s : State) (seq : Half) :
    (bringOnline setting s).recordOf seq = s.recordOf seq := by
  simp [State.recordOf]

section
variable {address : Half} {payload : List Byte} {s : State}

/-- A VOID that is taken is the log's answer to it (R77). -/
theorem exec_void (h : s.takesMessage) (ha : s.answersTo address) (hn : 2 ≤ payload.length)
    (hl : payload.length ≤ 120) {t : State} {code : ResultCode}
    (hf : voidSeq (BitVec.ofNat 16 (natAt payload 0 2)) (bringOnline s.line.setting s) = (t, code)) :
    exec (.void address payload) s = .next (endEvent (t.replying address 0x80 [0x16, code.code])) :=
  exec_acked (f := voidMessage) rfl h ha hl rfl (by decide) rfl hn hf

end

/-- The refusals of VOID in the order of R77, by the folio and the record that carries the number. -/
theorem voidSeq_refuses {seq : Half} {s : State} {code : ResultCode} (hn : (s.log.map (·.seq)).Nodup)
    (h : s.folio.state = .closed ∧ code = .wrongFolio ∨
      s.folio.state ≠ .closed ∧ (∀ r ∈ s.log, r.seq ≠ seq) ∧ code = .notFound ∨
      s.folio.state ≠ .closed ∧ ∃ r ∈ s.log, r.seq = seq ∧
        (r.folio ≠ s.folio.number ∧ code = .wrongFolio ∨
          r.folio = s.folio.number ∧ r.state = .voided ∧ code = .already ∨
          r.folio = s.folio.number ∧ (r.state = .preview ∨ r.state = .lapsed ∨ ∃ d, r.state = .declined d) ∧
            code = .notBilled)) :
    voidSeq seq (bringOnline s.line.setting s) = (bringOnline s.line.setting s, code) := by
  set u := bringOnline s.line.setting s with hu
  have hstate : u.folio.state = s.folio.state := by simp [hu]
  have hnumber : u.folio.number = s.folio.number := by simp [hu]
  have hrecord := bringOnline_recordOf s.line.setting s seq
  rw [← hu] at hrecord
  rcases h with ⟨hclosed, rfl⟩ | ⟨hopen, hnone, rfl⟩ | ⟨hopen, r, hr, rfl, hcase⟩
  · exact voidSeq_closed (hstate.trans hclosed)
  · refine voidSeq_notFound (hstate ▸ hopen) (hrecord.trans (List.find?_eq_none.2 fun r hr => ?_))
    simpa using hnone r hr
  · rw [recordOf_of_mem hn hr] at hrecord
    rw [← hstate] at hopen
    rw [← hnumber] at hcase
    rcases hcase with ⟨hfolio, rfl⟩ | ⟨hfolio, hvoided, rfl⟩ | ⟨hfolio, hunbilled, rfl⟩
    · exact voidSeq_wrongFolio hopen hrecord hfolio
    · exact voidSeq_already hopen hrecord hfolio hvoided
    · exact voidSeq_notBilled hopen hrecord hfolio hunbilled

/-- Settles O39: the refusals by `voidSeq_refuses`; an accepted VOID as the record voided, its title handed to the paths,
and the reply. -/
theorem voidRefundsCharge : Obligations.VoidRefundsCharge := by
  refine ⟨?_, ?_⟩
  · intro address payload s code h ha ⟨_, hseqs, _⟩ hn hl seq hrefused
    exact exec_void h ha hn hl (voidSeq_refuses hseqs hrefused)
  intro address payload s r h hs ha ⟨_, hseqs, _⟩ hn hl hopen hr hseq hnumber hcharged u billed today
  have hrecord : u.recordOf r.seq = some r := (bringOnline_recordOf _ s _).trans (recordOf_of_mem hseqs hr)
  have hacts := exec_void h ha hn hl (hseq ▸ voidSeq_accepts (s := u) (by simpa [u] using hopen) hrecord
    (by simpa [u] using hnumber) hcharged)
  have hexec : exec (.void address payload) s =
      .next (endEvent ((voidRecord r u).replying address 0x80 [0x16, 0x00])) := hacts
  obtain ⟨hset, hfolioSlot, hrecordSlot⟩ := afterVoid_lists r u
  obtain ⟨hfolio, hport, hhanding, ⟨started, hlog, -, hstarted⟩, hothers⟩ := voidRecord_hands hcharged u
  have hlists : ListsSlots s (voidRecord r u) := (bringOnline_lists _ s).trans (hset.trans hhanding)
  obtain ⟨hlisted, hpath, hjudged, hrecalled⟩ := endEvent_replying_leaves hs hlists address 0x80 [0x16, 0x00]
  have hend := endEvent_replying hs hlists address 0x80 [0x16, 0x00]
  have hulog : u.log = s.log := by simp [u]
  have hshows : ∀ q, (u.afterVoid r).showsTitle q r.title ↔ s.showsTitle q r.title := fun q =>
    showsTitle_congr (by simp [u]) (by simp [u]) (by simp [u]) r.title
  rw [afterVoid_log, hulog] at hlog
  refine ⟨_, hexec, ?_, fun hreleased => ?_, fun hreleased x hx hxseq hold => ?_, ?_, ⟨?_, fun hended => ?_⟩,
    fun q hne hshown => ?_, fun q hother => ?_, hlisted _ (hhanding.dirty _ hfolioSlot),
    hlisted _ (hhanding.dirty _ hrecordSlot), ?_, ?_⟩
  · rw [hend]
    simp only [startWrite_keeps, replying_keeps, hfolio, afterVoid_folio, refunded_eq,
      bringOnline_folio, bringOnline_keeps, u]
    rfl
  · rw [hend]
    simp [hlog, voided_mem_voidedLog hr hreleased]
  · rw [hend] at hx
    simp only [startWrite_keeps, replying_keeps, hlog] at hx
    rcases List.mem_append.1 hx with hkept | hnew
    · exact seq_ne_of_mem_voidedLog hreleased hkept hxseq
    · have hpreview := hstarted x hnew
      rw [List.inj_on_of_nodup_map hseqs hold hr hxseq] at hpreview
      simp [hpreview] at hcharged
  · rw [hend]
    exact portAfterRemoval_of_port (by simp [u]) (by simp [hport]) (afterVoid_port r u)
  · rw [hend]
    simp only [startWrite_keeps, replying_keeps, hlog]
    exact ⟨started, rfl⟩
  · have hvoid := voidRecord_of_ended hended u
    refine ⟨?_, ?_, ?_, fun q => ⟨fun hshown => ?_, fun hstands => ?_⟩⟩
    · rw [hend, hvoid]
      simp only [startWrite_keeps, replying_keeps, handEndedTitle_keeps, afterVoid_log, hulog]
      rfl
    · rw [hend, hvoid]
      simp [u]
    · rw [hend, hvoid]
      simp [u]
    · obtain ⟨hmoved, -⟩ := handEndedTitle_paths r.title (u.afterVoid r) q
      exact hrecalled q (hvoid ▸ hmoved ((hshows q).2 hshown))
    · obtain ⟨-, -, hkept, -⟩ := handEndedTitle_paths r.title (u.afterVoid r) q
      rw [hpath, hvoid, hkept fun hshown => ?_]
      · simp [u]
      · refine afterVoid_pathRecalled (hulog ▸ hseqs) (hulog ▸ hr) (by simp [Record.final, Record.isPreview,
          Record.isBought, hended]) ?_
        exact bringOnline_pathRecalled (hstands ((hshows q).1 hshown))
  · obtain ⟨w, hbought⟩ := hcharged.resolve_left hne
    obtain ⟨hmoved, -⟩ := handTitle_paths r.title (u.afterVoid r) q
    exact hjudged q (voidRecord_of_bought hbought u ▸ hmoved ((hshows q).2 hshown))
  · rw [hpath, hothers q (mt (hshows q).1 hother)]
    simp [u]
  · rw [hend]
    simp only [startWrite_keeps]
    exact replying_line (by simp) _ _ _
  · rw [hend]
    simp [State.withAdmissionOf, u]

end Sys2Proof.Machine
end
-- ==== Sys2Proof/Proofs/LogSoundLaws.lean ====
section
/-!
SUPPORT. The log's soundness and the backing of previews (R11, R83, R98, R132): what the changes of a record and the
judgings of the paths keep of both.
-/
namespace Sys2Proof.Machine

/-! ### The log of a record's change (R84, R101) -/

/-- What a record's new content leaves of a record of the log: the content in the place of the number it carries, or
nothing if it is released and final. -/
def Record.settled (r x : Record) : Option Record :=
  if x.seq = r.seq then if r.released && r.final then none else some r else some x

theorem settled_of_ne {r x : Record} (h : x.seq ≠ r.seq) : r.settled x = some x := if_neg h

theorem settled_of_seq {r x : Record} (h : x.seq = r.seq) (hr : (r.released && r.final) = false) :
    r.settled x = some r := by
  simp [Record.settled, h, hr]

theorem settleRecord_settled (r : Record) (s : State) : (settleRecord r s).log = s.log.filterMap r.settled := by
  have hreplaced : (replaceRecord r s).log = s.log.filterMap (fun x => some (if x.seq = r.seq then r else x)) := by
    rw [List.filterMap_eq_map']
    rfl
  unfold settleRecord
  dsimp only
  cases h : r.released && r.final
  · simp only [Bool.false_eq_true, if_false, listSlot_keeps, hreplaced]
    exact List.filterMap_congr fun x _ => by simp only [Record.settled, h]; split <;> rfl
  · have hremoved : ∀ u, (removeRecord r u).log = u.log.filter (fun x => x.seq != r.seq) := fun u => by
      unfold removeRecord
      dsimp only
      (repeat' split) <;> simp
    simp only [if_true, hremoved, listSlot_keeps, hreplaced]
    rw [← List.filterMap_eq_filter, List.filterMap_filterMap]
    refine List.filterMap_congr fun x _ => ?_
    by_cases hx : x.seq = r.seq <;> simp [Record.settled, hx, h, Option.guard]

/-- A record's change leaves the records of every other number. -/
theorem mem_settleRecord_of_ne {r x : Record} {s : State} (hx : x ∈ s.log) (h : x.seq ≠ r.seq) :
    x ∈ (settleRecord r s).log := by
  rw [settleRecord_settled]
  exact List.mem_filterMap.2 ⟨x, hx, settled_of_ne h⟩

/-- A record that stays in the log has its new content there. -/
theorem mem_settleRecord {r x : Record} {s : State} (hx : x ∈ s.log) (h : x.seq = r.seq)
    (hr : (r.released && r.final) = false) : r ∈ (settleRecord r s).log := by
  rw [settleRecord_settled]
  exact List.mem_filterMap.2 ⟨x, hx, settled_of_seq h hr⟩

/-! ### Numbers and slots (R83, R98, R132) -/

/-- The log's soundness is read from the log alone. -/
theorem logSound_of_log {s t : State} (hlog : t.log = s.log) (h : LogSound s) : LogSound t := by
  unfold LogSound
  rwa [hlog]

/-- A value that stays where an element stays: the values left are some of those there were, in their order. -/
theorem filterMap_map_sublist {α β : Type} {f : α → Option α} {g : α → β} :
    ∀ {l : List α}, (∀ x ∈ l, ∀ y, f x = some y → g y = g x) → ((l.filterMap f).map g).Sublist (l.map g)
  | [], _ => .slnil
  | x :: l, h => by
    have ih := filterMap_map_sublist (l := l) fun y hy => h y (List.mem_cons_of_mem _ hy)
    rw [List.filterMap_cons]
    cases hx : f x with
    | none => exact ih.cons _
    | some y =>
      rw [List.map_cons, h x List.mem_cons_self y hx]
      exact ih.cons_cons _

/-- Records that leave the log, or take a new content of the same number and slot, leave it sound. -/
theorem logSound_of_filterMap {s t : State} {f : Record → Option Record} (hlog : t.log = s.log.filterMap f)
    (hf : ∀ x ∈ s.log, ∀ y, f x = some y → y.seq = x.seq ∧ y.slot = x.slot) (h : LogSound s) : LogSound t := by
  obtain ⟨hlength, hseqs, hslots, hbound⟩ := h
  unfold LogSound
  rw [hlog]
  refine ⟨(List.length_filterMap_le _ _).trans hlength,
    hseqs.sublist (filterMap_map_sublist fun x hx y hy => (hf x hx y hy).1),
    hslots.sublist (filterMap_map_sublist fun x hx y hy => (hf x hx y hy).2), fun y hy => ?_⟩
  obtain ⟨x, hx, hxy⟩ := List.mem_filterMap.1 hy
  obtain ⟨-, hslot⟩ := hf x hx y hxy
  exact hslot ▸ hbound x hx

/-- Records that differ have numbers that differ. -/
theorem LogSound.eq_of_seq {s : State} (h : LogSound s) {x r : Record} (hx : x ∈ s.log) (hr : r ∈ s.log)
    (he : x.seq = r.seq) : x = r := by
  obtain ⟨-, hseqs, -⟩ := h
  exact List.inj_on_of_nodup_map hseqs hx hr he

/-- A new record takes a number and a slot that no record has (R83, R132). -/
theorem createRecord_logSound {s : State} (h : LogSound s) (hroom : s.log.length < logCapacity) (title : Word)
    (origin : Origin) (rating limit : Nat) (state : RecordState) (charge : Option Charge) :
    LogSound (createRecord title origin rating limit state charge s) := by
  obtain ⟨hlog, -⟩ := createRecord_log title origin rating limit state charge s
  obtain ⟨hlength, hseqs, hslots, hbound⟩ := h
  obtain ⟨hslot, hfree⟩ := newSlot_free hroom
  have hseq := newSeq_not_mem hlength
  unfold LogSound
  rw [hlog]
  refine ⟨by simpa using hroom, ?_, ?_, fun r hr => ?_⟩
  · rw [List.map_append]
    exact hseqs.append (List.nodup_singleton _) (List.disjoint_singleton.2 hseq)
  · rw [List.map_append]
    exact hslots.append (List.nodup_singleton _) (List.disjoint_singleton.2 hfree)
  · rcases List.mem_append.1 hr with hr | hr
    · exact hbound r hr
    · rw [List.mem_singleton.1 hr]
      exact hslot

end Sys2Proof.Machine
end

