-- ==== Sys2Proof/Proofs/PreviewBackingLaws.lean ====
section
/-!
SUPPORT. Between which states the log stays sound and each path PREVIEWING stays backed by a PREVIEW record with minutes
left (R11, R83, R132), and what the judgings of the paths do to that.
-/
namespace Sys2Proof.Machine

/-! ### Paths PREVIEWING, and the records behind them (R11, R85) -/

/-- The record is the current folio's PREVIEW record for a title, with minutes left (R85, answer 2). -/
def Record.backs (r : Record) (f : Folio) (title : Word) : Prop :=
  r.state = .preview ∧ f.state ≠ .closed ∧ r.folio = f.number ∧ r.title = title ∧ r.used < r.limit

theorem hasPreview_iff (s : State) (title : Word) : s.hasPreview title ↔ ∃ r ∈ s.log, r.backs s.folio title := Iff.rfl

/-- A record backs previews of the folio whose number it carries, in any state but CLOSED. -/
theorem backs_congr {r : Record} {f g : Folio} {title : Word} (hstate : g.state = f.state)
    (hnumber : g.number = f.number) : r.backs g title ↔ r.backs f title := by
  simp [Record.backs, hstate, hnumber]

/-- What the backing of previews is read from of a path: the selection, the admitted state and the title. -/
def Path.view (x : Path) : Option Nat × PathState × Word := (x.selected, x.admitted, x.title)

theorem view_eq_iff (x y : Path) :
    x.view = y.view ↔ x.selected = y.selected ∧ x.admitted = y.admitted ∧ x.title = y.title := by
  simp [Path.view]

/-- Every path PREVIEWING has a selection, and its title has a PREVIEW record with minutes left unless the path is
excused, which judges later in the event; and a part that does not run has no selection. -/
structure PreviewsBacked (excused : PathId → Prop) (s : State) : Prop where
  selected : ∀ p, (s.path p).admitted = .previewing → (s.path p).selected ≠ none
  backed : ∀ p, (s.path p).admitted = .previewing → ¬excused p → s.hasPreview (s.path p).title
  stopped : s.phase ≠ .running → ∀ p, (s.path p).selected = none

theorem previewSound_iff (s : State) : PreviewSound s ↔ PreviewsBacked (fun _ => False) s := by
  constructor
  · rintro ⟨hbacked, hstopped⟩
    exact ⟨fun p hp => (hbacked p hp).2, fun p hp _ => (hbacked p hp).1, hstopped⟩
  · rintro ⟨hselected, hbacked, hstopped⟩
    exact ⟨fun p hp => ⟨hbacked p hp not_false, hselected p hp⟩, hstopped⟩

section
variable {E E' : PathId → Prop} {s t u : State}

/-- More paths are excused. -/
theorem PreviewsBacked.mono (h : PreviewsBacked E s) (he : ∀ p, E p → E' p) : PreviewsBacked E' s where
  selected := h.selected
  backed p hp hn := h.backed p hp (mt (he _) hn)
  stopped := h.stopped

/-- Previews stay backed where the paths stand and no backing record is lost. -/
theorem PreviewsBacked.of_view (h : PreviewsBacked E s) (hphase : t.phase = s.phase)
    (hview : ∀ p, (t.path p).view = (s.path p).view)
    (hbacks : ∀ p, ¬E p → s.hasPreview (s.path p).title → t.hasPreview (s.path p).title) : PreviewsBacked E t where
  selected p hp := by
    obtain ⟨hselected, hadmitted, -⟩ := (view_eq_iff _ _).1 (hview p)
    exact hselected ▸ h.selected p (hadmitted ▸ hp)
  backed p hp hn := by
    obtain ⟨-, hadmitted, htitle⟩ := (view_eq_iff _ _).1 (hview p)
    rw [htitle]
    exact hbacks p hn (h.backed p (hadmitted ▸ hp) hn)
  stopped hr p := by
    obtain ⟨hselected, -⟩ := (view_eq_iff _ _).1 (hview p)
    exact hselected.trans (h.stopped (hphase ▸ hr) p)

/-- A part with no selection, whose paths are UNSELECTED, has no preview to back (R20). -/
theorem previewsBacked_of_unselected
    (h : ∀ p, (s.path p).selected = none ∧ (s.path p).admitted = .unselected) : PreviewsBacked E s where
  selected p hp := by simp [(h p).2] at hp
  backed p hp := by simp [(h p).2] at hp
  stopped _ p := (h p).1

/-! ### Changes that keep the log sound and previews backed -/

/-- From `s` to `t` a sound log stays sound, and backed previews stay backed. -/
def LogKept (excused : PathId → Prop) (s t : State) : Prop :=
  LogSound s → LogSound t ∧ (PreviewsBacked excused s → PreviewsBacked excused t)

namespace LogKept

theorem refl (s : State) : LogKept E s s := fun h => ⟨h, id⟩

theorem trans (h : LogKept E s t) (k : LogKept E t u) : LogKept E s u := fun hs => by
  obtain ⟨ht, hst⟩ := h hs
  obtain ⟨hu, htu⟩ := k ht
  exact ⟨hu, htu ∘ hst⟩

/-- Nothing is written that both are read from. -/
theorem of_view (hlog : t.log = s.log) (hphase : t.phase = s.phase) (hview : ∀ p, (t.path p).view = (s.path p).view)
    (hstate : t.folio.state = s.folio.state) (hnumber : t.folio.number = s.folio.number) : LogKept E s t := fun hs => by
  refine ⟨logSound_of_log hlog hs, fun h => h.of_view hphase hview fun p _ => ?_⟩
  rw [hasPreview_iff, hasPreview_iff, hlog]
  exact fun ⟨r, hr, hb⟩ => ⟨r, hr, (backs_congr hstate hnumber).2 hb⟩

theorem of_kept
    (h : t.phase = s.phase ∧ t.pathA = s.pathA ∧ t.pathB = s.pathB ∧ t.folio = s.folio ∧ t.log = s.log) :
    LogKept E s t := by
  obtain ⟨hphase, ha, hb, hfolio, hlog⟩ := h
  exact of_view hlog hphase (fun p => by cases p <;> simp [State.path, ha, hb]) (by rw [hfolio]) (by rw [hfolio])

/-- Of the folio record neither the number nor the state is written. -/
theorem of_folio
    (h : t.phase = s.phase ∧ t.pathA = s.pathA ∧ t.pathB = s.pathB ∧ t.folio.state = s.folio.state ∧
      t.folio.number = s.folio.number ∧ t.log = s.log) : LogKept E s t := by
  obtain ⟨hphase, ha, hb, hstate, hnumber, hlog⟩ := h
  exact of_view hlog hphase (fun p => by cases p <;> simp [State.path, ha, hb]) hstate hnumber

/-- Of a path neither the selection nor the admitted state nor the title is written. -/
theorem setPath {p : PathId} {x : Path} (h : x.view = (s.path p).view) : LogKept E s (s.setPath p x) :=
  of_view (by simp) (by simp) (fun q => by
    rw [path_setPath]
    split
    · simp [*]
    · rfl) (by simp) (by simp)

/-- Records leave the log or take a new content of the same number and slot, and the backing ones stay so. -/
theorem of_filterMap {f : Record → Option Record} (hlog : t.log = s.log.filterMap f)
    (hplace : LogSound s → ∀ x ∈ s.log, ∀ y, f x = some y → y.seq = x.seq ∧ y.slot = x.slot)
    (hbacks : LogSound s → ∀ p, ¬E p → ∀ x ∈ s.log, x.backs s.folio (s.path p).title →
      ∃ y, f x = some y ∧ y.backs s.folio (s.path p).title)
    (h : t.phase = s.phase ∧ t.pathA = s.pathA ∧ t.pathB = s.pathB ∧ t.folio = s.folio) : LogKept E s t := fun hs => by
  obtain ⟨hphase, ha, hb, hfolio⟩ := h
  refine ⟨logSound_of_filterMap hlog (hplace hs) hs, fun hp => hp.of_view hphase
    (fun p => by cases p <;> simp [State.path, ha, hb]) fun p hn => ?_⟩
  rw [hasPreview_iff, hasPreview_iff, hlog, hfolio]
  rintro ⟨x, hx, hxb⟩
  obtain ⟨y, hy, hyb⟩ := hbacks hs p hn x hx hxb
  exact ⟨y, List.mem_filterMap.2 ⟨x, hx, hy⟩, hyb⟩

/-- Changes made one after the other, each of which keeps both. -/
theorem foldl {α : Type} {f : State → α → State} (hf : ∀ u a, LogKept E u (f u a)) :
    ∀ (l : List α) (s : State), LogKept E s (l.foldl f s)
  | [], s => refl s
  | a :: l, s => (hf s a).trans (foldl hf l (f s a))

end LogKept

/-! ### The shared operations (R61, R133, R134, R156, R161) -/

theorem LogKept.listSlot (h : LogKept E s t) (k : Nat) : LogKept E s (listSlot k t) := h.trans (.of_kept (by simp))

theorem LogKept.report (h : LogKept E s t) (f : DetailFlag) : LogKept E s (report f t) := h.trans (.of_kept (by simp))

theorem LogKept.placeReply (h : LogKept E s t) (code : Byte) (r : ResultCode) (data : List Byte) :
    LogKept E s (placeReply code r data t) := h.trans (.of_kept (by simp))

theorem setFolio_logKept {f : Folio} (hstate : f.state = s.folio.state) (hnumber : f.number = s.folio.number) :
    LogKept E s (setFolio f s) := .of_folio (by simp [hstate, hnumber])

theorem startWrite_logKept (s : State) : LogKept E s (startWrite s) := .of_kept (by simp)

/-- The RESET command leaves both paths UNSELECTED (R21, R159). -/
theorem resetEffect_logKept (s : State) : LogKept E s (resetEffect s) := fun hs => by
  refine ⟨logSound_of_log (by simp) hs, fun _ => previewsBacked_of_unselected fun p => ?_⟩
  unfold resetEffect
  dsimp only
  split <;> cases p <;> simp [State.path, Path.resetCommand]

theorem endEvent_logKept (s : State) : LogKept E s (endEvent s) := by
  unfold endEvent
  dsimp only
  split
  · exact (startWrite_logKept s).trans ((resetEffect_logKept _).trans (startWrite_logKept _))
  · exact startWrite_logKept s

theorem LogKept.endEvent (h : LogKept E s t) : LogKept E s (endEvent t) := h.trans (endEvent_logKept t)

/-! ### Judgings (R7 to R11, R86, R88) -/

/-- A path whose answer of PREVIEW is the log's is backed. -/
theorem hasPreview_of_pathRecalled {p : PathId} (h : s.pathRecalled p) (hp : (s.path p).admitted = .previewing)
    (hs : (s.path p).selected ≠ none) : s.hasPreview (s.path p).title := by
  obtain ⟨i, hi⟩ := Option.ne_none_iff_exists'.1 hs
  obtain ⟨hquiet, hasks⟩ := h i hi
  by_cases ha : s.asksLog i
  · obtain ⟨-, hadmitted, -, hpreview⟩ := hasks ha
    rw [judgedState_asks ha, hp] at hadmitted
    have hanswer : (s.path p).answer = .preview := by
      cases he : (s.path p).answer <;> simp [he, Answer.pathState] at hadmitted ⊢
    exact (hpreview.1 hanswer).2
  · have hadmitted := hquiet ha
    rw [hp] at hadmitted
    have hclass : ¬((s.channelAt i).cls = .title ∧ ¬s.isNoService i ∧ ¬s.isTableFault i ∧ ¬s.isOverCeiling i) := ha
    unfold State.judgedState at hadmitted
    (repeat' split at hadmitted) <;> simp_all

theorem pathRecalled_of_pathJudged {p : PathId} (h : s.pathJudged p) : s.pathRecalled p := fun i hi => by
  obtain ⟨hquiet, hasks⟩ := h i hi
  refine ⟨hquiet, fun ha => ?_⟩
  obtain ⟨htitle, hadmitted, hbought, hpreview, -⟩ := hasks ha
  exact ⟨htitle, hadmitted, hbought, hpreview⟩

/-- A judging changes no selection. -/
theorem judgeOnce_selected (p q : PathId) (s : State) :
    ((judgeOnce p s).state.path q).selected = (s.path q).selected := by
  have hset : ∀ (u : State) x, (∀ r, u.path r = s.path r) → x.selected = (s.path p).selected →
      ((u.setPath p x).path q).selected = (s.path q).selected := fun u x hu hx => by
    rw [path_setPath]
    split
    · rw [hx, ‹q = p›]
    · rw [hu]
  cases hs : (s.path p).selected with
  | none => rw [judgeOnce_unselected hs]
  | some i =>
    by_cases ha : s.asksLog i
    · rw [judgeOnce_asks hs ha]
      exact hset _ _ (fun r => by cases r <;> simp [State.path]) (by cases p <;> simp [State.path])
    · rw [judgeOnce_quiet hs ha .none]
      exact hset s _ (fun _ => rfl) rfl

theorem judge_selected (p q : PathId) (s : State) : ((judge p s).path q).selected = (s.path q).selected := by
  unfold judge
  dsimp only
  (repeat' split) <;> simp only [judgeOnce_selected]

/-- A path in UNSELECTED does not judge (R7). -/
theorem judge_unselected {p : PathId} (h : (s.path p).selected = none) : judge p s = s := by
  simp [judge, judgeOnce_unselected h]

/-- The log grows where an event of admission lets it: no backing record is lost. -/
theorem hasPreview_grows {title : Word} (hf : t.folio = s.folio) (hl : s.log <+: t.log) (h : s.hasPreview title) :
    t.hasPreview title := by
  obtain ⟨r, hr, hb⟩ := (hasPreview_iff _ _).1 h
  exact ⟨r, hl.subset hr, hf ▸ hb⟩

/-- A judging leaves a path as it stood, or as its own judging leaves it. -/
theorem judge_path_cases (p q : PathId) (s : State) :
    (judge p s).path q = s.path q ∧ (q = p → (s.path q).selected = none) ∨
      (judge p s).pathRecalled q ∧ (s.path q).selected ≠ none := by
  obtain ⟨hself, hother⟩ := judge_cases p s
  obtain rfl | rfl : q = p ∨ q = p.other := by cases q <;> cases p <;> simp [PathId.other]
  · cases hs : (s.path q).selected with
    | none => exact .inl ⟨by rw [judge_unselected hs], fun _ => rfl⟩
    | some i => exact .inr ⟨pathRecalled_of_pathJudged hself, by simp⟩
  · have hne : p.other ≠ p := by cases p <;> simp [PathId.other]
    rcases hother with ⟨x, hw⟩ | ⟨title, index, x, y, -, hw, hshown, hnot⟩
    · exact .inl ⟨by rw [hw, path_setPath_other], fun h => absurd h hne⟩
    · by_cases h : s.showsTitle p.other title
      · have ⟨_, hselected, _⟩ := h
        exact .inr ⟨pathRecalled_of_pathJudged (hshown h), by simp [hselected]⟩
      · exact .inl ⟨by rw [hw, path_setPath_same, hnot h], fun h => absurd h hne⟩

/-- A judging backs the previews of its own path, and no other loses its backing. -/
theorem judge_previewsBacked (p : PathId) (h : PreviewsBacked E s) :
    PreviewsBacked (fun q => E q ∧ q ≠ p) (judge p s) where
  selected q hq := by
    rcases judge_path_cases p q s with ⟨hstood, -⟩ | ⟨-, hselected⟩
    · rw [hstood] at hq ⊢
      exact h.selected q hq
    · rwa [judge_selected]
  backed q hq hn := by
    rcases judge_path_cases p q s with ⟨hstood, hself⟩ | ⟨hrecalled, hselected⟩
    · rw [hstood] at hq ⊢
      have hbacked := h.backed q hq fun he => hn ⟨he, fun hqp => h.selected q hq (hself hqp)⟩
      exact hasPreview_grows (by simp) (judge_grows p s).log hbacked
    · exact hasPreview_of_pathRecalled hrecalled hq (by rwa [judge_selected])
  stopped hr q := by
    rw [judge_selected]
    exact h.stopped (by simpa using hr) q

theorem previewStarted_logSound {title : Word} {index : Nat} (hst : s.startsPreview title index) (h : LogSound s) :
    LogSound (s.previewStarted title index) := by
  obtain ⟨-, -, -, -, -, hroom, -⟩ := hst
  exact createRecord_logSound h hroom _ _ _ _ _ _

theorem judge_logSound (p : PathId) (h : LogSound s) : LogSound (judge p s) := by
  obtain ⟨-, ⟨x, hw⟩ | ⟨title, index, x, y, hst, hw, -⟩⟩ := judge_cases p s
  · exact logSound_of_log (by rw [hw]; simp) h
  · exact logSound_of_log (by rw [hw]; simp) (previewStarted_logSound hst h)

theorem judge_logKept (p : PathId) (s : State) : LogKept E s (judge p s) := fun hs =>
  ⟨judge_logSound p hs, fun h => (judge_previewsBacked p h).mono fun _ hq => hq.1⟩

theorem judgeBoth_logSound (h : LogSound s) : LogSound (judgeBoth s) := by
  obtain ⟨p, n, he⟩ := judgeBoth_eq s
  rw [he]
  exact judge_logSound _ (judge_logSound _ h)

/-- Both paths have judged: none needs an excuse any more. -/
theorem judgeBoth_previewsBacked (h : PreviewsBacked E s) : PreviewsBacked E' (judgeBoth s) := by
  obtain ⟨p, n, he⟩ := judgeBoth_eq s
  have hchosen : PreviewsBacked E { s with choice := n } := ⟨h.selected, h.backed, h.stopped⟩
  rw [he]
  refine (judge_previewsBacked p.other (judge_previewsBacked p hchosen)).mono fun q hq => ?_
  obtain ⟨⟨-, hp⟩, hother⟩ := hq
  cases p <;> cases q <;> simp [PathId.other] at hp hother

theorem judgeBoth_logKept (s : State) : LogKept E s (judgeBoth s) := fun hs =>
  ⟨judgeBoth_logSound hs, judgeBoth_previewsBacked⟩

theorem judgeReached_logSound (a b : Bool) (h : LogSound s) : LogSound (judgeReached a b s) := by
  cases a <;> cases b
  · exact h
  · exact judge_logSound _ h
  · exact judge_logSound _ h
  · exact judgeBoth_logSound h

/-- The paths that an event reaches judge, and need no excuse any more. -/
theorem judgeReached_previewsBacked {reached : PathId → Bool} (h : PreviewsBacked E s)
    (he : ∀ p, E p → (s.path p).admitted = .previewing → reached p = false → E' p) :
    PreviewsBacked E' (judgeReached (reached .a) (reached .b) s) := by
  have hpruned : PreviewsBacked (fun p => E p ∧ (s.path p).admitted = .previewing) s :=
    ⟨h.selected, fun p hp hn => h.backed p hp fun hq => hn ⟨hq, hp⟩, h.stopped⟩
  have hone : ∀ p, (∀ q, q ≠ p → reached q = false) → PreviewsBacked E' (judge p s) := fun p hp =>
    (judge_previewsBacked p hpruned).mono fun q ⟨⟨hq, hadmitted⟩, hne⟩ => he q hq hadmitted (hp q hne)
  cases ha : reached .a <;> cases hb : reached .b
  · exact hpruned.mono fun p ⟨hp, hadmitted⟩ => he p hp hadmitted (by cases p <;> assumption)
  · exact hone .b fun q hq => by cases q <;> simp_all
  · exact hone .a fun q hq => by cases q <;> simp_all
  · exact judgeBoth_previewsBacked h

theorem judgeReached_logKept (a b : Bool) (s : State) : LogKept E s (judgeReached a b s) := by
  cases a <;> cases b
  · exact .refl s
  · exact judge_logKept _ s
  · exact judge_logKept _ s
  · exact judgeBoth_logKept s

theorem handTitle_logKept (title : Word) (s : State) : LogKept E s (handTitle title s) := judgeReached_logKept _ _ s

/-- The paths PREVIEWING a title whose preview has ended judge. -/
theorem handPreviewEnd_previewsBacked {title : Word} (h : PreviewsBacked (fun p => E p ∨ (s.path p).title = title) s) :
    PreviewsBacked E (handPreviewEnd title s) := by
  refine judgeReached_previewsBacked (reached := fun p => s.followsPreview p title) h fun p hp hadmitted hnot => ?_
  refine hp.resolve_right fun htitle => Bool.eq_false_iff.1 hnot ((followsPreview_iff s p title).2 (.inr ?_))
  exact ⟨h.selected p hadmitted, hadmitted, htitle⟩

/-- A title handed to the paths without a preview: those that judge are answered by the log as it stands. -/
theorem handEndedTitle_logKept (title : Word) (s : State) : LogKept E s (handEndedTitle title s) := fun hs => by
  have hselected : ∀ p, ((handEndedTitle title s).path p).selected = (s.path p).selected := fun p => by
    obtain ⟨-, -, -, shown, answer, admitted, hw⟩ := handEndedTitle_paths title s p
    rw [hw]
  refine ⟨logSound_of_log (by simp) hs, fun h => ⟨fun p hp => ?_, fun p hp hn => ?_, fun hr p => ?_⟩⟩
  · obtain ⟨-, hstood, -⟩ := handEndedTitle_paths title s p
    by_cases hshown : s.showsTitle p title
    · have ⟨_, hi, _⟩ := hshown
      simp [hselected, hi]
    · rw [hstood hshown] at hp ⊢
      exact h.selected p hp
  · obtain ⟨hrecalled, hstood, -⟩ := handEndedTitle_paths title s p
    by_cases hshown : s.showsTitle p title
    · have ⟨_, hi, _⟩ := hshown
      exact hasPreview_of_pathRecalled (hrecalled hshown) hp (by simp [hselected, hi])
    · rw [hstood hshown] at hp ⊢
      exact hasPreview_grows (by simp) (by simp) (h.backed p hp hn)
  · rw [hselected]
    exact h.stopped (by simpa using hr) p

end

end Sys2Proof.Machine
end

