-- ==== Sys2Proof/Proofs/LogKeptAtEvents.lean ====
section
/-!
SUPPORT. The log stays sound and previews stay backed at every event of the blocks: the log, the lock unit, the tables,
the clocks, the record store, the supply and the line port.
-/
namespace Sys2Proof.Machine

section
variable {E : PathId → Prop} {s t u : State} {r r' : Record} {title : Word}

/-! ### A record's new content (R84, R101) -/

/-- What a new content of a record must hold to: the record's slot, and the backing of the previews of the paths that
are not excused. -/
def Record.follows (r' r : Record) (excused : PathId → Prop) (s : State) : Prop :=
  r'.seq = r.seq ∧ r'.slot = r.slot ∧
    ∀ p, ¬excused p → r.backs s.folio (s.path p).title → r'.backs s.folio (s.path p).title

theorem settled_cases {x y : Record} (h : r'.settled x = some y) : x.seq = r'.seq ∧ y = r' ∨ y = x := by
  unfold Record.settled at h
  (repeat' split at h) <;> cases h
  · exact .inl ⟨‹_›, rfl⟩
  · exact .inr rfl

theorem settleRecord_logKept (hr : r ∈ s.log) (h : r'.follows r E s) : LogKept E s (settleRecord r' s) := by
  obtain ⟨hseq, hslot, hbacks⟩ := h
  refine .of_filterMap (settleRecord_settled r' s) (fun hs x hx y hy => ?_) (fun hs p hp x hx hb => ?_) (by simp)
  · rcases settled_cases hy with ⟨he, rfl⟩ | rfl
    · rw [hs.eq_of_seq hx hr (he.trans hseq)]
      exact ⟨hseq, hslot⟩
    · exact ⟨rfl, rfl⟩
  · by_cases he : x.seq = r'.seq
    · obtain rfl := hs.eq_of_seq hx hr (he.trans hseq)
      have hb' := hbacks p hp hb
      have ⟨hstate, _⟩ := hb'
      exact ⟨r', settled_of_seq he (by simp [Record.final, Record.isPreview, hstate]), hb'⟩
    · exact ⟨x, settled_of_ne he, hb⟩

theorem replaceRecord_logKept (hr : r ∈ s.log) (h : r'.follows r E s) : LogKept E s (replaceRecord r' s) := by
  obtain ⟨hseq, hslot, hbacks⟩ := h
  have hlog : (replaceRecord r' s).log = s.log.filterMap (fun x => some (if x.seq = r'.seq then r' else x)) := by
    rw [List.filterMap_eq_map']
    rfl
  refine .of_filterMap hlog (fun hs x hx y hy => ?_) (fun hs p hp x hx hb => ⟨_, rfl, ?_⟩) (by simp)
  · cases hy
    split
    · rw [hs.eq_of_seq hx hr (Eq.trans ‹_› hseq)]
      exact ⟨hseq, hslot⟩
    · exact ⟨rfl, rfl⟩
  · split
    · rw [hs.eq_of_seq hx hr (Eq.trans ‹_› hseq)] at hb
      exact hbacks p hp hb
    · exact hb

/-- A record that is not in PREVIEW backs nothing, so that its new content is free but for its place. -/
theorem follows_of_not_preview (h : r.state ≠ .preview) (hseq : r'.seq = r.seq) (hslot : r'.slot = r.slot) :
    r'.follows r E s := ⟨hseq, hslot, fun _ _ ⟨hstate, _⟩ => absurd hstate h⟩

/-! ### The end of a preview (R88 to R91, R94) -/

/-- From `s` to `t` a preview of this title ends: a sound log stays sound, and previews are backed again once the paths
PREVIEWING the title have judged. -/
def PreviewEnds (excused : PathId → Prop) (title : Word) (s t : State) : Prop :=
  LogSound s → LogSound t ∧
    (PreviewsBacked (fun p => excused p ∨ (s.path p).title = title) s → PreviewsBacked excused t)

theorem PreviewEnds.logKept (h : PreviewEnds E title s t) : LogKept E s t := fun hs => by
  obtain ⟨ht, hp⟩ := h hs
  exact ⟨ht, fun hb => hp (hb.mono fun _ => .inl)⟩

/-- Changes before the paths judge, for which the paths PREVIEWING the title are excused. -/
theorem LogKept.ends (h : LogKept (fun p => E p ∨ (s.path p).title = title) s u) (hpath : ∀ p, u.path p = s.path p)
    (k : PreviewEnds E title u t) : PreviewEnds E title s t := fun hs => by
  obtain ⟨hu, hsu⟩ := h hs
  obtain ⟨ht, hut⟩ := k hu
  exact ⟨ht, fun hb => hut ((hsu hb).mono fun p hp => by rwa [hpath])⟩

theorem handPreviewEnd_ends (title : Word) (s : State) : PreviewEnds E title s (handPreviewEnd title s) := fun hs =>
  ⟨judgeReached_logSound _ _ hs, handPreviewEnd_previewsBacked⟩

/-- Where the paths PREVIEWING a record's title are excused, its new content is free but for its place. -/
theorem follows_of_excused (hseq : r'.seq = r.seq) (hslot : r'.slot = r.slot) :
    r'.follows r (fun p => E p ∨ (s.path p).title = r.title) s :=
  ⟨hseq, hslot, fun _ hp ⟨_, _, _, htitle, _⟩ => absurd htitle.symm fun h => hp (.inr h)⟩

theorem leavePreview_ends (hr : r ∈ s.log) (hseq : r'.seq = r.seq) (hslot : r'.slot = r.slot)
    (htitle : r'.title = r.title) : PreviewEnds E r.title s (leavePreview r' s) := by
  unfold leavePreview
  rw [htitle]
  exact (settleRecord_logKept hr (follows_of_excused hseq hslot)).ends
    (fun p => by cases p <;> simp [State.path]) (handPreviewEnd_ends _ _)

/-- A granted charge moves neither the folio's number nor its state (R72). -/
theorem grantCharge_logKept {price : Nat} {f : Folio} {c : Charge} (h : chargeRequest price s = .granted f c) :
    LogKept E s (grantCharge f c s) := by
  obtain ⟨rfl, -⟩ := chargeRequest_granted h
  unfold grantCharge
  split
  · exact ((LogKept.refl s).report _).trans (setFolio_logKept (by simp [Folio.charged]) (by simp [Folio.charged]))
  · exact setFolio_logKept rfl rfl

theorem endAuto_ends (hr : r ∈ s.log) : PreviewEnds E r.title s (endAuto r s) := by
  unfold endAuto
  split
  · exact leavePreview_ends hr rfl rfl rfl
  · split
    · exact leavePreview_ends hr rfl rfl rfl
    · split
      · exact leavePreview_ends hr rfl rfl rfl
      · exact ((grantCharge_logKept ‹_›).report _).ends (fun p => by cases p <;> simp [State.path])
          (leavePreview_ends (r := r) (by simpa using hr) rfl rfl rfl)

/-- A preview minute that leaves minutes leaves the record backing what it backed; the last one ends the preview. -/
theorem countPreview_logKept (hr : r ∈ s.log) : LogKept E s (countPreview r s) := by
  have hcounted : { r with used := r.used + 1 } ∈ (replaceRecord { r with used := r.used + 1 } s).log :=
    List.mem_map.2 ⟨r, hr, if_pos rfl⟩
  unfold countPreview
  dsimp only
  split
  · refine (replaceRecord_logKept (r' := { r with used := r.used + 1 }) hr ⟨rfl, rfl, fun p _ hb => ?_⟩).listSlot _
    obtain ⟨hstate, hopen, hnumber, htitle, -⟩ := hb
    exact ⟨hstate, hopen, hnumber, htitle, ‹_›⟩
  · refine PreviewEnds.logKept (title := r.title) ?_
    refine ((replaceRecord_logKept (r' := { r with used := r.used + 1 }) hr (follows_of_excused rfl rfl)).listSlot
      r.slot).ends (fun p => by cases p <;> simp [State.path]) ?_
    split
    · exact leavePreview_ends (r := { r with used := r.used + 1 }) (by simpa using hcounted) rfl rfl rfl
    · exact endAuto_ends (r := { r with used := r.used + 1 }) (by simpa using hcounted)

theorem previewMinute_logKept (seq : Half) (s : State) : LogKept E s (previewMinute seq s) := by
  unfold previewMinute
  split
  · split
    · exact countPreview_logKept (mem_of_recordOf ‹_›)
    · exact .refl s
  · exact .refl s

theorem lastPreviewMinute_logKept (policy : Policy) (seq : Half) (s : State) :
    LogKept E s (lastPreviewMinute policy seq s) := by
  unfold lastPreviewMinute
  split
  · split
    · exact countPreview_logKept (mem_of_recordOf ‹_›)
    · exact .refl s
  · exact .refl s

/-! ### Windows (R92) -/

theorem not_preview_of_isBought (h : r.isBought = true) : r.state ≠ .preview := by
  obtain ⟨w, hw⟩ := (isBought_iff r).1 h
  simp [hw]

theorem endWindow_logKept (hr : r ∈ s.log) (hb : r.isBought = true) : LogKept E s (endWindow r s) := by
  refine (((LogKept.refl s).report .windowEnded).trans ?_).trans (handEndedTitle_logKept _ _)
  exact settleRecord_logKept (r := r) (by simpa using hr)
    (follows_of_not_preview (not_preview_of_isBought hb) rfl rfl)

theorem windowMinute_logKept (seq : Half) (s : State) : LogKept E s (windowMinute seq s) := by
  unfold windowMinute
  split
  · exact .refl s
  · rename_i r hfound
    have hr := mem_of_recordOf hfound
    split
    · rename_i hb
      have hcounted : LogKept E s (replaceRecord { r with state := .bought (r.window - 1) } s) :=
        replaceRecord_logKept hr (follows_of_not_preview (not_preview_of_isBought hb) rfl rfl)
      dsimp only
      split
      · exact endWindow_logKept hr hb
      · split
        · exact hcounted.listSlot _
        · exact hcounted
    · exact .refl s

theorem lastWindowMinute_logKept (seq : Half) (s : State) : LogKept E s (lastWindowMinute seq s) := by
  unfold lastWindowMinute
  split
  · split
    · rename_i hb
      simp only [Bool.and_eq_true] at hb
      exact endWindow_logKept (mem_of_recordOf ‹_›) hb.1
    · exact .refl s
  · exact .refl s

/-! ### Collection and release (R99 to R101) -/

theorem collectRecords_logKept (after : Half) (s : State) : LogKept E s (collectRecords after s).1 := by
  have hlog : (collectRecords after s).1.log = s.log.filterMap (fun r => some
      (if (((s.collectable after).take 4).map (·.seq)).contains r.seq then { r with collected := true } else r)) := by
    rw [List.filterMap_eq_map']
    rfl
  refine .of_filterMap hlog (fun _ x _ y hy => ?_) (fun _ p _ x _ hb => ⟨_, rfl, ?_⟩) (by simp)
  · cases hy
    split <;> exact ⟨rfl, rfl⟩
  · split
    · exact hb
    · exact hb

/-- The record is released in its turn: it was collected, and its released mark is clear (R100). -/
def Record.releasable (r : Record) : Bool := r.collected && !r.released

/-- What a release leaves of a record: released if it was collected, and out of the log if it is final too. -/
def Record.atRelease (r : Record) : Option Record :=
  if r.releasable then if r.final then none else some { r with released := true } else some r

/-- A release settles a collected record whose mark was clear, and does nothing else (R100). -/
theorem releaseRecord_eq (r : Record) (s : State) :
    releaseRecord r s =
      if r.releasable then settleRecord { r with released := true } s else s := by
  unfold releaseRecord Record.releasable
  by_cases hc : r.collected = true <;> by_cases hr : r.released = true <;> simp only [hc, hr] <;> rfl

theorem releaseRecord_logKept (hr : r ∈ s.log) : LogKept E s (releaseRecord r s) := by
  rw [releaseRecord_eq]
  split
  · exact settleRecord_logKept hr ⟨rfl, rfl, fun _ _ hb => hb⟩
  · exact .refl s

/-- Among numbers that differ, a change of the record that stands between others leaves those. -/
theorem filterMap_settled_of_nodup {done rest : List Record} {r r' : Record}
    (hn : ((done ++ r :: rest).map (·.seq)).Nodup) (hseq : r'.seq = r.seq) :
    (done ++ r :: rest).filterMap r'.settled = done ++ ((r'.settled r).toList ++ rest) := by
  rw [List.map_append, List.map_cons, List.nodup_append, List.nodup_cons] at hn
  obtain ⟨-, ⟨hrest, -⟩, hdone⟩ := hn
  have hkept : ∀ l : List Record, (∀ x ∈ l, x.seq ≠ r.seq) → l.filterMap r'.settled = l := fun l hl => by
    rw [List.filterMap_congr fun x hx => settled_of_ne (hseq ▸ hl x hx), List.filterMap_some]
  rw [List.filterMap_append, hkept done fun x hx => hdone _ (List.mem_map_of_mem hx) _ List.mem_cons_self,
    List.filterMap_cons]
  cases r'.settled r <;> simp [hkept rest fun x hx he => hrest (he ▸ List.mem_map_of_mem hx)]

/-- One record's release changes that record alone. -/
theorem releaseRecord_log {done rest : List Record} (hl : s.log = done ++ r :: rest) (hn : (s.log.map (·.seq)).Nodup) :
    (releaseRecord r s).log = done ++ (r.atRelease.toList ++ rest) := by
  rw [releaseRecord_eq]
  unfold Record.atRelease
  split
  · have hturn := filterMap_settled_of_nodup (r := r) (r' := { r with released := true }) (hl ▸ hn) rfl
    rw [settleRecord_settled, hl, hturn]
    exact congrArg (fun o => done ++ (Option.toList o ++ rest)) (if_pos rfl)
  · simp [hl]

theorem releaseTurns_logKept {newer : List Record} : ∀ (l done : List Record) {u : State},
    u.log = done ++ (l ++ newer) → LogKept E u (l.foldl (fun s r => releaseRecord r s) u)
  | [], _, u, _ => .refl u
  | r :: l, done, u, hl => fun hu => by
    have ⟨_, hseqs, _⟩ := hu
    have hturn : (releaseRecord r u).log = (done ++ r.atRelease.toList) ++ (l ++ newer) := by
      rw [releaseRecord_log hl hseqs, List.append_assoc]
      rfl
    exact ((releaseRecord_logKept (by simp [hl])).trans (releaseTurns_logKept l _ hturn)) hu

/-- The records that a RELEASE names stand first in the log (R100). -/
theorem throughSeq_prefix (seq : Half) : ∀ l : List Record, throughSeq seq l <+: l
  | [] => List.prefix_refl _
  | r :: l => by
    unfold throughSeq
    split
    · exact ⟨l, rfl⟩
    · exact (List.prefix_cons_inj r).2 (throughSeq_prefix seq l)

theorem releaseThrough_logKept (seq : Half) (s : State) : LogKept E s (releaseThrough seq s).1 := by
  obtain ⟨newer, hl⟩ := throughSeq_prefix seq s.log
  unfold releaseThrough
  split
  · exact .refl s
  · exact releaseTurns_logKept (newer := newer) _ [] hl.symm

/-! ### VOID and ORDER (R77 to R79, R93 to R95) -/

theorem voidRecord_logKept (hr : r ∈ s.log) (hp : r.state ≠ .preview) : LogKept E s (voidRecord r s) := by
  have hrefunded : ∀ billed sameDay,
      LogKept E s (listSlot folioSlot { s with folio := s.folio.refunded billed sameDay }) := fun billed sameDay =>
    .of_folio (by simp [Folio.refunded])
  have hvoided : ∀ {u : State}, u.log = s.log → LogKept E u (settleRecord { r with state := .voided } u) := fun hu =>
    settleRecord_logKept (hu ▸ hr) (follows_of_not_preview hp rfl rfl)
  unfold voidRecord
  dsimp only
  split
  · exact ((hrefunded _ _).trans (hvoided (by simp))).trans (handTitle_logKept _ _)
  · exact ((hrefunded _ _).trans (hvoided (by simp))).trans (handEndedTitle_logKept _ _)

theorem voidSeq_logKept (seq : Half) (s : State) : LogKept E s (voidSeq seq s).1 := by
  unfold voidSeq
  (repeat' split)
  case h_5 | h_6 => exact voidRecord_logKept (mem_of_recordOf ‹_›) (by simp [*])
  all_goals exact .refl s

theorem createRecord_logKept (hroom : s.log.length < logCapacity) (title : Word) (origin : Origin) (rating limit : Nat)
    (state : RecordState) (charge : Option Charge) :
    LogKept E s (createRecord title origin rating limit state charge s) := fun hs => by
  obtain ⟨hlog, -⟩ := createRecord_log title origin rating limit state charge s
  exact ⟨createRecord_logSound hs hroom _ _ _ _ _ _, fun h => h.of_view (by simp)
    (fun p => by cases p <;> simp [State.path]) fun p _ => hasPreview_grows (by simp) ⟨_, hlog.symm⟩⟩

/-- The record that an ORDER converts is the current folio's PREVIEW record for the title (R94). -/
theorem previewRecord_spec (h : s.previewRecord title = some r) :
    r ∈ s.log ∧ r.state = .preview ∧ s.folio.state ≠ .closed ∧ r.folio = s.folio.number ∧ r.title = title := by
  have hfound := List.find?_some h
  simp only [Record.current, Bool.and_eq_true, beq_iff_eq, isOpen_iff, isPreview_iff] at hfound
  obtain ⟨⟨hstate, hopen, hnumber⟩, htitle⟩ := hfound
  exact ⟨List.mem_of_find?_eq_some h, hstate, hopen, hnumber, htitle⟩

/-- A granted charge changes neither the records nor whose they are. -/
theorem grantCharge_previewRecord {f : Folio} {c : Charge} {price : Nat} (h : chargeRequest price s = .granted f c)
    (title : Word) : (grantCharge f c s).previewRecord title = s.previewRecord title := by
  obtain ⟨rfl, -⟩ := chargeRequest_granted h
  simp only [State.previewRecord, grantCharge_keeps]
  simp [Record.current, Folio.isOpen, grantCharge, Folio.charged]

section
variable (s) (o : OfferEntry) (f : Folio) (c : Charge)

/-- The charge granted and a PREVIEW record converted in its place, before the command is accepted (R94). -/
def State.orderConverts (r : Record) : State :=
  settleRecord { r with state := .bought (o.takenWindow * 60), charge := some c } (grantCharge f c s)

/-- The charge granted and a new record created, before the command is accepted (R94). -/
def State.orderCreates : State :=
  createRecord o.title .order o.rating o.takenPreview (.bought (o.takenWindow * 60)) (some c) (grantCharge f c s)

/-- The acceptance of an ORDER whose record has this number and slot (R95). -/
def State.orderWaits (seq : Half) (slot : Nat) : State :=
  acceptStore (.order seq slot c.billed c.waived (o.takenWindow * 60)) 0x20 [] s

end

section
variable {o : OfferEntry} {f : Folio} {c : Charge} {price : Nat} (hc : chargeRequest price s = .granted f c)
include hc

theorem acceptOrder_converts (h : s.previewRecord o.title = some r) :
    acceptOrder o f c s =
      endEvent (handPreviewEnd o.title ((s.orderConverts o f c r).orderWaits o c r.seq r.slot)) := by
  rw [← grantCharge_previewRecord hc] at h
  simp only [acceptOrder, h]
  rfl

theorem acceptOrder_creates (h : s.previewRecord o.title = none) :
    acceptOrder o f c s = endEvent (handTitle o.title ((s.orderCreates o f c).orderWaits o c s.newSeq s.newSlot)) := by
  rw [← grantCharge_previewRecord hc] at h
  have hseq : (grantCharge f c s).newSeq = s.newSeq := by simp [State.newSeq]
  have hslot : (grantCharge f c s).newSlot = s.newSlot := by simp [State.newSlot]
  simp only [acceptOrder, h, hseq, hslot]
  rfl

theorem acceptOrder_logKept (hroom : (s.previewRecord o.title).isSome = true ∨ s.log.length < logCapacity) :
    LogKept E s (acceptOrder o f c s) := by
  have hwaits : ∀ {E'} (u : State) seq slot, LogKept E' u (u.orderWaits o c seq slot) := fun u seq slot =>
    .of_kept (by simp [State.orderWaits])
  cases hfound : s.previewRecord o.title with
  | some r =>
    obtain ⟨hr, -, -, -, htitle⟩ := previewRecord_spec hfound
    rw [acceptOrder_converts hc hfound, ← htitle]
    refine LogKept.endEvent (PreviewEnds.logKept (title := r.title) ?_)
    have hconverted : LogKept (fun p => E p ∨ (s.path p).title = r.title) s (s.orderConverts o f c r) := by
      refine (grantCharge_logKept hc).trans (settleRecord_logKept (r := r) (by simpa using hr) ?_)
      refine ⟨rfl, rfl, fun p hp ⟨_, _, _, hb, _⟩ => absurd ?_ hp⟩
      cases p <;> exact .inr (by simpa [State.path] using hb.symm)
    exact (hconverted.trans (hwaits _ _ _)).ends
      (fun p => by cases p <;> simp [State.path, State.orderConverts, State.orderWaits]) (handPreviewEnd_ends _ _)
  | none =>
    have hfree := hroom.resolve_left (by simp [hfound])
    rw [acceptOrder_creates hc hfound]
    have hcreated : LogKept E s (s.orderCreates o f c) :=
      (grantCharge_logKept hc).trans (createRecord_logKept (by simpa using hfree) _ _ _ _ _ _)
    exact ((hcreated.trans (hwaits _ _ _)).trans (handTitle_logKept _ _)).endEvent

end

/-! ### The lock unit (R107 to R119) -/

theorem applyLock_logKept (l : Lock) (s : State) : LogKept E s (applyLock l s) := by
  have hlisted : LogKept E s (if l.stored = s.lock.stored then { s with lock := l }
      else Machine.listSlot lockSlot { s with lock := l }) := by
    split <;> exact .of_kept (by simp)
  unfold applyLock
  dsimp only
  split
  · exact hlisted
  · exact hlisted.trans (judgeBoth_logKept _)

theorem countWrong_logKept (s : State) : LogKept E s (countWrong s) := by
  unfold countWrong
  dsimp only
  split
  · exact applyLock_logKept _ s
  · exact (applyLock_logKept _ s).report _

theorem expireUnlock_logKept (s : State) : LogKept E s (expireUnlock s) :=
  ((LogKept.refl s).report .unlockExpired).trans (applyLock_logKept _ _)

theorem lockMinute_logKept (s : State) : LogKept E s (lockMinute s) := by
  unfold lockMinute
  (repeat' split)
  · exact .refl s
  · exact expireUnlock_logKept s
  · exact .of_kept (by simp)
  · exact applyLock_logKept _ s
  · exact .of_kept (by simp)

theorem lockMessage_logKept (args : List Byte) (s : State) : LogKept E s (lockMessage args s).1 := by
  unfold lockMessage
  dsimp only
  (repeat' split)
  · exact .refl s
  · exact applyLock_logKept _ s
  · exact applyLock_logKept _ s

/-! ### Tables and minutes (R48 to R56, R123 to R126) -/

theorem tableCommitMessage_logKept (args : List Byte) (s : State) : LogKept E s (tableCommitMessage args s) := by
  unfold tableCommitMessage
  dsimp only
  (repeat' split)
  · exact .refl s
  · exact .of_kept (by simp)
  · exact .of_kept (by simp)
  · exact LogKept.trans (.of_kept (by simp)) (judgeBoth_logKept _)

theorem endPass_logKept (i : TableId) (crc : Half) (diagnostic : Bool) (s : State) :
    LogKept E s (endPass i crc diagnostic s) := by
  have hreported : ∀ (x : Table) (b : Bool) (f : DetailFlag),
      LogKept E s (if b then Machine.report f (s.setTable i x) else s.setTable i x) := fun x b f => by
    split <;> exact .of_kept (by simp)
  unfold endPass
  dsimp only
  split
  · exact hreported _ _ _
  · split
    · exact hreported _ _ _
    · exact (hreported _ _ _).trans (judgeBoth_logKept _)

theorem scanStep_logKept (i : TableId) (s : State) : LogKept E s (scanStep i s) := by
  unfold scanStep
  dsimp only
  (repeat' split)
  · exact .refl s
  · exact (endPass_logKept _ _ _ s).endEvent
  · exact .of_kept (by simp)

theorem dayChange_logKept (s : State) : LogKept E s (dayChange s) := setFolio_logKept rfl rfl

theorem midnight_logKept (s : State) : LogKept E s (midnight s) :=
  LogKept.trans (t := { s with clock := { s.clock with minute := 0, day := s.clock.day + 1 } })
    (.of_kept ⟨rfl, rfl, rfl, rfl, rfl⟩) (dayChange_logKept _)

theorem clockMinute_logKept (s : State) : LogKept E s (clockMinute s) := by
  unfold clockMinute
  split
  · exact midnight_logKept s
  · exact .of_kept ⟨rfl, rfl, rfl, rfl, rfl⟩

theorem timeMessage_logKept (args : List Byte) (s : State) : LogKept E s (timeMessage args s) := by
  have hset : ∀ clock, LogKept E s { s with clock := clock } := fun clock => .of_kept ⟨rfl, rfl, rfl, rfl, rfl⟩
  unfold timeMessage
  dsimp only
  split
  · exact hset _
  · exact (hset _).trans (dayChange_logKept _)

theorem takeMinute_logKept (bought : List Half) (s : State) (taker : MinuteTaker) :
    LogKept E s (takeMinute bought s taker) := by
  cases taker with
  | clock => exact clockMinute_logKept s
  | keys => exact .of_kept (t := keysMinute s) (by simp)
  | watchdog => exact .of_kept (t := watchdogMinute s) (by simp)
  | lock => exact lockMinute_logKept s
  | windows => exact LogKept.foldl (fun u seq => windowMinute_logKept seq u) bought s
  | preview seq => exact previewMinute_logKept seq s

theorem minute_logKept (order : List MinuteTaker) (s : State) : LogKept E s (minute order s) :=
  LogKept.trans (t := { s with seconds := 0 }) (.of_kept ⟨rfl, rfl, rfl, rfl, rfl⟩)
    (LogKept.foldl (takeMinute_logKept _) _ _)

theorem second_logKept (order : List MinuteTaker) (s : State) : LogKept E s (second order s) := by
  unfold second
  split
  · exact minute_logKept order s
  · exact .of_kept ⟨rfl, rfl, rfl, rfl, rfl⟩

theorem whenRunning_logKept {f : State → State} (hf : ∀ u, LogKept E u (f u)) (s : State) :
    LogKept E s (whenRunning f s) := by
  unfold whenRunning
  split
  · exact (hf s).endEvent
  · exact .refl s

/-! ### The record store, the start-up check and the supply (R134, R137 to R140) -/

/-- A part that does not run has no path PREVIEWING, whatever becomes of the log. -/
theorem PreviewsBacked.of_stopped (h : PreviewsBacked E s) (hstop : s.phase ≠ .running)
    (hpath : ∀ p, t.path p = s.path p) : PreviewsBacked E t where
  selected p hp := absurd (h.stopped hstop p) (h.selected p (hpath p ▸ hp))
  backed p hp := absurd (h.stopped hstop p) (h.selected p (hpath p ▸ hp))
  stopped _ p := by rw [hpath, h.stopped hstop p]

theorem beginCheck_logKept (s : State) : LogKept E s (beginCheck s) := by
  unfold beginCheck
  split
  · exact fun hs => ⟨hs, fun h => h.of_stopped (by simp [*]) fun _ => rfl⟩
  all_goals exact .refl s

theorem completeWrite_logKept (s : State) : LogKept E s (completeWrite s) := by
  have hreleased : ∀ w u, LogKept E u (releaseWaiting w u) := fun w u => by
    unfold releaseWaiting
    split
    · split
      · exact .of_kept (by simp)
      · exact .refl u
    all_goals exact .refl u
  have hstored : ∀ w, LogKept E s (storeImage w s) := fun w => .of_kept ⟨rfl, rfl, rfl, rfl, rfl⟩
  unfold completeWrite
  split
  · exact .refl s
  · exact (((hstored _).trans (hreleased _ _)).trans (beginCheck_logKept _)).endEvent

theorem resetEvent_logKept (s : State) : LogKept E s (resetEvent s) := by
  unfold resetEvent
  (repeat' split)
  · exact completeWrite_logKept s
  · exact endEvent_logKept s
  · exact .refl s

/-- A reset empties the log and leaves both paths UNSELECTED (R20, R137). -/
theorem volatile_logKept (hlog : t.log = []) (hpaths : ∀ p, t.path p = Path.reset) : LogKept E s t := fun _ =>
  ⟨by simp [LogSound, hlog], fun _ => previewsBacked_of_unselected fun p => by simp [hpaths, Path.reset]⟩

/-- The records that the slots give back have numbers that differ, each in its own slot (R131, R140). -/
theorem readRecords_places : ∀ (slots : List Slot) (k : Nat) (kept : List Record), (kept.map (·.seq)).Nodup →
    (kept.map (·.slot)).Nodup → (∀ r ∈ kept, r.slot < k) →
    let records := (readRecords k slots kept).1
    (records.map (·.seq)).Nodup ∧ (records.map (·.slot)).Nodup ∧ (∀ r ∈ records, r.slot < k + slots.length) ∧
      records.length ≤ kept.length + slots.length
  | [], k, kept, hseqs, hslots, hbound => ⟨hseqs, hslots, hbound, le_rfl⟩
  | slot :: rest, k, kept, hseqs, hslots, hbound => by
    have hskip := readRecords_places rest (k + 1) kept hseqs hslots fun r hr => Nat.lt_succ_of_lt (hbound r hr)
    have hnext : k + 1 + rest.length = k + (slot :: rest).length := by
      rw [List.length_cons]
      omega
    obtain ⟨h1, h2, h3, h4⟩ := hskip
    have hpassed : ((readRecords (k + 1) rest kept).1.map (·.seq)).Nodup ∧
        ((readRecords (k + 1) rest kept).1.map (·.slot)).Nodup ∧
        (∀ r ∈ (readRecords (k + 1) rest kept).1, r.slot < k + (slot :: rest).length) ∧
        (readRecords (k + 1) rest kept).1.length ≤ kept.length + (slot :: rest).length :=
      ⟨h1, h2, fun r hr => hnext ▸ h3 r hr, h4.trans (by simp)⟩
    rcases slot with (_ | r | _ | _ | _) | _
    case intact.record =>
      unfold readRecords
      split
      · exact hpassed
      · rename_i hnew
        simp only [Bool.or_eq_true, not_or, List.any_eq_true, not_exists, not_and, beq_iff_eq] at hnew
        obtain ⟨-, hnew⟩ := hnew
        have hplaced := readRecords_places rest (k + 1) (kept ++ [{ r with slot := k }])
          (by
            rw [List.map_append]
            refine hseqs.append (List.nodup_singleton _) (List.disjoint_singleton.2 fun hmem => ?_)
            obtain ⟨x, hx, he⟩ := List.mem_map.1 hmem
            exact hnew x hx he)
          (by
            rw [List.map_append]
            refine hslots.append (List.nodup_singleton _) (List.disjoint_singleton.2 fun hmem => ?_)
            obtain ⟨x, hx, he⟩ := List.mem_map.1 hmem
            exact absurd (hbound x hx) (by rw [he]; exact lt_irrefl k))
          (fun x hx => by
            rcases List.mem_append.1 hx with hx | hx
            · exact Nat.lt_succ_of_lt (hbound x hx)
            · rw [List.mem_singleton.1 hx]
              exact Nat.lt_succ_self k)
        obtain ⟨g1, g2, g3, g4⟩ := hplaced
        refine ⟨g1, g2, fun x hx => hnext ▸ g3 x hx, g4.trans ?_⟩
        simp only [List.length_append, List.length_cons, List.length_nil]
        omega
    all_goals exact hpassed

/-- The log's order is a permutation of the records (R140). -/
theorem logOrder_perm (next : Half) : ∀ l : List Record, (logOrder next l).Perm l
  | [] => .refl _
  | x :: l => by
    have hinsert : ∀ m : List Record, (insertByDistance next x m).Perm (x :: m) := by
      intro m
      induction m with
      | nil => exact .refl _
      | cons y m ih =>
        unfold insertByDistance
        split
        · exact .refl _
        · exact (ih.cons y).trans (.swap x y m)
    exact (hinsert _).trans ((logOrder_perm next l).cons x)

/-- The rebuilt log is sound, whatever the slots hold (R105, R140). -/
theorem rebuildCopies_logSound (s : State) : LogSound (rebuildCopies s) := by
  obtain ⟨hseqs, hslots, hbound, hlength⟩ := readRecords_places (s.store.slots.take logCapacity) 0 [] List.nodup_nil
    List.nodup_nil (fun _ hr => absurd hr List.not_mem_nil)
  set records := (readRecords 0 (s.store.slots.take logCapacity) []).1
  set next := (s.store.folioImage.map (·.2)).getD (rebuiltNext (records.map (·.seq)))
  have hperm := logOrder_perm next records
  have hordered : LogSound { s with log := logOrder next records } := by
    refine ⟨?_, (hperm.map _).nodup_iff.2 hseqs, (hperm.map _).nodup_iff.2 hslots, fun r hr => ?_⟩
    · rw [hperm.length_eq]
      exact hlength.trans (by simp)
    · exact (hbound r (hperm.subset hr)).trans_le (by simp)
  refine logSound_of_filterMap (t := rebuildCopies s) rfl (fun x _ y hy => ?_) hordered
  unfold Record.rebuilt at hy
  (repeat' split at hy) <;> cases hy
  · exact ⟨rfl, rfl⟩
  · exact ⟨rfl, rfl⟩
  · obtain ⟨hseq, hslot, -⟩ := closed_keeps x
    exact ⟨hseq, hslot⟩

/-- The start-up check rebuilds the log of a part whose paths are UNSELECTED (R20, R138). -/
theorem completeCheck_logKept (hphase : s.phase = .checking) : LogKept E s (completeCheck s) := fun hs => by
  have hcopies : LogSound (rebuildCopies s) ∧ (PreviewsBacked E s → PreviewsBacked E (rebuildCopies s)) :=
    ⟨rebuildCopies_logSound s, fun h => h.of_stopped (by simp [hphase]) fun p => by cases p <;> rfl⟩
  have hreported : ∀ b f (u : State), LogKept E u (reportIf b f u) := fun b f u => by
    unfold reportIf
    split
    · exact (LogKept.refl u).report f
    · exact .refl u
  have hlisted : ∀ ks (u : State), LogKept E u (listSlots ks u) := fun ks u =>
    LogKept.foldl (fun v k => (LogKept.refl v).listSlot k) ks u
  have hrest : LogKept E (rebuildCopies s) (completeCheck s) := by
    unfold completeCheck
    dsimp only
    refine LogKept.endEvent ?_
    split
    · exact (((((hreported _ _ _).trans (hreported _ _ _)).trans (hreported _ _ _)).trans (hlisted _ _))).listSlot _
    · exact (((hreported _ _ _).trans (hreported _ _ _)).trans (hreported _ _ _)).trans (hlisted _ _)
  obtain ⟨hlog, hback⟩ := hrest hcopies.1
  exact ⟨hlog, hback ∘ hcopies.2⟩

/-! ### The folio's messages (R62 to R66) -/

/-- A change of the folio record's standing is handed to both paths, whose previews are backed once they have judged. -/
theorem judged_logKept (hlog : LogSound s → LogSound u) (hphase : u.phase = s.phase)
    (hpath : ∀ p, u.path p = s.path p) : LogKept E s (judgeBoth u) := fun hs =>
  ⟨judgeBoth_logSound (hlog hs), fun h => judgeBoth_previewsBacked
    (E := fun _ => True) (h.mono (fun _ _ => trivial) |>.of_view hphase (fun p => by rw [hpath])
      fun _ hn => absurd trivial hn)⟩

theorem checkInMessage_logKept (args : List Byte) (s : State) : LogKept E s (checkInMessage args s).1 := by
  unfold checkInMessage
  (repeat' split)
  · exact .refl s
  · exact .refl s
  · exact .refl s
  · exact judged_logKept (fun hs => logSound_of_log (by simp) hs) (by simp) fun p => by cases p <;> simp [State.path]

/-- Check-out ends records in their places, or takes them out (R97, R101). -/
theorem closeLog_logSound (h : LogSound s) : LogSound (closeLog s) := by
  have ⟨_, hseqs, _⟩ := h
  refine logSound_of_filterMap (closeLog_log hseqs) (fun x _ y hy => ?_) h
  obtain ⟨hseq, hslot, -⟩ := closed_keeps x
  unfold Record.atCheckOut at hy
  (repeat' split at hy) <;> cases hy
  · exact ⟨rfl, rfl⟩
  · exact ⟨hseq, hslot⟩

theorem checkOutMessage_logKept (args : List Byte) (s : State) : LogKept E s (checkOutMessage args s).1 := by
  unfold checkOutMessage
  split
  · rw [acceptCheckOut_eq]
    refine judged_logKept (fun hs => ?_) (by simp) fun p => ?_
    · have hleft : LogSound s.folioLeft := logSound_of_log (by simp [State.folioLeft]) hs
      exact logSound_of_log (by simp) (closeLog_logSound hleft)
    · have hpaths : s.checkedOut.pathA = s.pathA ∧ s.checkedOut.pathB = s.pathB := by
        unfold State.checkedOut lockCheckOut
        dsimp only
        split <;> simp [State.folioLeft]
      cases p <;> simp [State.path, hpaths]
  · exact .refl s

theorem folioEvent_logKept (f : Folio) (s : State) : LogKept E s (folioEvent f s) := by
  unfold folioEvent
  split
  · exact .refl s
  · exact judged_logKept (fun hs => logSound_of_log (by simp) hs) (by simp) fun p => by cases p <;> simp [State.path]

theorem holdMessage_logKept (args : List Byte) (s : State) : LogKept E s (holdMessage args s).1 := by
  unfold holdMessage
  dsimp only
  (repeat' split)
  · exact .refl s
  · exact .refl s
  all_goals exact folioEvent_logKept _ s

theorem packagesMessage_logKept (args : List Byte) (s : State) : LogKept E s (packagesMessage args s).1 := by
  unfold packagesMessage
  split
  · exact .refl s
  · exact folioEvent_logKept _ s

/-! ### The line port (R143 to R149) -/

/-- The log and the previews are kept at whatever an owner of a message does (R146). -/
theorem messageKind_logKept {kind : Byte} {m : MessageKind} (hm : messageKind kind = some m) (payload : List Byte)
    (s : State) : LogKept E s (m.act payload s).1 := by
  unfold messageKind at hm
  obtain rfl | hm := row_or_later hm
  · exact .refl s
  obtain rfl | hm := row_or_later hm
  · exact timeMessage_logKept payload s
  obtain rfl | hm := row_or_later hm
  · exact .of_kept (t := keyMessage payload s) (by simp)
  obtain rfl | hm := row_or_later hm
  · exact .of_kept (t := keyClearMessage payload s) (by simp)
  obtain rfl | hm := row_or_later hm
  · exact .of_kept (t := tableEntryMessage payload s) (by simp)
  obtain rfl | hm := row_or_later hm
  · exact tableCommitMessage_logKept payload s
  obtain rfl | hm := row_or_later hm
  · exact checkInMessage_logKept payload s
  obtain rfl | hm := row_or_later hm
  · exact checkOutMessage_logKept payload s
  obtain rfl | hm := row_or_later hm
  · exact holdMessage_logKept payload s
  obtain rfl | hm := row_or_later hm
  · exact packagesMessage_logKept payload s
  obtain rfl | hm := row_or_later hm
  · exact collectRecords_logKept _ s
  obtain rfl | hm := row_or_later hm
  · exact releaseThrough_logKept _ s
  obtain rfl | hm := row_or_later hm
  · exact voidSeq_logKept _ s
  obtain rfl | hm := row_or_later hm
  · exact lockMessage_logKept payload s
  cases hm

theorem addressedFrame_logKept (address : Half) (kind : Byte) (payload : List Byte) (s : State) :
    LogKept E s (addressedFrame address kind payload s) := by
  have honline : ∀ setting, LogKept E s (bringOnline setting s) := fun setting => .of_folio (by simp)
  have hact : ∀ u, LogKept E u (addressedAct kind payload u).1 := fun u => by
    unfold addressedAct
    split
    · exact .refl u
    · split
      · exact .refl u
      · exact messageKind_logKept ‹_› _ u
  have hreply : ∀ (u : State) line, LogKept E u { u with line := line } := fun u line =>
    .of_kept ⟨rfl, rfl, rfl, rfl, rfl⟩
  exact (((honline _).trans (hact _)).trans (hreply _ _)).endEvent

theorem soundFrame_logKept (address : Half) (kind : Byte) (payload : List Byte) (s : State) :
    LogKept E s (soundFrame address kind payload s) := by
  unfold soundFrame broadcastFrame
  (repeat' split)
  · exact .refl s
  · exact .refl s
  · exact (messageKind_logKept ‹_› _ s).endEvent
  · exact .refl s
  · exact addressedFrame_logKept _ _ _ s
  · exact .refl s

theorem frameArrives_logKept (bytes : List Byte) (tooLong framingError : Bool) (s : State) :
    LogKept E s (frameArrives bytes tooLong framingError s) := by
  have hidle : LogKept E s (setReceiver .idle s) := .of_kept ⟨rfl, rfl, rfl, rfl, rfl⟩
  unfold frameArrives
  dsimp only
  (repeat' split)
  · exact hidle.trans (.of_kept ⟨rfl, rfl, rfl, rfl, rfl⟩)
  · exact hidle
  · exact hidle.trans (soundFrame_logKept _ _ _ _)

theorem wholeFrame_logKept (bytes : List Byte) (tooLong framingError : Bool) (s : State) :
    LogKept E s (wholeFrame bytes tooLong framingError s) := by
  unfold wholeFrame
  (repeat' split)
  · exact .of_kept ⟨rfl, rfl, rfl, rfl, rfl⟩
  · exact frameArrives_logKept _ _ _ s
  · exact frameArrives_logKept _ _ _ s
  · exact .refl s
  · exact .refl s

theorem lineIdle_logKept (s : State) : LogKept E s (lineIdle s) := by
  unfold lineIdle
  split
  · exact .of_kept ⟨rfl, rfl, rfl, rfl, rfl⟩
  · exact .refl s
  · exact frameArrives_logKept _ _ _ s
  · exact .refl s

theorem whenLineRuns_logKept {f : State → State} (hf : ∀ u, LogKept E u (f u)) (s : State) :
    LogKept E s (whenLineRuns f s) := by
  unfold whenLineRuns
  split
  · exact hf s
  · exact .refl s

end

end Sys2Proof.Machine
end

