-- ==== Sys2Proof/Proofs/LogInvariant.lean ====
section
/-!
PROOF. Every step keeps the log sound and every PREVIEWING path backed: the set port's commands, the paths' events, and
the dispatch over all rows (R11, R83, R98, R132).
-/
namespace Sys2Proof.Machine

section
variable {E : PathId → Prop} {s t : State}

/-! ### Commands of the set port (R155) -/

theorem placeReply_logKept (code : Byte) (r : ResultCode) (data : List Byte) (s : State) :
    LogKept E s (placeReply code r data s) := (LogKept.refl s).placeReply _ _ _

theorem clearFlagsCommand_logKept (args : List Byte) (s : State) : LogKept E s (clearFlagsCommand args s) := by
  have hstatus : ∀ st, LogKept E s { s with status := st } := fun st => .of_kept ⟨rfl, rfl, rfl, rfl, rfl⟩
  unfold clearFlagsCommand
  dsimp only
  refine LogKept.placeReply (LogKept.endEvent ?_) _ _ _
  split
  · exact (hstatus _).trans (setFolio_logKept rfl rfl)
  · exact hstatus _

/-- A path that has just been selected stands UNSELECTED until it judges (R4). -/
theorem selected_logKept (p : PathId) (selected : Option Nat) (hphase : s.phase = .running) :
    LogKept E s (s.setPath p ((s.path p).select selected)) := fun hs => by
  have hpath : ∀ q, ((s.setPath p ((s.path p).select selected)).path q).admitted = .previewing →
      (s.setPath p ((s.path p).select selected)).path q = s.path q := fun q hq => by
    rw [path_setPath] at hq ⊢
    split
    · simp [*, Path.select] at hq
    · rfl
  refine ⟨logSound_of_log (by simp) hs, fun h => ⟨fun q hq => ?_, fun q hq hn => ?_, fun hr => ?_⟩⟩
  · have hstood := hpath q hq
    rw [hstood] at hq ⊢
    exact h.selected q hq
  · have hstood := hpath q hq
    rw [hstood] at hq ⊢
    exact hasPreview_grows (by simp) (by simp) (h.backed q hq hn)
  · exact absurd (by simpa using hphase) hr

theorem selectCommand_logKept (args : List Byte) (hphase : s.phase = .running) :
    LogKept E s (selectCommand args s) := by
  unfold selectCommand
  dsimp only
  (repeat' split)
  · exact placeReply_logKept _ _ _ s
  · exact (selected_logKept _ _ hphase).placeReply _ _ _
  · exact placeReply_logKept _ _ _ s
  · exact (((selected_logKept _ _ hphase).trans (judge_logKept _ _)).endEvent).placeReply _ _ _

theorem orderCommand_logKept (args : List Byte) (s : State) : LogKept E s (orderCommand args s) := by
  unfold orderCommand refuseOrder
  dsimp only
  repeat' split
  case h_2 =>
    rename_i hfull _ f c hc
    refine acceptOrder_logKept hc ?_
    by_contra hnot
    rw [not_or] at hnot
    obtain ⟨hnone, hlength⟩ := hnot
    exact hfull (by simpa using ⟨by simpa using hnone, Nat.not_lt.1 hlength⟩)
  all_goals exact placeReply_logKept _ _ _ s

theorem enterPinCommand_logKept (args : List Byte) (s : State) : LogKept E s (enterPinCommand args s) := by
  unfold enterPinCommand
  dsimp only
  (repeat' split)
  · exact placeReply_logKept _ _ _ s
  · exact placeReply_logKept _ _ _ s
  · exact (applyLock_logKept _ s).endEvent.placeReply _ _ _
  · exact (countWrong_logKept s).endEvent.placeReply _ _ _

theorem acceptLock_logKept (w : Waiting) (code : Byte) (l : Lock) (s : State) :
    LogKept E s (acceptLock w code l s) :=
  (((applyLock_logKept l s).listSlot lockSlot).trans (.of_kept (by simp))).endEvent

theorem setPinCommand_logKept (args : List Byte) (s : State) : LogKept E s (setPinCommand args s) := by
  unfold setPinCommand
  dsimp only
  (repeat' split)
  · exact placeReply_logKept _ _ _ s
  · exact acceptLock_logKept _ _ _ s
  · exact acceptLock_logKept _ _ _ s
  · exact (countWrong_logKept s).endEvent.placeReply _ _ _

theorem setCeilingCommand_logKept (args : List Byte) (s : State) : LogKept E s (setCeilingCommand args s) := by
  unfold setCeilingCommand
  dsimp only
  (repeat' split)
  · exact placeReply_logKept _ _ _ s
  · exact acceptLock_logKept _ _ _ s
  · exact acceptLock_logKept _ _ _ s
  · exact (countWrong_logKept s).endEvent.placeReply _ _ _

theorem relockCommand_logKept (args : List Byte) (s : State) : LogKept E s (relockCommand args s) := by
  unfold relockCommand
  split
  · exact placeReply_logKept _ _ _ s
  · exact (applyLock_logKept _ s).endEvent.placeReply _ _ _

theorem setRoomCommand_logKept (args : List Byte) (s : State) : LogKept E s (setRoomCommand args s) := by
  unfold setRoomCommand
  dsimp only
  (repeat' split)
  · exact placeReply_logKept _ _ _ s
  · exact placeReply_logKept _ _ _ s
  · exact LogKept.endEvent (.of_kept (by simp))

theorem resetCommand_logKept (args : List Byte) (s : State) : LogKept E s (resetCommand args s) :=
  LogKept.endEvent (.of_kept (by simp))

/-! ### The engine's account of a path's cell (R13, R14, R24, R27) -/

theorem missCell_logKept (p : PathId) (selectTaken : Bool) (s : State) : LogKept E s (missCell p selectTaken s) := by
  unfold missCell
  dsimp only
  (repeat' split)
  · exact .setPath rfl
  · refine LogKept.report ?_ _
    exact .setPath rfl
  · exact .setPath rfl

theorem grant_logKept (r : Requester) (s : State) : LogKept E s (grant r s) := by
  have hengine : ∀ (u : State) e, LogKept E u { u with engine := e } := fun u e => .of_kept ⟨rfl, rfl, rfl, rfl, rfl⟩
  have hcell : ∀ p c b, LogKept E s (grantCell p c b s) := fun p c b => by
    unfold grantCell
    dsimp only
    split
    · exact (hengine _ _).trans (missCell_logKept p b _)
    · exact ((hengine _ _).trans (hengine _ _)).trans (.setPath rfl)
  unfold grant
  (repeat' split)
  · exact hengine s _
  · exact .refl s
  · exact hcell _ _ _
  all_goals exact .refl s

theorem arbitrate_logKept : ∀ (n : Nat) (s : State), LogKept E s (arbitrate n s)
  | 0, s => .refl s
  | n + 1, s => by
    unfold arbitrate
    (repeat' split)
    · exact .refl s
    · exact .refl s
    · exact (grant_logKept _ s).trans (arbitrate_logKept n _)

theorem completeGrant_logKept (s : State) : LogKept E s (completeGrant s) := by
  have hidle : ∀ e, LogKept E s { s with engine := e } := fun e => .of_kept ⟨rfl, rfl, rfl, rfl, rfl⟩
  have hcell : ∀ p plain (u : State), LogKept E u (finishCell p plain u) := fun p plain u => by
    unfold finishCell
    split
    case h_1 | h_2 => exact .setPath rfl
    all_goals exact .refl u
  unfold completeGrant
  dsimp only
  (repeat' split)
  · exact .refl s
  · exact ((hidle _).trans (hcell _ _ _)).trans (arbitrate_logKept _ _)
  · refine LogKept.trans ?_ (arbitrate_logKept _ _)
    exact .of_kept (by simp)

theorem engineTestCommand_logKept (args : List Byte) (s : State) : LogKept E s (engineTestCommand args s) := by
  unfold engineTestCommand
  dsimp only
  split
  · exact placeReply_logKept _ _ _ s
  · exact LogKept.trans (.of_kept (by simp)) (arbitrate_logKept _ _)

theorem inputStrobe_logKept (p : PathId) (mark : Bool) (b : Byte) (s : State) :
    LogKept E s (inputStrobe p mark b s) := by
  have hcomplete : ∀ c, LogKept E s (cellComplete p c s) := fun c => by
    unfold cellComplete
    dsimp only
    (repeat' split)
    · exact .setPath rfl
    · refine LogKept.report ?_ _
      exact .setPath rfl
    · exact .setPath rfl
  unfold inputStrobe
  dsimp only
  (repeat' split)
  · exact .setPath rfl
  · exact .setPath rfl
  · exact .refl s
  · exact hcomplete _
  · exact .setPath rfl
  · exact .refl s

theorem takeCell_logKept (p : PathId) (s : State) : LogKept E s (takeCell p s) := by
  have hkey : ∀ c (u : State), LogKept E u (keyCheck p c u) := fun c u => by
    unfold keyCheck
    split
    · exact missCell_logKept p false u
    · refine LogKept.trans ?_ (arbitrate_logKept _ _)
      exact .setPath rfl
  have htreat : ∀ c (u : State), LogKept E u (treatCell p c u) := fun c u => by
    have hleave : ∀ cell how, LogKept E u (leaveCell p cell how u) := fun _ _ => .setPath rfl
    unfold treatCell
    split
    case h_1 => exact .refl u
    case h_2 | h_8 | h_9 =>
      split
      · exact hkey c u
      · exact hleave _ _
    all_goals exact hleave _ _
  unfold takeCell
  dsimp only
  (repeat' split)
  · refine LogKept.trans ?_ (htreat _ _)
    exact .setPath rfl
  · exact .setPath rfl
  · exact .refl s
  · exact .refl s

theorem cellLeft_logKept (p : PathId) (s : State) : LogKept E s (cellLeft p s) := by
  unfold cellLeft
  dsimp only
  split
  case h_1 | h_2 | h_3 => exact .setPath rfl
  all_goals exact .refl s

/-! ### The end of a set port frame (R155) -/

/-- Every command of the table, in a part that runs. -/
theorem setCommand_logKept {code : Byte} {c : SetCommand} (hc : setCommand code = some c) (args : List Byte)
    (hphase : s.phase = .running) : LogKept E s (c.run args s) := by
  unfold setCommand at hc
  obtain rfl | hc := row_or_later hc
  · exact .refl s
  obtain rfl | hc := row_or_later hc
  · exact placeReply_logKept _ _ _ s
  obtain rfl | hc := row_or_later hc
  · exact clearFlagsCommand_logKept args s
  obtain rfl | hc := row_or_later hc
  · exact .of_kept ⟨rfl, rfl, rfl, rfl, rfl⟩
  obtain rfl | hc := row_or_later hc
  · exact selectCommand_logKept args hphase
  obtain rfl | hc := row_or_later hc
  · dsimp only [readPathCommand]
    split <;> exact placeReply_logKept _ _ _ s
  obtain rfl | hc := row_or_later hc
  · exact engineTestCommand_logKept args s
  obtain rfl | hc := row_or_later hc
  · dsimp only [readChannelCommand]
    split <;> exact placeReply_logKept _ _ _ s
  obtain rfl | hc := row_or_later hc
  · dsimp only [readOfferCommand]
    split <;> exact placeReply_logKept _ _ _ s
  obtain rfl | hc := row_or_later hc
  · dsimp only [tableTestCommand]
    split <;> exact .of_kept (by simp)
  obtain rfl | hc := row_or_later hc
  · exact orderCommand_logKept args s
  obtain rfl | hc := row_or_later hc
  · exact placeReply_logKept _ _ _ s
  obtain rfl | hc := row_or_later hc
  · dsimp only [readRecordCommand]
    (repeat' split) <;> exact placeReply_logKept _ _ _ s
  obtain rfl | hc := row_or_later hc
  · exact enterPinCommand_logKept args s
  obtain rfl | hc := row_or_later hc
  · exact setPinCommand_logKept args s
  obtain rfl | hc := row_or_later hc
  · exact setCeilingCommand_logKept args s
  obtain rfl | hc := row_or_later hc
  · exact relockCommand_logKept args s
  obtain rfl | hc := row_or_later hc
  · exact setRoomCommand_logKept args s
  obtain rfl | hc := row_or_later hc
  · exact placeReply_logKept _ _ _ s
  obtain rfl | hc := row_or_later hc
  · exact resetCommand_logKept args s
  cases hc

theorem setFrame_logKept (code : Byte) (args : List Byte) (s : State) : LogKept E s (setFrame code args s) := by
  have hport : ∀ port : SetPort, LogKept E s { s with port := port } := fun port => .of_kept ⟨rfl, rfl, rfl, rfl, rfl⟩
  by_cases hrun : s.phase ≠ .running ∨ s.port.frame = .abandoned
  · rw [setFrame_notTaken hrun]
    exact hport _
  · obtain ⟨hphase, hframe⟩ := not_or.1 hrun
    rw [not_not] at hphase
    cases hd : s.port.busy.discardsFrame code with
    | true =>
      rw [setFrame_discarded hphase hframe hd]
      exact hport _
    | false =>
      have hover : LogKept E s (s.frameOver (1 + args.length)) := hport _
      rw [setFrame_taken hphase hframe hd]
      refine hover.trans ?_
      unfold takeCommand SetCommand.take
      (repeat' split)
      · exact placeReply_logKept _ _ _ _
      · exact placeReply_logKept _ _ _ _
      · exact setCommand_logKept ‹_› _ (by simpa using hphase)

/-! ### Every row -/

/-- Every row keeps the log sound and previews backed: the ends of set port frames, the message frames, and the rest one
by one. -/
theorem exec_logKept (c : Instr) (s : State) : ∃ t, exec c s = .next t ∧ LogKept E s t := by
  have hwhen : ∀ {f : State → State}, (∀ u, LogKept E u (f u)) → LogKept E s (whenRunning f s) :=
    fun hf => whenRunning_logKept hf s
  have hline : ∀ {f : State → State}, (∀ u, LogKept E u (f u)) → LogKept E s (whenLineRuns f s) :=
    fun hf => whenLineRuns_logKept hf s
  have hkeep : ∀ {q : Prop} [Decidable q] {u t : State}, (q → LogKept E u t) → LogKept E u (if q then t else u) :=
    fun {q _ u t} ht => by
      split
      · exact ht ‹_›
      · exact .refl u
  cases hset : setPortFrame c with
  | some frame => exact ⟨_, exec_setFrame hset, setFrame_logKept _ _ s⟩
  | none =>
  cases hmessage : linePortFrame c with
  | some frame => exact ⟨_, exec_messageFrame hmessage, hline fun u => wholeFrame_logKept _ _ _ u⟩
  | none =>
  cases c with
  | cellArrives p b => exact ⟨_, rfl, inputStrobe_logKept p false b s⟩
  | cellInputStrobe p mark b => exact ⟨_, rfl, inputStrobe_logKept p mark b s⟩
  | cellTake p => exact ⟨_, rfl, hkeep fun _ => takeCell_logKept p s⟩
  | cellLeaves p => exact ⟨_, rfl, cellLeft_logKept p s⟩
  | engineComplete => exact ⟨_, rfl, completeGrant_logKept s⟩
  | slotWriteComplete => exact ⟨_, rfl, completeWrite_logKept s⟩
  | resetTakesEffect => exact ⟨_, rfl, resetEvent_logKept s⟩
  | setFrameStart =>
    refine ⟨_, rfl, ?_⟩
    unfold frameStart
    split <;> exact .of_kept ⟨rfl, rfl, rfl, rfl, rfl⟩
  | setFrameDiscarded frame =>
    cases frame with
    | nil => exact ⟨closeFrame s, rfl, .of_kept ⟨rfl, rfl, rfl, rfl, rfl⟩⟩
    | cons code args => cases hset
  | lineIdleDetected => exact ⟨_, rfl, hline lineIdle_logKept⟩
  | lineFrameIgnored bytes framingError tooLong => exact ⟨_, rfl, hline fun u => wholeFrame_logKept _ _ _ u⟩
  | lineCharacterArrives b stopLow =>
    refine ⟨_, rfl, hline fun u => ?_⟩
    unfold characterArrives
    split <;> exact .of_kept ⟨rfl, rfl, rfl, rfl, rfl⟩
  | replyTransmitStart =>
    refine ⟨_, rfl, hline fun u => ?_⟩
    unfold startReply
    split <;> exact .of_kept ⟨rfl, rfl, rfl, rfl, rfl⟩
  | replyTransmitEnd =>
    refine ⟨_, rfl, hline fun u => ?_⟩
    unfold endReply
    split <;> exact .of_kept ⟨rfl, rfl, rfl, rfl, rfl⟩
  | secondTick order => exact ⟨_, rfl, hwhen (second_logKept order)⟩
  | minuteOfTheTimebase order => exact ⟨_, rfl, hwhen (minute_logKept order)⟩
  | midnightDayChange => exact ⟨_, rfl, hwhen fun u => hkeep fun _ => midnight_logKept u⟩
  | previewLapse seq => exact ⟨_, rfl, hwhen (lastPreviewMinute_logKept _ seq)⟩
  | autoCharge seq => exact ⟨_, rfl, hwhen (lastPreviewMinute_logKept _ seq)⟩
  | windowEnd seq => exact ⟨_, rfl, hwhen (lastWindowMinute_logKept seq)⟩
  | keyLifeExpiry context parity =>
    refine ⟨_, rfl, hwhen fun u => ?_⟩
    unfold expireHalf
    (repeat' split)
    · exact .of_kept (by simp)
    · exact .refl u
    · exact .refl u
  | unlockExpiry => exact ⟨_, rfl, hwhen fun u => hkeep fun _ => expireUnlock_logKept u⟩
  | lockoutEnd => exact ⟨_, rfl, hwhen fun u => hkeep fun _ => applyLock_logKept _ u⟩
  | watchdogExpiry => exact ⟨_, rfl, hwhen fun u => hkeep fun _ => .of_kept (by simp)⟩
  | scanStep table => exact ⟨_, rfl, hkeep fun _ => scanStep_logKept table s⟩
  | liveTableUpset table index entry =>
    refine ⟨_, rfl, hkeep fun _ => ?_⟩
    unfold upset
    split
    · exact .of_kept (by simp)
    · exact .refl s
  | powerLoss => exact ⟨_, rfl, volatile_logKept rfl fun p => by cases p <;> rfl⟩
  | powerOnReset => exact ⟨_, rfl, volatile_logKept rfl fun p => by cases p <;> rfl⟩
  | pinReset =>
    refine ⟨_, rfl, ?_⟩
    split
    · exact .refl s
    · exact volatile_logKept rfl fun p => by cases p <;> rfl
  | pinResetRelease =>
    exact ⟨_, rfl, hkeep fun hphase hs => ⟨hs, fun h => h.of_stopped (by simp [hphase]) fun p => by cases p <;> rfl⟩⟩
  | startUpCheckComplete => exact ⟨_, rfl, hkeep completeCheck_logKept⟩
  | unknownCommand | nop | readStatus | clearFlags | setMasks | select | readPath | engineTest | readChannel | readOffer
  | tableTest | order | readFolio | readRecord | enterPin | setPin | setCeiling | relock | setRoom | readTime
  | reset => cases hset
  | lineUnknownKind | poll | time | key | keyClear | tableEntry | tableCommit | checkIn | checkOut | hold | packages
  | collect | release | void | lock => cases hmessage

/-- Taking a command off the queue is nothing to the log and the paths. -/
theorem step_logKept (hstep : step s = .next t) : LogKept E s t := by
  unfold step at hstep
  split at hstep
  · cases hstep
    exact .refl s
  · rename_i c rest _
    obtain ⟨u, he, hu⟩ := exec_logKept (E := E) c { s with pending := rest }
    rw [he] at hstep
    cases hstep
    exact LogKept.trans (t := { s with pending := rest }) (.of_kept ⟨rfl, rfl, rfl, rfl, rfl⟩) hu

end

/-- Settles O57: what every row keeps, with no path excused. -/
theorem stepKeepsLogAndPreviews : Obligations.StepKeepsLogAndPreviews := by
  have hkept : ∀ s t : State, step s = .next t → LogKept (fun _ => False) s t := fun s t => step_logKept
  refine ⟨fun s t hs hstep => ?_, fun s t hs hp hstep => ?_⟩
  · obtain ⟨ht, -⟩ := hkept s t hstep hs
    exact ht
  · obtain ⟨-, hback⟩ := hkept s t hstep hs
    exact (previewSound_iff t).2 (hback ((previewSound_iff s).1 hp))

end Sys2Proof.Machine
end

