-- ==== Sys2Proof/Proofs/LogReports.lean ====
section
/-!
HEADLINE. What the two readers of the log are told: READ_RECORD at a position of the log (R103), and COLLECT from a
starting place (R99).
-/
namespace Sys2Proof.Machine

/-! ### READ_RECORD (R103) -/

theorem exec_readRecord {args : List Byte} {s : State} (h : s.takesCommand) (hn : 1 ≤ args.length) :
    exec (.readRecord args) s = .next (readRecordCommand args (s.frameOver (1 + args.length))) := by
  rw [exec_command (c := .readRecord args) (k := ⟨0x22, 1, readRecordCommand⟩) rfl h rfl hn (by decide)]
  simp only [readRecordCommand, byteAt_take (show 0 < 47 by decide)]

/-- The marks byte of a record report (11). -/
theorem marks_byte (r : Record) :
    r.collected.toNat + 2 * r.released.toNat = (if r.collected then 1 else 0) + (if r.released then 2 else 0) := by
  cases r.collected <;> cases r.released <;> rfl

theorem window_eq (r : Record) : r.window = (match r.state with | .bought w => w | _ => 0) := by
  unfold Record.window
  split <;> simp_all

theorem declineCode_eq (st : RecordState) :
    st.declineCode = (match st with | .declined code => code.code | _ => 0) := by
  cases st <;> rfl

/-- Settles O12: the position decides between BAD_ARG, NOT_FOUND and the report, taken field by field; the figures are
those of the charge, or 0 where there is none. -/
theorem readRecordReports : Obligations.ReadRecordReports := by
  intro args s h hn
  rw [exec_readRecord h hn]
  unfold readRecordCommand
  simp only [placeReply_frameOver, frameOver_keeps]
  refine ⟨fun hpos => by rw [if_pos hpos], fun hpos hend => ?_, fun r hpos hr => ?_⟩
  · rw [if_neg (Nat.not_lt.2 hpos), List.getElem?_eq_none hend]
  · rw [if_neg (Nat.not_lt.2 hpos), hr]
    refine ⟨(r.charge.map (·.day.toNat)).getD 0, (r.charge.map (·.minute)).getD 0, (r.charge.map (·.list)).getD 0,
      (r.charge.map (·.tax)).getD 0, (r.charge.map (·.billed)).getD 0, (r.charge.map (·.waived)).getD 0,
      fun c hc => by simp [hc], fun hc => by simp [hc], ?_⟩
    simp only [Record.readReport, marks_byte, window_eq, declineCode_eq]
    cases r.charge <;> rfl

/-! ### COLLECT (R99) -/

/-- With the number in the log, what follows the first record that carries it. -/
theorem afterSeq_append {seq : Half} {older newer : List Record} {r : Record} (hr : r.seq = seq)
    (holder : ∀ x ∈ older, x.seq ≠ seq) : afterSeq seq (older ++ r :: newer) = newer := by
  unfold afterSeq
  rw [if_pos (List.any_eq_true.2 ⟨r, by simp, by simp [hr]⟩),
    List.dropWhile_append_of_pos fun x hx => by simpa using holder x hx, List.dropWhile_cons_of_neg (by simp [hr])]
  rfl

/-- With no record that carries the number, the whole log. -/
theorem afterSeq_of_absent {seq : Half} {log : List Record} (h : ∀ r ∈ log, r.seq ≠ seq) : afterSeq seq log = log :=
  if_neg (by simpa using h)

/-- A COLLECT begins after the record that carries the number, or at the head of the log (R99). -/
theorem collectable_split (after : Half) (s : State) :
    ∃ passed rest : List Record, s.log = passed ++ rest ∧
      ((after = 0xFFFF ∨ ∀ r ∈ s.log, r.seq ≠ after) → passed = []) ∧
      (after ≠ 0xFFFF → (∃ r ∈ s.log, r.seq = after) → ∃ r, passed.getLast? = some r ∧ r.seq = after) ∧
      s.collectable after = rest.filter (fun r => r.state != .preview && !r.released) := by
  have hreportable : ∀ r : Record, r.reportable = (r.state != .preview) := fun r => rfl
  unfold State.collectable
  simp only [hreportable]
  by_cases hnone : after = 0xFFFF
  · exact ⟨[], s.log, rfl, fun _ => rfl, fun hsome => absurd hnone hsome, by rw [if_pos hnone]⟩
  · rw [if_neg hnone]
    by_cases habsent : ∀ r ∈ s.log, r.seq ≠ after
    · exact ⟨[], s.log, rfl, fun _ => rfl, fun _ ⟨r, hr, hseq⟩ => absurd hseq (habsent r hr),
        by rw [afterSeq_of_absent habsent]⟩
    · obtain ⟨r, hfound⟩ := Option.isSome_iff_exists.1
        (List.find?_isSome (p := fun x : Record => x.seq == after) (xs := s.log) |>.2 (by simpa using habsent))
      obtain ⟨hseq, older, newer, hlog, holder⟩ := List.find?_eq_some_iff_append.1 hfound
      have hseq : r.seq = after := by simpa using hseq
      refine ⟨older ++ [r], newer, by simp [hlog], fun hor => ?_, fun _ _ => ⟨r, by simp, hseq⟩, ?_⟩
      · exact absurd (hor.resolve_left hnone) habsent
      · rw [hlog, afterSeq_append hseq fun x hx => by simpa using holder x hx]

theorem collectable_sublist (after : Half) (s : State) : (s.collectable after).Sublist s.log := by
  obtain ⟨passed, rest, hlog, -, -, hall⟩ := collectable_split after s
  rw [hlog, hall]
  exact List.filter_sublist.trans (List.sublist_append_right passed rest)

/-- Taken by their numbers, the records reported are those reported. -/
theorem collectRecords_log {s : State} (hs : LogSound s) (after : Half) :
    (collectRecords after s).1.log =
      s.log.map (fun r => if r ∈ (s.collectable after).take 4 then { r with collected := true } else r) := by
  refine List.map_congr_left fun r hr => ?_
  have hsub : (s.collectable after).take 4 ⊆ s.log :=
    ((List.take_sublist 4 _).trans (collectable_sublist after s)).subset
  have hnamed : r.seq ∈ ((s.collectable after).take 4).map (·.seq) ↔ r ∈ (s.collectable after).take 4 := by
    refine ⟨fun hmem => ?_, fun hmem => List.mem_map_of_mem hmem⟩
    obtain ⟨x, hx, hseq⟩ := List.mem_map.1 hmem
    exact hs.eq_of_seq (hsub hx) hr hseq ▸ hx
  simp only [List.contains_iff_mem, hnamed]

/-- A record report, field by field: the figures are those of the charge, or 0 where there is none (R99). -/
theorem report_eq (r : Record) :
    r.report =
      let amount := fun f : Charge → Nat => match r.charge with | some c => f c | none => 0
      be 2 r.seq.toNat ++ be 4 r.folio.toNat ++ be 4 r.title.toNat ++ [r.state.code] ++ be 3 (amount (·.list)) ++
        be 2 (amount (·.tax)) ++ be 3 (amount (·.billed)) ++ be 2 (amount (·.day.toNat)) ++
        be 2 (amount (·.minute)) ++ be 1 r.used := by
  unfold Record.report
  cases r.charge <;> rfl

/-- Settles O37: the message reaches the log through the presence update, which leaves the log; the records reported
are named by their numbers, which are unlike. -/
theorem collectReportsRecords : Obligations.CollectReportsRecords := by
  intro address payload s h ha hs hn hl u after
  have hlog : u.log = s.log := by simp [u]
  obtain ⟨passed, rest, hsplit, hstart, hlast, hall⟩ := collectable_split after u
  rw [hlog] at hsplit hstart hlast
  refine ⟨passed, rest, u.collectable after, hsplit, hstart, hlast, hall, ?_⟩
  intro report
  have hreport : Record.report = report := funext report_eq
  have hs' : LogSound u := by simpa [LogSound, hlog] using hs
  have hcollected : (collectRecords after u).1 = { u with log := s.log.map (fun r =>
      if r ∈ (u.collectable after).take 4 then { r with collected := true } else r) } := by
    rw [← hlog, ← collectRecords_log hs' after]
    rfl
  have hanswer : (collectRecords after u).2 =
      be 1 (min 4 (u.collectable after).length) ++ [if 4 < (u.collectable after).length then 1 else 0] ++
        (((u.collectable after).take 4).map report).flatten := by
    simp [collectRecords, flagByte, hreport]
  rw [exec_addressed (c := .collect address payload) rfl h ha hl rfl (by decide) rfl hn, ← hcollected, ← hanswer]
  rfl

end Sys2Proof.Machine
end

