-- ==== Sys2Proof/Proofs/OrderChecks.lean ====
section
/-!
HEADLINE. The folio unit's answer to a charge request in the terms of the offer (R67 to R72), and the checks of an ORDER
(R93).
-/
namespace Sys2Proof.Machine

/-! ### The answer to a charge request (R67 to R72) -/

section
variable {s : State} {o : OfferEntry}

/-- The folio unit's answer for an offer: the first refusal, or the grant with its charge. -/
theorem chargeRequest_offer (o : OfferEntry) (s : State) :
    chargeRequest o.takenPrice s =
      match s.chargeRefusal o with
      | some code => .refused code
      | none => .granted (s.folioAfter o) (s.chargeFor o) := by
  have hbilled : s.folio.billed (o.takenPrice + taxOf o.takenPrice s.folio.taxRate) = s.billedFor o := rfl
  have hafter : s.folio.charged s.line.online (s.billedFor o) (s.fullCharge o - s.billedFor o) = s.folioAfter o := by
    simp only [Folio.charged, State.folioAfter, Nat.sub_pos_iff_lt]
  have hoffline : (!s.line.online && decide (s.folio.allowance < s.folio.offlineSpend + s.billedFor o)) = true ↔
      s.line.online = false ∧ s.folio.allowance < s.folio.offlineSpend + s.billedFor o := by simp
  unfold chargeRequest State.chargeRefusal
  dsimp only
  rw [hbilled]
  cases s.folio.state with
  | closed | held => rfl
  | opened =>
    dsimp only
    by_cases hcredit : s.folio.creditLimit < s.folio.total + s.billedFor o
    · simp [hcredit]
    · by_cases hlimit : s.line.online = false ∧ s.folio.allowance < s.folio.offlineSpend + s.billedFor o
      · simp [hcredit, hlimit]
      · rw [if_neg hcredit, if_neg (mt hoffline.1 hlimit), if_neg hcredit, if_neg hlimit]
        simp only [reduceCtorEq, if_false]
        rw [← hafter]
        rfl

theorem chargeRequest_refused {code : ResultCode} (h : s.chargeRefusal o = some code) :
    chargeRequest o.takenPrice s = .refused code := by rw [chargeRequest_offer, h]

theorem chargeRequest_grants (h : s.chargeRefusal o = none) :
    chargeRequest o.takenPrice s = .granted (s.folioAfter o) (s.chargeFor o) := by rw [chargeRequest_offer, h]

/-- What the folio unit reads of a state. -/
theorem chargeRequest_congr {t : State} (price : Nat) (hf : t.folio = s.folio) (hl : t.line = s.line)
    (hc : t.clock = s.clock) : chargeRequest price t = chargeRequest price s := by
  unfold chargeRequest
  rw [hf, hl, hc]

end

/-! ### ORDER (R93) -/

theorem exec_order {args : List Byte} {s : State} (h : s.takesCommand) (hn : 1 ≤ args.length) :
    exec (.order args) s = .next (orderCommand args (s.frameOver (1 + args.length))) := by
  rw [exec_command (c := .order args) (k := ⟨0x20, 1, orderCommand⟩) rfl h rfl hn (by decide)]
  simp only [orderCommand, byteAt_take (show 0 < 47 by decide)]

/-- A check that fails answers with its code; otherwise the checks after it decide. -/
theorem checked_or {p q : Prop} {_ : Decidable p} {_ : Decidable q} (h : p ↔ q) {code : ResultCode}
    {s x accepted : State} {later : Option ResultCode}
    (hrest : x = later.elim accepted (fun code => refuseOrder code s)) :
    (if p then refuseOrder code s else x) =
      (if q then some code else later).elim accepted (fun code => refuseOrder code s) := by
  by_cases hq : q
  · rw [if_pos (h.2 hq), if_pos hq]
    rfl
  · rw [if_neg (mt h.1 hq), if_neg hq]
    exact hrest

/-- ORDER is refused by the first check that fails, or else accepted (R93). -/
theorem orderCommand_checked (args : List Byte) (s : State) :
    let o := s.offerAt (byteAt args 0)
    orderCommand args s =
      (s.orderRefusal (byteAt args 0)).elim (acceptOrder o (s.folioAfter o) (s.chargeFor o) s)
        (fun code => refuseOrder code s) := by
  intro o
  have hinvalid : (!o.valid) = true ↔ o.valid = false := by simp
  have hbought : (s.boughtRecord o.title).isSome = true ↔ s.hasBought o.title := boughtRecord_isSome s o.title
  have hfull : ((s.previewRecord o.title).isNone && decide (logCapacity ≤ s.log.length)) = true ↔
      ¬s.previewOf o.title ∧ 48 ≤ s.log.length := by
    rw [← previewRecord_isSome]
    simp [logCapacity]
  unfold orderCommand State.orderRefusal
  dsimp only
  rw [chargeRequest_offer]
  refine checked_or .rfl <| checked_or .rfl <| checked_or .rfl <| checked_or .rfl <| checked_or hinvalid <|
    checked_or .rfl <| checked_or hbought <| checked_or hfull ?_
  cases s.chargeRefusal o <;> rfl

/-- Settles O20: a frame that ends changes nothing that the checks read, and a refusal places a reply. -/
theorem orderRefusedByFirstFailingCheck : Obligations.OrderRefusedByFirstFailingCheck := by
  intro args s code h hn hcode
  have hover : (s.frameOver (1 + args.length)).orderRefusal (byteAt args 0) = some code := hcode
  rw [exec_order h hn, orderCommand_checked, hover]
  rfl

end Sys2Proof.Machine
end

