-- ==== Sys2Proof/Proofs/TitleHandLaws.lean ====
section
/-!
SUPPORT. A title handed to both paths (R88): which paths then stand as judgings leave them, what the event leaves of the
log and of the detail flags, and that a title that is BOUGHT starts no preview (R85, R86).
-/
namespace Sys2Proof.Machine

section
variable {s t : State} {p q : PathId} {title : Word}

/-! ### What the judgings let grow -/

theorem judgeReached_grows (a b : Bool) (s : State) : AdmissionGrows s (judgeReached a b s) := by
  cases a <;> cases b
  · exact ⟨List.prefix_rfl, rfl, fun _ => id⟩
  · exact judge_grows _ s
  · exact judge_grows _ s
  · exact judgeBoth_grows s

/-- Of the detail flags a created record sets LOG_NEAR_FULL at most (R83). -/
theorem createRecord_detail_ne (title : Word) (origin : Origin) (rating limit : Nat) (state : RecordState)
    (charge : Option Charge) (s : State) {k : Nat} (hk : k ≠ 17) :
    (createRecord title origin rating limit state charge s).status.detail.getLsbD k = s.status.detail.getLsbD k := by
  unfold createRecord
  dsimp only
  split
  · rw [report_detail_ne .logNearFull _ hk]
    simp
  · simp

/-- A created record clears no detail flag (R161). -/
theorem createRecord_detail (title : Word) (origin : Origin) (rating limit : Nat) (state : RecordState)
    (charge : Option Charge) (s : State) (k : Nat) (h : s.status.detail.getLsbD k = true) :
    (createRecord title origin rating limit state charge s).status.detail.getLsbD k = true := by
  unfold createRecord
  dsimp only
  split
  · exact report_detail _ _ k (by simpa using h)
  · simpa using h

/-- Of the detail flags a judging sets LOG_NEAR_FULL at most (R83, R86). -/
theorem judge_detail_ne (p : PathId) (s : State) {k : Nat} (hk : k ≠ 17) :
    (judge p s).status.detail.getLsbD k = s.status.detail.getLsbD k := by
  obtain ⟨-, ⟨x, hw⟩ | ⟨title, index, x, y, -, hw, -⟩⟩ := judge_cases p s
  · simp [hw]
  · simpa [hw, State.previewStarted] using createRecord_detail_ne _ _ _ _ _ _ s hk

theorem judgeReached_detail_ne (a b : Bool) (s : State) {k : Nat} (hk : k ≠ 17) :
    (judgeReached a b s).status.detail.getLsbD k = s.status.detail.getLsbD k := by
  cases a <;> cases b
  · rfl
  · exact judge_detail_ne _ s hk
  · exact judge_detail_ne _ s hk
  · obtain ⟨p, n, h⟩ := judgeBoth_eq s
    show (judgeBoth s).status.detail.getLsbD k = _
    rw [h, judge_detail_ne _ _ hk, judge_detail_ne _ _ hk]

/-- The judgings change no selection. -/
theorem judgeReached_selected (a b : Bool) (s : State) (q : PathId) :
    ((judgeReached a b s).path q).selected = (s.path q).selected := by
  cases a <;> cases b
  · rfl
  · exact judge_selected _ q s
  · exact judge_selected _ q s
  · obtain ⟨p, n, h⟩ := judgeBoth_eq s
    show ((judgeBoth s).path q).selected = _
    rw [h, judge_selected, judge_selected]
    cases q <;> rfl

/-- A title that is BOUGHT stays so while records join the log. -/
theorem hasBought_grows (hf : t.folio = s.folio) (hl : s.log <+: t.log) (h : s.hasBought title) :
    t.hasBought title := by
  obtain ⟨r, hr, hb⟩ := h
  exact ⟨r, hl.subset hr, hf ▸ hb⟩

/-! ### The paths that judge (R7, R88) -/

/-- A path that an event reaches stands as a judging leaves it. -/
theorem judgeReached_pathJudged {reached : PathId → Bool} (h : reached q = true) :
    (judgeReached (reached .a) (reached .b) s).pathJudged q := by
  cases ha : reached .a <;> cases hb : reached .b
  · cases q <;> simp_all
  · obtain rfl : q = .b := by cases q <;> simp_all
    exact (judge_cases _ s).1
  · obtain rfl : q = .a := by cases q <;> simp_all
    exact (judge_cases _ s).1
  · exact judgeBoth_judgedAfresh s q

/-- Where a preview of a title ends, the paths that show or are PREVIEWING it judge (R11, R88). -/
theorem handPreviewEnd_pathJudged (h : s.showsOrPreviews q title) : (handPreviewEnd title s).pathJudged q :=
  judgeReached_pathJudged (reached := fun p => s.followsPreview p title) ((followsPreview_iff s q title).2 h)

theorem showsOrPreviews_congr (hp : t.path p = s.path p) (hc : t.channels = s.channels) (ho : t.offers = s.offers)
    (title : Word) : t.showsOrPreviews p title ↔ s.showsOrPreviews p title := by
  unfold State.showsOrPreviews
  rw [showsTitle_congr hp hc ho, hp]

/-- The end of an event leaves a path standing as its judging left it. -/
theorem startWrite_pathJudged (h : s.pathJudged q) : (startWrite s).pathJudged q :=
  pathJudged_congr (by simp) (by simp) (by simp) (by simp) (by simp) (by simp) (by simp) h

/-- Reasons 1 to 3 of R8 read the tables and the lock record alone. -/
theorem asksLog_congr (hc : t.channels = s.channels) (ho : t.offers = s.offers) (hl : t.lock = s.lock) (i : Nat) :
    t.asksLog i ↔ s.asksLog i := by
  simp [State.asksLog, State.isNoService, State.isTableFault, State.isOverCeiling, State.channelAt, State.offerAt, hc,
    ho, hl]

/-- A path that asked the log about a title that is BOUGHT is DESCRAMBLING (R8, R85). -/
theorem descrambling_of_bought {i : Nat} (h : s.pathJudged p) (hi : (s.path p).selected = some i) (ha : s.asksLog i)
    (hb : s.hasBought (s.offerAt (s.channelAt i).offer).title) : (s.path p).admitted = .descrambling := by
  obtain ⟨-, hasks⟩ := h i hi
  obtain ⟨htitle, hadmitted, hbought, -⟩ := hasks ha
  rw [hadmitted, judgedState_asks ha, hbought.2 (htitle ▸ hb)]
  rfl

/-! ### A title that is BOUGHT starts no preview (R85, R86) -/

/-- A path that shows a title that is BOUGHT judges without starting a preview. -/
theorem judge_of_bought (h : s.showsTitle p title) (hb : s.hasBought title) : ∃ x, judge p s = s.setPath p x := by
  rcases judgeOnce_cases p s with ⟨x, hj⟩ | ⟨started, index, x, hst, hj⟩
  · exact ⟨x, by rw [judge_once (by rw [hj]), hj]⟩
  · obtain rfl := showsTitle_unique h (judgeOnce_created_shown (by rw [hj]))
    obtain ⟨-, hnot, -⟩ := hst
    exact absurd hb hnot

/-- A title that is BOUGHT, handed to both paths, changes no record. -/
theorem handTitle_of_bought (hbought : s.hasBought title) :
    (handTitle title s).log = s.log ∧ (handTitle title s).nextSeq = s.nextSeq := by
  have hone : ∀ p (u : State), u.showsTitle p title → u.hasBought title →
      (judge p u).log = u.log ∧ (judge p u).nextSeq = u.nextSeq := fun p u hp hu => by
    obtain ⟨x, hx⟩ := judge_of_bought hp hu
    simp [hx]
  have hmarks := fun p => shows_iff s p title
  unfold handTitle
  cases ha : s.shows .a title <;> cases hb : s.shows .b title
  · exact ⟨rfl, rfl⟩
  · exact hone .b s ((hmarks _).1 hb) hbought
  · exact hone .a s ((hmarks _).1 ha) hbought
  · have hboth : ∀ p, s.showsTitle p title := fun p => (hmarks p).1 (by cases p <;> assumption)
    obtain ⟨p, n, he⟩ := judgeBoth_eq s
    obtain ⟨x, hx⟩ := judge_of_bought (p := p) (s := { s with choice := n }) (title := title)
      ((showsTitle_congr (by cases p <;> rfl) rfl rfl title).2 (hboth p)) hbought
    show (judgeBoth s).log = _ ∧ (judgeBoth s).nextSeq = _
    have hother := hone p.other (({ s with choice := n } : State).setPath p x)
      ((showsTitle_congr (by cases p <;> rfl) (by simp) (by simp) title).2 (hboth p.other))
      (by simpa [State.hasBought] using hbought)
    rw [he, hx]
    simpa using hother

end

end Sys2Proof.Machine
end

