-- ==== Sys2Proof/Proofs/OrderStatement.lean ====
section
/-!
HEADLINE. An accepted ORDER (R93 to R95): the charge, the record, the paths that the title is handed to, and the wait
for the record's slot.
-/
namespace Sys2Proof.Machine

section
variable {s u : State} {o : OfferEntry} {r r0 : Record}

/-! ### What the checks leave (R93) -/

/-- An ORDER that passes every check: the title is not BOUGHT, there is a PREVIEW record or room for a new one, and the
charge is not refused. -/
theorem orderRefusal_none {index : Nat} (h : s.orderRefusal index = none) :
    let o := s.offerAt index
    s.folio.state ≠ .closed ∧ ¬s.hasBought o.title ∧ (s.previewOf o.title ∨ s.log.length < logCapacity) ∧
      s.chargeRefusal o = none := by
  unfold State.orderRefusal at h
  split_ifs at h with hindex hclosed hheld hbad hvalid hceiling hbought hfull
  refine ⟨hclosed, hbought, ?_, h⟩
  by_contra hnot
  push Not at hnot
  exact hfull hnot

theorem takenWindow_minutes (o : OfferEntry) : o.takenWindow * 60 = 60 * max 1 (min o.window 48) := Nat.mul_comm _ _

/-! ### A granted charge, and a record that stays in the log (R72, R84) -/

/-- A grant moves the folio, which is listed where it changes; a waived amount sets CAP_REACHED, and no other flag is
written. -/
theorem grantCharge_writes (f : Folio) (c : Charge) (s : State) :
    (grantCharge f c s).folio = f ∧ (f ≠ s.folio → folioSlot ∈ (grantCharge f c s).store.dirty) ∧
      (0 < c.waived → (grantCharge f c s).status.detail.getLsbD 16 = true) ∧
      ∀ k, k ≠ 16 → (grantCharge f c s).status.detail.getLsbD k = s.status.detail.getLsbD k := by
  have hstatus : ∀ u, (setFolio f u).status = u.status := fun u => by simp
  unfold grantCharge
  refine ⟨by simp, fun hne => ?_, fun hw => ?_, fun k hk => ?_⟩
  · refine setFolio_listed ?_
    split <;> simpa using hne
  · rw [hstatus, if_pos hw]
    exact report_sets .capReached s
  · rw [hstatus]
    split
    · exact report_detail_ne .capReached s hk
    · rfl

/-- A record that is not both released and final stays in the log, in its place. -/
theorem settleRecord_stays (h : (r.released && r.final) = false) (s : State) :
    settleRecord r s = listSlot r.slot (replaceRecord r s) := by
  simp [settleRecord, h]

theorem bought_final {w : Nat} (h : r.state = .bought w) : r.final = false := by
  simp [Record.final, Record.isPreview, Record.isBought, h]

theorem mem_replaceRecord_of_ne {x : Record} (hx : x ∈ s.log) (hne : x.seq ≠ r.seq) : x ∈ (replaceRecord r s).log :=
  List.mem_map.2 ⟨x, hx, if_neg hne⟩

theorem mem_replaceRecord (hr : r0 ∈ s.log) (hseq : r.seq = r0.seq) : r ∈ (replaceRecord r s).log :=
  List.mem_map.2 ⟨r0, hr, if_pos hseq.symm⟩

/-! ### The record and the charge of an accepted ORDER (R94, R95) -/

/-- What an accepted ORDER has done before its title is handed to the paths: the record stands BOUGHT in the log with
the charge, the folio is moved, and the command waits. -/
structure OrderTaken (s : State) (o : OfferEntry) (r : Record) (u : State) : Prop where
  title : r.title = o.title
  number : r.folio = s.folio.number
  state : r.state = .bought (60 * max 1 (min o.window 48))
  charge : r.charge = some (s.chargeFor o)
  mem : r ∈ u.log
  others : ∀ x ∈ s.log, x.seq ≠ r.seq → x ∈ u.log
  folio : u.folio = s.folioAfter o
  folioListed : s.folioAfter o ≠ s.folio → folioSlot ∈ u.store.dirty
  listed : r.slot ∈ u.store.dirty
  port : u.port = { (s.replied 0x20 .pending []).port with
    busy := .store
      (.order r.seq r.slot (s.chargeFor o).billed (s.chargeFor o).waived (60 * max 1 (min o.window 48))) }
  notCharged : u.status.detail.getLsbD 14 = s.status.detail.getLsbD 14
  capReached : 0 < (s.chargeFor o).waived → u.status.detail.getLsbD 16 = true
  frame : { u with
    log := s.log, nextSeq := s.nextSeq, store := s.store, folio := s.folio, port := s.port, status := s.status } = s

/-- The command that waits lists no slot. -/
theorem orderWaits_dirty (u : State) (o : OfferEntry) (c : Charge) (seq : Half) (slot : Nat) :
    (u.orderWaits o c seq slot).store.dirty = u.store.dirty := rfl

/-- The reply is PENDING, and BUSY waits for the record's slot (R95). -/
theorem orderWaits_port {n : Nat} (h : u.port = (s.frameOver n).port) (o : OfferEntry) (c : Charge) (seq : Half)
    (slot : Nat) :
    (u.orderWaits o c seq slot).port = { (s.replied 0x20 .pending []).port with
      busy := .store (.order seq slot c.billed c.waived (60 * max 1 (min o.window 48))) } := by
  rw [← takenWindow_minutes]
  simp only [State.orderWaits, acceptStore, placeReply, setBusy, h]
  rfl

@[simp] theorem orderWaits_keeps (u : State) (o : OfferEntry) (c : Charge) (seq : Half) (slot : Nat) :
    (u.orderWaits o c seq slot).phase = u.phase ∧ (u.orderWaits o c seq slot).pathA = u.pathA ∧
    (u.orderWaits o c seq slot).pathB = u.pathB ∧ (u.orderWaits o c seq slot).engine = u.engine ∧
    (u.orderWaits o c seq slot).keys = u.keys ∧ (u.orderWaits o c seq slot).channels = u.channels ∧
    (u.orderWaits o c seq slot).offers = u.offers ∧ (u.orderWaits o c seq slot).folio = u.folio ∧
    (u.orderWaits o c seq slot).log = u.log ∧ (u.orderWaits o c seq slot).nextSeq = u.nextSeq ∧
    (u.orderWaits o c seq slot).previewed = u.previewed ∧ (u.orderWaits o c seq slot).lock = u.lock ∧
    (u.orderWaits o c seq slot).seconds = u.seconds ∧ (u.orderWaits o c seq slot).clock = u.clock ∧
    (u.orderWaits o c seq slot).room = u.room ∧ (u.orderWaits o c seq slot).line = u.line ∧
    (u.orderWaits o c seq slot).status = u.status ∧ (u.orderWaits o c seq slot).choice = u.choice ∧
    (u.orderWaits o c seq slot).pending = u.pending := by
  simp [State.orderWaits]

/-- The PREVIEW record of the title is converted in its place (R94). -/
theorem orderConverts_taken (h : s.previewRecord o.title = some r0) (n : Nat) :
    let c := s.chargeFor o
    let r := { r0 with state := .bought (60 * max 1 (min o.window 48)), charge := some c }
    let u := ((s.frameOver n).orderConverts o (s.folioAfter o) c r0).orderWaits o c r0.seq r0.slot
    OrderTaken s o r u ∧ u.log = s.log.map (fun x => if x.seq = r.seq then r else x) := by
  intro c r u
  obtain ⟨hmem, -, -, hnumber, htitle⟩ := previewRecord_spec h
  obtain ⟨hfolio, hlisted, hcap, hstatus⟩ := grantCharge_writes (s.folioAfter o) c (s.frameOver n)
  set g := grantCharge (s.folioAfter o) c (s.frameOver n) with hg
  have hstays : settleRecord r g = listSlot r.slot (replaceRecord r g) :=
    settleRecord_stays (by simp [bought_final (r := r) rfl]) _
  have hu : u = (listSlot r.slot (replaceRecord r g)).orderWaits o c r.seq r.slot := by
    rw [← hstays]
    simp only [u, State.orderConverts, takenWindow_minutes]
    rfl
  have hlog : u.log = s.log.map (fun x => if x.seq = r.seq then r else x) := by
    simp [hu, replaceRecord, hg]
  refine ⟨⟨htitle, hnumber, rfl, rfl, ?_, fun x hx hne => ?_, ?_, fun hne => ?_, ?_, ?_, ?_, fun hw => ?_, ?_⟩, hlog⟩
  · rw [hlog]
    exact mem_replaceRecord (s := s) hmem rfl
  · rw [hlog]
    exact mem_replaceRecord_of_ne (s := s) hx hne
  · simpa [hu] using hfolio
  · rw [hu, orderWaits_dirty]
    exact mem_listSlot_of_mem (s := replaceRecord r g) (hlisted hne)
  · rw [hu, orderWaits_dirty]
    exact mem_listSlot _ _
  · rw [hu, orderWaits_port (s := s) (n := n) (by simp [hg])]
  · simpa [hu] using hstatus 14 (by decide)
  · simpa [hu] using hcap hw
  · simp [hu, hg]

/-- The record that an ORDER creates (R83, R94). -/
def State.orderedRecord (s : State) (o : OfferEntry) : Record where
  seq := s.newSeq
  folio := s.folio.number
  title := o.title
  origin := .order
  rating := o.rating
  limit := min o.preview 15
  used := 0
  state := .bought (60 * max 1 (min o.window 48))
  charge := some (s.chargeFor o)
  collected := false
  released := false
  slot := s.newSlot

/-- A new record joins the tail of the log (R83, R94). -/
theorem orderCreates_taken (o : OfferEntry) (s : State) (n : Nat) :
    let c := s.chargeFor o
    let r := s.orderedRecord o
    let u := ((s.frameOver n).orderCreates o (s.folioAfter o) c).orderWaits o c s.newSeq s.newSlot
    OrderTaken s o r u ∧ u.log = s.log ++ [r] ∧ u.nextSeq = r.seq + 1 ∧ folioSlot ∈ u.store.dirty ∧
      (40 ≤ s.log.length + 1 → u.status.detail.getLsbD 17 = true) := by
  intro c r u
  obtain ⟨hfolio, hlisted, hcap, hstatus⟩ := grantCharge_writes (s.folioAfter o) c (s.frameOver n)
  set g := grantCharge (s.folioAfter o) c (s.frameOver n) with hg
  set v := createRecord o.title .order o.rating (min o.preview 15) (.bought (60 * max 1 (min o.window 48))) (some c) g
    with hv
  have hu : u = v.orderWaits o c r.seq r.slot := by
    simp only [u, State.orderCreates, takenWindow_minutes]
    rfl
  obtain ⟨hlog, hnext⟩ := createRecord_log o.title .order o.rating (min o.preview 15)
    (.bought (60 * max 1 (min o.window 48))) (some c) g
  obtain ⟨hfolioSlot, hslot⟩ := createRecord_lists o.title .order o.rating (min o.preview 15)
    (.bought (60 * max 1 (min o.window 48))) (some c) g
  rw [← hv] at hlog hnext hfolioSlot hslot
  have hseq : g.newSeq = r.seq := by simp [State.newSeq, hg, r, State.orderedRecord]
  have hplace : g.newSlot = r.slot := by simp [State.newSlot, hg, r, State.orderedRecord]
  have hlog : u.log = s.log ++ [r] := by
    have hgranted : g.log = s.log ∧ g.folio.number = s.folio.number := ⟨by simp [hg], by rw [hfolio]; rfl⟩
    obtain ⟨hglog, hnumber⟩ := hgranted
    have hkept : u.log = v.log := by simp [hu]
    rw [hkept, hlog, hglog, hseq, hplace, hnumber]
    rfl
  have hflags : u.status = v.status := by simp [hu]
  refine ⟨⟨rfl, rfl, rfl, rfl, ?_, fun x hx _ => ?_, ?_, fun hne => ?_, ?_, ?_, ?_, fun hw => ?_, ?_⟩,
    hlog, ?_, ?_, fun hfull => ?_⟩
  · simp [hlog]
  · simp [hlog, hx]
  · simpa [hu, hv] using hfolio
  · rwa [hu, orderWaits_dirty]
  · rwa [hu, orderWaits_dirty, ← hplace]
  · rw [hu, orderWaits_port (s := s) (n := n) (by simp [hv, hg])]
  · rw [hflags, hv, createRecord_detail_ne _ _ _ _ _ _ _ (by decide)]
    exact hstatus 14 (by decide)
  · rw [hflags, hv]
    exact createRecord_detail _ _ _ _ _ _ _ 16 (hcap hw)
  · simp [hu, hv, hg]
  · simp [hu, hnext, hseq]
  · rwa [hu, orderWaits_dirty]
  · rw [hflags, hv]
    exact createRecord_nearFull _ _ _ _ _ _ g (by simpa [hg] using hfull)

/-! ### The title handed to the paths, and the event's end (R88, R95) -/

theorem OrderTaken.kept (h : OrderTaken s o r u) :
    (∀ p, u.path p = s.path p) ∧ u.channels = s.channels ∧ u.offers = s.offers ∧ u.lock = s.lock :=
  ⟨fun p => by
    cases p
    · exact (congrArg State.pathA h.frame :)
    · exact (congrArg State.pathB h.frame :), (congrArg State.channels h.frame :), (congrArg State.offers h.frame :),
    (congrArg State.lock h.frame :)⟩

/-- The title is BOUGHT from the acceptance on. -/
theorem OrderTaken.hasBought (h : OrderTaken s o r u) (hopen : s.folio.state ≠ .closed) : u.hasBought o.title :=
  ⟨r, h.mem, ⟨_, h.state⟩, by rw [h.folio]; exact hopen, by rw [h.folio]; exact h.number, h.title⟩

/-- The event of an accepted ORDER: the judgings change nothing of what it has done, and its end begins a write at
most. -/
theorem OrderTaken.event (h : OrderTaken s o r u) (hopen : s.folio.state ≠ .closed) {reached : PathId → Bool}
    (hreached : ∀ q, u.showsTitle q o.title → reached q = true) {v : State}
    (hv : v = judgeReached (reached .a) (reached .b) u) :
    let t := startWrite v
    endEvent v = t ∧ r ∈ t.log ∧ (∀ x ∈ s.log, x.seq ≠ r.seq → x ∈ t.log) ∧ t.folio = s.folioAfter o ∧
      (t.folio ≠ s.folio → t.listed folioSlot) ∧ t.listed r.slot ∧
      t.port = { (s.replied 0x20 .pending []).port with
        busy := .store
          (.order r.seq r.slot (s.chargeFor o).billed (s.chargeFor o).waived (60 * max 1 (min o.window 48))) } ∧
      t.status.detail.getLsbD 14 = s.status.detail.getLsbD 14 ∧
      (0 < (s.chargeFor o).waived → t.status.detail.getLsbD 16 = true) ∧
      (∀ p i, (s.path p).selected = some i → s.asksLog i → (s.offerAt (s.channelAt i).offer).title = o.title →
        (t.path p).admitted = .descrambling) ∧
      { t.withAdmissionOf s with folio := s.folio, port := s.port } = s := by
  subst hv
  set v := judgeReached (reached .a) (reached .b) u
  intro t
  obtain ⟨hpath, hchannels, hoffers, hlock⟩ := h.kept
  have hgrows : AdmissionGrows u v := judgeReached_grows _ _ u
  have hlists : ListsSlots u v := judgeReached_lists _ _ u
  have hport : v.port = u.port := by simp [v]
  have hfolio : v.folio = s.folioAfter o := by simp [v, h.folio]
  have hstatus : t.status = v.status := by simp [t]
  refine ⟨endEvent_notReset (by simp [hport, h.port]), ?_, fun x hx hne => ?_, ?_, fun hne => ?_, ?_, ?_, ?_,
    fun hw => ?_, fun p i hi ha htitle => ?_, ?_⟩
  · simpa [t] using hgrows.log.subset h.mem
  · simpa [t] using hgrows.log.subset (h.others x hx hne)
  · simpa [t] using hfolio
  · exact listed_startWrite (hlists.dirty _ (h.folioListed (by simpa [t, hfolio] using hne)))
  · exact listed_startWrite (hlists.dirty _ h.listed)
  · simp [t, hport, h.port]
  · rw [hstatus, judgeReached_detail_ne _ _ _ (by decide), h.notCharged]
  · rw [hstatus]
    exact hgrows.detail 16 (h.capReached hw)
  · have ⟨hclass, _⟩ := ha
    have hshown : u.showsTitle p o.title :=
      (showsTitle_congr (hpath p) hchannels hoffers o.title).2 ⟨i, hi, hclass, htitle⟩
    have hjudged : v.pathJudged p := judgeReached_pathJudged (reached := reached) (hreached p hshown)
    have hselected : (v.path p).selected = some i := by rw [judgeReached_selected, hpath, hi]
    have hasks : v.asksLog i :=
      (asksLog_congr (by simpa [v] using hchannels) (by simpa [v] using hoffers) (by simpa [v] using hlock) i).2 ha
    have hoffer : (v.offerAt (v.channelAt i).offer).title = o.title := by
      simpa [State.offerAt, State.channelAt, v, hchannels, hoffers] using htitle
    have hbought : v.hasBought o.title := hasBought_grows (by simp [v]) hgrows.log (h.hasBought hopen)
    rw [path_startWrite]
    exact descrambling_of_bought hjudged hselected hasks (hoffer ▸ hbought)
  · refine Eq.trans ?_ (congrArg (State.withAdmissionOf · s) h.frame)
    simp [State.withAdmissionOf, t, v]

/-- The paths that show or are PREVIEWING the title of a converted record judge, and the records stay in their
places. -/
theorem OrderTaken.converted (h : OrderTaken s o r u)
    (hlog : u.log = s.log.map (fun x => if x.seq = r.seq then r else x)) :
    let t := startWrite (handPreviewEnd o.title u)
    s.log.map (fun x => if x.seq = r.seq then r else x) <+: t.log ∧
      ∀ q, s.showsOrPreviews q o.title → t.pathJudged q := by
  obtain ⟨hpath, hchannels, hoffers, -⟩ := h.kept
  have hgrows : AdmissionGrows u (handPreviewEnd o.title u) := judgeReached_grows _ _ u
  refine ⟨?_, fun q hq => startWrite_pathJudged (handPreviewEnd_pathJudged ?_)⟩
  · rw [← hlog]
    simpa using hgrows.log
  · exact (showsOrPreviews_congr (hpath q) hchannels hoffers o.title).2 hq

/-- The title of a new record starts no preview, the paths that show it judge, and the others stand. -/
theorem OrderTaken.created (h : OrderTaken s o r u) (hopen : s.folio.state ≠ .closed) (hlog : u.log = s.log ++ [r])
    (hnext : u.nextSeq = r.seq + 1) (hslot : folioSlot ∈ u.store.dirty) :
    let t := startWrite (handTitle o.title u)
    t.log = s.log ++ [r] ∧ t.nextSeq = r.seq + 1 ∧ t.listed folioSlot ∧
      (u.status.detail.getLsbD 17 = true → t.status.detail.getLsbD 17 = true) ∧
      ∀ q, (s.showsTitle q o.title → t.pathJudged q) ∧ (¬s.showsTitle q o.title → t.path q = s.path q) := by
  intro t
  obtain ⟨hpath, hchannels, hoffers, -⟩ := h.kept
  have hgrows : AdmissionGrows u (handTitle o.title u) := judgeReached_grows _ _ u
  have hlists : ListsSlots u (handTitle o.title u) := judgeReached_lists _ _ u
  obtain ⟨hstands, hnextStands⟩ := handTitle_of_bought (h.hasBought hopen)
  have hshows : ∀ q, u.showsTitle q o.title ↔ s.showsTitle q o.title := fun q =>
    showsTitle_congr (hpath q) hchannels hoffers o.title
  have hstatus : t.status = (handTitle o.title u).status := by simp [t]
  refine ⟨by simpa [t, hstands] using hlog, by simpa [t, hnextStands] using hnext,
    listed_startWrite (hlists.dirty _ hslot), fun hfull => ?_, fun q => ⟨fun hq => ?_, fun hq => ?_⟩⟩
  · rw [hstatus]
    exact hgrows.detail 17 hfull
  · obtain ⟨hjudged, -⟩ := handTitle_paths o.title u q
    exact startWrite_pathJudged (hjudged ((hshows q).2 hq))
  · obtain ⟨-, hstood⟩ := handTitle_paths o.title u q
    exact (path_startWrite _ q).trans ((hstood (mt (hshows q).1 hq)).trans (hpath q))

end

/-- Settles O21: the two ways of R94 to the record, each with what the checks leave; the event's end is common to
both. -/
theorem orderAccepted : Obligations.OrderAccepted := by
  intro args s h hs hlog hn hpass o window
  obtain ⟨hopen, hnot, hroom, hcharge⟩ := orderRefusal_none hpass
  set n := 1 + args.length
  have hover : (s.frameOver n).orderRefusal (byteAt args 0) = none := hpass
  have hgrant : chargeRequest o.takenPrice (s.frameOver n) = .granted (s.folioAfter o) (s.chargeFor o) :=
    chargeRequest_grants (s := s.frameOver n) hcharge
  have hexec : exec (.order args) s =
      .next (acceptOrder o (s.folioAfter o) (s.chargeFor o) (s.frameOver n)) := by
    rw [exec_order h hn, orderCommand_checked, hover]
    rfl
  cases hfound : s.previewRecord o.title with
  | some r0 =>
    have hpreview : s.previewOf o.title := (previewRecord_isSome s o.title).1 (by rw [hfound]; rfl)
    obtain ⟨hr0, hstate, -⟩ := previewRecord_spec hfound
    obtain ⟨htaken, hconverted⟩ := orderConverts_taken hfound n
    obtain ⟨hplaces, hjudged⟩ := htaken.converted hconverted
    obtain ⟨hend, hmem, hcommon⟩ := htaken.event hopen (reached := fun p => State.followsPreview _ p o.title)
      (fun q hq => (followsPreview_iff _ q o.title).2 (.inl hq)) (v := handPreviewEnd o.title _) rfl
    refine ⟨_, _, ?_, hmem, htaken.title, htaken.number, htaken.state, htaken.charge,
      fun _ => ⟨r0, hr0, hstate, rfl, hplaces, hjudged⟩, fun hn => absurd hpreview hn, hcommon⟩
    rw [hexec, acceptOrder_converts hgrant (r := r0) hfound]
    exact congrArg _ hend
  | none =>
    have hpreview : ¬s.previewOf o.title := fun hp => by
      simpa [hfound] using (previewRecord_isSome s o.title).2 hp
    obtain ⟨hlength, -⟩ := hlog
    obtain ⟨hslot, hslotFree⟩ := newSlot_free (hroom.resolve_left hpreview)
    obtain ⟨htaken, hjoined, hnext, hfolioSlot, hfull⟩ := orderCreates_taken o s n
    obtain ⟨htail, hpassed, hfolioListed, hnearFull, hpaths⟩ := htaken.created hopen hjoined hnext hfolioSlot
    obtain ⟨hend, hmem, hcommon⟩ := htaken.event hopen (reached := fun p => State.shows _ p o.title)
      (fun q hq => (shows_iff _ q o.title).2 hq) (v := handTitle o.title _) rfl
    refine ⟨_, _, ?_, hmem, htaken.title, htaken.number, htaken.state, htaken.charge, fun hp => absurd hp hpreview,
      fun _ => ⟨rfl, rfl, rfl, rfl, rfl, rfl, newSeq_firstUnused hlength,
        fun x hx he => hslotFree (List.mem_map.2 ⟨x, hx, he⟩), hslot, hfolioListed, hnearFull ∘ hfull, htail, hpassed,
        hpaths⟩, hcommon⟩
    rw [hexec, acceptOrder_creates hgrant hfound]
    exact congrArg _ hend

end Sys2Proof.Machine
end

