-- ==== Sys2Proof/Proofs/PreviewEndStatement.lean ====
section
/-!
HEADLINE. A preview's last minute (R89 to R91): the minute counted, the end that the folio's policy gives it, and the
paths that the title is handed to.
-/
namespace Sys2Proof.Machine

section
variable {s u : State} {r r' : Record}

/-! ### The offer for a title (R91) -/

theorem offerOf_none {title : Word}
    (h : ∀ i, i < 32 → ¬((s.offerAt i).valid = true ∧ (s.offerAt i).title = title)) : s.offerOf title = none := by
  unfold State.offerOf
  rw [List.find?_map, Option.map_eq_none_iff, List.find?_range_eq_none]
  intro i hi
  simpa [imp_iff_not_or] using h i hi

/-- The offer is the valid one with the lowest index. -/
theorem offerOf_lowest {title : Word} {i : Nat} (hi : i < 32) (hvalid : (s.offerAt i).valid = true)
    (htitle : (s.offerAt i).title = title)
    (hlowest : ∀ j, j < i → ¬((s.offerAt j).valid = true ∧ (s.offerAt j).title = title)) :
    s.offerOf title = some (s.offerAt i) := by
  have hfound : (List.range 32).find? ((fun o : OfferEntry => o.valid && o.title == title) ∘ s.offerAt) = some i := by
    rw [List.find?_range_eq_some]
    exact ⟨by simp [hvalid, htitle], List.mem_range.2 hi, fun j hj => by simpa [imp_iff_not_or] using hlowest j hj⟩
  unfold State.offerOf
  rw [List.find?_map, hfound]
  rfl

theorem offerOf_congr (ho : u.offers = s.offers) (title : Word) : u.offerOf title = s.offerOf title := by
  have hoffer : u.offerAt = s.offerAt := funext fun i => by simp [State.offerAt, ho]
  simp [State.offerOf, hoffer]

/-! ### The minute counted (R89) -/

/-- The record with its last preview minute counted. -/
def Record.counted (r : Record) : Record := { r with used := r.limit }

/-- The state with a record's last preview minute counted. -/
def State.counting (s : State) (r : Record) : State := listSlot r.slot (replaceRecord r.counted s)

/-- A last preview minute is counted, and the preview ends by the folio's policy. -/
theorem countPreview_last (h : r.limit = r.used + 1) :
    countPreview r s =
      match s.folio.policy with
      | .confirm => endConfirm r.counted (s.counting r)
      | .auto => endAuto r.counted (s.counting r) := by
  have hpolicy : (s.counting r).folio.policy = s.folio.policy := by simp [State.counting]
  unfold countPreview
  dsimp only
  rw [← h, if_neg (lt_irrefl _), ← hpolicy]
  rfl

/-! ### The record leaves PREVIEW (R84, R88) -/

/-- What a last minute has done before the record leaves PREVIEW: the log carries the record's number and every other
record, slots are listed, and the folio and the detail flags may have moved. -/
structure PreviewCounted (s : State) (seq : Half) (u : State) : Prop where
  record : ∃ x ∈ u.log, x.seq = seq
  others : ∀ x ∈ s.log, x.seq ≠ seq → x ∈ u.log
  lists : ListsSlots s u
  frame : { u with log := s.log, store := s.store, folio := s.folio, status := s.status } = s

theorem counting_counted (hr : r ∈ s.log) : PreviewCounted s r.seq (s.counting r) where
  record := ⟨r.counted, by simpa [State.counting] using mem_replaceRecord (r := r.counted) hr rfl, rfl⟩
  others x hx hne := by simpa [State.counting] using mem_replaceRecord_of_ne (r := r.counted) hx hne
  lists := ListsSlots.listSlot (.of_kept (by simp)) r.slot
  frame := by simp [State.counting]

theorem judgeReached_port (a b : Bool) (s : State) : (judgeReached a b s).port = s.port := by simp

/-- The event in which a record leaves PREVIEW for good or for a window: the record stands in its place, no other
changes, and every path that shows or is PREVIEWING the title judges. -/
theorem leavePreview_event (hs : s.settled = true) (h : PreviewCounted s r'.seq u) (hreleased : r'.released = false) :
    let t := endEvent (leavePreview r' u)
    r' ∈ t.log ∧ t.listed r'.slot ∧ (∀ x ∈ s.log, x.seq ≠ r'.seq → x ∈ t.log) ∧
      (∀ q, s.showsOrPreviews q r'.title → t.pathJudged q) ∧ t.folio = u.folio ∧
      (∀ k, k ∈ u.store.dirty → t.listed k) ∧
      (∀ k, u.status.detail.getLsbD k = true → t.status.detail.getLsbD k = true) ∧
      { t.withAdmissionOf s with folio := s.folio } = s := by
  obtain ⟨⟨x, hx, hseq⟩, hothers, hlists, hframe⟩ := h
  set v := settleRecord r' u with hv
  have hstays : v = listSlot r'.slot (replaceRecord r' u) := settleRecord_stays (by simp [hreleased]) u
  have hgrows : AdmissionGrows v (leavePreview r' u) := judgeReached_grows _ _ v
  have hjudging : ListsSlots v (leavePreview r' u) := judgeReached_lists _ _ v
  have hsettling : ListsSlots u v := settleRecord_lists r' u
  have hend : endEvent (leavePreview r' u) = startWrite (leavePreview r' u) := endEvent_writing fun hb => by
    rw [((hlists.trans hsettling).trans hjudging).write]
    exact write_of_settled hs (((hlists.trans hsettling).trans hjudging).busy hb)
  have hlog : ∀ y ∈ v.log, y ∈ (startWrite (leavePreview r' u)).log := fun y hy => by
    simpa using hgrows.log.subset hy
  rw [hend]
  refine ⟨hlog r' ?_, ?_, fun y hy hne => hlog y ?_, fun q hq => ?_, ?_, fun k hk => ?_, fun k hk => ?_, ?_⟩
  · rw [hstays]
    simpa using mem_replaceRecord hx hseq.symm
  · exact listed_startWrite (hjudging.dirty _ (settleRecord_listed r' u))
  · rw [hstays]
    simpa using mem_replaceRecord_of_ne (hothers y hy hne) hne
  · refine startWrite_pathJudged (handPreviewEnd_pathJudged ((showsOrPreviews_congr ?_ ?_ ?_ _).2 hq))
    · cases q
      · exact Eq.trans (by simp [State.path]) (congrArg State.pathA hframe :)
      · exact Eq.trans (by simp [State.path]) (congrArg State.pathB hframe :)
    · exact Eq.trans (by simp) (congrArg State.channels hframe :)
    · exact Eq.trans (by simp) (congrArg State.offers hframe :)
  · simp
  · exact listed_startWrite (hjudging.dirty _ (hsettling.dirty _ hk))
  · have hflag := hgrows.detail k (by simpa [hv] using hk)
    simpa using hflag
  · refine Eq.trans ?_ (congrArg (State.withAdmissionOf · s) hframe)
    have hport : (leavePreview r' u).port = u.port := Eq.trans (judgeReached_port _ _ v) (by simp [hstays])
    simp [State.withAdmissionOf, hport]

/-! ### The end under AUTO (R91) -/

theorem endAuto_noOffer (h : u.offerOf r.title = none) :
    endAuto r u = leavePreview { r with state := .declined .noOffer } u := by
  unfold endAuto
  rw [h]

section
variable {o : OfferEntry} (h : u.offerOf r.title = some o)
include h

theorem endAuto_tableFault (hbad : u.offers.bad = true) :
    endAuto r u = leavePreview { r with state := .declined .tableFault } u := by
  unfold endAuto
  simp only [h, hbad, if_true]

theorem endAuto_refused {code : ResultCode} (hbad : u.offers.bad = false)
    (hcharge : chargeRequest o.takenPrice u = .refused code) :
    endAuto r u = leavePreview { r with state := .declined code } u := by
  unfold endAuto
  simp only [h, hbad, Bool.false_eq_true, if_false, hcharge]

theorem endAuto_granted {f : Folio} {c : Charge} (hbad : u.offers.bad = false)
    (hcharge : chargeRequest o.takenPrice u = .granted f c) :
    endAuto r u = leavePreview { r with state := .bought (o.takenWindow * 60), charge := some c }
      (report .charged (grantCharge f c u)) := by
  unfold endAuto
  simp only [h, hbad, Bool.false_eq_true, if_false, hcharge]

end

/-- A grant leaves the records, and lists the folio slot at most. -/
theorem PreviewCounted.granted {seq : Half} (h : PreviewCounted s seq u) (f : Folio) (c : Charge) :
    PreviewCounted s seq (report .charged (grantCharge f c u)) where
  record := by simpa using h.record
  others := by simpa using h.others
  lists := by
    refine h.lists.trans (ListsSlots.report ?_ .charged)
    unfold grantCharge
    split
    · exact (ListsSlots.report (.refl u) .capReached).trans (setFolio_lists f _)
    · exact setFolio_lists f u
  frame := by
    refine Eq.trans ?_ h.frame
    simp

/-! ### The last minute of a record that a path is PREVIEWING (R89) -/

/-- A part whose events have ended, and a record of its log in PREVIEW at its last minute, under a policy and with a
path PREVIEWING its title. -/
structure LastMinute (s : State) (r : Record) (p : PathId) (policy : Policy) : Prop where
  running : s.phase = .running
  settled : s.settled = true
  sound : LogSound s
  mem : r ∈ s.log
  preview : r.state = .preview
  unreleased : r.released = false
  last : r.limit = r.used + 1
  policy : s.folio.policy = policy
  previewing : (s.path p).state = .previewing
  title : (s.path p).title = r.title

section
variable {p : PathId} {policy : Policy}

theorem LastMinute.countsPreview (h : LastMinute s r p policy) : s.countsPreview r = true := by
  have hpreviews : (s.path p).previews r.title = true := by simp [Path.previews, h.previewing, h.title]
  simp only [State.countsPreview, Bool.and_eq_true, Bool.or_eq_true]
  refine ⟨(isPreview_iff r).2 h.preview, ?_⟩
  cases p
  · exact .inl hpreviews
  · exact .inr hpreviews

/-- The row counts the record's minute under the policy that it names. -/
theorem LastMinute.event (h : LastMinute s r p policy) :
    whenRunning (lastPreviewMinute policy r.seq) s = endEvent (countPreview r s) := by
  obtain ⟨-, hseqs, -⟩ := h.sound
  unfold whenRunning lastPreviewMinute
  rw [if_pos h.running, recordOf_of_mem hseqs h.mem]
  simp [h.countsPreview, h.last, h.policy]

theorem LastMinute.exec_previewLapse (h : LastMinute s r p .confirm) :
    exec (.previewLapse r.seq) s = .next (endEvent (endConfirm r.counted (s.counting r))) := by
  have hevent := h.event
  rw [countPreview_last h.last, h.policy] at hevent
  exact congrArg _ hevent

theorem LastMinute.exec_autoCharge (h : LastMinute s r p .auto) :
    exec (.autoCharge r.seq) s = .next (endEvent (endAuto r.counted (s.counting r))) := by
  have hevent := h.event
  rw [countPreview_last h.last, h.policy] at hevent
  exact congrArg _ hevent

end

theorem counting_keeps (s : State) (r : Record) :
    (s.counting r).folio = s.folio ∧ (s.counting r).offers = s.offers ∧ (s.counting r).line = s.line ∧
      (s.counting r).clock = s.clock := by
  simp [State.counting]

/-- What AUTO_CHARGE leaves of a record: its state and charge, its slot listed, the other records as they were, and the
paths that show or were PREVIEWING the title judged. -/
def AutoEnded (s : State) (r : Record) (t : State) (state : RecordState) (charge : Option Charge) : Prop :=
  exec (.autoCharge r.seq) s = .next t ∧
    { r with used := r.limit, state := state, charge := charge } ∈ t.log ∧ t.listed r.slot ∧
    (∀ x ∈ s.log, x.seq ≠ r.seq → x ∈ t.log) ∧ (∀ q, s.showsOrPreviews q r.title → t.pathJudged q) ∧
    { t.withAdmissionOf s with folio := s.folio } = s

section
variable {p : PathId} (h : LastMinute s r p .auto)
include h

/-- The record leaves PREVIEW from a state that the charge may have moved. -/
theorem LastMinute.autoEnded {state : RecordState} {charge : Option Charge}
    (he : endAuto r.counted (s.counting r) = leavePreview { r.counted with state := state, charge := charge } u)
    (hu : PreviewCounted s r.seq u) :
    ∃ t, AutoEnded s r t state charge ∧ t.folio = u.folio ∧ (∀ k, k ∈ u.store.dirty → t.listed k) ∧
      ∀ k, u.status.detail.getLsbD k = true → t.status.detail.getLsbD k = true := by
  obtain ⟨hmem, hlisted, hothers, hjudged, hfolio, hdirty, hdetail, hframe⟩ :=
    leavePreview_event (r' := { r.counted with state := state, charge := charge }) h.settled hu h.unreleased
  exact ⟨_, ⟨h.exec_autoCharge.trans (by rw [he]), hmem, hlisted, hothers, hjudged, hframe⟩, hfolio, hdirty, hdetail⟩

/-- A preview that ends without a charge. -/
theorem LastMinute.declined {code : ResultCode} (he : endAuto r.counted (s.counting r) =
    leavePreview { r.counted with state := .declined code } (s.counting r)) :
    ∃ t, AutoEnded s r t (.declined code) r.charge ∧ t.folio = s.folio := by
  obtain ⟨t, ht, hstands, -⟩ := h.autoEnded he (counting_counted h.mem)
  obtain ⟨hfolio, -⟩ := counting_keeps s r
  exact ⟨t, ht, hstands.trans hfolio⟩

/-- A preview that ends with a charge granted. -/
theorem LastMinute.charged {o : OfferEntry} (hfound : s.offerOf r.title = some o) (hgood : s.offers.bad = false)
    (hgranted : s.chargeRefusal o = none) :
    ∃ t, AutoEnded s r t (.bought (60 * max 1 (min o.window 48))) (some (s.chargeFor o)) ∧ t.folio = s.folioAfter o ∧
      (t.folio ≠ s.folio → t.listed folioSlot) ∧ t.status.detail.getLsbD 14 = true ∧
      (0 < (s.chargeFor o).waived → t.status.detail.getLsbD 16 = true) := by
  obtain ⟨hfolio, hoffers, hline, hclock⟩ := counting_keeps s r
  obtain ⟨hmoved, hfolioSlot, hcap, -⟩ := grantCharge_writes (s.folioAfter o) (s.chargeFor o) (s.counting r)
  have he := endAuto_granted (r := r.counted) ((offerOf_congr hoffers r.title).trans hfound) (by rw [hoffers, hgood])
    ((chargeRequest_congr _ hfolio hline hclock).trans (chargeRequest_grants hgranted))
  rw [takenWindow_minutes] at he
  obtain ⟨t, ht, hstands, hdirty, hdetail⟩ := h.autoEnded he ((counting_counted h.mem).granted _ _)
  have hafter : t.folio = s.folioAfter o := hstands.trans (by simpa using hmoved)
  refine ⟨t, ht, hafter, fun hne => hdirty _ ?_, hdetail 14 (report_sets .charged _), fun hw => ?_⟩
  · simpa using hfolioSlot (by rwa [hfolio, ← hafter])
  · exact hdetail 16 (report_detail .charged _ 16 (hcap hw))

end

end

/-- Settles O49: under CONFIRM the record lapses; under AUTO it takes the state of the charge's outcome, and a granted
charge moves the folio first. -/
theorem previewEndsByPolicy : Obligations.PreviewEndsByPolicy := by
  refine ⟨fun s r p hphase hs hlog hr hstate hreleased hlimit hpolicy hp htitle => ?_,
    fun s r p hphase hs hlog hr hstate hreleased hlimit hpolicy hp htitle => ?_⟩
  · have h : LastMinute s r p .confirm := ⟨hphase, hs, hlog, hr, hstate, hreleased, hlimit, hpolicy, hp, htitle⟩
    obtain ⟨hmem, hlisted, hothers, hjudged, hfolio, -, -, hframe⟩ :=
      leavePreview_event (r' := { r.counted with state := .lapsed }) hs (counting_counted (r := r) hr) hreleased
    obtain ⟨hkept, -⟩ := counting_keeps s r
    refine ⟨_, h.exec_previewLapse, hmem, hfolio.trans hkept, hlisted, hothers, hjudged, ?_⟩
    conv at hframe => lhs; rw [← hkept, ← hfolio]
    exact hframe
  · have h : LastMinute s r p .auto := ⟨hphase, hs, hlog, hr, hstate, hreleased, hlimit, hpolicy, hp, htitle⟩
    obtain ⟨hfolio, hoffers, hline, hclock⟩ := counting_keeps s r
    have hoffer : (s.counting r).offerOf r.counted.title = s.offerOf r.title := offerOf_congr hoffers _
    refine ⟨fun hnone => h.declined (endAuto_noOffer (hoffer.trans (offerOf_none hnone))),
      fun i hi hvalid hcarried hlowest => ?_⟩
    have hlowestFound := offerOf_lowest hi hvalid hcarried hlowest
    have hfound := hoffer.trans hlowestFound
    have hcharge := chargeRequest_congr (s.offerAt i).takenPrice hfolio hline hclock
    exact ⟨fun hbad => h.declined (endAuto_tableFault hfound (by rw [hoffers, hbad])),
      fun code hgood hrefused => h.declined (endAuto_refused hfound (by rw [hoffers, hgood])
        (hcharge.trans (chargeRequest_refused hrefused))), h.charged hlowestFound⟩

end Sys2Proof.Machine
end

