-- ==== Sys2Proof/Proofs/ReleaseStatement.lean ====
section
/-!
HEADLINE. RELEASE (R100, R101): each collected record through the named one has its turn, and a final one leaves the
log, which answers the ORDER that waits for it (R95).
-/
namespace Sys2Proof.Machine

section
variable {s u : State} {r : Record}

/-! ### One record's turn (R100, R101) -/

theorem releasable_iff (r : Record) : r.releasable = true ↔ r.collected = true ∧ r.released = false := by
  simp [Record.releasable]

theorem releaseRecord_lists (r : Record) (s : State) : ListsSlots s (releaseRecord r s) := by
  rw [releaseRecord_eq]
  split
  · exact settleRecord_lists _ s
  · exact .refl s

theorem releaseRecord_listed (h : r.releasable = true) (s : State) : r.slot ∈ (releaseRecord r s).store.dirty := by
  rw [releaseRecord_eq, if_pos h]
  exact settleRecord_listed { r with released := true } s

theorem releaseRecord_port (r : Record) (s : State) :
    s.portAfterRemoval (releaseRecord r s) (fun seq => r.seq = seq ∧ r.releasable = true ∧ r.final = true) := by
  rw [releaseRecord_eq]
  split
  · refine portAfterRemoval_congr (fun seq => ?_) (settleRecord_port { r with released := true } s)
    have hreleasable : r.releasable = true := ‹_›
    simp only [hreleasable, true_and, eq_comm]
    rfl
  · exact portAfterRemoval_none rfl fun seq ⟨_, hreleasable, _⟩ => absurd hreleasable ‹_›

/-! ### The turns (R95, R100) -/

/-- The turns leave of each record what its own turn leaves. -/
theorem releaseTurns_log {newer : List Record} : ∀ (l done : List Record) {u : State}, LogSound u →
    u.log = done ++ (l ++ newer) →
    (l.foldl (fun s r => releaseRecord r s) u).log = done ++ (l.filterMap Record.atRelease ++ newer)
  | [], _, _, _, hl => hl
  | r :: l, done, u, hu, hl => by
    have ⟨_, hseqs, _⟩ := hu
    obtain ⟨hsound, -⟩ := releaseRecord_logKept (E := fun _ => False) (r := r) (by simp [hl]) hu
    have hturn : (releaseRecord r u).log = (done ++ r.atRelease.toList) ++ (l ++ newer) := by
      rw [releaseRecord_log hl hseqs, List.append_assoc]
      rfl
    rw [List.foldl_cons, releaseTurns_log l _ hsound hturn]
    cases h : r.atRelease <;> simp [h]

theorem releaseTurns_lists (l : List Record) (s : State) : ListsSlots s (l.foldl (fun s r => releaseRecord r s) s) :=
  ListsSlots.foldl (fun u r => releaseRecord_lists r u) l s

theorem releaseTurns_listed (h : r.releasable = true) : ∀ (l : List Record) (s : State), r ∈ l →
    r.slot ∈ (l.foldl (fun s r => releaseRecord r s) s).store.dirty
  | [], _, hr => absurd hr List.not_mem_nil
  | x :: l, s, hr => by
    rcases List.mem_cons.1 hr with rfl | hr
    · exact (releaseTurns_lists l _).dirty _ (releaseRecord_listed h s)
    · exact releaseTurns_listed h l _ hr

/-- The turns answer the ORDER that waits for a record that leaves. -/
theorem releaseTurns_port : ∀ (l : List Record) (s : State),
    s.portAfterRemoval (l.foldl (fun s r => releaseRecord r s) s)
      (fun seq => ∃ r ∈ l, r.seq = seq ∧ r.releasable = true ∧ r.final = true)
  | [], _ => portAfterRemoval_none rfl fun _ ⟨_, hmem, _⟩ => absurd hmem List.not_mem_nil
  | r :: l, s => portAfterRemoval_congr (fun seq => by simp)
      (portAfterRemoval_trans (releaseRecord_port r s) (releaseTurns_port l _))

/-! ### The records that a RELEASE names (R100) -/

theorem throughSeq_append {seq : Half} {newer : List Record} (hr : r.seq = seq) : ∀ {older : List Record},
    (∀ x ∈ older, x.seq ≠ seq) → throughSeq seq (older ++ r :: newer) = older ++ [r]
  | [], _ => if_pos hr
  | x :: older, h => by
    have hx : x.seq ≠ seq := h x List.mem_cons_self
    have hrest := throughSeq_append hr (newer := newer) fun y hy => h y (List.mem_cons_of_mem x hy)
    simp [throughSeq, hx, hrest]

/-- A RELEASE of a number that a record carries gives each record through it its turn. -/
theorem releaseThrough_found {older newer : List Record} {seq : Half} (hl : s.log = older ++ r :: newer)
    (hn : (s.log.map (·.seq)).Nodup) (hseq : r.seq = seq) :
    releaseThrough seq s = ((older ++ [r]).foldl (fun s r => releaseRecord r s) s, .ok) := by
  have hfound : s.recordOf seq = some r := hseq ▸ recordOf_of_mem hn (by simp [hl])
  have holder : ∀ x ∈ older, x.seq ≠ seq := fun x hx he => by
    rw [hl, List.map_append, List.map_cons, List.nodup_append] at hn
    obtain ⟨-, -, hdisjoint⟩ := hn
    exact hdisjoint _ (List.mem_map_of_mem hx) _ List.mem_cons_self (he.trans hseq.symm)
  simp [releaseThrough, hfound, hl, throughSeq_append hseq holder]

theorem releaseThrough_notFound {seq : Half} (h : ∀ r ∈ s.log, r.seq ≠ seq) :
    releaseThrough seq s = (s, .notFound) := by
  have hnone : s.recordOf seq = none := List.find?_eq_none.2 fun r hr => by simpa using h r hr
  simp [releaseThrough, hnone]

/-- A RELEASE that is taken is the log's answer to it (R100). -/
theorem exec_release {address : Half} {payload : List Byte} (h : s.takesMessage) (ha : s.answersTo address)
    (hn : 2 ≤ payload.length) (hl : payload.length ≤ 120) {t : State} {code : ResultCode}
    (hf : releaseThrough (BitVec.ofNat 16 (natAt payload 0 2)) (bringOnline s.line.setting s) = (t, code)) :
    exec (.release address payload) s = .next (endEvent (t.replying address 0x80 [0x15, code.code])) :=
  exec_acked (f := releaseMessage) rfl h ha hl rfl (by decide) rfl hn hf

end

/-- Settles O38: the records through the named one have their turns, and the reply ends the event. -/
theorem releaseReleasesCollected : Obligations.ReleaseReleasesCollected := by
  intro address payload s h hs ha hsound hn hl u through
  have hlog : u.log = s.log := by simp [u]
  have husound : LogSound u := logSound_of_log hlog hsound
  refine ⟨fun hnone => ?_, fun older newer r hsplit hseq => ?_⟩
  · have hrefused := exec_release h ha hn hl (releaseThrough_notFound (s := u) (seq := through) (by rwa [hlog]))
    exact hrefused
  · have ⟨_, hseqs, _⟩ := husound
    have hfound := exec_release h ha hn hl (releaseThrough_found (hlog.trans hsplit) hseqs hseq)
    set v := (older ++ [r]).foldl (fun s r => releaseRecord r s) u with hv
    have hexec : exec (.release address payload) s = .next (endEvent (v.replying address 0x80 [0x15, 0x00])) := hfound
    have hlists : ListsSlots s v := (bringOnline_lists _ s).trans (releaseTurns_lists _ u)
    obtain ⟨hlisted, -⟩ := endEvent_replying_leaves hs hlists address 0x80 [0x15, 0x00]
    have hend := endEvent_replying hs hlists address 0x80 [0x15, 0x00]
    have hturns : v.log = (older ++ [r]).filterMap Record.atRelease ++ newer :=
      releaseTurns_log _ [] husound (by simp [hlog, hsplit])
    obtain ⟨hanswered, hstands⟩ := releaseTurns_port (older ++ [r]) u
    have hport : u.port = s.port := by simp [u]
    rw [hport, ← hv] at hanswered hstands
    have hgone : ∀ x ∈ older ++ [r], x.collected = true → x.released = false → x.final = true →
        ∃ y ∈ older ++ [r], y.seq = x.seq ∧ y.releasable = true ∧ y.final = true := fun x hx hc hr hf =>
      ⟨x, hx, rfl, (releasable_iff x).2 ⟨hc, hr⟩, hf⟩
    have hkept : (releaseThrough through u).1 = v := by rw [releaseThrough_found (hlog.trans hsplit) hseqs hseq]
    refine ⟨_, hexec, ?_, fun x hx hc hr => hlisted _ (releaseTurns_listed ((releasable_iff x).2 ⟨hc, hr⟩) _ u hx), ?_,
      fun x hx slot b w k hc hr hf hb => ?_, fun hn => ?_, ?_, ?_, ?_⟩ <;> rw [hend]
    · simp only [startWrite_keeps, replying_keeps]
      exact hturns
    · simp only [startWrite_keeps]
      exact replying_line (by simp [← hkept]) _ _ _
    · simpa using hanswered x.seq slot b w k hb (hgone x hx hc hr hf)
    · refine Eq.trans (by simp) (hstands fun seq slot b w k hb hg => ?_)
      obtain ⟨y, hy, rfl, hreleasable, hf⟩ := hg
      obtain ⟨hc, hr⟩ := (releasable_iff y).1 hreleasable
      exact hn y hy slot b w k hc hr hf hb
    · simp [← hkept]
    · simp [← hkept]
    · simp [← hkept, u]

end Sys2Proof.Machine
end

