-- ==== Sys2Proof/Proofs/MinuteLaws.lean ====
section
/-!
SUPPORT. The shares of a minute (R123): each is taken once, none takes a slot off the list or clears a detail flag, and
each leaves the records that are not its own.
-/
namespace Sys2Proof.Machine

/-! ### The shares of a minute, each once (R123) -/

/-- The shares asked for first, and the others after them: each share once. -/
theorem agenda_perm : ∀ (order rest : List MinuteTaker), (agenda order rest).Perm rest
  | [], rest => .refl rest
  | t :: order, rest => by
    unfold agenda
    split
    · exact ((agenda_perm order _).cons t).trans (List.perm_cons_erase ‹_›).symm
    · exact agenda_perm order rest

theorem takers_nodup {s : State} (h : LogSound s) : s.takers.Nodup := by
  obtain ⟨-, hseqs, -⟩ := h
  have hpreviews : ((s.log.filter Record.isPreview).map (fun r => MinuteTaker.preview r.seq)).Nodup := by
    have hsub := hseqs.sublist ((List.filter_sublist (p := Record.isPreview)).map (·.seq))
    rw [← Function.comp_def MinuteTaker.preview, ← List.map_map]
    exact hsub.map fun _ _ he => MinuteTaker.preview.inj he
  refine List.Nodup.append (by decide) hpreviews fun t hblock hrecord => ?_
  obtain ⟨r, -, rfl⟩ := List.mem_map.1 hrecord
  simp at hblock

theorem preview_mem_takers {s : State} {seq : Half} :
    .preview seq ∈ s.takers ↔ ∃ r ∈ s.log, r.state = .preview ∧ r.seq = seq := by
  simp [State.takers, isPreview_iff, and_assoc]

theorem mem_boughtSeqs {s : State} {seq : Half} :
    seq ∈ s.boughtSeqs ↔ ∃ r ∈ s.log, r.isBought = true ∧ r.seq = seq := by
  simp [State.boughtSeqs, and_assoc]

theorem boughtSeqs_nodup {s : State} (h : LogSound s) : s.boughtSeqs.Nodup := by
  obtain ⟨-, hseqs, -⟩ := h
  exact hseqs.sublist (List.filter_sublist.map _)

/-! ### What an event adds (R133, R161) -/

/-- From `s` to `t` slots join the dirty list, no write begins, and no detail flag is cleared. -/
structure EventAdds (s t : State) : Prop where
  lists : ListsSlots s t
  detail : ∀ k, s.status.detail.getLsbD k = true → t.status.detail.getLsbD k = true

namespace EventAdds

variable {s t u : State}

theorem trans (h : EventAdds s t) (h' : EventAdds t u) : EventAdds s u where
  lists := h.lists.trans h'.lists
  detail k hk := h'.detail k (h.detail k hk)

theorem of_lists (h : ListsSlots s t) (hstatus : t.status = s.status) : EventAdds s t where
  lists := h
  detail k hk := by rwa [hstatus]

theorem of_kept (h : t.store = s.store ∧ t.port = s.port ∧ t.status = s.status) : EventAdds s t := by
  obtain ⟨hstore, hport, hstatus⟩ := h
  exact of_lists (.of_kept ⟨hstore, hport⟩) hstatus

theorem refl (s : State) : EventAdds s s := of_kept ⟨rfl, rfl, rfl⟩

theorem listSlot (h : EventAdds s t) (k : Nat) : EventAdds s (listSlot k t) :=
  h.trans (of_lists (listSlot_lists k t) (by simp))

theorem report (h : EventAdds s t) (f : DetailFlag) : EventAdds s (report f t) :=
  h.trans ⟨(ListsSlots.refl t).report f, report_detail f t⟩

theorem foldl {α : Type} {f : State → α → State} (hf : ∀ u a, EventAdds u (f u a)) :
    ∀ (l : List α) (s : State), EventAdds s (l.foldl f s)
  | [], s => refl s
  | a :: l, s => (hf s a).trans (foldl hf l (f s a))

end EventAdds

section
variable (s : State) (r : Record)

theorem setFolio_adds (f : Folio) : EventAdds s (setFolio f s) := .of_lists (setFolio_lists f s) (by simp)

theorem settleRecord_adds : EventAdds s (settleRecord r s) := .of_lists (settleRecord_lists r s) (by simp)

theorem judgeReached_adds (a b : Bool) : EventAdds s (judgeReached a b s) :=
  ⟨judgeReached_lists a b s, (judgeReached_grows a b s).detail⟩

theorem handEndedTitle_adds (title : Word) : EventAdds s (handEndedTitle title s) := .of_kept (by simp)

theorem grantCharge_adds (f : Folio) (c : Charge) : EventAdds s (grantCharge f c s) := by
  unfold grantCharge
  split
  · exact ((EventAdds.refl s).report _).trans (setFolio_adds _ f)
  · exact setFolio_adds s f

theorem applyLock_adds (l : Lock) : EventAdds s (applyLock l s) := by
  have hwritten : EventAdds s { s with lock := l } := .of_kept ⟨rfl, rfl, rfl⟩
  have hlisted : EventAdds s (if l.stored = s.lock.stored then { s with lock := l }
      else listSlot lockSlot { s with lock := l }) := by
    split
    · exact hwritten
    · exact hwritten.listSlot _
  unfold applyLock
  dsimp only
  split
  · exact hlisted
  · exact hlisted.trans ⟨judgeBoth_lists _, (judgeBoth_grows _).detail⟩

theorem lockMinute_adds : EventAdds s (lockMinute s) := by
  unfold lockMinute
  (repeat' split)
  · exact .refl s
  · exact ((EventAdds.refl s).report .unlockExpired).trans (applyLock_adds _ _)
  · exact .of_kept ⟨rfl, rfl, rfl⟩
  · exact applyLock_adds s _
  · exact .of_kept ⟨rfl, rfl, rfl⟩

theorem clockMinute_adds : EventAdds s (clockMinute s) := by
  unfold clockMinute
  split
  · exact EventAdds.trans (t := { s with clock := { s.clock with minute := 0, day := s.clock.day + 1 } })
      (.of_kept ⟨rfl, rfl, rfl⟩) (setFolio_adds _ _)
  · exact .of_kept ⟨rfl, rfl, rfl⟩

theorem watchdogMinute_adds : EventAdds s (watchdogMinute s) := by
  have hwritten : EventAdds s { s with line := { s.line with watchdog := 0, online := false } } :=
    .of_kept ⟨rfl, rfl, rfl⟩
  unfold watchdogMinute
  (repeat' split)
  · exact hwritten.report .lineLost
  · exact .of_kept ⟨rfl, rfl, rfl⟩
  · exact .refl s

theorem leavePreview_adds : EventAdds s (leavePreview r s) :=
  (settleRecord_adds s r).trans (judgeReached_adds _ _ _)

theorem endAuto_adds : EventAdds s (endAuto r s) := by
  unfold endAuto
  (repeat' split)
  · exact leavePreview_adds s _
  · exact leavePreview_adds s _
  · exact leavePreview_adds s _
  · exact ((grantCharge_adds s _ _).report .charged).trans (leavePreview_adds _ _)

theorem countPreview_adds : EventAdds s (countPreview r s) := by
  have hreplaced : EventAdds s (replaceRecord { r with used := r.used + 1 } s) := .of_kept ⟨rfl, rfl, rfl⟩
  have hcounted := hreplaced.listSlot r.slot
  unfold countPreview
  dsimp only
  (repeat' split)
  · exact hcounted
  · exact hcounted.trans (leavePreview_adds _ _)
  · exact hcounted.trans (endAuto_adds _ _)

theorem previewMinute_adds (seq : Half) : EventAdds s (previewMinute seq s) := by
  unfold previewMinute
  (repeat' split)
  · exact countPreview_adds s _
  · exact .refl s
  · exact .refl s

theorem endWindow_adds : EventAdds s (endWindow r s) :=
  (((EventAdds.refl s).report .windowEnded).trans (settleRecord_adds _ _)).trans (handEndedTitle_adds _ _)

theorem windowMinute_adds (seq : Half) : EventAdds s (windowMinute seq s) := by
  have hreplaced : ∀ r', EventAdds s (replaceRecord r' s) := fun r' => .of_kept ⟨rfl, rfl, rfl⟩
  unfold windowMinute
  dsimp only
  (repeat' split)
  · exact .refl s
  · exact endWindow_adds s _
  · exact (hreplaced _).listSlot _
  · exact hreplaced _
  · exact .refl s

theorem windowsMinute_adds (bought : List Half) : EventAdds s (windowsMinute bought s) :=
  EventAdds.foldl (fun u seq => windowMinute_adds u seq) bought s

theorem takeMinute_adds (bought : List Half) (taker : MinuteTaker) : EventAdds s (takeMinute bought s taker) := by
  cases taker with
  | clock => exact clockMinute_adds s
  | keys => exact .of_kept ⟨rfl, rfl, rfl⟩
  | watchdog => exact watchdogMinute_adds s
  | lock => exact lockMinute_adds s
  | windows => exact windowsMinute_adds s bought
  | preview seq => exact previewMinute_adds s seq

theorem minute_adds (order : List MinuteTaker) : EventAdds s (minute order s) :=
  EventAdds.trans (t := { s with seconds := 0 }) (.of_kept ⟨rfl, rfl, rfl⟩)
    (EventAdds.foldl (takeMinute_adds · s.boughtSeqs) _ _)

end

/-! ### The records that a share leaves -/

section
variable {s u : State} {r x : Record} {seq : Half}

theorem seq_of_recordOf (h : s.recordOf seq = some r) : r.seq = seq := by
  simpa using List.find?_some h

theorem mem_leavePreview_of_ne (hx : x ∈ s.log) (hne : x.seq ≠ r.seq) : x ∈ (leavePreview r s).log :=
  (judgeReached_grows _ _ _).log.subset (mem_settleRecord_of_ne hx hne)

theorem mem_countPreview_of_ne (hx : x ∈ s.log) (hne : x.seq ≠ r.seq) : x ∈ (countPreview r s).log := by
  have hcounted : x ∈ (listSlot r.slot (replaceRecord { r with used := r.used + 1 } s)).log := by
    simpa using mem_replaceRecord_of_ne (r := { r with used := r.used + 1 }) hx hne
  unfold countPreview endConfirm endAuto
  dsimp only
  (repeat' split)
  · exact hcounted
  · exact mem_leavePreview_of_ne hcounted hne
  · exact mem_leavePreview_of_ne hcounted hne
  · exact mem_leavePreview_of_ne hcounted hne
  · exact mem_leavePreview_of_ne hcounted hne
  · exact mem_leavePreview_of_ne (by simpa using hcounted) hne

/-- A preview minute leaves every record that is not in PREVIEW. -/
theorem mem_previewMinute (h : LogSound s) (hx : x ∈ s.log) (hstate : x.state ≠ .preview) :
    x ∈ (previewMinute seq s).log := by
  unfold previewMinute
  split
  · rename_i r hr
    split
    · rename_i hcounts
      simp only [State.countsPreview, Bool.and_eq_true, isPreview_iff] at hcounts
      obtain ⟨hpreview, -⟩ := hcounts
      refine mem_countPreview_of_ne hx fun he => hstate ?_
      rw [h.eq_of_seq hx (mem_of_recordOf hr) he]
      exact hpreview
    · exact hx
  · exact hx

/-- The record as a window minute that leaves minutes leaves it (R92). -/
def Record.withWindow (r : Record) (w : Nat) : Record := { r with state := .bought w }

/-- The window minute of a BOUGHT record: its last one ends it, and any other leaves one minute less. -/
theorem windowMinute_bought {w : Nat} (h : LogSound s) (hr : r ∈ s.log) (hstate : r.state = .bought w) :
    windowMinute r.seq s =
      if w - 1 = 0 then endWindow r s
      else if (w - 1) % 15 = 0 then listSlot r.slot (replaceRecord (r.withWindow (w - 1)) s)
      else replaceRecord (r.withWindow (w - 1)) s := by
  obtain ⟨-, hseqs, -⟩ := h
  have hbought : r.isBought = true := (isBought_iff r).2 ⟨w, hstate⟩
  have hwindow : r.window = w := by simp [Record.window, hstate]
  unfold windowMinute
  rw [recordOf_of_mem hseqs hr]
  simp only [hbought, if_true, hwindow]
  rfl

/-- A window minute of no BOUGHT record does nothing. -/
theorem windowMinute_other (h : ∀ x ∈ s.log, x.seq = seq → x.isBought = false) : windowMinute seq s = s := by
  unfold windowMinute
  split
  · rfl
  · rename_i r hr
    simp [h r (mem_of_recordOf hr) (seq_of_recordOf hr)]

theorem mem_windowMinute_of_ne (hx : x ∈ s.log) (hne : x.seq ≠ seq) : x ∈ (windowMinute seq s).log := by
  have hreplaced : ∀ {r : Record}, r.seq = seq → x ∈ (replaceRecord r s).log := fun hr =>
    mem_replaceRecord_of_ne hx (hr ▸ hne)
  unfold windowMinute endWindow
  dsimp only
  split
  · exact hx
  · rename_i r hr
    have hseq := seq_of_recordOf hr
    (repeat' split)
    · simpa using mem_settleRecord_of_ne (r := { r with state := .ended }) (s := report .windowEnded s) hx (hseq ▸ hne)
    · simpa using hreplaced (r := { r with state := .bought (r.window - 1) }) hseq
    · exact hreplaced hseq
    · exact hx

/-- A window minute leaves every record but the BOUGHT one that carries its number. -/
theorem mem_windowMinute (h : LogSound s) (hx : x ∈ s.log) (hother : x.seq ≠ seq ∨ x.isBought = false) :
    x ∈ (windowMinute seq s).log := by
  by_cases hseq : x.seq = seq
  · rwa [windowMinute_other fun y hy he => ?_]
    rw [h.eq_of_seq hy hx (he.trans hseq.symm)]
    exact hother.resolve_left (not_not_intro hseq)
  · exact mem_windowMinute_of_ne hx hseq

theorem windowMinute_logSound (h : LogSound s) (seq : Half) : LogSound (windowMinute seq s) :=
  (windowMinute_logKept (E := fun _ => False) seq s h).1

/-- The window minutes of a minute leave every record that is not among them. -/
theorem mem_windowsMinute : ∀ (bought : List Half) {s : State}, LogSound s → x ∈ s.log →
    (x.seq ∉ bought ∨ x.isBought = false) → x ∈ (windowsMinute bought s).log
  | [], _, _, hx, _ => hx
  | seq :: bought, s, h, hx, hother => by
    refine mem_windowsMinute bought (windowMinute_logSound h seq) (mem_windowMinute h hx ?_) ?_
    · exact hother.imp_left fun hn he => hn (he ▸ List.mem_cons_self)
    · exact hother.imp_left fun hn hmem => hn (List.mem_cons_of_mem seq hmem)

theorem takeMinute_logSound (h : LogSound s) (bought : List Half) (taker : MinuteTaker) :
    LogSound (takeMinute bought s taker) :=
  (takeMinute_logKept (E := fun _ => False) bought s taker h).1

theorem mem_lockMinute (hx : x ∈ s.log) : x ∈ (lockMinute s).log := by
  have happlied : ∀ l (u : State), x ∈ u.log → x ∈ (applyLock l u).log := fun l u hu => by
    unfold applyLock
    dsimp only
    (repeat' split)
    · exact hu
    · simpa using hu
    · exact (judgeBoth_grows _).log.subset hu
    · exact (judgeBoth_grows _).log.subset (by simpa using hu)
  unfold lockMinute expireUnlock endLockout
  (repeat' split)
  · exact hx
  · exact happlied _ _ hx
  · exact hx
  · exact happlied _ _ hx
  · exact hx

/-- A share other than the windows' leaves every record that is not in PREVIEW; the windows' leaves every record that is
not BOUGHT. -/
theorem mem_takeMinute {bought : List Half} {taker : MinuteTaker} (h : LogSound s) (hx : x ∈ s.log)
    (hstate : x.state ≠ .preview) (hother : taker ≠ .windows ∨ x.isBought = false) :
    x ∈ (takeMinute bought s taker).log := by
  cases taker with
  | clock => simpa [takeMinute] using hx
  | keys => simpa [takeMinute] using hx
  | watchdog => simpa [takeMinute] using hx
  | lock => exact mem_lockMinute hx
  | windows => exact mem_windowsMinute bought h hx (.inr (hother.resolve_left (not_not_intro rfl)))
  | preview seq => exact mem_previewMinute h hx hstate

/-- The shares of a minute, one after the other. -/
def takeMinutes (bought : List Half) (takers : List MinuteTaker) (s : State) : State :=
  takers.foldl (takeMinute bought) s

/-- Without the windows' share, every record that is not in PREVIEW stays; with it, every one that is not BOUGHT
either. -/
theorem mem_takeMinutes {bought : List Half} : ∀ (takers : List MinuteTaker) {s : State}, LogSound s → x ∈ s.log →
    x.state ≠ .preview → (.windows ∉ takers ∨ x.isBought = false) → x ∈ (takeMinutes bought takers s).log
  | [], _, _, hx, _, _ => hx
  | t :: takers, s, h, hx, hstate, hother => by
    refine mem_takeMinutes takers (takeMinute_logSound h bought t) (mem_takeMinute h hx hstate ?_) hstate ?_
    · exact hother.imp_left fun hn he => hn (he ▸ List.mem_cons_self)
    · exact hother.imp_left fun hn hmem => hn (List.mem_cons_of_mem t hmem)

end

end Sys2Proof.Machine
end

