-- ==== Sys2Proof/Proofs/MinuteWindows.lean ====
section
/-!
SUPPORT. The windows at a minute of the timebase (R92, R136), whatever else the minute ends.
-/
namespace Sys2Proof.Machine

/-! ### The windows at a minute, in any order of the shares (R92, R136) -/

/-- What a minute owes a record that is BOUGHT with `w` minutes when it comes: the record loses one, or ends, and its
slot is listed at a multiple of 15. -/
structure WindowCounted (r : Record) (w : Nat) (t : State) : Prop where
  counted : 2 ≤ w → r.withWindow (w - 1) ∈ t.log
  ended : w ≤ 1 → r.released = false → { r with state := .ended } ∈ t.log
  reported : w ≤ 1 → t.status.detail.getLsbD 15 = true
  listed : (w - 1) % 15 = 0 → r.slot ∈ t.store.dirty

section
variable {s t u : State} {r : Record} {w : Nat}

/-- What was owed stays done while the records with other numbers, and the record itself where it is not in PREVIEW,
stay in the log. -/
theorem WindowCounted.stays (h : WindowCounted r w u) (hadds : EventAdds u t)
    (hlog : ∀ x ∈ u.log, x.seq = r.seq → x.state ≠ .preview → x ∈ t.log) : WindowCounted r w t where
  counted hw := hlog _ (h.counted hw) rfl (by simp [Record.withWindow])
  ended hw hr := hlog _ (h.ended hw hr) rfl (by simp)
  reported hw := hadds.detail 15 (h.reported hw)
  listed hw := hadds.lists.dirty _ (h.listed hw)

/-- The record's own window minute. -/
theorem windowMinute_counts (h : LogSound s) (hr : r ∈ s.log) (hstate : r.state = .bought w) :
    WindowCounted r w (windowMinute r.seq s) := by
  have hreplaced : r.withWindow (w - 1) ∈ (replaceRecord (r.withWindow (w - 1)) s).log := mem_replaceRecord hr rfl
  rw [windowMinute_bought h hr hstate]
  split
  · have hadds := handEndedTitle_adds (settleRecord { r with state := .ended } (report .windowEnded s)) r.title
    have hsettled := settleRecord_adds (report .windowEnded s) { r with state := .ended }
    refine ⟨fun hw => by omega, fun _ hreleased => ?_, fun _ => ?_, fun _ => ?_⟩
    · have hmem := mem_settleRecord (r := { r with state := .ended }) (s := report .windowEnded s) hr rfl
        (by simp [hreleased])
      simpa [endWindow] using hmem
    · exact hadds.detail 15 (hsettled.detail 15 (report_sets .windowEnded s))
    · exact hadds.lists.dirty _ (settleRecord_listed { r with state := .ended } _)
  · split
    · exact ⟨fun _ => by simpa using hreplaced, fun hw => by omega, fun hw => by omega, fun _ => mem_listSlot _ _⟩
    · exact ⟨fun _ => hreplaced, fun hw => by omega, fun hw => by omega, fun hw => absurd hw ‹_›⟩

/-- The windows' share of a minute. -/
theorem windowsMinute_counts (hstate : r.state = .bought w) {bought : List Half} (h : LogSound s) (hr : r ∈ s.log)
    (hmem : r.seq ∈ bought) (hn : bought.Nodup) : WindowCounted r w (windowsMinute bought s) := by
  induction bought generalizing s with
  | nil => exact absurd hmem List.not_mem_nil
  | cons seq bought ih =>
    obtain ⟨hnot, hn⟩ := List.nodup_cons.1 hn
    have hsound := windowMinute_logSound h seq
    by_cases hseq : seq = r.seq
    · subst hseq
      refine (windowMinute_counts h hr hstate).stays (windowsMinute_adds _ bought) fun x hx hxseq _ => ?_
      exact mem_windowsMinute bought hsound hx (.inl (hxseq ▸ hnot))
    · have hstays := mem_windowMinute_of_ne (seq := seq) hr fun he => hseq he.symm
      have hrest := (List.mem_cons.1 hmem).resolve_left fun he => hseq he.symm
      exact ih hsound hstays hrest hn

/-- All the shares of a minute, the windows' once among them. -/
theorem takeMinutes_counts {bought : List Half} (hstate : r.state = .bought w) (hmem : r.seq ∈ bought)
    (hn : bought.Nodup) {takers : List MinuteTaker} (h : LogSound s) (hr : r ∈ s.log) (hwindows : .windows ∈ takers)
    (hnodup : takers.Nodup) : WindowCounted r w (takeMinutes bought takers s) := by
  induction takers generalizing s with
  | nil => exact absurd hwindows List.not_mem_nil
  | cons t takers ih =>
    obtain ⟨hnot, hnodup⟩ := List.nodup_cons.1 hnodup
    have hsound := takeMinute_logSound h bought t
    by_cases ht : t = .windows
    · subst ht
      refine (windowsMinute_counts hstate h hr hmem hn).stays
        (EventAdds.foldl (takeMinute_adds · bought) takers _) fun x hx _ hx' => ?_
      exact mem_takeMinutes takers hsound hx hx' (.inl hnot)
    · have hstays : r ∈ (takeMinute bought s t).log := mem_takeMinute h hr (by simp [hstate]) (.inl ht)
      have hrest := (List.mem_cons.1 hwindows).resolve_left fun he => ht he.symm
      exact ih hsound hstays hrest hnodup

/-- The event of a minute in a part that runs. -/
theorem exec_minute (order : List MinuteTaker) (hphase : s.phase = .running) (hs : s.settled = true) :
    exec (.minuteOfTheTimebase order) s = .next (startWrite (minute order s)) := by
  have hlists := (minute_adds s order).lists
  have hend : endEvent (minute order s) = startWrite (minute order s) := endEvent_writing fun hb => by
    rw [hlists.write]
    exact write_of_settled hs (hlists.busy hb)
  rw [← hend]
  exact congrArg _ (if_pos hphase)

theorem minute_counts (h : LogSound s) (order : List MinuteTaker) (hr : r ∈ s.log) (hstate : r.state = .bought w) :
    WindowCounted r w (minute order s) := by
  have hperm := agenda_perm order s.takers
  refine takeMinutes_counts hstate (mem_boughtSeqs.2 ⟨r, hr, (isBought_iff r).2 ⟨w, hstate⟩, rfl⟩) (boughtSeqs_nodup h)
    (s := { s with seconds := 0 }) h hr ?_ ?_
  · exact hperm.mem_iff.2 (by simp [State.takers])
  · exact hperm.nodup_iff.2 (takers_nodup h)

theorem mem_minute_of_final (h : LogSound s) (order : List MinuteTaker) (hr : r ∈ s.log) (hf : r.final = true) :
    r ∈ (minute order s).log := by
  have hactive : r.isPreview = false ∧ r.isBought = false := by
    simpa [Record.final] using hf
  obtain ⟨hpreview, hbought⟩ := hactive
  exact mem_takeMinutes _ (s := { s with seconds := 0 }) h hr
    (fun he => by simp [(isPreview_iff r).2 he] at hpreview) (.inr hbought)

end

end Sys2Proof.Machine
end

