-- ==== Sys2Proof/Proofs/QuietMinute.lean ====
section
/-!
SUPPORT. A minute that ends nothing by which paths judge (R89, R92): the windows and the preview minutes are all that
happens to the log, in any order of the shares.
-/
namespace Sys2Proof.Machine

section
variable {s t u : State} {r x : Record} {seq : Half} {rest : List MinuteTaker}

/-! ### What the shares leave of a record -/

/-- What is left of a record when the shares in `rest` are still to come: its own share may have been taken. -/
def State.dueMinute (s : State) (rest : List MinuteTaker) (r : Record) : Record :=
  match r.state with
  | .preview => if .preview r.seq ∈ rest then r else if s.watched r.title then { r with used := r.used + 1 } else r
  | .bought w => if .windows ∈ rest then r else r.withWindow (w - 1)
  | _ => r

theorem dueMinute_preview (h : r.state = .preview) :
    s.dueMinute rest r =
      if .preview r.seq ∈ rest then r else if s.watched r.title then { r with used := r.used + 1 } else r := by
  simp [State.dueMinute, h]

theorem dueMinute_bought {w : Nat} (h : r.state = .bought w) :
    s.dueMinute rest r = if .windows ∈ rest then r else r.withWindow (w - 1) := by
  simp [State.dueMinute, h]

theorem dueMinute_final (h : r.final = true) : s.dueMinute rest r = r := by
  have hactive : r.isPreview = false ∧ r.isBought = false := by simpa [Record.final] using h
  obtain ⟨hpreview, hbought⟩ := hactive
  unfold State.dueMinute
  split
  · exact absurd ((isPreview_iff r).2 ‹_›) (by simp [hpreview])
  · exact absurd ((isBought_iff r).2 ⟨_, ‹_›⟩) (by simp [hbought])
  · rfl

/-- A record is in PREVIEW, BOUGHT or final (R84). -/
theorem record_cases (r : Record) : r.state = .preview ∨ (∃ w, r.state = .bought w) ∨ r.final = true := by
  unfold Record.final Record.isPreview Record.isBought
  cases r.state <;> simp

theorem dueMinute_seq (s : State) (rest : List MinuteTaker) (r : Record) : (s.dueMinute rest r).seq = r.seq := by
  unfold State.dueMinute
  (repeat' split) <;> rfl

/-- A block's share other than the windows' is no record's. -/
theorem dueMinute_cons_block {taker : MinuteTaker} (hw : taker ≠ .windows) (hp : ∀ q, taker ≠ .preview q) :
    s.dueMinute (taker :: rest) r = s.dueMinute rest r := by
  unfold State.dueMinute
  simp [hw.symm, fun q => (hp q).symm]

/-! ### The windows' share (R92) -/

/-- A window minute that leaves minutes writes its record alone. -/
theorem windowMinute_quiet {w : Nat} (h : LogSound s) (hr : r ∈ s.log) (hstate : r.state = .bought w) (hw : 2 ≤ w) :
    let t := windowMinute r.seq s
    t.log = s.log.map (fun x => if x.seq = r.seq then r.withWindow (w - 1) else x) ∧ t.pathA = s.pathA ∧
      t.pathB = s.pathB ∧ t.nextSeq = s.nextSeq ∧ t.previewed = s.previewed ∧ t.lock = s.lock := by
  have hlog : (replaceRecord (r.withWindow (w - 1)) s).log =
      s.log.map (fun x => if x.seq = r.seq then r.withWindow (w - 1) else x) := rfl
  rw [windowMinute_bought h hr hstate, if_neg (by omega)]
  split <;> simp [hlog]

/-- The windows' share where every window keeps minutes. -/
theorem windowsMinute_quiet {bought : List Half} (h : LogSound s) (hn : bought.Nodup)
    (hleft : ∀ x ∈ s.log, x.seq ∈ bought → ∃ w, x.state = .bought w ∧ 2 ≤ w) :
    let t := windowsMinute bought s
    t.log = s.log.map (fun x => if x.seq ∈ bought then x.withWindow (x.window - 1) else x) ∧ t.pathA = s.pathA ∧
      t.pathB = s.pathB ∧ t.nextSeq = s.nextSeq ∧ t.previewed = s.previewed ∧ t.lock = s.lock := by
  induction bought generalizing s with
  | nil => simp [windowsMinute]
  | cons seq bought ih =>
    obtain ⟨hnot, hn⟩ := List.nodup_cons.1 hn
    have hone : (windowMinute seq s).log =
          s.log.map (fun x => if x.seq = seq then x.withWindow (x.window - 1) else x) ∧
        (windowMinute seq s).pathA = s.pathA ∧ (windowMinute seq s).pathB = s.pathB ∧
        (windowMinute seq s).nextSeq = s.nextSeq ∧ (windowMinute seq s).previewed = s.previewed ∧
        (windowMinute seq s).lock = s.lock := by
      by_cases hfound : ∃ r ∈ s.log, r.seq = seq
      · obtain ⟨r, hr, rfl⟩ := hfound
        obtain ⟨w, hstate, hw⟩ := hleft r hr List.mem_cons_self
        obtain ⟨hlog, hkept⟩ := windowMinute_quiet h hr hstate hw
        refine ⟨hlog.trans (List.map_congr_left fun x hx => ?_), hkept⟩
        split
        · obtain rfl := h.eq_of_seq hx hr ‹_›
          simp [Record.window, hstate]
        · rfl
      · push Not at hfound
        rw [windowMinute_other fun x hx he => absurd he (hfound x hx)]
        refine ⟨?_, rfl, rfl, rfl, rfl, rfl⟩
        rw [List.map_congr_left fun x hx => if_neg (hfound x hx), List.map_id']
    obtain ⟨hlog, ha, hb, hnext, hprev, hlock⟩ := hone
    have hrest := ih (windowMinute_logSound h seq) hn fun x hx hmem => by
      rw [hlog] at hx
      obtain ⟨y, hy, rfl⟩ := List.mem_map.1 hx
      split at hmem
      · exact absurd (‹y.seq = seq› ▸ hmem) hnot
      · rw [if_neg ‹_›]
        exact hleft y hy (List.mem_cons_of_mem seq hmem)
    obtain ⟨hlog', ha', hb', hnext', hprev', hlock'⟩ := hrest
    refine ⟨?_, ha'.trans ha, hb'.trans hb, hnext'.trans hnext, hprev'.trans hprev, hlock'.trans hlock⟩
    refine Eq.trans hlog' ?_
    rw [hlog, List.map_map]
    refine List.map_congr_left fun x _ => ?_
    by_cases hx : x.seq = seq
    · have hnot' : x.seq ∉ bought := hx ▸ hnot
      simp [hx, Record.withWindow, hnot]
    · simp [hx]

/-! ### The preview minutes (R89) -/

theorem watched_iff (hpaths : u.pathA = s.pathA ∧ u.pathB = s.pathB) (hstate : r.state = .preview) :
    u.countsPreview r = s.watched r.title := by
  obtain ⟨ha, hb⟩ := hpaths
  rw [Bool.eq_iff_iff]
  simp [State.countsPreview, State.watched, Path.previews, (isPreview_iff r).2 hstate, ha, hb]

/-- A preview minute that leaves minutes counts one for its record and lists its slot. -/
theorem countPreview_quiet (h : r.used + 1 < r.limit) (s : State) :
    countPreview r s = listSlot r.slot (replaceRecord { r with used := r.used + 1 } s) := if_pos h

/-- The preview minute of a record in PREVIEW, that some path watches or none. -/
theorem previewMinute_eq (h : LogSound s) (hr : r ∈ s.log) :
    previewMinute r.seq s = if s.countsPreview r then countPreview r s else s := by
  obtain ⟨-, hseqs, -⟩ := h
  unfold previewMinute
  rw [recordOf_of_mem hseqs hr]

/-! ### The minute, share by share -/

/-- No share of the minute ends anything by which paths judge: no unlock or lockout, no window and no preview. -/
structure EndsNothing (s : State) : Prop where
  lock : s.lock.state = .locked ∨ 2 ≤ s.lock.minutes
  windows : ∀ r w, r ∈ s.log → r.state = .bought w → 2 ≤ w
  previews : ∀ r ∈ s.log, r.state = .preview → s.watched r.title = true → r.used + 1 < r.limit

/-- How far a minute has come that ends nothing, with the shares in `rest` still to come. -/
structure QuietMinute (s : State) (rest : List MinuteTaker) (u : State) : Prop where
  sound : LogSound u
  log : u.log = s.log.map (s.dueMinute rest)
  paths : u.pathA = s.pathA ∧ u.pathB = s.pathB
  nextSeq : u.nextSeq = s.nextSeq
  previewed : u.previewed = s.previewed
  lock : .lock ∈ rest → u.lock = s.lock
  listed : ∀ r ∈ s.log, r.state = .preview → s.watched r.title = true → .preview r.seq ∉ rest → r.slot ∈ u.store.dirty

/-- A share that changes nothing of the records. -/
theorem QuietMinute.block {taker : MinuteTaker} {bought : List Half} (h : QuietMinute s (taker :: rest) u)
    (hw : taker ≠ .windows) (hp : ∀ q, taker ≠ .preview q)
    (hkept : let t := takeMinute bought u taker
      t.log = u.log ∧ t.pathA = u.pathA ∧ t.pathB = u.pathB ∧ t.nextSeq = u.nextSeq ∧ t.previewed = u.previewed)
    (hlock : .lock ∈ rest → (takeMinute bought u taker).lock = u.lock) :
    QuietMinute s rest (takeMinute bought u taker) := by
  obtain ⟨hlog, ha, hb, hnext, hprev⟩ := hkept
  obtain ⟨hsa, hsb⟩ := h.paths
  refine ⟨takeMinute_logSound h.sound bought taker, ?_, ⟨ha.trans hsa, hb.trans hsb⟩, hnext.trans h.nextSeq,
    hprev.trans h.previewed, fun hmem => (hlock hmem).trans (h.lock (List.mem_cons_of_mem taker hmem)),
    fun r hr hstate hwatched hnot => ?_⟩
  · rw [hlog, h.log]
    exact List.map_congr_left fun r _ => dueMinute_cons_block hw hp
  · refine (takeMinute_adds u bought taker).lists.dirty _ (h.listed r hr hstate hwatched fun hmem => ?_)
    exact (List.mem_cons.1 hmem).elim (fun he => hp _ he.symm) hnot

/-- The lock unit's share where it ends nothing. -/
theorem QuietMinute.lockShare {bought : List Half} (h : QuietMinute s (.lock :: rest) u)
    (hlock : s.lock.state = .locked ∨ 2 ≤ s.lock.minutes) (hnot : .lock ∉ rest) :
    QuietMinute s rest (takeMinute bought u .lock) := by
  have hkept : ∃ l, lockMinute u = { u with lock := l } := by
    rw [← h.lock List.mem_cons_self] at hlock
    unfold lockMinute
    rcases hlock with hlocked | hminutes
    · exact ⟨u.lock, by rw [hlocked]⟩
    · rw [if_neg (by omega), if_neg (by omega)]
      split <;> exact ⟨_, rfl⟩
  obtain ⟨l, hl⟩ := hkept
  refine h.block (by simp) (by simp) ?_ fun hmem => absurd hmem hnot
  simp [takeMinute, hl]

/-- The windows' share where every window keeps minutes. -/
theorem QuietMinute.windowsShare (h : QuietMinute s (.windows :: rest) u) (hs : LogSound s)
    (hleft : ∀ r w, r ∈ s.log → r.state = .bought w → 2 ≤ w) (hnot : .windows ∉ rest) :
    QuietMinute s rest (takeMinute s.boughtSeqs u .windows) := by
  have hbought : ∀ r ∈ s.log, r.seq ∈ s.boughtSeqs → ∃ w, r.state = .bought w := fun r hr hmem => by
    obtain ⟨x, hx, hbought, hseq⟩ := mem_boughtSeqs.1 hmem
    exact (isBought_iff r).1 (hs.eq_of_seq hx hr hseq ▸ hbought)
  have hstands : ∀ r w, r.state = .bought w → s.dueMinute (.windows :: rest) r = r := fun r w hstate => by
    simp [dueMinute_bought hstate]
  obtain ⟨hlog, ha, hb, hnext, hprev, hlock⟩ := windowsMinute_quiet h.sound (boughtSeqs_nodup hs) fun x hx hmem => by
    rw [h.log] at hx
    obtain ⟨r, hr, rfl⟩ := List.mem_map.1 hx
    obtain ⟨w, hstate⟩ := hbought r hr (dueMinute_seq s _ r ▸ hmem)
    exact ⟨w, by rw [hstands r w hstate, hstate], hleft r w hr hstate⟩
  obtain ⟨hsa, hsb⟩ := h.paths
  refine ⟨takeMinute_logSound h.sound _ .windows, ?_, ⟨ha.trans hsa, hb.trans hsb⟩, hnext.trans h.nextSeq,
    hprev.trans h.previewed, fun hmem => hlock.trans (h.lock (List.mem_cons_of_mem _ hmem)),
    fun r hr hstate hwatched hmem => ?_⟩
  · refine Eq.trans hlog ?_
    rw [h.log, List.map_map]
    refine List.map_congr_left fun r hr => ?_
    simp only [Function.comp_apply, dueMinute_seq]
    rcases record_cases r with hstate | ⟨w, hstate⟩ | hfinal
    · rw [if_neg fun hmem => by simpa [hstate] using hbought r hr hmem, dueMinute_preview hstate,
        dueMinute_preview hstate]
      simp
    · have hmem : r.seq ∈ s.boughtSeqs := mem_boughtSeqs.2 ⟨r, hr, (isBought_iff r).2 ⟨w, hstate⟩, rfl⟩
      rw [if_pos hmem, hstands r w hstate, dueMinute_bought hstate, if_neg hnot]
      simp [Record.window, hstate]
    · rw [if_neg fun hmem => by
          obtain ⟨w, hstate⟩ := hbought r hr hmem
          simp [bought_final hstate] at hfinal, dueMinute_final hfinal, dueMinute_final hfinal]
  · refine (takeMinute_adds u _ .windows).lists.dirty _ (h.listed r hr hstate hwatched fun he => ?_)
    exact (List.mem_cons.1 he).elim (by simp) hmem

/-- A preview minute that leaves minutes. -/
theorem QuietMinute.previewShare {bought : List Half} (h : QuietMinute s (.preview r.seq :: rest) u) (hs : LogSound s)
    (hr : r ∈ s.log) (hstate : r.state = .preview) (hleft : s.watched r.title = true → r.used + 1 < r.limit)
    (hnot : .preview r.seq ∉ rest) : QuietMinute s rest (takeMinute bought u (.preview r.seq)) := by
  have hstands : s.dueMinute (.preview r.seq :: rest) r = r := by simp [dueMinute_preview hstate]
  have hmem : r ∈ u.log := by
    rw [h.log]
    exact List.mem_map.2 ⟨r, hr, hstands⟩
  have hothers : ∀ x ∈ s.log, x.seq ≠ r.seq → s.dueMinute (.preview r.seq :: rest) x = s.dueMinute rest x :=
    fun x _ hne => by
      unfold State.dueMinute
      simp [hne]
  have hshare : takeMinute bought u (.preview r.seq) = if s.watched r.title then countPreview r u else u := by
    rw [← watched_iff h.paths hstate]
    exact previewMinute_eq h.sound hmem
  have hdue : s.dueMinute rest r = if s.watched r.title then { r with used := r.used + 1 } else r := by
    rw [dueMinute_preview hstate, if_neg hnot]
  have hkept : let t := takeMinute bought u (.preview r.seq)
      t.log = u.log.map (fun x => if x.seq = r.seq then s.dueMinute rest r else x) ∧ t.pathA = u.pathA ∧
        t.pathB = u.pathB ∧ t.nextSeq = u.nextSeq ∧ t.previewed = u.previewed ∧ t.lock = u.lock ∧
        (s.watched r.title = true → r.slot ∈ t.store.dirty) := by
    intro t
    have hshare : t = if s.watched r.title then countPreview r u else u := by
      rw [← watched_iff h.paths hstate]
      exact previewMinute_eq h.sound hmem
    rw [hshare, hdue]
    cases hwatched : s.watched r.title
    · have hsame : u.log.map (fun x => if x.seq = r.seq then r else x) = u.log := by
        refine Eq.trans (List.map_congr_left fun x hx => ?_) (List.map_id' u.log)
        split
        · exact (h.sound.eq_of_seq hx hmem ‹_›).symm
        · rfl
      simp [hsame]
    · rw [if_pos rfl, if_pos rfl, countPreview_quiet (hleft hwatched)]
      simp [replaceRecord, mem_listSlot]
  obtain ⟨hlog, ha, hb, hnext, hprev, hlock, hlisted⟩ := hkept
  obtain ⟨hsa, hsb⟩ := h.paths
  refine ⟨takeMinute_logSound h.sound bought _, ?_, ⟨ha.trans hsa, hb.trans hsb⟩, hnext.trans h.nextSeq,
    hprev.trans h.previewed, fun hin => hlock.trans (h.lock (List.mem_cons_of_mem _ hin)),
    fun x hx hxstate hxwatched hxnot => ?_⟩
  · rw [hlog, h.log, List.map_map]
    refine List.map_congr_left fun x hx => ?_
    simp only [Function.comp_apply, dueMinute_seq]
    by_cases hseq : x.seq = r.seq
    · rw [if_pos hseq, hs.eq_of_seq hx hr hseq]
    · rw [if_neg hseq]
      unfold State.dueMinute
      simp [hseq]
  · by_cases hseq : x.seq = r.seq
    · obtain rfl := hs.eq_of_seq hx hr hseq
      exact hlisted hxwatched
    · refine (takeMinute_adds u bought _).lists.dirty _ (h.listed x hx hxstate hxwatched fun he => ?_)
      exact (List.mem_cons.1 he).elim (by simpa using hseq) hxnot

/-- Every share of a minute that ends nothing. -/
theorem QuietMinute.share {taker : MinuteTaker} (h : QuietMinute s (taker :: rest) u) (hs : LogSound s)
    (hends : EndsNothing s) (hmem : taker ∈ s.takers) (hnot : taker ∉ rest) :
    QuietMinute s rest (takeMinute s.boughtSeqs u taker) := by
  cases taker with
  | clock | keys | watchdog => exact h.block (by simp) (by simp) (by simp [takeMinute]) (by simp [takeMinute])
  | lock => exact h.lockShare hends.lock hnot
  | windows => exact h.windowsShare hs hends.windows hnot
  | preview seq =>
    obtain ⟨r, hr, hstate, rfl⟩ := preview_mem_takers.1 hmem
    exact h.previewShare hs hr hstate (hends.previews r hr hstate) hnot

theorem QuietMinute.shares (hs : LogSound s) (hends : EndsNothing s) {takers : List MinuteTaker} (hn : takers.Nodup)
    (hsub : ∀ t ∈ takers, t ∈ s.takers) (h : QuietMinute s takers u) :
    QuietMinute s [] (takeMinutes s.boughtSeqs takers u) := by
  induction takers generalizing u with
  | nil => exact h
  | cons t takers ih =>
    obtain ⟨hnot, hn⟩ := List.nodup_cons.1 hn
    exact ih hn (fun x hx => hsub x (List.mem_cons_of_mem t hx)) (h.share hs hends (hsub t List.mem_cons_self) hnot)

/-- A minute that ends nothing, in any order of the shares. -/
theorem minute_quiet (hs : LogSound s) (hends : EndsNothing s) (order : List MinuteTaker) :
    QuietMinute s [] (minute order s) := by
  have hperm := agenda_perm order s.takers
  have hmem : ∀ t, t ∈ agenda order s.takers ↔ t ∈ s.takers := fun t => hperm.mem_iff
  refine QuietMinute.shares hs hends (hperm.nodup_iff.2 (takers_nodup hs)) (fun t => (hmem t).1)
    ⟨hs, ?_, ⟨rfl, rfl⟩, rfl, rfl, fun _ => rfl, fun r hr hstate _ hnot => absurd ((hmem _).2 ?_) hnot⟩
  · refine ((List.map_congr_left fun r hr => ?_).trans (List.map_id' s.log)).symm
    rcases record_cases r with hstate | ⟨w, hstate⟩ | hfinal
    · rw [dueMinute_preview hstate, if_pos ((hmem _).2 (preview_mem_takers.2 ⟨r, hr, hstate, rfl⟩))]
    · rw [dueMinute_bought hstate, if_pos ((hmem _).2 (by simp [State.takers]))]
    · exact dueMinute_final hfinal
  · exact preview_mem_takers.2 ⟨r, hr, hstate, rfl⟩

end

end Sys2Proof.Machine
end

