-- ==== Sys2Proof/Proofs/WindowStatement.lean ====
section
/-!
HEADLINE. The windows and the preview minutes at a minute of the timebase (R89, R92), and a record's last window minute
alone.
-/
namespace Sys2Proof.Machine

section
variable {s : State} {r : Record}

/-! ### A record's last window minute alone (R92) -/

/-- The record ended and WINDOW_ENDED set, before the title is handed to the paths (R92). -/
def State.windowEnded (s : State) (r : Record) : State :=
  settleRecord { r with state := .ended } (report .windowEnded s)

@[simp] theorem windowEnded_keeps (r : Record) (s : State) :
    (s.windowEnded r).channels = s.channels ∧ (s.windowEnded r).offers = s.offers ∧ (s.windowEnded r).lock = s.lock ∧
      (s.windowEnded r).folio = s.folio ∧ (s.windowEnded r).nextSeq = s.nextSeq ∧
      (s.windowEnded r).previewed = s.previewed := by
  simp [State.windowEnded]

@[simp] theorem windowEnded_path (r : Record) (s : State) (p : PathId) : (s.windowEnded r).path p = s.path p := by
  cases p <;> simp [State.windowEnded, State.path]

/-- The record is ended in its place, or leaves the log if it was released (R101). -/
theorem windowEnded_log (s : State) (r : Record) :
    (s.windowEnded r).log = s.log.filterMap (fun x =>
      if x.seq = r.seq then if r.released then none else some { r with state := .ended } else some x) :=
  settleRecord_log (r := r) (r' := { r with state := .ended }) (s := report .windowEnded s) rfl rfl rfl

theorem windowEnded_adds (s : State) (r : Record) : EventAdds s (s.windowEnded r) :=
  ((EventAdds.refl s).report .windowEnded).trans (settleRecord_adds _ _)

theorem windowEnded_port (s : State) (r : Record) :
    s.portAfterRemoval (s.windowEnded r) (fun seq => seq = r.seq ∧ r.released = true) := by
  have hport := settleRecord_port { r with state := .ended } (report .windowEnded s)
  exact portAfterRemoval_congr (fun seq => by simp [Record.final, Record.isPreview, Record.isBought])
    (portAfterRemoval_of_port (by simp) rfl hport)

/-- The event of a record's last window minute. -/
theorem exec_windowEnd (hphase : s.phase = .running) (hs : s.settled = true) (hlog : LogSound s) (hr : r ∈ s.log)
    (hstate : r.state = .bought 1) :
    exec (.windowEnd r.seq) s = .next (startWrite (handEndedTitle r.title (s.windowEnded r))) := by
  obtain ⟨-, hseqs, -⟩ := hlog
  have hlast : lastWindowMinute r.seq s = handEndedTitle r.title (s.windowEnded r) := by
    unfold lastWindowMinute
    rw [recordOf_of_mem hseqs hr]
    simp only [(isBought_iff r).2 ⟨1, hstate⟩, Record.window, hstate]
    rfl
  have hlists := ((windowEnded_adds s r).trans (handEndedTitle_adds _ r.title)).lists
  rw [← endEvent_writing fun hb => ?_, ← hlast]
  · exact congrArg _ (if_pos hphase)
  · rw [hlists.write]
    exact write_of_settled hs (hlists.busy hb)

/-- A path that asked the log about a title that no active record carries is MUTED with NOT_ENTITLED (R8, R85). -/
theorem muted_of_no_record {p : PathId} {i : Nat} (h : s.pathRecalled p) (hi : (s.path p).selected = some i)
    (ha : s.asksLog i) (hb : ¬s.hasBought (s.offerAt (s.channelAt i).offer).title)
    (hp : ¬s.hasPreview (s.offerAt (s.channelAt i).offer).title) :
    (s.path p).answer = .none ∧ (s.path p).admitted = .muted .notEntitled := by
  obtain ⟨-, hasks⟩ := h i hi
  obtain ⟨htitle, hadmitted, hbought, hpreview⟩ := hasks ha
  rw [htitle] at hbought hpreview
  have hnone : (s.path p).answer = .none := by
    cases he : (s.path p).answer with
    | bought => exact absurd (hbought.1 he) hb
    | preview => exact absurd (hpreview.1 he).2 hp
    | none => rfl
  refine ⟨hnone, ?_⟩
  rw [hadmitted, judgedState_asks ha, hnone]
  rfl

theorem startWrite_pathRecalled {p : PathId} (h : s.pathRecalled p) : (startWrite s).pathRecalled p :=
  pathRecalled_congr (by simp) (by simp) (by simp) (by simp) (by simp) (by simp) (by simp) h

/-- The paths after a record's last window minute: those that show the title are answered by the log as it then stands,
NONE where no active record carries it, and the others stand (R88, R92). -/
theorem windowEnd_paths (s : State) (r : Record) :
    let t := startWrite (handEndedTitle r.title (s.windowEnded r))
    (∀ q, s.showsTitle q r.title → t.pathRecalled q) ∧
      (∀ q i, (s.path q).selected = some i → s.asksLog i → (s.offerAt (s.channelAt i).offer).title = r.title →
        ¬t.hasBought r.title → ¬t.hasPreview r.title →
        (t.path q).answer = .none ∧ (t.path q).admitted = .muted .notEntitled) ∧
      ∀ q, ¬s.showsTitle q r.title → t.path q = s.path q := by
  intro t
  have hshows : ∀ q, (s.windowEnded r).showsTitle q r.title ↔ s.showsTitle q r.title := fun q =>
    showsTitle_congr (by simp) (by simp) (by simp) r.title
  have hrecalled : ∀ q, s.showsTitle q r.title → t.pathRecalled q := fun q hq => by
    obtain ⟨hjudged, -⟩ := handEndedTitle_paths r.title (s.windowEnded r) q
    exact startWrite_pathRecalled (hjudged ((hshows q).2 hq))
  refine ⟨hrecalled, fun q i hi ha htitle hb hp => ?_, fun q hq => ?_⟩
  · have ⟨hclass, _⟩ := ha
    obtain ⟨-, -, -, shown, answer, admitted, hw⟩ := handEndedTitle_paths r.title (s.windowEnded r) q
    have hselected : (t.path q).selected = some i := by
      rw [← hi, path_startWrite, hw, windowEnded_path]
    have hoffer : (t.offerAt (t.channelAt i).offer).title = r.title := by
      simpa [State.offerAt, State.channelAt, t] using htitle
    exact muted_of_no_record (hrecalled q ⟨i, hi, hclass, htitle⟩) hselected
      ((asksLog_congr (by simp [t]) (by simp [t]) (by simp [t]) i).2 ha) (hoffer ▸ hb) (hoffer ▸ hp)
  · obtain ⟨-, hstood, -⟩ := handEndedTitle_paths r.title (s.windowEnded r) q
    rw [path_startWrite, hstood (mt (hshows q).1 hq), windowEnded_path]

/-- WINDOW_ENDED is set, and the record's slot is listed. -/
theorem windowEnd_reports (s : State) (r : Record) :
    let t := startWrite (handEndedTitle r.title (s.windowEnded r))
    t.status.detail.getLsbD 15 = true ∧ t.listed r.slot := by
  intro t
  have hstatus : t.status = (s.windowEnded r).status := by simp [t]
  refine ⟨?_, listed_startWrite ((handEndedTitle_adds _ r.title).lists.dirty _
    (settleRecord_listed { r with state := .ended } _))⟩
  rw [hstatus]
  exact (settleRecord_adds _ _).detail 15 (report_sets .windowEnded s)

end

/-- Settles O47: what a minute owes each BOUGHT record; a minute that ends nothing, share by share; and the last window
minute alone, whose title is handed to the paths without a preview. -/
theorem windowsCountDown : Obligations.WindowsCountDown := by
  refine ⟨fun order s hphase hs hlog => ?_, fun order s hphase hs hlog hlock hwindows hpreviews => ?_,
    fun s r hphase hs hlog hr hstate => ?_⟩
  · have hcounts := fun r w hr hstate => minute_counts (r := r) (w := w) hlog order hr hstate
    have hstatus : (startWrite (minute order s)).status = (minute order s).status := by simp
    refine ⟨_, exec_minute order hphase hs, fun r w hr hstate hw => ?_,
      fun r w hr hstate hw => ⟨fun hreleased => ?_, ?_⟩, fun r w hr hstate hw => ?_, fun r hr hf => ?_⟩
    · simpa [Record.withWindow] using (hcounts r w hr hstate).counted hw
    · simpa using (hcounts r w hr hstate).ended hw hreleased
    · rw [hstatus]
      exact (hcounts r w hr hstate).reported hw
    · exact listed_startWrite ((hcounts r w hr hstate).listed hw)
    · simpa using mem_minute_of_final hlog order hr hf
  · have hquiet := minute_quiet hlog ⟨hlock, hwindows, hpreviews⟩ order
    obtain ⟨ha, hb⟩ := hquiet.paths
    refine ⟨_, exec_minute order hphase hs, by simpa using ha, by simpa using hb, ?_, fun r hr hstate hwatched => ?_,
      by simpa using hquiet.nextSeq, by simpa using hquiet.previewed⟩
    · have hkept : (startWrite (minute order s)).log = (minute order s).log := by simp
      rw [hkept, hquiet.log]
      refine List.map_congr_left fun r _ => ?_
      cases hstate : r.state <;> simp [State.dueMinute, Record.withWindow, hstate]
    · exact listed_startWrite (hquiet.listed r hr hstate hwatched List.not_mem_nil)
  · obtain ⟨hrecalled, hmuted, hstood⟩ := windowEnd_paths s r
    obtain ⟨hreported, hlisted⟩ := windowEnd_reports s r
    refine ⟨_, exec_windowEnd hphase hs hlog hr hstate, by simpa using windowEnded_log s r, by simp, by simp, hreported,
      hlisted, hrecalled, hmuted, hstood, portAfterRemoval_of_port rfl (by simp) (windowEnded_port s r), ?_⟩
    simp [State.withAdmissionOf, State.windowEnded]

end Sys2Proof.Machine
end

