-- ==== Sys2Proof/Proofs/RangeLaws.lean ====
section
/-!
SUPPORT. The ranges of the lock record, the paths, the tables, the key lives, the clocks and the line port: between which
states each of them is kept, what each change of the lock record keeps of its ranges (R107 to R119), and the shared
operations, which leave them alone (R133, R134, R156, R161).
-/
namespace Sys2Proof.Machine

/-! ### The lock record (R107 to R119) -/

/-- The ranges of the lock record, field by field (spec 06, "The lock record"). -/
structure Lock.InRange (l : Lock) : Prop where
  hard : l.hard ≤ 7
  guest : l.guest ≤ 7
  unlockMinutes : 1 ≤ l.unlockMinutes ∧ l.unlockMinutes ≤ 240
  wrong : l.wrong ≤ 2
  lockouts : l.lockouts ≤ 5
  lockout : l.state = .lockout → l.length ∈ [15, 30, 60, 120, 240]
  noLockout : l.state ≠ .lockout → l.length = 0
  pin : ∀ p, l.pin = some p → p.legal = true
  unlocked : l.state = .unlocked → l.pin.isSome = true
  locked : l.state = .locked ↔ l.minutes = 0
  minutes : l.minutes ≤ 240

/-- A lock image that a slot gives back is in its ranges but for the minutes, which the slot does not hold (R131). -/
theorem Lock.legal_iff (l : Lock) :
    l.legal = true ↔
      l.hard ≤ 7 ∧ l.guest ≤ 7 ∧ (1 ≤ l.unlockMinutes ∧ l.unlockMinutes ≤ 240) ∧ l.wrong ≤ 2 ∧ l.lockouts ≤ 5 ∧
        ((l.state = .lockout → l.length ∈ [15, 30, 60, 120, 240]) ∧ (l.state ≠ .lockout → l.length = 0)) ∧
        (∀ p, l.pin = some p → p.legal = true) ∧ (l.state = .unlocked → l.pin.isSome = true) := by
  have hlength : l.lengthLegal = true ↔
      (l.state = .lockout → l.length ∈ [15, 30, 60, 120, 240]) ∧ (l.state ≠ .lockout → l.length = 0) := by
    unfold Lock.lengthLegal
    split <;> simp_all
  have hpin : l.pin.all Pin.legal = true ↔ ∀ p, l.pin = some p → p.legal = true := by
    cases l.pin <;> simp
  have hunlocked : (l.state != .unlocked || l.pin.isSome) = true ↔ (l.state = .unlocked → l.pin.isSome = true) := by
    cases l.state <;> simp
  simp only [Lock.legal, Bool.and_eq_true, decide_eq_true_eq, hlength, hpin, hunlocked]
  tauto

theorem Lock.sound_iff (l : Lock) : l.sound ↔ l.InRange := by
  unfold Lock.sound
  rw [Lock.legal_iff]
  constructor
  · rintro ⟨⟨hh, hg, hu, hw, hn, ⟨hl, hnl⟩, hp, hpu⟩, -, hlocked, hm⟩
    exact ⟨hh, hg, hu, hw, hn, hl, hnl, hp, hpu, hlocked, hm⟩
  · rintro ⟨hh, hg, hu, hw, hn, hl, hnl, hp, hpu, hlocked, hm⟩
    exact ⟨⟨hh, hg, hu, hw, hn, ⟨hl, hnl⟩, hp, hpu⟩, hpu, hlocked, hm⟩

/-- An unlock that ends leaves none (R111, R114, R119). -/
theorem Lock.endUnlock_state (l : Lock) : l.endUnlock.state ≠ .unlocked := by
  unfold Lock.endUnlock
  split <;> simp_all

namespace Lock.InRange

variable {l : Lock} (h : l.InRange)
include h

/-- A record that is LOCKED with no minutes and no lockout length. -/
theorem locks {n : Nat} (hn : n = 0) : ({ l with state := .locked, minutes := 0, length := n } : Lock).InRange :=
  { h with
    lockout := nofun, noLockout := fun _ => hn, unlocked := nofun, locked := by simp, minutes := Nat.zero_le _ }

theorem locks_of_unlocked (hl : l.state = .unlocked) : ({ l with state := .locked, minutes := 0 } : Lock).InRange :=
  h.locks (h.noLockout (by simp [hl]))

/-- The right PIN (R109). -/
theorem unlock (hp : l.pin.isSome = true) : l.unlock.InRange :=
  { h with
    wrong := Nat.zero_le _, lockouts := Nat.zero_le _, lockout := nofun, noLockout := fun _ => rfl
    unlocked := fun _ => hp
    locked := iff_of_false nofun (by have := h.unlockMinutes; simp only [Lock.unlock]; omega)
    minutes := h.unlockMinutes.2 }

/-- The length of a lockout by the lockouts before it (R110). -/
theorem lockoutLength_mem : lockoutLength l.lockouts ∈ [15, 30, 60, 120, 240] := by
  have hle := h.lockouts
  unfold lockoutLength
  interval_cases l.lockouts <;> simp

theorem wrongAttempt : l.wrongAttempt.InRange := by
  have hlength := h.lockoutLength_mem
  have hbound : 1 ≤ lockoutLength l.lockouts ∧ lockoutLength l.lockouts ≤ 240 := by
    simp only [List.mem_cons, List.not_mem_nil, or_false] at hlength
    omega
  unfold Lock.wrongAttempt
  split
  · exact { h with wrong := by dsimp only; omega }
  · exact { h with
      wrong := Nat.zero_le _, lockouts := Nat.min_le_left _ _, lockout := fun _ => hlength
      noLockout := fun hn => absurd rfl hn
      unlocked := nofun, locked := iff_of_false nofun (by dsimp only; omega), minutes := hbound.2 }

theorem endUnlock : l.endUnlock.InRange := by
  unfold Lock.endUnlock
  split
  · exact h.locks_of_unlocked ‹_›
  · exact h
  · exact h

/-- A new PIN in form, without which the record is not UNLOCKED (R107, R111). -/
theorem setPin {pin : Option Pin} (hp : ∀ p, pin = some p → p.legal = true)
    (hu : l.state = .unlocked → pin.isSome = true) : ({ l with pin := pin } : Lock).InRange :=
  { h with pin := hp, unlocked := hu }

theorem withPin {pin : Option Pin} (hp : ∀ p, pin = some p → p.legal = true) : (l.withPin pin).InRange := by
  unfold Lock.withPin
  cases pin with
  | none => exact h.endUnlock.setPin nofun fun hu => absurd hu l.endUnlock_state
  | some pin => exact h.setPin hp fun _ => rfl

theorem checkOut : l.checkOut.InRange := h.endUnlock.setPin nofun fun hu => absurd hu l.endUnlock_state

theorem setCeiling (level : Nat) : ({ l with guest := clampTo 7 level } : Lock).InRange :=
  { h with guest := Nat.min_le_right _ _ }

theorem setHard (level : Nat) : ({ l with hard := clampTo 7 level } : Lock).InRange :=
  { h with hard := Nat.min_le_right _ _ }

theorem clearWrong : ({ l with wrong := 0 } : Lock).InRange := { h with wrong := Nat.zero_le _ }

theorem cleared : l.cleared.InRange :=
  { h with
    wrong := Nat.zero_le _, lockouts := Nat.zero_le _, lockout := nofun, noLockout := fun _ => rfl, pin := nofun
    unlocked := nofun, locked := by simp [Lock.cleared], minutes := Nat.zero_le _ }

theorem checkIn (hard guest minutes : Nat) : (l.checkIn hard guest minutes).InRange :=
  { h.cleared with
    hard := Nat.min_le_right _ _, guest := Nat.min_le_right _ _
    unlockMinutes := by simp only [Lock.checkIn, clampIn]; omega }

/-- A minute that leaves minutes (R115). -/
theorem countMinute (hm : 1 < l.minutes) : ({ l with minutes := l.minutes - 1 } : Lock).InRange :=
  { h with
    locked := h.locked.trans (by dsimp only; omega)
    minutes := by have := h.minutes; dsimp only; omega }

/-- The minutes of a lockout that begins again at its full length (R121, R122). -/
theorem restartLockout (hl : l.state = .lockout) : ({ l with minutes := l.length } : Lock).InRange := by
  have hlength := h.lockout hl
  simp only [List.mem_cons, List.not_mem_nil, or_false] at hlength
  exact { h with locked := iff_of_false (by simp [hl]) (by dsimp only; omega), minutes := by dsimp only; omega }

theorem resetCommand : l.resetCommand.InRange := by
  unfold Lock.resetCommand
  split
  · exact h.locks_of_unlocked ‹_›
  · exact h.restartLockout ‹_›
  · exact h

end Lock.InRange

/-- A lock image that a slot gives back is in its ranges once its minutes are set (R121). -/
theorem Lock.rebuilt_inRange {l : Lock} (h : l.legal = true) : l.rebuilt.InRange := by
  obtain ⟨hhard, hguest, hunlock, hwrong, hlockouts, ⟨hlength, hnone⟩, hpin, hset⟩ := l.legal_iff.1 h
  unfold Lock.rebuilt
  split <;> rename_i hstate
  · exact ⟨hhard, hguest, hunlock, hwrong, hlockouts, nofun, fun _ => hnone (by simp [hstate]), hpin, nofun, by simp,
      Nat.zero_le _⟩
  · have hin := hlength hstate
    simp only [List.mem_cons, List.not_mem_nil, or_false] at hin
    exact ⟨hhard, hguest, hunlock, hwrong, hlockouts, hlength, hnone, hpin, hset,
      iff_of_false (by simp [hstate]) (by dsimp only; omega), by dsimp only; omega⟩
  · exact ⟨hhard, hguest, hunlock, hwrong, hlockouts, hlength, hnone, hpin, hset, by simp [hstate], Nat.zero_le _⟩

theorem Lock.default_legal : Lock.default.legal = true := by decide

/-- A PIN argument in form is a PIN of four digits (R108). -/
theorem pinArg_legal {args : List Byte} {i : Nat} {p : Pin} (h : (pinArg args i).pin = some p) : p.legal = true := by
  unfold pinArg at h
  dsimp only at h
  split at h
  · cases h
  · split at h
    · cases h
      assumption
    · cases h

/-! ### What is kept between two states -/

/-- From `s` to `t` each range that holds stays: of the lock record, of each path, of each table, of the key lives, of
the clocks and of the line port. -/
structure RangesKept (s t : State) : Prop where
  lock : s.lock.InRange → t.lock.InRange
  paths : ∀ p, (s.path p).sound → (t.path p).sound
  tables : ∀ i, (s.table i).sound i → (t.table i).sound i
  keys : KeysSound s → KeysSound t
  time : TimeSound s → TimeSound t
  line : LineSound s → LineSound t

namespace RangesKept

variable {s t u : State}

theorem refl (s : State) : RangesKept s s := ⟨id, fun _ => id, fun _ => id, id, id, id⟩

theorem trans (h : RangesKept s t) (k : RangesKept t u) : RangesKept s u where
  lock := k.lock ∘ h.lock
  paths p := k.paths p ∘ h.paths p
  tables i := k.tables i ∘ h.tables i
  keys := k.keys ∘ h.keys
  time := k.time ∘ h.time
  line := k.line ∘ h.line

/-- Nothing is written that the ranges are of. -/
theorem of_kept
    (h : t.pathA = s.pathA ∧ t.pathB = s.pathB ∧ t.channels = s.channels ∧ t.offers = s.offers ∧ t.lock = s.lock ∧
      t.keys = s.keys ∧ t.seconds = s.seconds ∧ t.clock = s.clock ∧ t.line = s.line) : RangesKept s t := by
  obtain ⟨ha, hb, hchannels, hoffers, hlock, hkeys, hseconds, hclock, hline⟩ := h
  exact {
    lock := by rw [hlock]; exact id
    paths := fun p => by cases p <;> simp [State.path, ha, hb]
    tables := fun i => by cases i <;> simp [State.table, hchannels, hoffers]
    keys := by simp [KeysSound, hkeys]
    time := by unfold TimeSound; rw [hseconds, hclock]; exact id
    line := by unfold LineSound; rw [hline]; exact id }

theorem setPath {p : PathId} {x : Path} (h : (s.path p).sound → x.sound) : RangesKept s (s.setPath p x) where
  lock := by simp
  paths q := by
    rw [path_setPath]
    split
    · simpa [*] using h
    · exact id
  tables i := by cases i <;> simp [State.table]
  keys := by simp [KeysSound]
  time := by simp [TimeSound]
  line := by simp [LineSound]

theorem setTable {i : TableId} {x : Table} (h : (s.table i).sound i → x.sound i) : RangesKept s (s.setTable i x) where
  lock := by simp
  paths p := by cases p <;> simp [State.path]
  tables j := by
    rw [table_setTable]
    split
    · rename_i hj
      rw [hj]
      exact h
    · exact id
  keys := by simp [KeysSound]
  time := by simp [TimeSound]
  line := by simp [LineSound]

theorem withLock {l : Lock} (h : s.lock.InRange → l.InRange) : RangesKept s { s with lock := l } :=
  ⟨h, fun p => by cases p <;> exact id, fun i => by cases i <;> exact id, id, id, id⟩

theorem withKeys {keys : List KeyContext} (h : KeysSound s → KeysSound { s with keys := keys }) :
    RangesKept s { s with keys := keys } :=
  ⟨id, fun p => by cases p <;> exact id, fun i => by cases i <;> exact id, h, id, id⟩

theorem withTime {seconds : Nat} {clock : Clock} (h : TimeSound s → seconds ≤ 59 ∧ clock.minute ≤ 1439) :
    RangesKept s { s with seconds := seconds, clock := clock } :=
  ⟨id, fun p => by cases p <;> exact id, fun i => by cases i <;> exact id, id, h, id⟩

theorem withLine {line : Line} (h : LineSound s → LineSound { s with line := line }) :
    RangesKept s { s with line := line } :=
  ⟨id, fun p => by cases p <;> exact id, fun i => by cases i <;> exact id, id, id, h⟩

/-- Changes made one after the other, each of which keeps the ranges. -/
theorem foldl {α : Type} {f : State → α → State} (hf : ∀ u a, RangesKept u (f u a)) :
    ∀ (l : List α) (s : State), RangesKept s (l.foldl f s)
  | [], s => refl s
  | a :: l, s => (hf s a).trans (foldl hf l (f s a))

/-- An event that has an effect under a condition only. -/
theorem ite {c : Prop} [Decidable c] (ht : RangesKept s t) (hu : RangesKept s u) :
    RangesKept s (if c then t else u) := by
  split <;> assumption

/-! ### The shared operations (R133, R134, R156, R159, R161) -/

theorem listSlot (h : RangesKept s t) (k : Nat) : RangesKept s (listSlot k t) := h.trans (.of_kept (by simp))

theorem report (h : RangesKept s t) (f : DetailFlag) : RangesKept s (report f t) := h.trans (.of_kept (by simp))

theorem placeReply (h : RangesKept s t) (code : Byte) (r : ResultCode) (data : List Byte) :
    RangesKept s (placeReply code r data t) := h.trans (.of_kept (by simp))

end RangesKept

/-- The RESET command empties the paths and leaves the lock record in its ranges (R21, R122). -/
theorem resetEffect_ranges (s : State) : RangesKept s (resetEffect s) := by
  obtain ⟨hpath, -⟩ := resetEffect_writes s
  have hlock : (resetEffect s).lock = s.lock.resetCommand := by
    unfold resetEffect
    dsimp only
    split <;> simp
  exact {
    lock := fun h => hlock ▸ h.resetCommand
    paths := fun p _ => by simp [hpath, Path.resetCommand, Path.sound]
    tables := fun i => by cases i <;> simp [State.table]
    keys := by simp [KeysSound]
    time := by simp [TimeSound]
    line := by simp [LineSound] }

theorem RangesKept.endEvent {s t : State} (h : RangesKept s t) : RangesKept s (endEvent t) := by
  have hwrite : ∀ u, RangesKept u (startWrite u) := fun u => .of_kept (by simp)
  refine h.trans ?_
  unfold Machine.endEvent
  dsimp only
  split
  · exact (hwrite t).trans ((resetEffect_ranges _).trans (hwrite _))
  · exact hwrite t

end Sys2Proof.Machine
end

