-- ==== Sys2Proof/Proofs/RangesKeptAtEvents.lean ====
section
/-!
SUPPORT. The ranges are kept at every event of the blocks: admission, the log, the lock unit, the clocks, the tables, the
record store, the supply and the line port.
-/
namespace Sys2Proof.Machine

/-! ### Admission (R7 to R11, R88) -/

/-- A judging writes of its path nothing that a path's ranges are of. -/
theorem judgeOnce_ranges (p : PathId) (s : State) : RangesKept s (judgeOnce p s).state := by
  cases hs : (s.path p).selected with
  | none =>
    rw [judgeOnce_unselected hs]
    exact .refl s
  | some i =>
    by_cases ha : s.asksLog i
    · rw [judgeOnce_asks hs ha]
      exact RangesKept.trans (.of_kept (by simp)) (.setPath id)
    · rw [judgeOnce_quiet hs ha .none]
      exact .setPath id

theorem judge_ranges (p : PathId) (s : State) : RangesKept s (judge p s) := by
  have hself := judgeOnce_ranges p s
  unfold judge
  dsimp only
  split
  · exact hself
  · exact .ite (hself.trans (judgeOnce_ranges _ _)) hself

theorem judgeBoth_ranges (s : State) : RangesKept s (judgeBoth s) := by
  obtain ⟨p, n, h⟩ := judgeBoth_eq s
  rw [h]
  exact RangesKept.trans (t := { s with choice := n }) (.of_kept (by simp))
    ((judge_ranges _ _).trans (judge_ranges _ _))

theorem judgeReached_ranges (a b : Bool) (s : State) : RangesKept s (judgeReached a b s) := by
  cases a <;> cases b
  · exact .refl s
  · exact judge_ranges _ _
  · exact judge_ranges _ _
  · exact judgeBoth_ranges s

theorem handEndedTitle_ranges (title : Word) (s : State) : RangesKept s (handEndedTitle title s) := by
  have hone : ∀ p u, RangesKept u (judgeNoPreviewIfShown title p u) := fun p u => by
    obtain ⟨⟨shown, answer, admitted, he⟩, -⟩ := judgeNoPreviewIfShown_cases title p u
    rw [he]
    exact .setPath id
  exact (hone .a s).trans (hone .b _)

/-! ### The log (R84, R89 to R92, R97 to R101) -/

theorem settleRecord_ranges (r : Record) (s : State) : RangesKept s (settleRecord r s) := .of_kept (by simp)

theorem changeRecord_ranges (r : Record) (s : State) : RangesKept s (changeRecord r s) :=
  (settleRecord_ranges r s).trans (judgeReached_ranges _ _ _)

theorem leavePreview_ranges (r : Record) (s : State) : RangesKept s (leavePreview r s) :=
  (settleRecord_ranges r s).trans (judgeReached_ranges _ _ _)

theorem endAuto_ranges (r : Record) (s : State) : RangesKept s (endAuto r s) := by
  have hcharge : ∀ f c, RangesKept s (report .charged (grantCharge f c s)) := fun f c => .of_kept (by simp)
  unfold endAuto
  split
  · exact leavePreview_ranges _ s
  · refine .ite (leavePreview_ranges _ s) ?_
    split
    · exact leavePreview_ranges _ s
    · exact (hcharge _ _).trans (leavePreview_ranges _ _)

theorem countPreview_ranges (r : Record) (s : State) : RangesKept s (countPreview r s) := by
  have hlisted : ∀ x, RangesKept s (listSlot r.slot (replaceRecord x s)) := fun x => .of_kept (by simp)
  unfold countPreview
  dsimp only
  refine .ite (hlisted _) ?_
  split
  · exact (hlisted _).trans (leavePreview_ranges _ _)
  · exact (hlisted _).trans (endAuto_ranges _ _)

theorem previewMinute_ranges (seq : Half) (s : State) : RangesKept s (previewMinute seq s) := by
  unfold previewMinute
  split
  · exact .ite (countPreview_ranges _ s) (.refl s)
  · exact .refl s

theorem lastPreviewMinute_ranges (policy : Policy) (seq : Half) (s : State) :
    RangesKept s (lastPreviewMinute policy seq s) := by
  unfold lastPreviewMinute
  split
  · exact .ite (countPreview_ranges _ s) (.refl s)
  · exact .refl s

theorem endWindow_ranges (r : Record) (s : State) : RangesKept s (endWindow r s) :=
  (((RangesKept.refl s).report .windowEnded).trans (settleRecord_ranges _ _)).trans (handEndedTitle_ranges _ _)

theorem windowMinute_ranges (seq : Half) (s : State) : RangesKept s (windowMinute seq s) := by
  unfold windowMinute
  split
  · exact .refl s
  · refine .ite (.ite (endWindow_ranges _ s) ?_) (.refl s)
    exact .ite (.of_kept (by simp)) (.of_kept (by simp))

theorem lastWindowMinute_ranges (seq : Half) (s : State) : RangesKept s (lastWindowMinute seq s) := by
  unfold lastWindowMinute
  split
  · exact .ite (endWindow_ranges _ s) (.refl s)
  · exact .refl s

theorem voidSeq_ranges (seq : Half) (s : State) : RangesKept s (voidSeq seq s).1 := by
  have hvoid : ∀ r, RangesKept s (voidRecord r s) := fun r => by
    have hlisted : ∀ f, RangesKept s (listSlot folioSlot { s with folio := f }) := fun f => .of_kept (by simp)
    unfold voidRecord
    dsimp only
    exact .ite ((hlisted _).trans (changeRecord_ranges _ _))
      ((hlisted _).trans ((settleRecord_ranges _ _).trans (handEndedTitle_ranges _ _)))
  unfold voidSeq
  split
  · exact .refl s
  · split
    · exact .refl s
    · split
      · exact .refl s
      · split
        case h_5 | h_6 => exact hvoid _
        all_goals exact .refl s

/-! ### The lock unit (R107 to R119) -/

/-- The lock record takes a content that is in its ranges where the last one was (R107). -/
theorem applyLock_ranges {l : Lock} {s : State} (h : s.lock.InRange → l.InRange) : RangesKept s (applyLock l s) := by
  have hwritten : RangesKept s { s with lock := l } := .withLock h
  have hlisted := hwritten.listSlot lockSlot
  unfold applyLock
  dsimp only
  exact .ite (.ite hwritten hlisted) ((RangesKept.ite hwritten hlisted).trans (judgeBoth_ranges _))

theorem countWrong_ranges (s : State) : RangesKept s (countWrong s) := by
  have hcounted : RangesKept s (applyLock s.lock.wrongAttempt s) := applyLock_ranges Lock.InRange.wrongAttempt
  exact .ite hcounted (hcounted.report _)

theorem expireUnlock_ranges {s : State} (h : s.lock.state = .unlocked) : RangesKept s (expireUnlock s) :=
  ((RangesKept.refl s).report .unlockExpired).trans (applyLock_ranges fun hl => hl.locks_of_unlocked h)

theorem endLockout_ranges (s : State) : RangesKept s (endLockout s) := applyLock_ranges fun hl => hl.locks rfl

theorem lockMinute_ranges (s : State) : RangesKept s (lockMinute s) := by
  have hcounted : ¬s.lock.minutes ≤ 1 → RangesKept s { s with lock := { s.lock with minutes := s.lock.minutes - 1 } } :=
    fun hm => .withLock fun hl => hl.countMinute (by omega)
  unfold lockMinute
  split
  · exact .refl s
  · split
    · exact expireUnlock_ranges ‹_›
    · exact hcounted ‹_›
  · split
    · exact endLockout_ranges s
    · exact hcounted ‹_›

theorem lockMessage_ranges (args : List Byte) (s : State) : RangesKept s (lockMessage args s).1 := by
  unfold lockMessage
  dsimp only
  split
  · exact .refl s
  · split
    · exact applyLock_ranges fun hl => (hl.setHard _).cleared
    · exact applyLock_ranges fun hl => hl.setHard _

/-! ### The clocks, the key table and the watchdog (R35 to R37, R123 to R126, R150) -/

/-- The folio record alone changes at a day change (R75). -/
theorem dayChange_ranges (s : State) : RangesKept s (dayChange s) := .of_kept (by simp)

theorem midnight_ranges (s : State) : RangesKept s (midnight s) := by
  have hclock : ∀ day, RangesKept s { s with clock := { s.clock with minute := 0, day := day } } := fun day =>
    .withTime fun ⟨hseconds, _⟩ => ⟨hseconds, Nat.zero_le _⟩
  exact (hclock _).trans (dayChange_ranges _)

theorem clockMinute_ranges (s : State) : RangesKept s (clockMinute s) := by
  unfold clockMinute
  split
  · exact midnight_ranges s
  · refine .withTime fun ⟨hseconds, _⟩ => ⟨hseconds, ?_⟩
    dsimp only
    omega

theorem timeMessage_ranges (args : List Byte) (s : State) : RangesKept s (timeMessage args s) := by
  have hclock : ∀ day minute set, RangesKept s { s with
      clock := { day := day, minute := clampTo 1439 minute, set := set } } := fun _ _ _ =>
    .withTime fun ⟨hseconds, _⟩ => ⟨hseconds, Nat.min_le_right _ _⟩
  exact .ite (hclock _ _ _) ((hclock _ _ _).trans (dayChange_ranges _))

/-- A half of a context takes a value whose life, if it is LOADED, is in its range (R34, R35). -/
theorem setHalf_ranges {context : Nat} {parity : Parity} {half : KeyHalf} (s : State)
    (h : ∀ key life, half = .loaded key life → 1 ≤ life ∧ life ≤ maxLife) :
    RangesKept s (s.setHalf context parity half) := by
  unfold State.setHalf
  split
  · rename_i c hc
    refine .withKeys fun ⟨hlength, hlives⟩ => ⟨by simpa using hlength, fun c' hc' p key life hl => ?_⟩
    rcases List.mem_or_eq_of_mem_set hc' with hc' | rfl
    · exact hlives c' hc' p key life hl
    · have hold := hlives c (List.mem_of_getElem? hc) p key life
      cases p <;> cases parity
      · exact h key life hl
      · exact hold hl
      · exact hold hl
      · exact h key life hl
  · exact .refl s

theorem keyMessage_ranges (args : List Byte) (s : State) : RangesKept s (keyMessage args s) := by
  unfold keyMessage
  split
  · exact .refl s
  · refine setHalf_ranges s fun key life hl => ?_
    cases hl
    exact ⟨Nat.le_max_left _ _, Nat.max_le.2 ⟨by decide, Nat.min_le_right _ _⟩⟩

theorem keyClearMessage_ranges (args : List Byte) (s : State) : RangesKept s (keyClearMessage args s) := by
  refine .withKeys fun ⟨hlength, hlives⟩ => ⟨by simpa using hlength, fun c hc p key life hl => ?_⟩
  rcases List.mem_or_eq_of_mem_set hc with hc | rfl
  · exact hlives c hc p key life hl
  · cases p <;> cases hl

/-- A half's minute leaves a life of 1 or more, or empties the half (R37). -/
theorem minute_loaded {half : KeyHalf} {key : BitVec 64} {life : Nat} (h : half.minute = .loaded key life) :
    1 ≤ life ∧ half = .loaded key (life + 1) := by
  cases half with
  | empty => cases h
  | loaded key' life' =>
    unfold KeyHalf.minute at h
    dsimp only at h
    split at h
    · cases h
    · cases h
      exact ⟨by omega, by congr 1; omega⟩

theorem keysMinute_ranges (s : State) : RangesKept s (keysMinute s) := by
  refine .withKeys fun ⟨hlength, hlives⟩ => ⟨by simpa using hlength, fun c hc p key life hl => ?_⟩
  obtain ⟨c', hc', rfl⟩ := List.mem_map.1 hc
  have hhalf : (c'.half p).minute = .loaded key life := by cases p <;> exact hl
  obtain ⟨hpos, hold⟩ := minute_loaded hhalf
  obtain ⟨-, hle⟩ := hlives c' hc' p key (life + 1) hold
  exact ⟨hpos, by omega⟩

theorem expireHalf_ranges (context : Nat) (parity : Parity) (s : State) :
    RangesKept s (expireHalf context parity s) := by
  unfold expireHalf
  split
  · exact .ite (setHalf_ranges s nofun) (.refl s)
  · exact .refl s

theorem goOffline_ranges (s : State) : RangesKept s (goOffline s) := by
  have hline : RangesKept s { s with line := { s.line with watchdog := 0, online := false } } :=
    .withLine fun ⟨hdeaf, _, _, hlow, hhigh, hframe⟩ => ⟨hdeaf, by simp, Nat.zero_le _, hlow, hhigh, hframe⟩
  exact hline.report .lineLost

theorem watchdogMinute_ranges (s : State) : RangesKept s (watchdogMinute s) := by
  unfold watchdogMinute
  split
  · rename_i honline
    split
    · exact goOffline_ranges s
    · refine .withLine fun ⟨hdeaf, _, hmost, hlow, hhigh, hframe⟩ => ⟨hdeaf, ?_, ?_, hlow, hhigh, hframe⟩
      · simp only [honline, true_iff]
        omega
      · dsimp only
        omega
  · exact .refl s

theorem takeMinute_ranges (bought : List Half) (s : State) (taker : MinuteTaker) :
    RangesKept s (takeMinute bought s taker) := by
  cases taker with
  | clock => exact clockMinute_ranges s
  | keys => exact keysMinute_ranges s
  | watchdog => exact watchdogMinute_ranges s
  | lock => exact lockMinute_ranges s
  | windows => exact RangesKept.foldl (fun u seq => windowMinute_ranges seq u) bought s
  | preview seq => exact previewMinute_ranges seq s

theorem minute_ranges (order : List MinuteTaker) (s : State) : RangesKept s (minute order s) := by
  have hzero : RangesKept s { s with seconds := 0 } := .withTime fun ⟨_, hminute⟩ => ⟨Nat.zero_le _, hminute⟩
  exact hzero.trans (RangesKept.foldl (takeMinute_ranges _) _ _)

theorem second_ranges (order : List MinuteTaker) (s : State) : RangesKept s (second order s) := by
  unfold second
  split
  · exact minute_ranges order s
  · exact .withTime fun ⟨_, hminute⟩ => ⟨by omega, hminute⟩

theorem whenRunning_ranges {f : State → State} (hf : ∀ u, RangesKept u (f u)) (s : State) :
    RangesKept s (whenRunning f s) := .ite (hf s).endEvent (.refl s)

/-! ### Tables (R46 to R56) -/

/-- A pass that begins stands at entry 0 (R52). -/
theorem Table.sound.beginPass {x : Table} {i : TableId} (h : x.sound i) : x.beginPass.sound i := by
  obtain ⟨hlive, hpending, hwritten, hlives, hpendings, -⟩ := h
  refine ⟨hlive, hpending, hwritten, hlives, hpendings, fun sc hsc => ?_⟩
  cases hsc
  cases i <;> exact Nat.succ_pos _

/-- A commit of entries that are all written leaves a live table of the full size (R48, R49). -/
theorem Table.sound.accept {x : Table} {i : TableId} {n : Nat} (h : x.sound i) (hn : x.complete i.size n = true) :
    (x.accept i.size i.entryBytes n).sound i := by
  obtain ⟨-, hpending, -, -, hpendings, -⟩ := h
  have hle : n ≤ i.size := by
    simp only [Table.complete, Bool.and_eq_true, decide_eq_true_eq] at hn
    exact hn.1
  have hlength : (x.committed i.size i.entryBytes n).length = i.size := by
    simp only [Table.committed, List.length_append, List.length_take, List.length_replicate]
    omega
  have hentries : ∀ e ∈ x.committed i.size i.entryBytes n, e.length = i.entryBytes := fun e he => by
    rcases List.mem_append.1 he with he | he
    · exact hpendings e (List.mem_of_mem_take he)
    · simp [List.eq_of_mem_replicate he]
  rw [accept_eq]
  refine ⟨hlength, hpending, by simp, hentries, hpendings, fun sc hsc => ?_⟩
  cases hsc
  cases i <;> exact Nat.succ_pos _

/-- An entry of a table's length takes the place of another (R46, R47). -/
theorem forall_mem_set {l : List (List Byte)} {n index : Nat} {entry : List Byte} (h : ∀ e ∈ l, e.length = n)
    (he : entry.length = n) : ∀ e ∈ l.set index entry, e.length = n := fun e hmem => by
  rcases List.mem_or_eq_of_mem_set hmem with hmem | rfl
  · exact h e hmem
  · exact he

theorem tableEntryMessage_ranges (args : List Byte) (s : State) : RangesKept s (tableEntryMessage args s) := by
  unfold tableEntryMessage
  dsimp only
  split
  · exact .refl s
  · split
    · exact .refl s
    · rename_i hfits
      obtain ⟨-, hentry⟩ := not_or.1 hfits
      refine .setTable fun ⟨hlive, hpending, hwritten, hlives, hpendings, hscan⟩ =>
        ⟨hlive, by simpa using hpending, by simpa using hwritten, hlives, ?_, hscan⟩
      exact forall_mem_set hpendings (not_not.1 hentry)

theorem tableCommitMessage_ranges (args : List Byte) (s : State) : RangesKept s (tableCommitMessage args s) := by
  have hrejected : ∀ i outcome, RangesKept s (s.setTable i { s.table i with outcome := outcome }) := fun i outcome =>
    .setTable id
  unfold tableCommitMessage
  dsimp only
  split
  · exact .refl s
  · split
    · exact (hrejected _ _).report _
    · rename_i hcomplete
      refine .ite ((hrejected _ _).report _) (RangesKept.trans (.setTable fun h => ?_) (judgeBoth_ranges _))
      exact h.accept (by simpa using hcomplete)

theorem endPass_ranges (i : TableId) (crc : Half) (diagnostic : Bool) (s : State) :
    RangesKept s (endPass i crc diagnostic s) := by
  have hpass : ∀ bad, RangesKept s (s.setTable i ({ s.table i with bad := bad } : Table).beginPass) := fun bad =>
    .setTable fun h => Table.sound.beginPass (x := { s.table i with bad := bad }) h
  unfold endPass
  dsimp only
  refine .ite (.ite ((hpass _).report _) (hpass _)) (.ite (.ite ((hpass _).report _) (hpass _)) ?_)
  exact (RangesKept.ite ((hpass _).report _) (hpass _)).trans (judgeBoth_ranges _)

theorem scanStep_ranges (i : TableId) (s : State) : RangesKept s (scanStep i s) := by
  unfold scanStep
  dsimp only
  split
  · exact .refl s
  · split
    · exact (endPass_ranges _ _ _ s).endEvent
    · refine .setTable fun ⟨hlive, hpending, hwritten, hlives, hpendings, _⟩ =>
        ⟨hlive, hpending, hwritten, hlives, hpendings, fun sc hsc => ?_⟩
      cases hsc
      dsimp only
      omega

theorem upset_ranges (i : TableId) (index : Nat) (entry : List Byte) (s : State) :
    RangesKept s (upset i index entry s) := by
  unfold upset
  split
  · rename_i hfits
    refine .setTable fun ⟨hlive, hpending, hwritten, hlives, hpendings, hscan⟩ =>
      ⟨by simpa using hlive, hpending, hwritten, ?_, hpendings, hscan⟩
    exact forall_mem_set hlives hfits.2
  · exact .refl s

/-! ### The record store's events and the supply (R20, R134, R137, R138, R159) -/

theorem completeWrite_ranges (s : State) : RangesKept s (completeWrite s) := by
  have hreleased : ∀ w u, RangesKept u (releaseWaiting w u) := fun w u => by
    unfold releaseWaiting
    split
    · exact .ite (.of_kept (by simp)) (.refl u)
    all_goals exact .refl u
  have hbegun : ∀ u, RangesKept u (beginCheck u) := fun u => by
    unfold beginCheck
    split
    · exact .of_kept (by simp)
    all_goals exact .refl u
  unfold completeWrite
  split
  · exact .refl s
  · rename_i w _
    have hstored : RangesKept s (storeImage w s) := .of_kept (by simp [storeImage])
    exact ((hstored.trans (hreleased w _)).trans (hbegun _)).endEvent

theorem resetEvent_ranges (s : State) : RangesKept s (resetEvent s) := by
  unfold resetEvent
  split
  · split
    · exact completeWrite_ranges s
    · exact (RangesKept.refl s).endEvent
  · exact .refl s

/-- The lock record that the start-up check rebuilds is in its ranges, whatever its slot holds (R121, R131). -/
theorem rebuildCopies_ranges (s : State) : RangesKept s (rebuildCopies s) where
  lock _ := by
    refine Lock.rebuilt_inRange ?_
    unfold Store.lockImage
    split
    · split
      · assumption
      · exact Lock.default_legal
    · exact Lock.default_legal
  paths p := by cases p <;> exact id
  tables i := by cases i <;> exact id
  keys := id
  time := id
  line := id

theorem completeCheck_ranges (s : State) : RangesKept s (completeCheck s) := by
  have hreported : ∀ b f u, RangesKept u (reportIf b f u) := fun b f u => .ite (.of_kept (by simp)) (.refl u)
  have hlisted : ∀ ks u, RangesKept u (listSlots ks u) := fun ks u =>
    RangesKept.foldl (fun v k => (RangesKept.refl v).listSlot k) ks u
  have hrebuilt : ∀ b f b' f' b'' f'' ks, RangesKept s
      (listSlots ks (reportIf b'' f'' (reportIf b' f' (reportIf b f (rebuildCopies s))))) := fun b f b' f' b'' f'' ks =>
    (rebuildCopies_ranges s).trans ((hreported b f _).trans ((hreported b' f' _).trans ((hreported b'' f'' _).trans
      (hlisted ks _))))
  unfold completeCheck
  dsimp only
  exact (RangesKept.ite ((hrebuilt _ _ _ _ _ _ _).listSlot _) (hrebuilt _ _ _ _ _ _ _)).endEvent

/-- Every volatile value is in its range after power-on or pin reset (R20, R34, R59, R124, R130, R151). -/
theorem volatileReset_ranges (s : State) : RangesKept s (volatileReset s) where
  lock _ := Lock.rebuilt_inRange Lock.default_legal
  paths p _ := by cases p <;> simp [State.path, volatileReset, State.reset, Path.reset, Path.sound]
  tables i _ := by
    cases i <;>
      simp [State.table, volatileReset, State.reset, Table.reset, Table.sound, TableId.size, TableId.entryBytes]
  keys _ := by
    refine ⟨rfl, fun c hc p key life hl => ?_⟩
    rw [List.eq_of_mem_replicate hc] at hl
    cases p <;> cases hl
  time _ := ⟨Nat.zero_le _, Nat.zero_le _⟩
  line _ := by simp [LineSound, volatileReset, State.reset]

theorem losePower_ranges (s : State) : RangesKept s (losePower s) :=
  RangesKept.trans (t := { s with store := { s.store with slots := tearWrite s.store } }) (.of_kept (by simp))
    ((volatileReset_ranges _).trans (.of_kept ⟨rfl, rfl, rfl, rfl, rfl, rfl, rfl, rfl, rfl⟩))

theorem applyPower_ranges (s : State) : RangesKept s (applyPower s) :=
  (losePower_ranges s).trans (.of_kept ⟨rfl, rfl, rfl, rfl, rfl, rfl, rfl, rfl, rfl⟩)

theorem takeReset_ranges (s : State) : RangesKept s (takeReset s) :=
  (volatileReset_ranges s).trans (.of_kept ⟨rfl, rfl, rfl, rfl, rfl, rfl, rfl, rfl, rfl⟩)

/-! ### The folio's messages (R62 to R66) -/

theorem checkInMessage_ranges (args : List Byte) (s : State) : RangesKept s (checkInMessage args s).1 := by
  have hopened : ∀ policy, RangesKept s (s.checkedIn args policy) := fun policy => by
    have hlock : RangesKept s { s with lock := s.lock.checkIn (byteAt args 20) (byteAt args 21) (natAt args 22 2) } :=
      .withLock fun hl => hl.checkIn _ _ _
    exact hlock.trans (.of_kept (by simp [State.checkedIn]))
  unfold checkInMessage
  split
  · exact .refl s
  · split
    · exact .refl s
    · split
      · exact .refl s
      · exact (hopened _).trans (judgeBoth_ranges _)

theorem checkOutMessage_ranges (args : List Byte) (s : State) : RangesKept s (checkOutMessage args s).1 := by
  have hclosed : RangesKept s s.checkedOut := by
    have hlock : RangesKept s { s with lock := s.lock.checkOut } := .withLock Lock.InRange.checkOut
    refine hlock.trans (.of_kept ?_)
    unfold State.checkedOut lockCheckOut
    dsimp only
    split <;> simp [State.folioLeft]
  unfold checkOutMessage
  split
  · exact hclosed.trans (judgeBoth_ranges _)
  · exact .refl s

theorem folioEvent_ranges (f : Folio) (s : State) : RangesKept s (folioEvent f s) :=
  .ite (.refl s) (RangesKept.trans (.of_kept (by simp)) (judgeBoth_ranges _))

theorem holdMessage_ranges (args : List Byte) (s : State) : RangesKept s (holdMessage args s).1 := by
  unfold holdMessage
  dsimp only
  split
  · exact .refl s
  · split
    · exact .refl s
    · exact folioEvent_ranges _ s

theorem packagesMessage_ranges (args : List Byte) (s : State) : RangesKept s (packagesMessage args s).1 := by
  unfold packagesMessage
  split
  · exact .refl s
  · exact folioEvent_ranges _ s

/-! ### The line port (R143 to R149) -/

/-- The ranges are kept at whatever an owner of a message does (R146). -/
theorem messageKind_ranges {kind : Byte} {m : MessageKind} (h : messageKind kind = some m) (payload : List Byte)
    (s : State) : RangesKept s (m.act payload s).1 := by
  unfold messageKind at h
  obtain rfl | h := row_or_later h
  · exact .refl s
  obtain rfl | h := row_or_later h
  · exact timeMessage_ranges payload s
  obtain rfl | h := row_or_later h
  · exact keyMessage_ranges payload s
  obtain rfl | h := row_or_later h
  · exact keyClearMessage_ranges payload s
  obtain rfl | h := row_or_later h
  · exact tableEntryMessage_ranges payload s
  obtain rfl | h := row_or_later h
  · exact tableCommitMessage_ranges payload s
  obtain rfl | h := row_or_later h
  · exact checkInMessage_ranges payload s
  obtain rfl | h := row_or_later h
  · exact checkOutMessage_ranges payload s
  obtain rfl | h := row_or_later h
  · exact holdMessage_ranges payload s
  obtain rfl | h := row_or_later h
  · exact packagesMessage_ranges payload s
  obtain rfl | h := row_or_later h
  · exact .of_kept (t := (collectRecords _ s).1) (by simp)
  obtain rfl | h := row_or_later h
  · exact .of_kept (t := (releaseThrough _ s).1) (by simp)
  obtain rfl | h := row_or_later h
  · exact voidSeq_ranges _ s
  obtain rfl | h := row_or_later h
  · exact lockMessage_ranges payload s
  cases h

/-- The presence update takes a POLL's clamped setting, or the one that stands (R148, R149). -/
theorem bringOnline_ranges (kind : Byte) (payload : List Byte) (s : State) :
    RangesKept s (bringOnline (s.settingAfter kind payload) s) := by
  have hsetting : LineSound s → 1 ≤ s.settingAfter kind payload ∧ s.settingAfter kind payload ≤ 60 :=
    fun ⟨_, _, _, hlow, hhigh, _⟩ => by
      unfold State.settingAfter
      split
      · simp only [clampIn]
        omega
      · exact ⟨hlow, hhigh⟩
  have hline : RangesKept s { s with line := { s.line with
      setting := s.settingAfter kind payload, watchdog := s.settingAfter kind payload, online := true } } :=
    .withLine fun h => by
      obtain ⟨hlow, hhigh⟩ := hsetting h
      obtain ⟨hdeaf, -, -, -, -, hframe⟩ := h
      refine ⟨hdeaf, ?_, hhigh, hlow, hhigh, hframe⟩
      simp only [true_iff]
      omega
  exact .ite hline (hline.trans (.of_kept (by simp)))

theorem addressedFrame_ranges (address : Half) (kind : Byte) (payload : List Byte) (s : State) :
    RangesKept s (addressedFrame address kind payload s) := by
  have hact : ∀ u, RangesKept u (addressedAct kind payload u).1 := fun u => by
    unfold addressedAct
    split
    · exact .refl u
    · split
      · exact .refl u
      · exact messageKind_ranges ‹_› _ _
  have hreply : ∀ (u : State) (reply : LineReply),
      RangesKept u { u with line := { u.line with receiver := .deaf, transmit := .waiting reply } } := fun u reply =>
    .withLine fun ⟨_, honline, hmost, hlow, hhigh, _⟩ => ⟨by simp, honline, hmost, hlow, hhigh, nofun⟩
  exact ((bringOnline_ranges kind payload s).trans ((hact _).trans (hreply _ _))).endEvent

theorem soundFrame_ranges (address : Half) (kind : Byte) (payload : List Byte) (s : State) :
    RangesKept s (soundFrame address kind payload s) := by
  have hbroadcast : RangesKept s (broadcastFrame kind payload s) := by
    unfold broadcastFrame
    split
    · exact .refl s
    · exact .ite (messageKind_ranges ‹_› _ _).endEvent (.refl s)
  exact .ite (.refl s) (.ite hbroadcast (.ite (addressedFrame_ranges _ _ _ s) (.refl s)))

/-- A receiver that is not DEAF takes another such state, with no more characters than a frame has (R143). -/
theorem setReceiver_ranges {r : Receiver} {s : State} (hs : s.line.receiver ≠ .deaf) (hr : r ≠ .deaf)
    (h : LineSound s → ∀ bs tl fe, r = .receiving bs tl fe → bs.length ≤ maxLineFrame) :
    RangesKept s (setReceiver r s) := by
  refine .withLine fun hl => ?_
  have hframe := h hl
  obtain ⟨hdeaf, honline, hmost, hlow, hhigh, -⟩ := hl
  exact ⟨iff_of_false hr (mt hdeaf.2 hs), honline, hmost, hlow, hhigh, hframe⟩

theorem frameArrives_ranges {s : State} (h : s.line.receiver ≠ .deaf) (bytes : List Byte) (tooLong framingError : Bool) :
    RangesKept s (frameArrives bytes tooLong framingError s) := by
  refine RangesKept.trans (setReceiver_ranges (r := .idle) h nofun fun _ => nofun) ?_
  unfold frameArrives
  dsimp only
  split
  · exact .ite (.withLine id) (.refl _)
  · exact soundFrame_ranges _ _ _ _

theorem wholeFrame_ranges (bytes : List Byte) (tooLong framingError : Bool) (s : State) :
    RangesKept s (wholeFrame bytes tooLong framingError s) := by
  unfold wholeFrame
  split <;> rename_i hreceiver
  · exact setReceiver_ranges (by simp [hreceiver]) nofun fun _ => nofun
  · exact frameArrives_ranges (by simp [hreceiver]) _ _ _
  · exact .ite (frameArrives_ranges (by simp [hreceiver]) _ _ _) (.refl s)
  · exact .refl s

theorem lineIdle_ranges (s : State) : RangesKept s (lineIdle s) := by
  unfold lineIdle
  split <;> rename_i hreceiver
  · exact setReceiver_ranges (by simp [hreceiver]) nofun fun _ => nofun
  · exact .refl s
  · exact frameArrives_ranges (by simp [hreceiver]) _ _ _
  · exact .refl s

/-- A character joins a frame that has room for it, or is discarded (R143). -/
theorem joinFrame_fits {bytes : List Byte} (h : bytes.length ≤ maxLineFrame) (tooLong framingError : Bool) (b : Byte)
    (stopLow : Bool) :
    ∃ bs tl fe, joinFrame bytes tooLong framingError b stopLow = .receiving bs tl fe ∧ bs.length ≤ maxLineFrame := by
  unfold joinFrame
  split
  · exact ⟨_, _, _, rfl, h⟩
  · exact ⟨_, _, _, rfl, by simp only [List.length_append, List.length_singleton]; omega⟩

theorem characterArrives_ranges (b : Byte) (stopLow : Bool) (s : State) :
    RangesKept s (characterArrives b stopLow s) := by
  unfold characterArrives
  split <;> rename_i hreceiver
  · exact .refl s
  · refine setReceiver_ranges (by simp [hreceiver]) nofun fun _ bs tl fe he => ?_
    cases he
    simp
  · rename_i bytes tl fe
    refine setReceiver_ranges (by simp [hreceiver]) ?_ fun hl bs tl' fe' he => ?_
    · unfold joinFrame
      split <;> exact nofun
    · obtain ⟨-, -, -, -, -, hframe⟩ := hl
      obtain ⟨_, _, _, hjoined, hfits⟩ := joinFrame_fits (hframe _ _ _ hreceiver) tl fe b stopLow
      rw [hjoined] at he
      cases he
      exact hfits
  · exact .refl s

theorem startReply_ranges (s : State) : RangesKept s (startReply s) := by
  unfold startReply
  split
  · rename_i hwaiting
    exact .withLine fun ⟨hdeaf, hrest⟩ => ⟨hdeaf.trans (by simp [hwaiting]), hrest⟩
  all_goals exact .refl s

theorem endReply_ranges (s : State) : RangesKept s (endReply s) := by
  unfold endReply
  split
  · exact .withLine fun ⟨_, honline, hmost, hlow, hhigh, _⟩ => ⟨by simp, honline, hmost, hlow, hhigh, nofun⟩
  all_goals exact .refl s

theorem whenLineRuns_ranges {f : State → State} (hf : ∀ u, RangesKept u (f u)) (s : State) :
    RangesKept s (whenLineRuns f s) := .ite (hf s) (.refl s)

end Sys2Proof.Machine
end

