-- ==== Sys2Proof/Proofs/RangeInvariant.lean ====
section
/-!
HEADLINE. Every step keeps the ranges: the set port's commands, the paths' events, the engine, and the dispatch over all
rows (R3, R17, R34, R45, R52, R107, R123, R147, R150).
-/
namespace Sys2Proof.Machine

/-! ### Commands of the set port (R155) -/

theorem clearFlagsCommand_ranges (args : List Byte) (s : State) : RangesKept s (clearFlagsCommand args s) := by
  have hstatus : ∀ st, RangesKept s { s with status := st } := fun st => .of_kept (by simp)
  have hfolio : ∀ st f, RangesKept s (setFolio f { s with status := st }) := fun st f => .of_kept (by simp)
  exact (RangesKept.ite (hfolio _ _) (hstatus _)).endEvent.placeReply _ _ _

/-- An accepted SELECT writes of a path's ranges the starvation counter alone, to 0 (R4). -/
theorem afterSelect_ranges (selected : Option Nat) (p : PathId) (s : State) :
    RangesKept s (s.setPath p ((s.path p).select selected)) :=
  .setPath fun ⟨hfifo, hcells, hassembly, _⟩ => ⟨hfifo, hcells, hassembly, Nat.zero_le _⟩

theorem selectCommand_ranges (args : List Byte) (s : State) : RangesKept s (selectCommand args s) := by
  unfold selectCommand
  dsimp only
  split
  · exact (RangesKept.refl s).placeReply _ _ _
  · exact .ite ((afterSelect_ranges _ _ s).placeReply _ _ _) (.ite ((RangesKept.refl s).placeReply _ _ _)
      (((afterSelect_ranges _ _ s).trans (judge_ranges _ _)).endEvent.placeReply _ _ _))

theorem tableTestCommand_ranges (args : List Byte) (s : State) : RangesKept s (tableTestCommand args s) := by
  have htable : ∀ i, RangesKept s (s.setTable i { s.table i with diagHeld := true }) := fun i => .setTable id
  unfold tableTestCommand
  split
  · exact (RangesKept.refl s).placeReply _ _ _
  · exact (htable _).placeReply _ _ _

theorem acceptOrder_ranges (o : OfferEntry) (f : Folio) (c : Charge) (s : State) :
    RangesKept s (acceptOrder o f c s) := by
  have hcharge : RangesKept s (grantCharge f c s) := .of_kept (by simp)
  have hwaits : ∀ w (u : State), RangesKept u (acceptStore w 0x20 [] u) := fun w u => .of_kept (by simp)
  have hcreate : ∀ title origin rating limit state charge (u : State),
      RangesKept u (createRecord title origin rating limit state charge u) := fun _ _ _ _ _ _ _ => .of_kept (by simp)
  unfold acceptOrder
  dsimp only
  split
  · exact (((hcharge.trans (settleRecord_ranges _ _)).trans (hwaits _ _)).trans (judgeReached_ranges _ _ _)).endEvent
  · exact (((hcharge.trans (hcreate _ _ _ _ _ _ _)).trans (hwaits _ _)).trans (judgeReached_ranges _ _ _)).endEvent

theorem orderCommand_ranges (args : List Byte) (s : State) : RangesKept s (orderCommand args s) := by
  unfold orderCommand
  dsimp only
  repeat' split
  case h_2 => exact acceptOrder_ranges _ _ _ s
  all_goals exact (RangesKept.refl s).placeReply _ _ _

theorem countWrong_replied_ranges (code : Byte) (r : ResultCode) (s : State) :
    RangesKept s (lockReply code r (endEvent (countWrong s))) := (countWrong_ranges s).endEvent.placeReply _ _ _

theorem enterPinCommand_ranges (args : List Byte) (s : State) : RangesKept s (enterPinCommand args s) := by
  have hrefused : ∀ code, RangesKept s (lockReply 0x30 code s) := fun code => (RangesKept.refl s).placeReply _ _ _
  unfold enterPinCommand
  dsimp only
  split
  · exact hrefused _
  · split
    · exact hrefused _
    · rename_i pin hpin
      have hunlock : RangesKept s (applyLock s.lock.unlock s) := applyLock_ranges fun hl => hl.unlock (by simp [hpin])
      exact .ite (hunlock.endEvent.placeReply _ _ _) (countWrong_replied_ranges _ _ s)

theorem acceptLock_ranges {l : Lock} {s : State} (w : Waiting) (code : Byte) (h : s.lock.InRange → l.InRange) :
    RangesKept s (acceptLock w code l s) := by
  have hlisted := (applyLock_ranges h).listSlot lockSlot
  exact (hlisted.trans (.of_kept (by simp))).endEvent

theorem setPinCommand_ranges (args : List Byte) (s : State) : RangesKept s (setPinCommand args s) := by
  unfold setPinCommand
  dsimp only
  split
  · exact (RangesKept.refl s).placeReply _ _ _
  · split
    · exact acceptLock_ranges _ _ fun hl => hl.withPin fun _ => pinArg_legal
    · exact .ite (acceptLock_ranges _ _ fun hl => hl.clearWrong.withPin fun _ => pinArg_legal)
        (countWrong_replied_ranges _ _ s)

theorem setCeilingCommand_ranges (args : List Byte) (s : State) : RangesKept s (setCeilingCommand args s) := by
  unfold setCeilingCommand
  dsimp only
  split
  · exact (RangesKept.refl s).placeReply _ _ _
  · split
    · exact acceptLock_ranges _ _ fun hl => hl.setCeiling _
    · exact .ite (acceptLock_ranges _ _ fun hl => (hl.setCeiling _).clearWrong) (countWrong_replied_ranges _ _ s)

theorem relockCommand_ranges (args : List Byte) (s : State) : RangesKept s (relockCommand args s) := by
  have hended : RangesKept s (applyLock s.lock.endUnlock s) := applyLock_ranges Lock.InRange.endUnlock
  exact .ite ((RangesKept.refl s).placeReply _ _ _) (hended.endEvent.placeReply _ _ _)

theorem setRoomCommand_ranges (args : List Byte) (s : State) : RangesKept s (setRoomCommand args s) := by
  have hroom : ∀ room, RangesKept s (acceptStore .setRoom 0x40 [] (listSlot configSlot { s with room := room })) :=
    fun room => .of_kept (by simp)
  exact .ite ((RangesKept.refl s).placeReply _ _ _) (.ite ((RangesKept.refl s).placeReply _ _ _) (hroom _).endEvent)

/-! ### The engine (R24, R27, R32) -/

/-- A key miss raises the starvation counter to 16 at most (R17). -/
theorem missCell_ranges (p : PathId) (selectTaken : Bool) (s : State) : RangesKept s (missCell p selectTaken s) := by
  have hstarves : (s.path p).sound → ∀ n, ({ s.path p with
      misses := (s.path p).misses + 1, progress := some ⟨fillCell, .leaving .fill⟩, keyAbsent := true
      starvation := min starvationLimit n } : Path).sound := fun ⟨hfifo, hcells, hassembly, _⟩ n =>
    ⟨hfifo, hcells, hassembly, Nat.min_le_left _ _⟩
  unfold missCell
  dsimp only
  split
  · exact .setPath id
  · have hmissed := RangesKept.setPath (s := s) fun h => hstarves h ((s.path p).starvation + 1)
    exact .ite (hmissed.report _) hmissed

theorem grant_ranges (r : Requester) (s : State) : RangesKept s (grant r s) := by
  have hengine : ∀ (u : State) engine, RangesKept u { u with engine := engine } := fun u engine => .of_kept (by simp)
  have hcell : ∀ p c b, RangesKept s (grantCell p c b s) := fun p c b => by
    unfold grantCell
    dsimp only
    split
    · exact (hengine s _).trans (missCell_ranges p b _)
    · exact ((hengine s _).trans (hengine _ _)).trans (.setPath id)
  unfold grant
  split
  · split
    · exact .of_kept (by simp)
    · exact .refl s
  · split
    · exact hcell _ _ _
    all_goals exact .refl s

theorem arbitrate_ranges (n : Nat) (s : State) : RangesKept s (arbitrate n s) := by
  induction n generalizing s with
  | zero => exact .refl s
  | succ n ih =>
    unfold arbitrate
    split
    · exact .refl s
    · split
      · exact .refl s
      · exact (grant_ranges _ s).trans (ih _)

theorem engineTestCommand_ranges (args : List Byte) (s : State) : RangesKept s (engineTestCommand args s) := by
  unfold engineTestCommand
  dsimp only
  exact .ite ((RangesKept.refl s).placeReply _ _ _) (RangesKept.trans (.of_kept (by simp)) (arbitrate_ranges 3 _))

theorem completeGrant_ranges (s : State) : RangesKept s (completeGrant s) := by
  have hidle : RangesKept s { s with engine := { s.engine with serving := none } } := .of_kept (by simp)
  have hcell : ∀ p plain u, RangesKept u (finishCell p plain u) := fun p plain u => by
    unfold finishCell
    split
    · exact .setPath id
    · exact .setPath id
    all_goals exact .refl u
  have htest : ∀ index plain u, RangesKept u (finishTest index plain u) := fun index plain u => .of_kept (by simp)
  unfold completeGrant
  split
  · exact .refl s
  · dsimp only
    split
    · exact (hidle.trans (hcell _ _ _)).trans (arbitrate_ranges 3 _)
    · exact (hidle.trans (htest _ _ _)).trans (arbitrate_ranges 3 _)

/-! ### The end of a set port frame (R155) -/

/-- Every command of the table keeps the ranges. -/
theorem setCommand_ranges {code : Byte} {c : SetCommand} (hc : setCommand code = some c) (args : List Byte) (s : State) :
    RangesKept s (c.run args s) := by
  have hreply : ∀ code r data, RangesKept s (placeReply code r data s) := fun _ _ _ =>
    (RangesKept.refl s).placeReply _ _ _
  unfold setCommand at hc
  obtain rfl | hc := row_or_later hc
  · exact .refl s
  obtain rfl | hc := row_or_later hc
  · exact hreply _ _ _
  obtain rfl | hc := row_or_later hc
  · exact clearFlagsCommand_ranges args s
  obtain rfl | hc := row_or_later hc
  · exact .of_kept ⟨rfl, rfl, rfl, rfl, rfl, rfl, rfl, rfl, rfl⟩
  obtain rfl | hc := row_or_later hc
  · exact selectCommand_ranges args s
  obtain rfl | hc := row_or_later hc
  · dsimp only [readPathCommand]
    split <;> exact hreply _ _ _
  obtain rfl | hc := row_or_later hc
  · exact engineTestCommand_ranges args s
  obtain rfl | hc := row_or_later hc
  · exact .ite (hreply _ _ _) (hreply _ _ _)
  obtain rfl | hc := row_or_later hc
  · exact .ite (hreply _ _ _) (hreply _ _ _)
  obtain rfl | hc := row_or_later hc
  · exact tableTestCommand_ranges args s
  obtain rfl | hc := row_or_later hc
  · exact orderCommand_ranges args s
  obtain rfl | hc := row_or_later hc
  · exact hreply _ _ _
  obtain rfl | hc := row_or_later hc
  · dsimp only [readRecordCommand]
    (repeat' split) <;> exact hreply _ _ _
  obtain rfl | hc := row_or_later hc
  · exact enterPinCommand_ranges args s
  obtain rfl | hc := row_or_later hc
  · exact setPinCommand_ranges args s
  obtain rfl | hc := row_or_later hc
  · exact setCeilingCommand_ranges args s
  obtain rfl | hc := row_or_later hc
  · exact relockCommand_ranges args s
  obtain rfl | hc := row_or_later hc
  · exact setRoomCommand_ranges args s
  obtain rfl | hc := row_or_later hc
  · exact hreply _ _ _
  obtain rfl | hc := row_or_later hc
  · exact RangesKept.endEvent (.of_kept (by simp))
  cases hc

theorem setFrame_ranges (code : Byte) (args : List Byte) (s : State) : RangesKept s (setFrame code args s) := by
  have hport : ∀ port, RangesKept s { s with port := port } := fun port => .of_kept (by simp)
  by_cases hrun : s.phase ≠ .running ∨ s.port.frame = .abandoned
  · rw [setFrame_notTaken hrun]
    exact hport _
  · obtain ⟨hphase, hframe⟩ := not_or.1 hrun
    rw [not_not] at hphase
    cases hd : s.port.busy.discardsFrame code with
    | true =>
      rw [setFrame_discarded hphase hframe hd]
      exact hport _
    | false =>
      have hover : RangesKept s (s.frameOver (1 + args.length)) := hport _
      rw [setFrame_taken hphase hframe hd]
      unfold takeCommand SetCommand.take
      split
      · exact hover.placeReply _ _ _
      · exact .ite (hover.placeReply _ _ _) (hover.trans (setCommand_ranges ‹_› _ _))

/-! ### The paths' events (R1 to R3, R13, R14, R16) -/

/-- A complete cell is queued where it has room and a good sync mark, or dropped (R2, R3). -/
theorem cellComplete_ranges {p : PathId} {c : Cell} {s : State} (hc : (s.path p).sound → c.length = cellBytes) :
    RangesKept s (cellComplete p c s) := by
  unfold cellComplete
  dsimp only
  split
  · exact .setPath fun ⟨hfifo, hcells, _, hstarves⟩ => ⟨hfifo, hcells, nofun, hstarves⟩
  · rename_i hsync
    split
    · exact RangesKept.report (.setPath fun ⟨hfifo, hcells, _, hstarves⟩ => ⟨hfifo, hcells, nofun, hstarves⟩) _
    · refine .setPath fun hs => ?_
      have hlength := hc hs
      obtain ⟨-, hcells, -, hstarves⟩ := hs
      refine ⟨?_, fun d hd => ?_, nofun, hstarves⟩
      · simp only [List.length_append, List.length_singleton]
        omega
      · rcases List.mem_append.1 hd with hd | hd
        · exact hcells d hd
        · rw [List.mem_singleton.1 hd]
          exact ⟨hlength, not_not.1 hsync⟩

/-- A path's incomplete cell takes a new content, shorter than a cell (R1). -/
theorem assembly_sound {x : Path} {bs : List Byte} (syncErrors : Word) (h : x.sound) (hpos : 1 ≤ bs.length)
    (hshort : bs.length < cellBytes) : ({ x with assembly := some bs, syncErrors := syncErrors } : Path).sound := by
  obtain ⟨hfifo, hcells, -, hstarves⟩ := h
  refine ⟨hfifo, hcells, fun bs' hbs => ?_, hstarves⟩
  cases hbs
  exact ⟨hpos, hshort⟩

theorem inputStrobe_ranges (p : PathId) (mark : Bool) (b : Byte) (s : State) :
    RangesKept s (inputStrobe p mark b s) := by
  have hbegun : ∀ syncErrors, RangesKept s (s.setPath p { s.path p with
      assembly := some [b], syncErrors := syncErrors }) := fun syncErrors =>
    .setPath fun h => assembly_sound syncErrors h (by simp) (by simp)
  unfold inputStrobe
  dsimp only
  split
  · split
    · exact hbegun _
    · exact hbegun _
    · exact .refl s
    · rename_i bs hassembly
      split
      · refine cellComplete_ranges fun ⟨_, _, hshort, _⟩ => ?_
        obtain ⟨-, hlt⟩ := hshort bs hassembly
        simp only [List.length_append, List.length_singleton]
        omega
      · exact .setPath fun h => assembly_sound (s.path p).syncErrors h (by simp) (by simp; omega)
  · exact .refl s

/-- A path that takes its head cell has the rest queued (R13). -/
theorem takeCell_ranges (p : PathId) (s : State) : RangesKept s (takeCell p s) := by
  have hkey : ∀ c u, RangesKept u (keyCheck p c u) := fun c u => by
    unfold keyCheck
    split
    · exact missCell_ranges p false u
    · refine RangesKept.trans (.setPath fun ⟨hfifo, hcells, hassembly, _⟩ => ?_) (arbitrate_ranges 3 _)
      exact ⟨hfifo, hcells, hassembly, Nat.zero_le _⟩
  have htreat : ∀ c u, RangesKept u (treatCell p c u) := fun c u => by
    have hleave : ∀ d how, RangesKept u (leaveCell p d how u) := fun _ _ => .setPath id
    unfold treatCell
    split
    case h_1 => exact .refl u
    case h_2 | h_8 | h_9 => exact .ite (hkey c u) (hleave _ _)
    all_goals exact hleave _ _
  unfold takeCell
  dsimp only
  split
  · rename_i c rest _ hfifo
    have htaken : RangesKept s (s.setPath p { s.path p with fifo := rest, taken := (s.path p).taken + 1 }) := by
      refine .setPath fun ⟨hlength, hcells, hassembly, hstarves⟩ => ⟨?_, fun d hd => ?_, hassembly, hstarves⟩
      · rw [hfifo, List.length_cons] at hlength
        exact Nat.le_of_succ_le hlength
      · exact hcells d (hfifo ▸ List.mem_cons_of_mem _ hd)
    exact .ite (htaken.trans (htreat c _)) htaken
  · exact .refl s
  · exact .refl s

theorem cellLeft_ranges (p : PathId) (s : State) : RangesKept s (cellLeft p s) := by
  unfold cellLeft
  dsimp only
  split
  case h_1 | h_2 | h_3 => exact .setPath id
  all_goals exact .refl s

/-! ### Every row, and the step -/

/-- Every row keeps the ranges: the ends of set port frames, the message frames, and the rest one by one. -/
theorem exec_ranges (c : Instr) (s : State) : ∃ t, exec c s = .next t ∧ RangesKept s t := by
  cases hset : setPortFrame c with
  | some frame => exact ⟨_, exec_setFrame hset, setFrame_ranges _ _ s⟩
  | none =>
  cases hline : linePortFrame c with
  | some frame => exact ⟨_, exec_messageFrame hline, whenLineRuns_ranges (fun u => wholeFrame_ranges _ _ _ u) s⟩
  | none =>
  cases c with
  | cellArrives p b => exact ⟨_, rfl, inputStrobe_ranges p false b s⟩
  | cellInputStrobe p mark b => exact ⟨_, rfl, inputStrobe_ranges p mark b s⟩
  | cellTake p => exact ⟨_, rfl, .ite (takeCell_ranges p s) (.refl s)⟩
  | cellLeaves p => exact ⟨_, rfl, cellLeft_ranges p s⟩
  | engineComplete => exact ⟨_, rfl, completeGrant_ranges s⟩
  | slotWriteComplete => exact ⟨_, rfl, completeWrite_ranges s⟩
  | resetTakesEffect => exact ⟨_, rfl, resetEvent_ranges s⟩
  | setFrameStart =>
    refine ⟨_, rfl, ?_⟩
    unfold frameStart
    split <;> exact .of_kept (by simp)
  | setFrameDiscarded frame =>
    cases frame with
    | nil => exact ⟨closeFrame s, rfl, .of_kept (by simp [closeFrame])⟩
    | cons code args => cases hset
  | lineIdleDetected => exact ⟨_, rfl, whenLineRuns_ranges lineIdle_ranges s⟩
  | lineFrameIgnored bytes framingError tooLong =>
    exact ⟨_, rfl, whenLineRuns_ranges (fun u => wholeFrame_ranges _ _ _ u) s⟩
  | lineCharacterArrives b stopLow =>
    exact ⟨_, rfl, whenLineRuns_ranges (fun u => characterArrives_ranges b stopLow u) s⟩
  | replyTransmitStart => exact ⟨_, rfl, whenLineRuns_ranges startReply_ranges s⟩
  | replyTransmitEnd => exact ⟨_, rfl, whenLineRuns_ranges endReply_ranges s⟩
  | secondTick order => exact ⟨_, rfl, whenRunning_ranges (fun u => second_ranges order u) s⟩
  | minuteOfTheTimebase order => exact ⟨_, rfl, whenRunning_ranges (fun u => minute_ranges order u) s⟩
  | midnightDayChange => exact ⟨_, rfl, whenRunning_ranges (fun u => .ite (midnight_ranges u) (.refl u)) s⟩
  | previewLapse seq => exact ⟨_, rfl, whenRunning_ranges (fun u => lastPreviewMinute_ranges _ seq u) s⟩
  | autoCharge seq => exact ⟨_, rfl, whenRunning_ranges (fun u => lastPreviewMinute_ranges _ seq u) s⟩
  | windowEnd seq => exact ⟨_, rfl, whenRunning_ranges (fun u => lastWindowMinute_ranges seq u) s⟩
  | keyLifeExpiry context parity =>
    exact ⟨_, rfl, whenRunning_ranges (fun u => expireHalf_ranges context parity u) s⟩
  | unlockExpiry =>
    refine ⟨_, rfl, whenRunning_ranges (fun u => ?_) s⟩
    split
    · rename_i hlast
      exact expireUnlock_ranges hlast.1
    · exact .refl u
  | lockoutEnd => exact ⟨_, rfl, whenRunning_ranges (fun u => .ite (endLockout_ranges u) (.refl u)) s⟩
  | watchdogExpiry => exact ⟨_, rfl, whenRunning_ranges (fun u => .ite (goOffline_ranges u) (.refl u)) s⟩
  | scanStep table => exact ⟨_, rfl, .ite (scanStep_ranges table s) (.refl s)⟩
  | liveTableUpset table index entry => exact ⟨_, rfl, .ite (upset_ranges table index entry s) (.refl s)⟩
  | powerLoss => exact ⟨_, rfl, losePower_ranges s⟩
  | powerOnReset => exact ⟨_, rfl, applyPower_ranges s⟩
  | pinReset => exact ⟨_, rfl, .ite (.refl s) (takeReset_ranges s)⟩
  | pinResetRelease => exact ⟨_, rfl, .ite (.of_kept (by simp [releaseReset])) (.refl s)⟩
  | startUpCheckComplete => exact ⟨_, rfl, .ite (completeCheck_ranges s) (.refl s)⟩
  | unknownCommand | nop | readStatus | clearFlags | setMasks | select | readPath | engineTest | readChannel | readOffer
  | tableTest | order | readFolio | readRecord | enterPin | setPin | setCeiling | relock | setRoom | readTime
  | reset => cases hset
  | lineUnknownKind | poll | time | key | keyClear | tableEntry | tableCommit | checkIn | checkOut | hold | packages
  | collect | release | void | lock => cases hline

/-- Taking a command off the queue writes nothing that the ranges are of, and every row keeps them. -/
theorem step_ranges {s t : State} (h : step s = .next t) : RangesKept s t := by
  unfold step at h
  split at h
  · cases h
    exact .refl s
  · rename_i c rest _
    have hqueue : RangesKept s { s with pending := rest } := .of_kept (by simp)
    obtain ⟨u, he, hu⟩ := exec_ranges c { s with pending := rest }
    rw [he] at h
    cases h
    exact hqueue.trans hu

/-- Settles O58: each range read from what a step keeps of all of them. -/
theorem stepKeepsRanges : Obligations.StepKeepsRanges := by
  refine ⟨fun s t hlock hstep => ?_, fun s t hstep => ?_⟩
  · exact (Lock.sound_iff _).2 ((step_ranges hstep).lock ((Lock.sound_iff _).1 hlock))
  · have hkept := step_ranges hstep
    exact ⟨fun ⟨ha, hb⟩ => ⟨hkept.paths .a ha, hkept.paths .b hb⟩,
      fun ⟨hchannels, hoffers⟩ => ⟨hkept.tables .channel hchannels, hkept.tables .offer hoffers⟩, hkept.keys, hkept.time,
      hkept.line⟩

end Sys2Proof.Machine
end

