-- ==== Sys2Proof/Proofs/LockLaws.lean ====
section
/-!
SUPPORT. What it leaves that the lock record takes a new content (R107), the record after each change in the words of the
statements (R109 to R114), and the answers of the PIN commands by their arguments and the record (R108 to R114).
-/
namespace Sys2Proof.Machine

/-! ### The lock record takes a new content (R107) -/

/-- Between `s` and `t` the lock record has taken the content `l`: the lock slot waits in the dirty list when a field it
holds has changed, the paths stand judged when the effective ceiling has changed and as they were when it has not, and
nothing else has changed but what admission can change. -/
structure LockTaken (l : Lock) (s t : State) : Prop where
  lock : t.lock = l
  dirty : l.stored ≠ s.lock.stored → lockSlot ∈ t.store.dirty
  judged : l.ceiling ≠ s.lock.ceiling → t.judgedAfresh
  quiet : l.ceiling = s.lock.ceiling → t.pathA = s.pathA ∧ t.pathB = s.pathB ∧ t.log = s.log
  rest : { t.withAdmissionOf s with lock := s.lock } = s

/-- Where both states agree in what a judging reads, both stand judged or neither does. -/
theorem judgedAfresh_congr {s t : State} (ha : t.pathA = s.pathA) (hb : t.pathB = s.pathB)
    (hc : t.channels = s.channels) (ho : t.offers = s.offers) (hl : t.lock = s.lock) (hf : t.folio = s.folio)
    (hg : t.log = s.log) (hv : t.previewed = s.previewed) (h : s.judgedAfresh) : t.judgedAfresh := fun p =>
  pathJudged_congr (by cases p <;> assumption) hc ho hl hf hg hv (h p)

namespace LockTaken

variable {l : Lock} {s t : State}

/-- No command is accepted or released by it. -/
theorem port (h : LockTaken l s t) : t.port = s.port :=
  (congrArg State.port h.rest :)

theorem report (h : LockTaken l s t) (f : DetailFlag) : LockTaken l s (report f t) where
  lock := by simpa using h.lock
  dirty hne := by simpa using h.dirty hne
  judged hne := judgedAfresh_congr (by simp) (by simp) (by simp) (by simp) (by simp) (by simp) (by simp) (by simp)
    (h.judged hne)
  quiet heq := by simpa using h.quiet heq
  rest := by simpa [State.withAdmissionOf] using h.rest

theorem listSlot (h : LockTaken l s t) (k : Nat) : LockTaken l s (listSlot k t) where
  lock := by simpa using h.lock
  dirty hne := mem_listSlot_of_mem (h.dirty hne)
  judged hne := judgedAfresh_congr (by simp) (by simp) (by simp) (by simp) (by simp) (by simp) (by simp) (by simp)
    (h.judged hne)
  quiet heq := by simpa using h.quiet heq
  rest := by simpa [State.withAdmissionOf] using h.rest

end LockTaken

/-- The record written and its slot listed when a field it holds has changed, before the paths judge. -/
def State.lockWritten (l : Lock) (s : State) : State :=
  if l.stored = s.lock.stored then { s with lock := l } else listSlot lockSlot { s with lock := l }

theorem applyLock_of_ceiling_eq {l : Lock} {s : State} (h : l.ceiling = s.lock.ceiling) :
    applyLock l s = s.lockWritten l :=
  if_pos h

theorem applyLock_of_ceiling_ne {l : Lock} {s : State} (h : l.ceiling ≠ s.lock.ceiling) :
    applyLock l s = judgeBoth (s.lockWritten l) :=
  if_neg h

theorem lockWritten_dirty {l : Lock} {s : State} (h : l.stored ≠ s.lock.stored) :
    lockSlot ∈ (s.lockWritten l).store.dirty := by
  rw [State.lockWritten, if_neg h]
  exact mem_listSlot _ _

theorem lockWritten_lists (l : Lock) (s : State) : ListsSlots s (s.lockWritten l) := by
  have hwritten : ListsSlots s { s with lock := l } := .of_kept ⟨rfl, rfl⟩
  unfold State.lockWritten
  split
  · exact hwritten
  · exact hwritten.listSlot lockSlot

/-- The write of the record leaves everything but the record and the store as it is. -/
@[simp] theorem lockWritten_keeps (l : Lock) (s : State) :
    (s.lockWritten l).lock = l ∧ (s.lockWritten l).pathA = s.pathA ∧ (s.lockWritten l).pathB = s.pathB ∧
      (s.lockWritten l).log = s.log ∧ (s.lockWritten l).status = s.status := by
  unfold State.lockWritten
  split <;> simp

theorem applyLock_lists (l : Lock) (s : State) : ListsSlots s (applyLock l s) := by
  by_cases h : l.ceiling = s.lock.ceiling
  · exact applyLock_of_ceiling_eq h ▸ lockWritten_lists l s
  · exact applyLock_of_ceiling_ne h ▸ (lockWritten_lists l s).trans (judgeBoth_lists _)

/-- All that it leaves, once for every change of the record. -/
theorem applyLock_taken (l : Lock) (s : State) : LockTaken l s (applyLock l s) where
  lock := by
    by_cases h : l.ceiling = s.lock.ceiling
    · simp [applyLock_of_ceiling_eq h]
    · simp [applyLock_of_ceiling_ne h]
  dirty hne := by
    by_cases h : l.ceiling = s.lock.ceiling
    · exact applyLock_of_ceiling_eq h ▸ lockWritten_dirty hne
    · exact applyLock_of_ceiling_ne h ▸ (judgeBoth_lists _).dirty _ (lockWritten_dirty hne)
  judged hne := applyLock_of_ceiling_ne hne ▸ judgeBoth_judgedAfresh _
  quiet heq := by simp [applyLock_of_ceiling_eq heq]
  rest := by simp [State.withAdmissionOf]

/-- A change of the record reports LOG_NEAR_FULL at most, when a preview starts (R88). -/
theorem applyLock_detail_ne (l : Lock) (s : State) {k : Nat} (hk : k ≠ 17) :
    (applyLock l s).status.detail.getLsbD k = s.status.detail.getLsbD k := by
  by_cases h : l.ceiling = s.lock.ceiling
  · simp [applyLock_of_ceiling_eq h]
  · have hjudged : (judgeBoth (s.lockWritten l)).status.detail.getLsbD k = _ := judgeReached_detail_ne true true _ hk
    rw [applyLock_of_ceiling_ne h, hjudged]
    simp

/-- The record as it stands, taken again, changes nothing. -/
theorem applyLock_self (s : State) : applyLock s.lock s = s := by
  rw [applyLock_of_ceiling_eq rfl, State.lockWritten, if_pos rfl]

/-! ### The record after each change, in the words of the statements (R110, R111, R114) -/

section
variable {l : Lock}

/-- A wrong attempt in the words of the statements; a count above 2 stands in no part (R107). -/
theorem wrongAttempt_eq (h : l.wrong ≤ 2) : l.wrongAttempt = l.afterWrong := by
  unfold Lock.wrongAttempt Lock.afterWrong
  by_cases htwo : l.wrong = 2
  · simp [htwo, lockoutLength]
  · rw [if_pos (by omega), if_neg htwo]

/-- A wrong attempt changes the count, which the lock slot holds. -/
theorem afterWrong_stored_ne : l.afterWrong.stored ≠ l.stored := by
  intro heq
  have hwrong : l.afterWrong.wrong = l.wrong := (congrArg Lock.wrong heq :)
  unfold Lock.afterWrong at hwrong
  split at hwrong <;> simp_all

theorem endUnlock_of_unlocked (h : l.state = .unlocked) : l.endUnlock = { l with state := .locked, minutes := 0 } := by
  simp [Lock.endUnlock, h]

theorem endUnlock_of_not_unlocked (h : l.state ≠ .unlocked) : l.endUnlock = l := by
  unfold Lock.endUnlock
  split <;> simp_all

/-- A new PIN, or none, in the words of the statement. -/
theorem withPin_eq (l : Lock) (pin : Option Pin) :
    l.withPin pin = if pin = none ∧ l.state = .unlocked then { l with pin := none, state := .locked, minutes := 0 }
      else { l with pin := pin } := by
  unfold Lock.withPin
  cases pin with
  | some pin => simp
  | none =>
    by_cases h : l.state = .unlocked
    · simp [h, endUnlock_of_unlocked]
    · simp [h, endUnlock_of_not_unlocked]

end

/-- A wrong attempt is counted in the record, and the third is reported (R110). -/
theorem countWrong_taken {s : State} (h : s.lock.wrong ≤ 2) : LockTaken s.lock.afterWrong s (countWrong s) := by
  have htaken := applyLock_taken s.lock.afterWrong s
  unfold countWrong
  rw [wrongAttempt_eq h]
  split
  · exact htaken
  · exact htaken.report .lockoutStarted

theorem countWrong_lockout {s : State} (h : s.lock.wrong = 2) :
    (countWrong s).status.detail.getLsbD 12 = true := by
  simp only [countWrong, h, if_neg (show ¬2 + 1 < 3 by decide)]
  exact report_sets .lockoutStarted _

/-! ### The end of the event -/

section
variable {l : Lock} {s u : State} {n : Nat}

/-- A PIN command that has changed the record answers with the lock report as the record then stands, and leaves what
the change has left: the lock slot listed, the paths judged or as they were. -/
theorem LockTaken.replied (h : LockTaken l (s.frameOver n) u) (hbusy : s.port.busy = .clear) (code : Byte)
    (r : ResultCode) :
    let t := lockReply code r (endEvent u)
    t.lock = l ∧ t.port = (s.replied code r (lockReport l)).port ∧ (l.stored ≠ s.lock.stored → t.listed lockSlot) ∧
      (l.ceiling ≠ s.lock.ceiling → t.judgedAfresh) ∧
      (l.ceiling = s.lock.ceiling → t.pathA = s.pathA ∧ t.pathB = s.pathB ∧ t.log = s.log) ∧
      t.status = u.status ∧ { t.withAdmissionOf s with lock := s.lock, port := s.port } = s := by
  have hclear : u.port.busy ≠ .reset := by simp [h.port, State.frameOver, hbusy]
  intro t
  have ht : t = placeReply code r (lockReport l) (startWrite u) := by
    simp [t, lockReply, endEvent_notReset hclear, h.lock]
  rw [ht]
  refine ⟨by simpa using h.lock, ?_, fun hne => ?_, fun hne => ?_, fun heq => ?_, by simp, ?_⟩
  · simp [placeReply, h.port, State.frameOver, State.replied, Frame.replace]
  · exact (listed_placeReply _ _ _ _ _).2 (listed_startWrite (h.dirty hne))
  · exact judgedAfresh_congr (by simp) (by simp) (by simp) (by simp) (by simp) (by simp) (by simp) (by simp)
      (h.judged hne)
  · simpa using h.quiet heq
  · calc _ = { { u.withAdmissionOf (s.frameOver n) with lock := (s.frameOver n).lock } with port := s.port } := by
          simp [State.withAdmissionOf]
      _ = { s.frameOver n with port := s.port } := by rw [h.rest]
      _ = s := rfl

/-- An accepted command that waits for the lock slot's write answers PENDING with the lock report, lists the slot
whatever has changed, and is in flight with cause STORE (R113, R135). -/
theorem acceptLock_leaves (w : Waiting) (code : Byte) (l : Lock) (s : State) (n : Nat) :
    let t := acceptLock w code l (s.frameOver n)
    t.lock = l ∧ t.listed lockSlot ∧ (l.ceiling ≠ s.lock.ceiling → t.judgedAfresh) ∧
      (l.ceiling = s.lock.ceiling → t.pathA = s.pathA ∧ t.pathB = s.pathB ∧ t.log = s.log) ∧
      t.port = { (s.replied code .pending (lockReport l)).port with busy := .store w } ∧
      { t.withAdmissionOf s with lock := s.lock, port := s.port } = s := by
  intro t
  set v := listSlot lockSlot (applyLock l (s.frameOver n)) with hv
  have h : LockTaken l (s.frameOver n) v := (applyLock_taken _ _).listSlot _
  have ht : t = startWrite (acceptStore w code (lockReport l) v) := by
    have hclear : (acceptStore w code (lockReport l) v).port.busy ≠ .reset := by
      simp [acceptStore, placeReply, setBusy]
    rw [← endEvent_notReset hclear, ← h.lock]
    rfl
  rw [ht]
  refine ⟨by simpa using h.lock, ?_, fun hne => ?_, fun heq => ?_, ?_, ?_⟩
  · exact listed_startWrite (mem_listSlot lockSlot _)
  · exact judgedAfresh_congr (by simp) (by simp) (by simp) (by simp) (by simp) (by simp) (by simp) (by simp)
      (h.judged hne)
  · simpa using h.quiet heq
  · simp [acceptStore, setBusy, placeReply, h.port, State.frameOver, State.replied, Frame.replace]
  · calc _ = { { v.withAdmissionOf (s.frameOver n) with lock := (s.frameOver n).lock } with port := s.port } := by
          simp [State.withAdmissionOf]
      _ = { s.frameOver n with port := s.port } := by rw [h.rest]
      _ = s := rfl

end

/-! ### The tests of R108 -/

section
variable {s : State} {args : List PinArg} {required : Bool}

theorem pinRefusal_closed (h : s.folio.state = .closed) : pinRefusal s args required = some .folioClosed :=
  if_pos h

theorem pinRefusal_badArg (h : s.folio.state ≠ .closed) (ha : .outOfForm ∈ args ∨ required = true ∧ .none ∈ args) :
    pinRefusal s args required = some .badArg := by
  rw [pinRefusal, if_neg h, if_pos (by simpa using ha)]

theorem pinRefusal_lockout (h : s.folio.state ≠ .closed) (ha : ¬(.outOfForm ∈ args ∨ required = true ∧ .none ∈ args))
    (hl : s.lock.state = .lockout) : pinRefusal s args required = some .lockout := by
  rw [pinRefusal, if_neg h, if_neg (by simpa using ha), if_pos hl]

theorem pinRefusal_none (h : s.folio.state ≠ .closed) (ha : ¬(.outOfForm ∈ args ∨ required = true ∧ .none ∈ args))
    (hl : s.lock.state ≠ .lockout) : pinRefusal s args required = none := by
  rw [pinRefusal, if_neg h, if_neg (by simpa using ha), if_neg hl]

end

theorem pin_eq_some_iff {a : PinArg} {pin : Pin} : a.pin = some pin ↔ a = .digits pin := by
  cases a <;> simp [PinArg.pin]

theorem pinArg_take {args : List Byte} {i n : Nat} (h : i + 3 < n) : pinArg (args.take n) i = pinArg args i := by
  simp only [pinArg, getD_take (show i < n by omega), getD_take (show i + 1 < n by omega),
    getD_take (show i + 2 < n by omega), getD_take h]

/-! ### The commands by their arguments and the record (R109, R111, R112, R114) -/

section
variable {args : List Byte} {s : State} {code : ResultCode} {pin : Pin}

theorem enterPin_refused (h : pinRefusal s [pinArg args 0] true = some code) :
    enterPinCommand args s = lockReply 0x30 code s := by
  simp [enterPinCommand, h]

theorem enterPin_noPin (h : pinRefusal s [pinArg args 0] true = none) (hp : s.lock.pin = none) :
    enterPinCommand args s = lockReply 0x30 .noPin s := by
  simp [enterPinCommand, h, hp]

theorem enterPin_right (h : pinRefusal s [pinArg args 0] true = none) (hp : s.lock.pin = some pin)
    (ha : pinArg args 0 = .digits pin) :
    enterPinCommand args s = lockReply 0x30 .ok (endEvent (applyLock s.lock.unlock s)) := by
  simp [enterPinCommand, h, hp, pin_eq_some_iff.2 ha]

theorem enterPin_wrong (h : pinRefusal s [pinArg args 0] true = none) (hp : s.lock.pin = some pin)
    (ha : pinArg args 0 ≠ .digits pin) :
    enterPinCommand args s = lockReply 0x30 .badPin (endEvent (countWrong s)) := by
  simp [enterPinCommand, h, hp, mt pin_eq_some_iff.1 ha]

theorem setPin_refused (h : pinRefusal s [pinArg args 0, pinArg args 4] false = some code) :
    setPinCommand args s = lockReply 0x31 code s := by
  simp [setPinCommand, h]

theorem setPin_first (h : pinRefusal s [pinArg args 0, pinArg args 4] false = none) (hp : s.lock.pin = none) :
    setPinCommand args s = acceptLock .setPin 0x31 (s.lock.withPin (pinArg args 4).pin) s := by
  simp [setPinCommand, h, hp]

theorem setPin_right (h : pinRefusal s [pinArg args 0, pinArg args 4] false = none) (hp : s.lock.pin = some pin)
    (ha : pinArg args 0 = .digits pin) :
    setPinCommand args s =
      acceptLock .setPin 0x31 ({ s.lock with wrong := 0 }.withPin (pinArg args 4).pin) s := by
  simp [setPinCommand, h, hp, pin_eq_some_iff.2 ha]

theorem setPin_wrong (h : pinRefusal s [pinArg args 0, pinArg args 4] false = none) (hp : s.lock.pin = some pin)
    (ha : pinArg args 0 ≠ .digits pin) :
    setPinCommand args s = lockReply 0x31 .badPin (endEvent (countWrong s)) := by
  simp [setPinCommand, h, hp, mt pin_eq_some_iff.1 ha]

theorem setCeiling_refused (h : pinRefusal s [pinArg args 1] false = some code) :
    setCeilingCommand args s = lockReply 0x32 code s := by
  simp [setCeilingCommand, h]

theorem setCeiling_noPin (h : pinRefusal s [pinArg args 1] false = none) (hp : s.lock.pin = none) :
    setCeilingCommand args s = acceptLock .setCeiling 0x32 { s.lock with guest := clampTo 7 (byteAt args 0) } s := by
  simp [setCeilingCommand, h, hp]

theorem setCeiling_right (h : pinRefusal s [pinArg args 1] false = none) (hp : s.lock.pin = some pin)
    (ha : pinArg args 1 = .digits pin) :
    setCeilingCommand args s =
      acceptLock .setCeiling 0x32 { s.lock with guest := clampTo 7 (byteAt args 0), wrong := 0 } s := by
  simp [setCeilingCommand, h, hp, pin_eq_some_iff.2 ha]

theorem setCeiling_wrong (h : pinRefusal s [pinArg args 1] false = none) (hp : s.lock.pin = some pin)
    (ha : pinArg args 1 ≠ .digits pin) :
    setCeilingCommand args s = lockReply 0x32 .badPin (endEvent (countWrong s)) := by
  simp [setCeilingCommand, h, hp, mt pin_eq_some_iff.1 ha]

theorem relock_closed (h : s.folio.state = .closed) : relockCommand args s = lockReply 0x33 .folioClosed s :=
  if_pos h

/-- In LOCKED and LOCKOUT there is nothing to end. -/
theorem relock_stays (h : s.folio.state ≠ .closed) (hl : s.lock.state ≠ .unlocked) (hs : s.settled = true) :
    relockCommand args s = lockReply 0x33 .ok s := by
  rw [relockCommand, if_neg h, endUnlock_of_not_unlocked hl, applyLock_self, endEvent_settled hs]

theorem relock_ends (h : s.folio.state ≠ .closed) (hl : s.lock.state = .unlocked) :
    relockCommand args s =
      lockReply 0x33 .ok (endEvent (applyLock { s.lock with state := .locked, minutes := 0 } s)) := by
  rw [relockCommand, if_neg h, endUnlock_of_unlocked hl]

end

/-! ### The commands as rows that are taken (R155) -/

section
variable {args : List Byte} {s : State} (h : s.takesCommand)
include h

theorem exec_enterPin (hn : 4 ≤ args.length) :
    exec (.enterPin args) s = .next (enterPinCommand args (s.frameOver (1 + args.length))) := by
  rw [exec_command (k := ⟨0x30, 4, enterPinCommand⟩) rfl h rfl hn (by decide)]
  simp only [enterPinCommand, pinArg_take (show 0 + 3 < 47 by decide)]

theorem exec_setPin (hn : 8 ≤ args.length) :
    exec (.setPin args) s = .next (setPinCommand args (s.frameOver (1 + args.length))) := by
  rw [exec_command (k := ⟨0x31, 8, setPinCommand⟩) rfl h rfl hn (by decide)]
  simp only [setPinCommand, pinArg_take (show 0 + 3 < 47 by decide), pinArg_take (show 4 + 3 < 47 by decide)]

theorem exec_setCeiling (hn : 5 ≤ args.length) :
    exec (.setCeiling args) s = .next (setCeilingCommand args (s.frameOver (1 + args.length))) := by
  rw [exec_command (k := ⟨0x32, 5, setCeilingCommand⟩) rfl h rfl hn (by decide)]
  simp only [setCeilingCommand, pinArg_take (show 1 + 3 < 47 by decide), byteAt_take (show 0 < 47 by decide)]

theorem exec_relock : exec (.relock args) s = .next (relockCommand args (s.frameOver (1 + args.length))) :=
  exec_command (k := ⟨0x33, 0, relockCommand⟩) rfl h rfl (Nat.zero_le _) (by decide)

end

end Sys2Proof.Machine
end

