-- ==== Sys2Proof/Proofs/LockStatements.lean ====
section
/-!
PROOFS. The lock unit's commands and message: ENTER_PIN and RELOCK (R109, R110, R114), SET_PIN and SET_CEILING (R111 to
R113), and LOCK (R117).
-/
namespace Sys2Proof.Machine

/-! ### A refusal, and a wrong attempt (R108, R110) -/

/-- A refusal replies with the record as it stands and changes nothing else. -/
theorem lockReply_frameOver (code : Byte) (r : ResultCode) (n : Nat) (s : State) :
    lockReply code r (s.frameOver n) = s.replied code r (lockReport s.lock) := rfl

/-- The tests of R108 read no part of the set port. -/
theorem pinRefusal_frameOver (s : State) (n : Nat) (args : List PinArg) (required : Bool) :
    pinRefusal (s.frameOver n) args required = pinRefusal s args required := rfl

section
variable {args : List Byte} {s : State} {code : ResultCode} (h : s.takesCommand)
include h

theorem exec_enterPin_refused (hn : 4 ≤ args.length) (hr : pinRefusal s [pinArg args 0] true = some code) :
    exec (.enterPin args) s = .next (s.replied 0x30 code (lockReport s.lock)) := by
  rw [exec_enterPin h hn, enterPin_refused (by rwa [pinRefusal_frameOver]), lockReply_frameOver]

theorem exec_setPin_refused (hn : 8 ≤ args.length)
    (hr : pinRefusal s [pinArg args 0, pinArg args 4] false = some code) :
    exec (.setPin args) s = .next (s.replied 0x31 code (lockReport s.lock)) := by
  rw [exec_setPin h hn, setPin_refused (by rwa [pinRefusal_frameOver]), lockReply_frameOver]

theorem exec_setCeiling_refused (hn : 5 ≤ args.length) (hr : pinRefusal s [pinArg args 1] false = some code) :
    exec (.setCeiling args) s = .next (s.replied 0x32 code (lockReport s.lock)) := by
  rw [exec_setCeiling h hn, setCeiling_refused (by rwa [pinRefusal_frameOver]), lockReply_frameOver]

end

/-- A wrong attempt that is answered: counted, its slot listed, the third reported. -/
theorem countWrong_replied {s : State} {n : Nat} (hbusy : s.port.busy = .clear) (hw : s.lock.wrong ≤ 2) (code : Byte) :
    let l := s.lock.afterWrong
    let t := lockReply code .badPin (endEvent (countWrong (s.frameOver n)))
    t.lock = l ∧ t.port = (s.replied code .badPin (lockReport l)).port ∧ t.listed lockSlot ∧
      (s.lock.wrong = 2 → t.status.detail.getLsbD 12 = true) ∧ (l.ceiling ≠ s.lock.ceiling → t.judgedAfresh) ∧
      (l.ceiling = s.lock.ceiling → t.pathA = s.pathA ∧ t.pathB = s.pathB ∧ t.log = s.log) ∧
      { t.withAdmissionOf s with lock := s.lock, port := s.port } = s := by
  have htaken : LockTaken s.lock.afterWrong (s.frameOver n) (countWrong (s.frameOver n)) :=
    countWrong_taken (s := s.frameOver n) hw
  obtain ⟨hlock, hport, hlisted, hjudged, hquiet, hstatus, hrest⟩ := htaken.replied hbusy code .badPin
  refine ⟨hlock, hport, hlisted afterWrong_stored_ne, fun htwo => ?_, hjudged, hquiet, hrest⟩
  rw [hstatus]
  exact countWrong_lockout htwo

/-! ### ENTER_PIN and RELOCK (R108 to R110, R114) -/

/-- The lock report in the words of the statement. -/
theorem lockReport_eq (l : Lock) :
    lockReport l =
      [match l.state with | .locked => (0 : Byte) | .unlocked => 1 | .lockout => 2] ++ be 1 l.minutes ++
        be 1 (3 - l.wrong) ++ [if l.pin = none then 0 else 1] ++ be 1 l.hard ++ be 1 l.guest ++
        be 1 (if l.state = .unlocked then l.hard else min l.guest l.hard) ++ be 1 l.lockouts := by
  have hstate : l.state.code = match l.state with | .locked => (0 : Byte) | .unlocked => 1 | .lockout => 2 := by
    cases l.state <;> rfl
  have hpin : flagByte l.pin.isSome = if l.pin = none then 0 else 1 := by
    cases l.pin <;> rfl
  rw [lockReport, hstate, hpin, Lock.ceiling]

/-- Settles O22: each refusal and each change of the record by the tests of R108 in order, and RELOCK by the record's
state. -/
theorem enterPinAndRelock : Obligations.EnterPinAndRelock := by
  refine ⟨?_, ?_⟩
  · intro args s h hs hn refused moved
    have hexec := exec_enterPin h hn
    set f := s.frameOver (1 + args.length) with hf
    have ⟨_, _, hbusy⟩ := h
    have hrefused := fun {code} => exec_enterPin_refused (code := code) h hn
    refine ⟨fun hc => hrefused (pinRefusal_closed hc), fun hc hbad => hrefused (pinRefusal_badArg hc ?_),
      fun entered hc hdigits => ?_⟩
    · rcases hbad with hnone | hform
      · simp [hnone]
      · simp [hform]
    · have hform : ¬(.outOfForm ∈ [pinArg args 0] ∨ true = true ∧ .none ∈ [pinArg args 0]) := by simp [hdigits]
      refine ⟨fun hl => hrefused (pinRefusal_lockout hc hform hl), fun hl => ?_⟩
      have hpassed : pinRefusal f [pinArg args 0] true = none := pinRefusal_none hc hform hl
      refine ⟨fun hp => ?_, fun hp => ?_, fun pin hp hne hw => ?_⟩
      · exact hexec.trans (congrArg _ (enterPin_noPin hpassed hp))
      · rw [enterPin_right hpassed hp hdigits] at hexec
        obtain ⟨hlock, hport, hlisted, hjudged, hquiet, -, hrest⟩ :=
          (applyLock_taken s.lock.unlock f).replied hbusy 0x30 .ok
        exact ⟨_, hexec, hlock, hport, hlisted, nofun, hjudged, hquiet, hrest⟩
      · rw [enterPin_wrong hpassed hp (by simpa [hdigits] using Ne.symm hne)] at hexec
        obtain ⟨hlock, hport, hlisted, hthird, hjudged, hquiet, hrest⟩ := countWrong_replied hbusy hw 0x30
        exact ⟨_, hexec, hlock, hport, fun _ => hlisted, fun _ => hthird, hjudged, hquiet, hrest⟩
  · intro args s h hs report
    have hexec := exec_relock (args := args) h
    set f := s.frameOver (1 + args.length) with hf
    have ⟨_, _, hbusy⟩ := h
    have hreport : report = lockReport := funext fun l => (lockReport_eq l).symm
    rw [hreport]
    refine ⟨fun hc => ?_, fun hc hl => ?_, fun hc hl => ?_⟩
    · rw [hexec, relock_closed (s := f) hc]
      rfl
    · have hfs : f.settled = true := by simpa [hf, State.settled, State.resetDue, State.frameOver] using hs
      rw [hexec, relock_stays (s := f) hc hl hfs]
      rfl
    · have hstored : ({ s.lock with state := .locked, minutes := 0 } : Lock).stored ≠ s.lock.stored := fun heq => by
        have hstate : LockState.locked = s.lock.state := (congrArg Lock.state heq :)
        simp [hl] at hstate
      rw [relock_ends (s := f) hc hl] at hexec
      obtain ⟨hlock, hport, hlisted, hjudged, hquiet, hstatus, hrest⟩ :=
        (applyLock_taken { s.lock with state := .locked, minutes := 0 } f).replied hbusy 0x33 .ok
      refine ⟨_, hexec, hlock, hlisted hstored, hport, fun hlt => hjudged ?_, fun hle => hquiet ?_, ?_, hrest⟩
      · simp only [Lock.ceiling, hl]
        simp
        omega
      · simp [Lock.ceiling, hl, hle]
      · exact (congrArg (fun x => x.detail.getLsbD 13) hstatus).trans (applyLock_detail_ne _ f (by decide))

/-! ### SET_PIN and SET_CEILING (R111 to R113) -/

/-- Settles O23: each refusal by the tests of R108 in order, the accepted command as the record with its new content, and
the wrong attempt. -/
theorem setPinAndSetCeiling : Obligations.SetPinAndSetCeiling := by
  refine ⟨?_, ?_⟩
  · intro args s h hs hn refused outOfForm judged accepted newPin changed
    have hexec := exec_setPin h hn
    set f := s.frameOver (1 + args.length) with hf
    have ⟨_, _, hbusy⟩ := h
    have hrefused := fun {code} => exec_setPin_refused (code := code) h hn
    have hform : outOfForm ↔
        .outOfForm ∈ [pinArg args 0, pinArg args 4] ∨ false = true ∧ .none ∈ [pinArg args 0, pinArg args 4] := by
      simp [outOfForm, eq_comm]
    have haccepted : ∀ l, setPinCommand args f = acceptLock .setPin 0x31 (l.withPin newPin) f → accepted (changed l) :=
      fun l heq => by
        rw [heq, withPin_eq] at hexec
        obtain ⟨hlock, hlisted, hjudged, hquiet, hport, hrest⟩ :=
          acceptLock_leaves .setPin 0x31 (changed l) s (1 + args.length)
        exact ⟨_, hexec, hlock, hlisted, ⟨hjudged, hquiet⟩, hport, hrest⟩
    refine ⟨fun hc => hrefused (pinRefusal_closed hc), fun hc hbad => hrefused (pinRefusal_badArg hc (hform.1 hbad)),
      fun hc hgood hl => hrefused (pinRefusal_lockout hc (mt hform.2 hgood) hl), fun hc hgood hl => ?_⟩
    have hpassed : pinRefusal f [pinArg args 0, pinArg args 4] false = none := pinRefusal_none hc (mt hform.2 hgood) hl
    refine ⟨fun hp => haccepted _ (setPin_first hpassed hp), fun pin hp ha => haccepted _ (setPin_right hpassed hp ha),
      fun pin hp ha hw => ?_⟩
    rw [setPin_wrong hpassed hp ha] at hexec
    obtain ⟨hlock, hport, hlisted, hthird, hjudged, hquiet, hrest⟩ := countWrong_replied hbusy hw 0x31
    exact ⟨_, hexec, hlock, hlisted, ⟨hjudged, hquiet⟩, hthird, hport, hrest⟩
  · intro args s h hs hn refused judged accepted level
    have hexec := exec_setCeiling h hn
    set f := s.frameOver (1 + args.length) with hf
    have ⟨_, _, hbusy⟩ := h
    have hrefused := fun {code} => exec_setCeiling_refused (code := code) h hn
    have hform : pinArg args 1 = .outOfForm ↔
        .outOfForm ∈ [pinArg args 1] ∨ false = true ∧ .none ∈ [pinArg args 1] := by
      simp [eq_comm]
    have hlevel : clampTo 7 (byteAt args 0) = level := by simp [clampTo, level]
    have haccepted : ∀ l, setCeilingCommand args f = acceptLock .setCeiling 0x32 l f → accepted l := fun l heq => by
      rw [heq] at hexec
      obtain ⟨hlock, hlisted, hjudged, hquiet, hport, hrest⟩ :=
        acceptLock_leaves .setCeiling 0x32 l s (1 + args.length)
      exact ⟨_, hexec, hlock, hlisted, ⟨hjudged, hquiet⟩, hport, hrest⟩
    refine ⟨fun hc => hrefused (pinRefusal_closed hc), fun hc hbad => hrefused (pinRefusal_badArg hc (hform.1 hbad)),
      fun hc hgood hl => hrefused (pinRefusal_lockout hc (mt hform.2 hgood) hl), fun hc hgood hl => ?_⟩
    have hpassed : pinRefusal f [pinArg args 1] false = none := pinRefusal_none hc (mt hform.2 hgood) hl
    refine ⟨fun hp => haccepted _ (hlevel ▸ setCeiling_noPin hpassed hp),
      fun pin hp ha => haccepted _ (hlevel ▸ setCeiling_right hpassed hp ha), fun pin hp ha hw => ?_⟩
    rw [setCeiling_wrong hpassed hp ha] at hexec
    obtain ⟨hlock, hport, hlisted, hthird, hjudged, hquiet, hrest⟩ := countWrong_replied hbusy hw 0x32
    exact ⟨_, hexec, hlock, hlisted, ⟨hjudged, hquiet⟩, hthird, hport, hrest⟩

/-! ### LOCK (R117) -/

section
variable {args : List Byte} {s : State}

theorem lockMessage_badArg (h : 2 ≤ byteAt args 1) : lockMessage args s = (s, .badArg) :=
  if_pos h

theorem lockMessage_sets (h : byteAt args 1 = 0) :
    lockMessage args s = (applyLock { s.lock with hard := min (byteAt args 0) 7 } s, .ok) := by
  simp [lockMessage, h, clampTo]

theorem lockMessage_clears (h : byteAt args 1 = 1) :
    lockMessage args s =
      (applyLock { s.lock with
        hard := min (byteAt args 0) 7, pin := none, state := .locked, minutes := 0, length := 0, wrong := 0
        lockouts := 0 } s, .ok) := by
  simp [lockMessage, h, clampTo, Lock.cleared]

/-- A LOCK that is taken is the lock unit's answer to it (R117). -/
theorem exec_lock {address : Half} {payload : List Byte} (h : s.takesMessage) (ha : s.answersTo address)
    (hn : 2 ≤ payload.length) (hl : payload.length ≤ 120) {t : State} {code : ResultCode}
    (hf : lockMessage payload (bringOnline s.line.setting s) = (t, code)) :
    exec (.lock address payload) s = .next (endEvent (t.replying address 0x80 [0x17, code.code])) :=
  exec_acked rfl h ha hl rfl (by decide) rfl hn hf

end

/-- Settles O40: the message is refused by its clear-PIN, or the record takes its new content once, after the presence
update. -/
theorem lockSetsCeilingAndClearsPin : Obligations.LockSetsCeilingAndClearsPin := by
  intro address payload s h hs ha hn hl u hard moved
  have hlock : u.lock = s.lock := by simp [u]
  have htakes : ∀ l, lockMessage payload u = (applyLock l u, .ok) → moved l := fun l hm => by
    have htaken := applyLock_taken l u
    have hlists : ListsSlots s (applyLock l u) := (bringOnline_lists _ s).trans (applyLock_lists l u)
    obtain ⟨hlisted, -, hjudged, -⟩ := endEvent_replying_leaves hs hlists address 0x80 [0x17, 0x00]
    refine ⟨_, exec_lock h ha hn hl hm, ?_, fun hne => hlisted _ (htaken.dirty (hlock ▸ hne)),
      fun hne p => hjudged p (htaken.judged (hlock ▸ hne) p), fun heq => ?_, ?_, ?_, ?_, ?_⟩ <;>
      simp only [ResultCode.code] <;> rw [endEvent_replying hs hlists]
    · simpa using htaken.lock
    · simpa [u] using htaken.quiet (hlock ▸ heq)
    · have hpresence := bringOnline_detail s.line.setting s (k := 13) (by decide)
      simpa [u] using (applyLock_detail_ne l u (by decide)).trans hpresence
    · simp only [startWrite_keeps]
      exact replying_line (by simp) _ _ _
    · simp
    · simp [State.withAdmissionOf, u]
  refine ⟨fun hbad => ?_, fun hzero => htakes _ ?_,
    fun hone => htakes _ ?_⟩
  · have hexec := exec_lock h ha hn hl (lockMessage_badArg hbad)
    exact hexec
  · rw [lockMessage_sets hzero, hlock]
  · rw [lockMessage_clears hone, hlock]

end Sys2Proof.Machine
end

