-- ==== Sys2Proof/Proofs/TimeLaws.lean ====
section
/-!
SUPPORT. The day change and what it leaves of an event (R75, R125, R126), the key halves as KEY and KEY_CLEAR write them
and as their lives end (R35 to R37), and the lock record at the end of an unlock and of a lockout (R115).
-/
namespace Sys2Proof.Machine

section
variable {s t u : State}

/-! ### The end of an event that lists slots (R134, R159) -/

/-- The end of an event that only lists slots begins a write at most. -/
theorem endEvent_of_lists (hs : s.settled = true) (h : ListsSlots s t) : endEvent t = startWrite t :=
  endEvent_writing fun hb => by
    rw [h.write]
    exact write_of_settled hs (h.busy hb)

theorem whenRunning_of_running {f : State → State} (h : s.phase = .running) : whenRunning f s = endEvent (f s) :=
  if_pos h

theorem whenRunning_of_not_running {f : State → State} (h : s.phase ≠ .running) : whenRunning f s = s :=
  if_neg h

/-! ### The day change (R75) -/

/-- The event has given the property clock the value `c` and made the day spend 0: the folio slot is listed where that
changes the folio record, and nothing else has changed. -/
structure DayChanged (c : Clock) (s t : State) : Prop where
  clock : t.clock = c
  folio : t.folio = { s.folio with daySpend := 0 }
  listed : s.folio.daySpend ≠ 0 → t.listed folioSlot
  store : s.folio.daySpend = 0 → t.store = s.store
  rest : { t with clock := s.clock, folio := s.folio, store := s.store } = s

theorem dayChange_spent (h : s.folio.daySpend ≠ 0) :
    dayChange s = listSlot folioSlot { s with folio := { s.folio with daySpend := 0 } } :=
  if_neg fun he => h (congrArg Folio.daySpend he).symm

theorem dayChange_unspent (h : s.folio.daySpend = 0) : dayChange s = s :=
  if_pos (by rw [← h])

@[simp] theorem dayChange_folio (s : State) : (dayChange s).folio = { s.folio with daySpend := 0 } :=
  setFolio_folio _ s

theorem dayChange_dirty (h : s.folio.daySpend ≠ 0) : folioSlot ∈ (dayChange s).store.dirty := by
  rw [dayChange_spent h]
  exact mem_listSlot _ _

theorem dayChange_lists (s : State) : ListsSlots s (dayChange s) := setFolio_lists _ s

/-- A new day of the property clock, as the event leaves it. -/
theorem endEvent_dayChange (c : Clock) (hs : s.settled = true) :
    DayChanged c s (endEvent (dayChange { s with clock := c })) := by
  have hset : State.settled { s with clock := c } = true := hs
  rw [endEvent_of_lists hset (dayChange_lists _)]
  refine ⟨by simp, by simp, fun hne => listed_startWrite (dayChange_dirty hne), fun hzero => ?_, by simp⟩
  · have hstays := endEvent_of_lists hset (.refl _)
    rw [dayChange_unspent (s := { s with clock := c }) hzero, ← hstays, endEvent_settled hset]

/-! ### Key halves (R35 to R37) -/

theorem setHalf_of_context {i : Nat} {c : KeyContext} (h : s.keys[i]? = some c) (p : Parity) (k : KeyHalf) :
    s.setHalf i p k = { s with keys := s.keys.set i (c.setHalf p k) } := by
  simp [State.setHalf, h]

theorem setHalf_of_no_context {i : Nat} (h : s.keys.length ≤ i) (p : Parity) (k : KeyHalf) : s.setHalf i p k = s := by
  simp [State.setHalf, List.getElem?_eq_none h]

theorem keyMessage_loads {args : List Byte} {p : Parity} (h : parityArg (byteAt args 1) = some p) :
    keyMessage args s =
      s.setHalf (byteAt args 0) p
        (.loaded (BitVec.ofNat 64 (natAt args 2 8)) (max 1 (min (natAt args 10 2) 1440))) := by
  simp [keyMessage, h, clampIn, maxLife]

theorem keyMessage_noHalf {args : List Byte} (h : parityArg (byteAt args 1) = none) : keyMessage args s = s := by
  simp [keyMessage, h]

theorem parityArg_none {n : Nat} (h : 2 ≤ n) : parityArg n = none := by
  rw [parityArg, if_neg (by omega), if_neg (by omega)]

/-- The last minute of the named half's life empties it and leaves the other half and every other context (R37). -/
theorem expireHalf_last {i : Nat} {c : KeyContext} {p : Parity} {key : BitVec 64} (h : s.keys[i]? = some c)
    (hhalf : c.half p = .loaded key 1) :
    expireHalf i p s = { s with keys := s.keys.set i (c.setHalf p .empty) } := by
  rw [← setHalf_of_context h]
  simp [expireHalf, State.keyHalf, h, hhalf]

theorem exec_keyLifeExpiry {i : Nat} {c : KeyContext} {p : Parity} {key : BitVec 64} (hphase : s.phase = .running)
    (hs : s.settled = true) (h : s.keys[i]? = some c) (hhalf : c.half p = .loaded key 1) :
    exec (.keyLifeExpiry i p) s = .next { s with keys := s.keys.set i (c.setHalf p .empty) } := by
  have hset : State.settled { s with keys := s.keys.set i (c.setHalf p .empty) } = true := hs
  have hevent := whenRunning_of_running (f := expireHalf i p) hphase
  rw [expireHalf_last h hhalf, endEvent_settled hset] at hevent
  exact congrArg _ hevent

/-! ### The ends of an unlock and of a lockout (R115) -/

/-- The lock record where an unlock has ended. -/
abbrev Lock.unlockEnded (l : Lock) : Lock := { l with state := .locked, minutes := 0 }

/-- The lock record where a lockout has ended. -/
abbrev Lock.lockoutEnded (l : Lock) : Lock := { l with state := .locked, minutes := 0, length := 0 }

/-- The state is a field that the lock slot holds. -/
theorem stored_ne_of_state {l m : Lock} (h : l.state ≠ m.state) : l.stored ≠ m.stored := fun he =>
  h (congrArg Lock.state he :)

/-- A report before the record takes its content is no part of what the content leaves. -/
theorem lockTaken_of_report {l : Lock} {f : DetailFlag} (h : LockTaken l (report f s) t) : LockTaken l s t where
  lock := h.lock
  dirty := by simpa using h.dirty
  judged := by simpa using h.judged
  quiet := by simpa using h.quiet
  rest := calc
    _ = { { t.withAdmissionOf (report f s) with lock := (report f s).lock } with status := s.status } := by
      simp [State.withAdmissionOf]
    _ = { report f s with status := s.status } := by rw [h.rest]
    _ = s := rfl

theorem expireUnlock_taken (s : State) : LockTaken s.lock.unlockEnded s (expireUnlock s) :=
  lockTaken_of_report (applyLock_taken s.lock.unlockEnded (report .unlockExpired s))

theorem expireUnlock_reports (s : State) : (expireUnlock s).status.detail.getLsbD 13 = true :=
  (applyLock_adds _ _).detail 13 (report_sets .unlockExpired s)

theorem expireUnlock_lists (s : State) : ListsSlots s (expireUnlock s) :=
  ((ListsSlots.refl s).report .unlockExpired).trans (applyLock_lists _ _)

theorem expireUnlock_dirty (h : s.lock.state = .unlocked) : lockSlot ∈ (expireUnlock s).store.dirty :=
  (expireUnlock_taken s).dirty (stored_ne_of_state (by simp [h]))

theorem endLockout_taken (s : State) : LockTaken s.lock.lockoutEnded s (endLockout s) := applyLock_taken _ s

theorem endLockout_lists (s : State) : ListsSlots s (endLockout s) := applyLock_lists _ s

theorem endLockout_dirty (h : s.lock.state = .lockout) : lockSlot ∈ (endLockout s).store.dirty :=
  (endLockout_taken s).dirty (stored_ne_of_state (by simp [h]))

/-- A lockout has no part in the effective ceiling (R107): its end is the record written and its slot listed. -/
theorem endLockout_eq (h : s.lock.state = .lockout) :
    endLockout s = listSlot lockSlot { s with lock := s.lock.lockoutEnded } := by
  have hceiling : s.lock.lockoutEnded.ceiling = s.lock.ceiling := by simp [Lock.ceiling, h]
  exact (applyLock_of_ceiling_eq hceiling).trans (if_neg (stored_ne_of_state (by simp [h])))

/-- The event's end begins a write at most, and what the lock record's new content has left stands. -/
theorem LockTaken.ended {l : Lock} (h : LockTaken l s u) :
    let t := startWrite u
    t.lock = l ∧ (l.stored ≠ s.lock.stored → t.listed lockSlot) ∧
      (l.ceiling ≠ s.lock.ceiling → t.judgedAfresh) ∧
      (l.ceiling = s.lock.ceiling → t.pathA = s.pathA ∧ t.pathB = s.pathB ∧ t.log = s.log) ∧
      { t.withAdmissionOf s with lock := s.lock } = s := by
  intro t
  refine ⟨by simpa [t] using h.lock, fun hne => listed_startWrite (h.dirty hne), fun hne => ?_, fun heq => ?_, ?_⟩
  · exact judgedAfresh_congr (by simp [t]) (by simp [t]) (by simp [t]) (by simp [t]) (by simp [t]) (by simp [t])
      (by simp [t]) (by simp [t]) (h.judged hne)
  · simpa [t] using h.quiet heq
  · simpa [t, State.withAdmissionOf] using h.rest

end

end Sys2Proof.Machine
end

