-- ==== Sys2Proof/Proofs/TimeStatements.lean ====
section
/-!
PROOFS. READ_TIME (R129), the broadcasts TIME, KEY and KEY_CLEAR (R126, R35, R36), and the single shares of a minute at
their last minute (R37, R75, R115, R125, R150).
-/
namespace Sys2Proof.Machine

/-! ### READ_TIME (R129) -/

/-- Settles O8: the command takes no argument, and its reply is read off the clock. -/
theorem readTimeReportsClock : Obligations.ReadTimeReportsClock := by
  intro args s h
  rw [exec_command (k := ⟨0x41, 0, readTimeCommand⟩) rfl h rfl (Nat.zero_le _) (by decide)]
  rfl

/-! ### TIME, KEY and KEY_CLEAR (R126, R35, R36) -/

section
variable {payload : List Byte} {s : State} (h : s.takesMessage) (hl : payload.length ≤ 120)
include h hl

theorem exec_time (hn : 4 ≤ payload.length) :
    exec (.time 0xFFFF payload) s = .next (endEvent (timeMessage payload s)) :=
  exec_broadcast (kind := 0x02) (m := ⟨true, 4, silently 0x02 timeMessage⟩) rfl h hl rfl rfl rfl hn

theorem exec_key (hs : s.settled = true) (hn : 12 ≤ payload.length) :
    exec (.key 0xFFFF payload) s = .next (keyMessage payload s) := by
  rw [exec_broadcast (kind := 0x03) (m := ⟨true, 12, silently 0x03 keyMessage⟩) rfl h hl rfl rfl rfl hn]
  have hsettled : (keyMessage payload s).settled = true := by simpa [State.settled, State.resetDue] using hs
  exact congrArg _ (endEvent_settled hsettled)

theorem exec_keyClear (hs : s.settled = true) (hn : 1 ≤ payload.length) :
    exec (.keyClear 0xFFFF payload) s =
      .next { s with keys := s.keys.set (byteAt payload 0) { even := .empty, odd := .empty } } := by
  rw [exec_broadcast (kind := 0x04) (m := ⟨true, 1, silently 0x04 keyClearMessage⟩) rfl h hl rfl rfl rfl hn]
  have hsettled : (keyClearMessage payload s).settled = true := hs
  exact congrArg _ (endEvent_settled hsettled)

end

/-- Settles O31: TIME by whether the day is a new one, KEY by the half its parity names, and both key messages by
whether the context exists. -/
theorem timeAndKeyMessagesTakeEffect : Obligations.TimeAndKeyMessagesTakeEffect := by
  refine ⟨?_, fun payload s h hs hl => ⟨?_, fun hn => ?_⟩⟩
  · intro payload s h hs hn hl day
    set c : Clock := { day := day, minute := min (natAt payload 2 2) 1439, set := true } with hc
    have hexec := exec_time h hl hn
    by_cases hday : day = s.clock.day
    · have hsame : timeMessage payload s = { s with clock := c } := if_pos hday
      have hset : State.settled { s with clock := c } = true := hs
      rw [hsame, endEvent_settled hset] at hexec
      exact ⟨_, hexec, rfl, fun _ => rfl, fun hne => absurd hday hne⟩
    · have hnew : timeMessage payload s = dayChange { s with clock := c } := if_neg hday
      rw [hnew] at hexec
      have hchanged := endEvent_dayChange c hs
      exact ⟨_, hexec, hchanged.clock, fun he => absurd he hday,
        fun _ => ⟨hchanged.folio, hchanged.listed, hchanged.store, hchanged.rest⟩⟩
  · intro hn context half
    rw [exec_key h hl hs hn]
    refine ⟨fun c hcontext heven => ?_, fun c hcontext hodd => ?_, fun hnone => ?_⟩
    · rw [keyMessage_loads (p := .even) (by rw [heven]; rfl), setHalf_of_context hcontext]
      rfl
    · rw [keyMessage_loads (p := .odd) (by rw [hodd]; rfl), setHalf_of_context hcontext]
      rfl
    · cases hparity : parityArg (byteAt payload 1) with
      | none => rw [keyMessage_noHalf hparity]
      | some p =>
        have hcontext := hnone.resolve_right fun h2 => by simp [parityArg_none h2] at hparity
        rw [keyMessage_loads hparity, setHalf_of_no_context hcontext]
  · rw [exec_keyClear h hl hs hn]
    refine ⟨fun _ => rfl, fun hnone => ?_⟩
    rw [List.set_eq_of_length_le hnone]

/-! ### The single shares of a minute, at their last minute (log 4) -/

section
variable {s : State} (hphase : s.phase = .running) (hs : s.settled = true)
include hphase

theorem exec_midnightDayChange (h : s.clock.minute = 1439) :
    exec .midnightDayChange s =
      .next (endEvent (dayChange { s with clock := { s.clock with minute := 0, day := s.clock.day + 1 } })) := by
  refine congrArg _ ((whenRunning_of_running hphase).trans ?_)
  rw [if_pos (by omega)]
  rfl

include hs

theorem exec_unlockExpiry (h : s.lock.state = .unlocked) (hlast : s.lock.minutes = 1) :
    exec .unlockExpiry s = .next (startWrite (expireUnlock s)) := by
  refine congrArg _ ((whenRunning_of_running hphase).trans ?_)
  rw [if_pos ⟨h, hlast.le⟩, endEvent_of_lists hs (expireUnlock_lists s)]

theorem exec_lockoutEnd (h : s.lock.state = .lockout) (hlast : s.lock.minutes = 1) :
    exec .lockoutEnd s = .next (startWrite (endLockout s)) := by
  refine congrArg _ ((whenRunning_of_running hphase).trans ?_)
  rw [if_pos ⟨h, hlast.le⟩, endEvent_of_lists hs (endLockout_lists s)]

theorem exec_watchdogExpiry (h : s.line.online = true) (hlast : s.line.watchdog = 1) :
    exec .watchdogExpiry s = .next (goOffline s) := by
  have hsettled : (goOffline s).settled = true := by simpa [State.settled, State.resetDue] using hs
  refine congrArg _ ((whenRunning_of_running hphase).trans ?_)
  rw [if_pos ⟨h, hlast.le⟩, endEvent_settled hsettled]

end

/-- Settles O48: midnight as a day change, a key half and the watchdog written alone, and the ends of an unlock and of a
lockout as a new content of the lock record. -/
theorem lastMinutesTakeEffect : Obligations.LastMinutesTakeEffect := by
  intro s hphase hs
  refine ⟨fun hmidnight => ?_, fun context c key hcontext => ⟨fun heven => ?_, fun hodd => ?_⟩,
    fun hstate hlast => ?_, fun hstate hlast => ?_, fun honline hlast => exec_watchdogExpiry hphase hs honline hlast⟩
  · have hchanged := endEvent_dayChange { s.clock with minute := 0, day := s.clock.day + 1 } hs
    exact ⟨_, exec_midnightDayChange hphase hmidnight, hchanged.clock, hchanged.folio, hchanged.listed,
      hchanged.store, hchanged.rest⟩
  · exact exec_keyLifeExpiry (p := .even) hphase hs hcontext heven
  · exact exec_keyLifeExpiry (p := .odd) hphase hs hcontext hodd
  · obtain ⟨hlock, hlisted, hjudged, hquiet, hrest⟩ := (expireUnlock_taken s).ended
    have hbefore : s.lock.ceiling = s.lock.hard := by simp [Lock.ceiling, hstate]
    have hafter : s.lock.unlockEnded.ceiling = min s.lock.guest s.lock.hard := by simp [Lock.ceiling]
    rw [hafter, hbefore] at hjudged hquiet
    refine ⟨_, exec_unlockExpiry hphase hs hstate hlast, hlock, ?_, hlisted (stored_ne_of_state (by simp [hstate])),
      fun hlt => hjudged (by omega), fun hle => hquiet (min_eq_right hle), hrest⟩
    simpa using expireUnlock_reports s
  · refine ⟨_, exec_lockoutEnd hphase hs hstate hlast, ?_, listed_startWrite (endLockout_dirty hstate), ?_⟩
    · simp [endLockout_eq hstate]
    · simp [endLockout_eq hstate]

end Sys2Proof.Machine
end

