-- ==== Sys2Proof/Proofs/MinuteShares.lean ====
section
/-!
SUPPORT. The shares of a minute (R123) read one field at a time: a block whose field no other share writes has its
rule's effect at the minute, whatever the order of the shares (R37, R115, R125, R150).
-/
namespace Sys2Proof.Machine

section
variable {s u : State} {bought : List Half} {taker : MinuteTaker}

/-! ### What the shares leave unchanged -/

@[simp] theorem windowsMinute_keeps (bought : List Half) (s : State) :
    (windowsMinute bought s).phase = s.phase ∧ (windowsMinute bought s).engine = s.engine ∧
    (windowsMinute bought s).keys = s.keys ∧ (windowsMinute bought s).channels = s.channels ∧
    (windowsMinute bought s).offers = s.offers ∧ (windowsMinute bought s).folio = s.folio ∧
    (windowsMinute bought s).lock = s.lock ∧ (windowsMinute bought s).seconds = s.seconds ∧
    (windowsMinute bought s).clock = s.clock ∧ (windowsMinute bought s).room = s.room ∧
    (windowsMinute bought s).line = s.line := by
  induction bought generalizing s with
  | nil => simp [windowsMinute]
  | cons seq bought ih => simpa [windowsMinute] using ih (windowMinute seq s)

/-- No share writes the phase, the engine, a table, the seconds count or the room address. -/
theorem takeMinute_keeps (bought : List Half) (s : State) (taker : MinuteTaker) :
    let t := takeMinute bought s taker
    t.phase = s.phase ∧ t.engine = s.engine ∧ t.channels = s.channels ∧ t.offers = s.offers ∧
      t.seconds = s.seconds ∧ t.room = s.room := by
  cases taker <;> simp [takeMinute]

theorem takeMinutes_keeps : ∀ (takers : List MinuteTaker) (s : State),
    let t := takeMinutes bought takers s
    t.phase = s.phase ∧ t.engine = s.engine ∧ t.channels = s.channels ∧ t.offers = s.offers ∧
      t.seconds = s.seconds ∧ t.room = s.room
  | [], _ => ⟨rfl, rfl, rfl, rfl, rfl, rfl⟩
  | x :: takers, s => by
    obtain ⟨hphase, hengine, hchannels, hoffers, hseconds, hroom⟩ := takeMinute_keeps bought s x
    obtain ⟨hphase', hengine', hchannels', hoffers', hseconds', hroom'⟩ :=
      takeMinutes_keeps takers (takeMinute bought s x)
    exact ⟨hphase'.trans hphase, hengine'.trans hengine, hchannels'.trans hchannels, hoffers'.trans hoffers,
      hseconds'.trans hseconds, hroom'.trans hroom⟩

theorem minute_keeps (order : List MinuteTaker) (s : State) :
    let t := minute order s
    t.phase = s.phase ∧ t.engine = s.engine ∧ t.channels = s.channels ∧ t.offers = s.offers ∧ t.seconds = 0 ∧
      t.room = s.room :=
  takeMinutes_keeps (agenda order s.takers) { s with seconds := 0 }

theorem clock_takeMinute (h : taker ≠ .clock) : (takeMinute bought u taker).clock = u.clock := by
  cases taker <;> simp_all [takeMinute]

theorem keys_takeMinute (h : taker ≠ .keys) : (takeMinute bought u taker).keys = u.keys := by
  cases taker <;> simp_all [takeMinute]

theorem line_takeMinute (h : taker ≠ .watchdog) : (takeMinute bought u taker).line = u.line := by
  cases taker <;> simp_all [takeMinute]

theorem lock_takeMinute (h : taker ≠ .lock) : (takeMinute bought u taker).lock = u.lock := by
  cases taker <;> simp_all [takeMinute]

/-! ### A field that one share writes (R123) -/

theorem takeMinutes_other {α : Type} {f : State → α}
    (hother : ∀ u x, x ≠ taker → f (takeMinute bought u x) = f u) :
    ∀ (takers : List MinuteTaker) (s : State), taker ∉ takers → f (takeMinutes bought takers s) = f s
  | [], _, _ => rfl
  | x :: takers, s, h => by
    have hrest := takeMinutes_other hother takers (takeMinute bought s x) (List.not_mem_of_not_mem_cons h)
    exact hrest.trans (hother s x (List.ne_of_not_mem_cons h).symm)

/-- A field that one share alone writes stands as it was when that share is taken and as the share left it afterwards;
slots listed and flags set at that share stay so. -/
theorem takeMinutes_share {α : Type} {f : State → α}
    (hother : ∀ u x, x ≠ taker → f (takeMinute bought u x) = f u) {takers : List MinuteTaker}
    (hone : takers.count taker = 1) (s : State) :
    ∃ u, f u = f s ∧ f (takeMinutes bought takers s) = f (takeMinute bought u taker) ∧
      EventAdds (takeMinute bought u taker) (takeMinutes bought takers s) := by
  induction takers generalizing s with
  | nil => simp at hone
  | cons x takers ih =>
    by_cases hx : x = taker
    · subst hx
      have hnot : x ∉ takers := List.count_eq_zero.1 (by simpa using hone)
      exact ⟨s, rfl, takeMinutes_other hother takers _ hnot, EventAdds.foldl (takeMinute_adds · bought) takers _⟩
    · obtain ⟨u, hbefore, hafter, hadds⟩ := ih (by simpa [hx] using hone) (takeMinute bought s x)
      exact ⟨u, hbefore.trans (hother s x hx), hafter, hadds⟩

/-- The blocks' shares of a minute, beside those of the PREVIEW records. -/
abbrev blockShares : List MinuteTaker := [.clock, .keys, .watchdog, .lock, .windows]

/-- Every block takes a minute once, in any order asked for. -/
theorem count_block (order : List MinuteTaker) (s : State) (h : taker ∈ blockShares) :
    (agenda order s.takers).count taker = 1 := by
  have hpreview : taker ∉ (s.log.filter Record.isPreview).map (fun r => MinuteTaker.preview r.seq) := fun hmem => by
    obtain ⟨r, -, rfl⟩ := List.mem_map.1 hmem
    simp at h
  rw [(agenda_perm order s.takers).count_eq, State.takers, List.count_append, List.count_eq_zero.2 hpreview,
    List.count_eq_one_of_mem (by decide) h]

/-- A field that one block's share alone writes, at a minute. -/
theorem minute_share {α : Type} {f : State → α} (hother : ∀ {bought u x}, x ≠ taker → f (takeMinute bought u x) = f u)
    (h : taker ∈ blockShares) (order : List MinuteTaker) (s : State) :
    ∃ u, f u = f { s with seconds := 0 } ∧ f (minute order s) = f (takeMinute s.boughtSeqs u taker) ∧
      EventAdds (takeMinute s.boughtSeqs u taker) (minute order s) :=
  takeMinutes_share (fun _ _ hne => hother hne) (count_block order s h) _

/-! ### The property clock (R125) -/

/-- The property clock a minute later. -/
def Clock.next (c : Clock) : Clock :=
  if 1439 ≤ c.minute then { c with minute := 0, day := c.day + 1 } else { c with minute := c.minute + 1 }

theorem clockMinute_clock (s : State) : (clockMinute s).clock = s.clock.next := by
  unfold clockMinute Clock.next
  split
  · simp [midnight]
  · rfl

theorem minute_clock (order : List MinuteTaker) (s : State) : (minute order s).clock = s.clock.next := by
  obtain ⟨u, hbefore, hafter, -⟩ := minute_share (f := State.clock) clock_takeMinute (by simp) order s
  exact hafter.trans ((clockMinute_clock u).trans (congrArg Clock.next hbefore))

/-! ### The key table (R37) -/

/-- A context a minute later. -/
def KeyContext.minute (c : KeyContext) : KeyContext := { even := c.even.minute, odd := c.odd.minute }

theorem minute_keys (order : List MinuteTaker) (s : State) :
    (minute order s).keys = s.keys.map KeyContext.minute := by
  obtain ⟨u, hbefore, hafter, -⟩ := minute_share (f := State.keys) keys_takeMinute (by simp) order s
  exact hafter.trans (congrArg (List.map KeyContext.minute) hbefore)

theorem half_minute (c : KeyContext) (p : Parity) : c.minute.half p = (c.half p).minute := by
  cases p <;> rfl

/-- A LOADED half loses a minute of its life, the last one empties it, and an EMPTY half stays so. -/
theorem keyHalf_minute (k : KeyHalf) :
    (k = .empty → k.minute = .empty) ∧
      ∀ key life, k = .loaded key life →
        (life ≤ 1 → k.minute = .empty) ∧ (2 ≤ life → k.minute = .loaded key (life - 1)) := by
  refine ⟨?_, ?_⟩
  · rintro rfl
    rfl
  · rintro key life rfl
    exact ⟨fun h => if_pos h, fun h => if_neg (by omega)⟩

/-! ### The watchdog (R150) -/

theorem minute_line (order : List MinuteTaker) (s : State) :
    let t := minute order s
    (s.line.online = true → 2 ≤ s.line.watchdog → t.line = { s.line with watchdog := s.line.watchdog - 1 }) ∧
      (s.line.online = true → s.line.watchdog ≤ 1 →
        t.line = { s.line with watchdog := 0, online := false } ∧ t.status.detail.getLsbD 0 = true) ∧
      (s.line.online = false → t.line = s.line) := by
  intro t
  obtain ⟨u, hbefore, hafter, hadds⟩ := minute_share (f := State.line) line_takeMinute (by simp) order s
  have hline : u.line = s.line := hbefore
  have htaken : t.line = (watchdogMinute u).line := hafter
  rw [← hline, htaken]
  refine ⟨fun honline hleft => ?_, fun honline hlast => ?_, fun hoffline => ?_⟩
  · rw [watchdogMinute, if_pos honline, if_neg (by omega)]
  · have hoff : watchdogMinute u = goOffline u := by rw [watchdogMinute, if_pos honline, if_pos hlast]
    refine ⟨by simp [hoff, goOffline], hadds.detail 0 ?_⟩
    rw [takeMinute, hoff]
    exact report_sets .lineLost _
  · rw [watchdogMinute, if_neg (by simp [hoffline])]

/-! ### The lock unit (R115) -/

theorem lockMinute_locked (h : s.lock.state = .locked) : lockMinute s = s := by
  simp [lockMinute, h]

theorem lockMinute_counts (h : s.lock.state ≠ .locked) (hleft : 2 ≤ s.lock.minutes) :
    lockMinute s = { s with lock := { s.lock with minutes := s.lock.minutes - 1 } } := by
  unfold lockMinute
  split
  · exact absurd ‹_› h
  · exact if_neg (by omega)
  · exact if_neg (by omega)

theorem lockMinute_endsUnlock (h : s.lock.state = .unlocked) (hlast : s.lock.minutes ≤ 1) :
    lockMinute s = expireUnlock s := by
  simp [lockMinute, h, hlast]

theorem lockMinute_endsLockout (h : s.lock.state = .lockout) (hlast : s.lock.minutes ≤ 1) :
    lockMinute s = endLockout s := by
  simp [lockMinute, h, hlast]

theorem minute_lock (order : List MinuteTaker) (s : State) :
    let t := minute order s
    (s.lock.state = .locked → t.lock = s.lock) ∧
      (s.lock.state ≠ .locked → 2 ≤ s.lock.minutes → t.lock = { s.lock with minutes := s.lock.minutes - 1 }) ∧
      (s.lock.state = .unlocked → s.lock.minutes ≤ 1 →
        t.lock = s.lock.unlockEnded ∧ t.status.detail.getLsbD 13 = true ∧ lockSlot ∈ t.store.dirty) ∧
      (s.lock.state = .lockout → s.lock.minutes ≤ 1 →
        t.lock = s.lock.lockoutEnded ∧ lockSlot ∈ t.store.dirty) := by
  intro t
  obtain ⟨u, hbefore, hafter, hadds⟩ := minute_share (f := State.lock) lock_takeMinute (by simp) order s
  have hlock : u.lock = s.lock := hbefore
  have htaken : t.lock = (lockMinute u).lock := hafter
  have hstays : EventAdds (lockMinute u) t := hadds
  rw [← hlock, htaken]
  refine ⟨fun h => by rw [lockMinute_locked h], fun h hleft => by rw [lockMinute_counts h hleft], fun h hlast => ?_,
    fun h hlast => ?_⟩
  · rw [lockMinute_endsUnlock h hlast] at hstays ⊢
    exact ⟨(expireUnlock_taken u).lock, hstays.detail 13 (expireUnlock_reports u),
      hstays.lists.dirty _ (expireUnlock_dirty h)⟩
  · rw [lockMinute_endsLockout h hlast] at hstays ⊢
    exact ⟨(endLockout_taken u).lock, hstays.lists.dirty _ (endLockout_dirty h)⟩

end

end Sys2Proof.Machine
end

