-- ==== Sys2Proof/Proofs/MinuteStatement.lean ====
section
/-!
PROOFS. Seconds and minutes (R123, R124): the day spend at a minute that makes no charge (R75), and the minute put
together from the shares of its blocks.
-/
namespace Sys2Proof.Machine

section
variable {s u : State} {bought : List Half} {taker : MinuteTaker} {rest : List MinuteTaker} {r : Record} {seq : Half}

/-! ### The day spend at a minute that makes no charge (R75) -/

/-- No charge is made at the minute: a preview ends without one under CONFIRM, or none is at its last minute. -/
def State.ChargesNothing (s : State) : Prop :=
  s.folio.policy = .confirm ∨ ∀ r ∈ s.log, r.state = .preview → r.used + 1 < r.limit

/-- The folio record a minute later, where no charge is made. -/
def State.nextFolio (s : State) : Folio := if 1439 ≤ s.clock.minute then { s.folio with daySpend := 0 } else s.folio

theorem clockMinute_folio (s : State) : (clockMinute s).folio = s.nextFolio := by
  unfold clockMinute State.nextFolio
  split
  · simp [midnight]
  · rfl

theorem clockMinute_dirty (h : 1439 ≤ s.clock.minute) (hspent : s.folio.daySpend ≠ 0) :
    folioSlot ∈ (clockMinute s).store.dirty := by
  rw [clockMinute, if_pos h]
  exact dayChange_dirty hspent

theorem nextFolio_policy (s : State) : s.nextFolio.policy = s.folio.policy := by
  unfold State.nextFolio
  split <;> rfl

theorem previewMinute_folio_of_confirm (h : s.folio.policy = .confirm) : (previewMinute seq s).folio = s.folio := by
  unfold previewMinute countPreview
  dsimp only
  (repeat' split) <;> simp_all

theorem previewMinute_folio_of_left (h : LogSound s) (hr : r ∈ s.log) (hleft : r.used + 1 < r.limit) :
    (previewMinute r.seq s).folio = s.folio := by
  rw [previewMinute_eq h hr]
  split
  · simp [countPreview_quiet hleft]
  · rfl

/-- A preview minute leaves every record with another number. -/
theorem mem_previewMinute_of_ne (hr : r ∈ s.log) (hne : r.seq ≠ seq) : r ∈ (previewMinute seq s).log := by
  unfold previewMinute
  split
  · rename_i x hx
    split
    · exact mem_countPreview_of_ne hr (seq_of_recordOf hx ▸ hne)
    · exact hr
  · exact hr

/-- A share leaves every PREVIEW record but its own. -/
theorem mem_takeMinute_of_preview (h : LogSound s) (hr : r ∈ s.log) (hstate : r.state = .preview)
    (hne : taker ≠ .preview r.seq) : r ∈ (takeMinute bought s taker).log := by
  cases taker with
  | clock => simpa [takeMinute] using hr
  | keys => simpa [takeMinute] using hr
  | watchdog => simpa [takeMinute] using hr
  | lock => exact mem_lockMinute hr
  | windows => exact mem_windowsMinute bought h hr (.inr (by simp [Record.isBought, hstate]))
  | preview seq => exact mem_previewMinute_of_ne hr fun he => hne (he ▸ rfl)

/-- How far the folio record has come at a minute that makes no charge, with the shares in `rest` still to come. -/
structure FolioMinute (s : State) (rest : List MinuteTaker) (u : State) : Prop where
  sound : LogSound u
  previews : ∀ r ∈ s.log, r.state = .preview → .preview r.seq ∈ rest → r ∈ u.log
  clock : .clock ∈ rest → u.clock = s.clock
  folio : u.folio = if .clock ∈ rest then s.folio else s.nextFolio
  listed : .clock ∉ rest → 1439 ≤ s.clock.minute → s.folio.daySpend ≠ 0 → folioSlot ∈ u.store.dirty

theorem FolioMinute.policy (h : FolioMinute s rest u) : u.folio.policy = s.folio.policy := by
  rw [h.folio]
  split
  · rfl
  · exact nextFolio_policy s

/-- Every share but the property clock's leaves the folio record where no charge is made. -/
theorem FolioMinute.folio_takeMinute (h : FolioMinute s (taker :: rest) u) (hs : s.ChargesNothing)
    (hmem : taker ∈ s.takers) (hne : taker ≠ .clock) : (takeMinute bought u taker).folio = u.folio := by
  cases taker with
  | clock => exact absurd rfl hne
  | keys | watchdog | lock | windows => simp [takeMinute]
  | preview seq =>
    obtain ⟨r, hr, hstate, rfl⟩ := preview_mem_takers.1 hmem
    rcases hs with hconfirm | hleft
    · exact previewMinute_folio_of_confirm (h.policy.trans hconfirm)
    · exact previewMinute_folio_of_left h.sound (h.previews r hr hstate List.mem_cons_self) (hleft r hr hstate)

/-- The next share: the property clock's makes the day spend 0 at midnight, and any other leaves the folio record. -/
theorem FolioMinute.share (h : FolioMinute s (taker :: rest) u) (hs : s.ChargesNothing) (hmem : taker ∈ s.takers)
    (hnot : taker ∉ rest) : FolioMinute s rest (takeMinute bought u taker) := by
  have hpreviews : ∀ r ∈ s.log, r.state = .preview → .preview r.seq ∈ rest → r ∈ (takeMinute bought u taker).log :=
    fun r hr hstate hin =>
      mem_takeMinute_of_preview h.sound (h.previews r hr hstate (List.mem_cons_of_mem taker hin)) hstate
        fun he => hnot (he ▸ hin)
  have hsound := takeMinute_logSound h.sound bought taker
  by_cases hclock : taker = .clock
  · subst hclock
    have hfolio : u.folio = s.folio := by simpa using h.folio
    have hclock : u.clock = s.clock := h.clock List.mem_cons_self
    refine ⟨hsound, hpreviews, fun hin => absurd hin hnot, ?_, fun _ hmidnight hspent => ?_⟩
    · rw [if_neg hnot, takeMinute, clockMinute_folio, State.nextFolio, hfolio, hclock]
      rfl
    · exact clockMinute_dirty (hclock ▸ hmidnight) (hfolio ▸ hspent)
  · have hiff : .clock ∈ taker :: rest ↔ .clock ∈ rest := by simp [Ne.symm hclock]
    refine ⟨hsound, hpreviews, fun hin => ?_, ?_, fun hin hmidnight hspent => ?_⟩
    · exact (clock_takeMinute hclock).trans (h.clock (hiff.2 hin))
    · rw [h.folio_takeMinute hs hmem hclock, h.folio]
      simp only [hiff]
    · exact (takeMinute_adds u bought taker).lists.dirty _ (h.listed (mt hiff.1 hin) hmidnight hspent)

theorem FolioMinute.shares (hs : s.ChargesNothing) {takers : List MinuteTaker} (hn : takers.Nodup)
    (hsub : ∀ x ∈ takers, x ∈ s.takers) (h : FolioMinute s takers u) :
    FolioMinute s [] (takeMinutes bought takers u) := by
  induction takers generalizing u with
  | nil => exact h
  | cons x takers ih =>
    obtain ⟨hnot, hn⟩ := List.nodup_cons.1 hn
    exact ih hn (fun y hy => hsub y (List.mem_cons_of_mem x hy)) (h.share hs (hsub x List.mem_cons_self) hnot)

/-- A minute that makes no charge, in any order of the shares. -/
theorem minute_folio (hlog : LogSound s) (hs : s.ChargesNothing) (order : List MinuteTaker) :
    (minute order s).folio = s.nextFolio ∧
      (1439 ≤ s.clock.minute → s.folio.daySpend ≠ 0 → folioSlot ∈ (minute order s).store.dirty) := by
  have hperm := agenda_perm order s.takers
  have hbegins : FolioMinute s (agenda order s.takers) { s with seconds := 0 } :=
    ⟨hlog, fun r hr _ _ => hr, fun _ => rfl,
      (if_pos (hperm.mem_iff.2 (by simp [State.takers]))).symm,
      fun hnot => absurd (hperm.mem_iff.2 (by simp [State.takers])) hnot⟩
  have hends : FolioMinute s [] (minute order s) :=
    hbegins.shares hs (hperm.nodup_iff.2 (takers_nodup hlog)) fun _ => hperm.mem_iff.1
  exact ⟨by simpa using hends.folio, hends.listed List.not_mem_nil⟩

/-! ### Seconds (R123, R124) -/

theorem exec_second_counts (order : List MinuteTaker) (hphase : s.phase = .running) (hs : s.settled = true)
    (h : s.seconds < 59) : exec (.secondTick order) s = .next { s with seconds := s.seconds + 1 } := by
  have hset : State.settled { s with seconds := s.seconds + 1 } = true := hs
  refine congrArg _ ((whenRunning_of_running hphase).trans ?_)
  rw [second, if_neg (by omega), endEvent_settled hset]

theorem exec_second_makes_minute (order : List MinuteTaker) (h : s.seconds = 59) :
    exec (.secondTick order) s = exec (.minuteOfTheTimebase order) s := by
  have hminute : second order s = minute order s := if_pos h.ge
  refine congrArg Host.Outcome.next ?_
  rw [whenRunning, whenRunning, hminute]

end

/-- Settles O46: the seconds below a minute, and the minute block by block, each from the one share that writes it. -/
theorem secondsMakeMinutes : Obligations.SecondsMakeMinutes := by
  refine ⟨fun order s => ⟨fun hphase => ?_, fun hphase hs => exec_second_counts order hphase hs,
    fun _ => exec_second_makes_minute order⟩, fun order s hphase hs => ⟨_, exec_minute order hphase hs, ?_⟩⟩
  · exact ⟨congrArg _ (whenRunning_of_not_running hphase), congrArg _ (whenRunning_of_not_running hphase)⟩
  obtain ⟨hphase', hengine, hchannels, hoffers, hseconds, hroom⟩ := minute_keeps order s
  obtain ⟨hcounts, hoffline, hstays⟩ := minute_line order s
  obtain ⟨hlocked, hfalls, hunlock, hlockout⟩ := minute_lock order s
  simp only [startWrite_keeps]
  rw [minute_clock, minute_keys]
  refine ⟨hseconds, ?_, fun h => ?_, fun h => ?_, by simp, fun i c c' hc hc' p => ?_, hcounts, hoffline, hstays,
    hlocked, hfalls, fun h hlast => ?_, fun h hlast => ?_, fun hlog hcharge => ?_, hchannels, hoffers, hroom,
    hengine, hphase'⟩
  · unfold Clock.next
    split <;> rfl
  · simp [Clock.next, Nat.not_le.2 h]
  · simp [Clock.next, h]
  · obtain rfl : c.minute = c' := by simpa [hc] using hc'
    rw [half_minute]
    exact keyHalf_minute (c.half p)
  · obtain ⟨hlock, hreported, hlisted⟩ := hunlock h hlast
    exact ⟨hlock, hreported, listed_startWrite hlisted⟩
  · obtain ⟨hlock, hlisted⟩ := hlockout h hlast
    exact ⟨hlock, listed_startWrite hlisted⟩
  · obtain ⟨hfolio, hlisted⟩ := minute_folio hlog hcharge order
    rw [hfolio]
    exact ⟨fun h => if_neg (Nat.not_le.2 h), fun h => ⟨if_pos h, fun hspent => listed_startWrite (hlisted h hspent)⟩⟩

end Sys2Proof.Machine
end

