-- ==== Sys2Proof/Proofs/StoreFitsLaws.lean ====
section
/-!
SUPPORT. The figures of the record store: the record slots that the log's records occupy, the slots that the dirty list
and the write in flight name, and what the shared operations and the log's changes keep of them (R131 to R134).
-/
namespace Sys2Proof.Machine

/-- The log's records occupy record slots (R132); there are 51 slots (R131); the dirty list names each of them at most
once, and a write names one (R133, R134); the damaged count is at most 51 (R138). -/
structure StoreFits (s : State) : Prop where
  placed : ∀ r ∈ s.log, r.slot < logCapacity
  slots : s.store.slots.length = 51
  distinct : s.store.dirty.Nodup
  listed : ∀ k ∈ s.store.dirty, k < 51
  written : ∀ w, s.store.write = some w → w.slot < 51
  damaged : s.store.damagedCount ≤ 51

theorem storeSound_iff {s : State} (h : LogSound s) : StoreSound s ↔ StoreFits s ∧ s.settled = true := by
  obtain ⟨-, -, -, hplaced⟩ := h
  constructor
  · rintro ⟨hslots, hdistinct, hlisted, hwritten, hsettled, hdamaged⟩
    exact ⟨⟨hplaced, hslots, hdistinct, hlisted, hwritten, hdamaged⟩, hsettled⟩
  · rintro ⟨h, hsettled⟩
    exact ⟨h.slots, h.distinct, h.listed, h.written, hsettled, h.damaged⟩

/-- A record slot is one of the 51 slots. -/
theorem lt_slots_of_recordSlot {k : Nat} (h : k < logCapacity) : k < 51 := h.trans (by decide)

section
variable {s t : State} {r : Record}

namespace StoreFits

theorem of_log (h : StoreFits s) (hstore : t.store = s.store) (hlog : ∀ r ∈ t.log, r.slot < logCapacity) :
    StoreFits t where
  placed := hlog
  slots := by rw [hstore]; exact h.slots
  distinct := by rw [hstore]; exact h.distinct
  listed := by rw [hstore]; exact h.listed
  written := by rw [hstore]; exact h.written
  damaged := by rw [hstore]; exact h.damaged

theorem of_kept (h : StoreFits s) (hk : t.log = s.log ∧ t.store = s.store) : StoreFits t := by
  obtain ⟨hlog, hstore⟩ := hk
  exact h.of_log hstore (hlog ▸ h.placed)

/-- Changes made one after the other, each of which keeps the figures. -/
theorem foldl {α : Type} {f : State → α → State} : ∀ (l : List α) {s : State},
    (∀ a ∈ l, ∀ u, StoreFits u → StoreFits (f u a)) → StoreFits s → StoreFits (l.foldl f s)
  | [], _, _, h => h
  | a :: l, _, hf, h =>
    foldl l (fun b hb => hf b (List.mem_cons_of_mem a hb)) (hf a List.mem_cons_self _ h)

theorem listSlot (h : StoreFits s) {k : Nat} (hk : k < 51) : StoreFits (listSlot k s) := by
  unfold Machine.listSlot
  split
  · exact h
  · rename_i hnew
    refine ⟨h.placed, h.slots, ?_, fun j hj => ?_, h.written, h.damaged⟩
    · exact h.distinct.append (List.nodup_singleton k) (List.disjoint_singleton.2 hnew)
    · rcases List.mem_append.1 hj with hj | hj
      · exact h.listed j hj
      · rwa [List.mem_singleton.1 hj]

theorem listSlots (h : StoreFits s) {ks : List Nat} (hks : ∀ k ∈ ks, k < 51) : StoreFits (listSlots ks s) :=
  foldl ks (fun k hk _ hu => hu.listSlot (hks k hk)) h

theorem report (h : StoreFits s) (f : DetailFlag) : StoreFits (report f s) := h.of_kept (by simp)

theorem setPath (h : StoreFits s) (p : PathId) (x : Path) : StoreFits (s.setPath p x) := h.of_kept (by simp)

theorem setFolio (h : StoreFits s) (f : Folio) : StoreFits (setFolio f s) := by
  have hwritten : StoreFits { s with folio := f } := h.of_kept ⟨rfl, rfl⟩
  unfold Machine.setFolio
  split
  · exact h
  · exact hwritten.listSlot (by decide)

theorem acceptStore (h : StoreFits s) (w : Waiting) (code : Byte) (data : List Byte) :
    StoreFits (acceptStore w code data s) where
  placed := by simpa using h.placed
  slots := by simpa using h.slots
  distinct := h.distinct
  listed := h.listed
  written v hv := by
    obtain ⟨x, hx, rfl⟩ := Option.map_eq_some_iff.1 hv
    exact h.written x hx
  damaged := h.damaged

/-- The write that begins is of the slot that stood at the head of the list (R134). -/
theorem startWrite (h : StoreFits s) : StoreFits (startWrite s) := by
  rcases hw : s.store.write with _ | w
  · rcases hd : s.store.dirty with _ | ⟨k, rest⟩
    · rwa [startWrite_empty hd]
    · have hdistinct := h.distinct
      have hlisted := h.listed
      rw [hd, List.nodup_cons] at hdistinct
      rw [hd, List.forall_mem_cons] at hlisted
      obtain ⟨-, hrest⟩ := hdistinct
      obtain ⟨hk, hlisted⟩ := hlisted
      rw [startWrite_begins hw hd]
      exact ⟨h.placed, h.slots, hrest, hlisted, fun v hv => by cases hv; exact hk, h.damaged⟩
  · rwa [startWrite_busy (by simp [hw])]

theorem endEvent (h : StoreFits s) : StoreFits (endEvent s) := by
  have hreset : ∀ {u}, StoreFits u → StoreFits (resetEffect u) := fun {u} hu => by
    have hlocked : ∀ a b l port, StoreFits { u with pathA := a, pathB := b, lock := l, port := port } :=
      fun _ _ _ _ => hu.of_kept ⟨rfl, rfl⟩
    unfold resetEffect
    dsimp only
    split
    · exact (hlocked _ _ _ _).listSlot (by decide)
    · exact hlocked _ _ _ _
  unfold Machine.endEvent
  dsimp only
  split
  · exact (hreset h.startWrite).startWrite
  · exact h.startWrite

/-! ### The log's records (R83, R84, R101, R132) -/

/-- A search among the record slots ends on one, though none be free. -/
theorem newSlot_lt (s : State) : s.newSlot < logCapacity := by
  unfold State.newSlot
  cases hfound : (List.range logCapacity).find? (fun k => !(s.log.map (·.slot)).contains k) with
  | none => exact (by decide : 0 < logCapacity)
  | some k => exact List.mem_range.1 (List.mem_of_find?_eq_some hfound)

theorem createRecord (h : StoreFits s) (title : Word) (origin : Origin) (rating limit : Nat) (state : RecordState)
    (charge : Option Charge) : StoreFits (createRecord title origin rating limit state charge s) := by
  have hlogged : ∀ seq (x : Record), x.slot < logCapacity →
      StoreFits { s with nextSeq := seq, log := s.log ++ [x] } := fun seq x hx =>
    h.of_log rfl fun y hy => by
      rcases List.mem_append.1 hy with hy | hy
      · exact h.placed y hy
      · rwa [List.mem_singleton.1 hy]
  have hlisted := fun seq x hx => ((hlogged seq x hx).listSlot (k := folioSlot) (by decide)).listSlot
    (lt_slots_of_recordSlot (newSlot_lt s))
  unfold Machine.createRecord
  dsimp only
  split
  · exact (hlisted _ _ (newSlot_lt s)).report _
  · exact hlisted _ _ (newSlot_lt s)

theorem replaceRecord (h : StoreFits s) (hr : r.slot < logCapacity) : StoreFits (replaceRecord r s) :=
  h.of_log rfl fun x hx => by
    obtain ⟨y, hy, rfl⟩ := List.mem_map.1 hx
    split
    · exact hr
    · exact h.placed y hy

theorem removeRecord (h : StoreFits s) (hr : r.slot < logCapacity) : StoreFits (removeRecord r s) := by
  have hleft : StoreFits { s with log := s.log.filter (fun x => x.seq != r.seq) } :=
    h.of_log rfl fun x hx => h.placed x (List.mem_of_mem_filter hx)
  have hlisted := hleft.listSlot (lt_slots_of_recordSlot hr)
  unfold Machine.removeRecord
  dsimp only
  (repeat' split)
  case h_1.isTrue => exact hlisted.of_kept (by simp)
  all_goals exact hlisted

theorem settleRecord (h : StoreFits s) (hr : r.slot < logCapacity) : StoreFits (settleRecord r s) := by
  have hlisted := (h.replaceRecord hr).listSlot (lt_slots_of_recordSlot hr)
  unfold Machine.settleRecord
  dsimp only
  split
  · exact hlisted.removeRecord hr
  · exact hlisted

/-! ### Admission (R7 to R11, R86, R88) -/

theorem judge (h : StoreFits s) (p : PathId) : StoreFits (judge p s) := by
  obtain ⟨-, ⟨x, hw⟩ | ⟨title, index, x, y, -, hw, -⟩⟩ := judge_cases p s
  · rw [hw]
    exact h.setPath p x
  · have hstarted : StoreFits (s.previewStarted title index) := (h.createRecord _ _ _ _ _ _).of_kept ⟨rfl, rfl⟩
    rw [hw]
    exact (hstarted.setPath p x).setPath _ y

theorem judgeBoth (h : StoreFits s) : StoreFits (judgeBoth s) := by
  obtain ⟨p, n, he⟩ := judgeBoth_eq s
  have hchosen : StoreFits { s with choice := n } := h.of_kept ⟨rfl, rfl⟩
  rw [he]
  exact (hchosen.judge _).judge _

theorem judgeReached (h : StoreFits s) (a b : Bool) : StoreFits (judgeReached a b s) := by
  cases a <;> cases b
  · exact h
  · exact h.judge _
  · exact h.judge _
  · exact h.judgeBoth

theorem handTitle (h : StoreFits s) (title : Word) : StoreFits (handTitle title s) := h.judgeReached _ _

theorem handPreviewEnd (h : StoreFits s) (title : Word) : StoreFits (handPreviewEnd title s) := h.judgeReached _ _

theorem handEndedTitle (h : StoreFits s) (title : Word) : StoreFits (handEndedTitle title s) := h.of_kept (by simp)

theorem leavePreview (h : StoreFits s) (hr : r.slot < logCapacity) : StoreFits (leavePreview r s) :=
  (h.settleRecord hr).handPreviewEnd _

theorem changeRecord (h : StoreFits s) (hr : r.slot < logCapacity) : StoreFits (changeRecord r s) :=
  (h.settleRecord hr).handTitle _

end StoreFits

end

end Sys2Proof.Machine
end

