-- ==== Sys2Proof/Proofs/StoreFitsAtEvents.lean ====
section
/-!
SUPPORT. The record store keeps its figures at every event of the blocks: the log, the lock unit, the tables, the clocks,
the start-up check and the line port (R131 to R134).
-/
namespace Sys2Proof.Machine

namespace StoreFits

variable {s : State} {r : Record}

/-! ### The log (R89 to R101, R77 to R79) -/

/-- A record that the log finds by its number occupies a record slot. -/
theorem recordOf (h : StoreFits s) {seq : Half} (hr : s.recordOf seq = some r) : r.slot < logCapacity :=
  h.placed r (mem_of_recordOf hr)

theorem grantCharge (h : StoreFits s) (f : Folio) (c : Charge) : StoreFits (grantCharge f c s) := by
  unfold Machine.grantCharge
  split
  · exact (h.report _).setFolio f
  · exact h.setFolio f

theorem endAuto (h : StoreFits s) (hr : r.slot < logCapacity) : StoreFits (endAuto r s) := by
  unfold Machine.endAuto
  (repeat' split)
  · exact h.leavePreview hr
  · exact h.leavePreview hr
  · exact h.leavePreview hr
  · exact ((h.grantCharge _ _).report _).leavePreview hr

theorem countPreview (h : StoreFits s) (hr : r.slot < logCapacity) : StoreFits (countPreview r s) := by
  have hcounted := (h.replaceRecord (r := { r with used := r.used + 1 }) hr).listSlot (lt_slots_of_recordSlot hr)
  unfold Machine.countPreview
  dsimp only
  (repeat' split)
  · exact hcounted
  · exact hcounted.leavePreview hr
  · exact hcounted.endAuto hr

theorem previewMinute (h : StoreFits s) (seq : Half) : StoreFits (previewMinute seq s) := by
  unfold Machine.previewMinute
  (repeat' split)
  · exact h.countPreview (h.recordOf ‹_›)
  · exact h
  · exact h

theorem lastPreviewMinute (h : StoreFits s) (policy : Policy) (seq : Half) :
    StoreFits (lastPreviewMinute policy seq s) := by
  unfold Machine.lastPreviewMinute
  (repeat' split)
  · exact h.countPreview (h.recordOf ‹_›)
  · exact h
  · exact h

theorem endWindow (h : StoreFits s) (hr : r.slot < logCapacity) : StoreFits (endWindow r s) :=
  ((h.report _).settleRecord (r := { r with state := .ended }) hr).handEndedTitle _

theorem windowMinute (h : StoreFits s) (seq : Half) : StoreFits (windowMinute seq s) := by
  unfold Machine.windowMinute
  split
  · exact h
  · rename_i r hfound
    have hr := h.recordOf hfound
    have hcounted := h.replaceRecord (r := { r with state := .bought (r.window - 1) }) hr
    dsimp only
    (repeat' split)
    · exact h.endWindow hr
    · exact hcounted.listSlot (lt_slots_of_recordSlot hr)
    · exact hcounted
    · exact h

theorem lastWindowMinute (h : StoreFits s) (seq : Half) : StoreFits (lastWindowMinute seq s) := by
  unfold Machine.lastWindowMinute
  (repeat' split)
  · exact h.endWindow (h.recordOf ‹_›)
  · exact h
  · exact h

theorem closeLog (h : StoreFits s) : StoreFits (closeLog s) := by
  refine foldl s.log (fun r hr u hu => ?_) h
  obtain ⟨-, hslot, -⟩ := closed_keeps r
  split
  · exact hu
  · exact hu.settleRecord (hslot ▸ h.placed r hr)

theorem collectRecords (h : StoreFits s) (after : Half) : StoreFits (collectRecords after s).1 :=
  h.of_log (by simp) fun x hx => by
    obtain ⟨y, hy, rfl⟩ := List.mem_map.1 hx
    split <;> exact h.placed y hy

theorem releaseThrough (h : StoreFits s) (seq : Half) : StoreFits (releaseThrough seq s).1 := by
  unfold Machine.releaseThrough
  split
  · exact h
  · refine foldl _ (fun r hr u hu => ?_) h
    rw [releaseRecord_eq]
    split
    · exact hu.settleRecord (r := { r with released := true }) (h.placed r (mem_of_mem_throughSeq hr))
    · exact hu

theorem voidRecord (h : StoreFits s) (hr : r.slot < logCapacity) : StoreFits (voidRecord r s) := by
  have hrefunded : ∀ f, StoreFits (Machine.listSlot folioSlot { s with folio := f }) := fun f =>
    StoreFits.listSlot (s := { s with folio := f }) (h.of_kept ⟨rfl, rfl⟩) (by decide)
  unfold Machine.voidRecord
  dsimp only
  split
  · exact (hrefunded _).changeRecord (r := { r with state := .voided }) hr
  · exact ((hrefunded _).settleRecord (r := { r with state := .voided }) hr).handEndedTitle _

theorem voidSeq (h : StoreFits s) (seq : Half) : StoreFits (voidSeq seq s).1 := by
  unfold Machine.voidSeq
  (repeat' split)
  case h_5 | h_6 => exact h.voidRecord (h.recordOf ‹_›)
  all_goals exact h

theorem acceptOrder (h : StoreFits s) (o : OfferEntry) (f : Folio) (c : Charge) : StoreFits (acceptOrder o f c s) := by
  have hgranted := h.grantCharge f c
  unfold Machine.acceptOrder
  dsimp only
  split
  · rename_i r hfound
    have hr := hgranted.placed r (List.mem_of_find?_eq_some hfound)
    have hsettled := hgranted.settleRecord
      (r := { r with state := .bought (o.takenWindow * 60), charge := some c }) hr
    exact ((hsettled.acceptStore _ _ _).handPreviewEnd _).endEvent
  · exact (((hgranted.createRecord _ _ _ _ _ _).acceptStore _ _ _).handTitle _).endEvent

/-! ### The lock unit (R107 to R119) -/

theorem applyLock (h : StoreFits s) (l : Lock) : StoreFits (applyLock l s) := by
  have hwritten : StoreFits { s with lock := l } := h.of_kept ⟨rfl, rfl⟩
  have hlisted : StoreFits (if l.stored = s.lock.stored then { s with lock := l }
      else Machine.listSlot lockSlot { s with lock := l }) := by
    split
    · exact hwritten
    · exact hwritten.listSlot (by decide)
  unfold Machine.applyLock
  dsimp only
  split
  · exact hlisted
  · exact hlisted.judgeBoth

theorem countWrong (h : StoreFits s) : StoreFits (countWrong s) := by
  unfold Machine.countWrong
  dsimp only
  split
  · exact h.applyLock _
  · exact (h.applyLock _).report _

theorem expireUnlock (h : StoreFits s) : StoreFits (expireUnlock s) := (h.report _).applyLock _

theorem lockMinute (h : StoreFits s) : StoreFits (lockMinute s) := by
  unfold Machine.lockMinute
  (repeat' split)
  · exact h
  · exact h.expireUnlock
  · exact h.of_kept ⟨rfl, rfl⟩
  · exact h.applyLock _
  · exact h.of_kept ⟨rfl, rfl⟩

theorem lockMessage (h : StoreFits s) (args : List Byte) : StoreFits (lockMessage args s).1 := by
  unfold Machine.lockMessage
  dsimp only
  (repeat' split)
  · exact h
  · exact h.applyLock _
  · exact h.applyLock _

/-! ### Tables and minutes (R48 to R56, R123 to R126) -/

theorem tableCommitMessage (h : StoreFits s) (args : List Byte) : StoreFits (tableCommitMessage args s) := by
  unfold Machine.tableCommitMessage
  dsimp only
  (repeat' split)
  · exact h
  · exact h.of_kept (by simp)
  · exact h.of_kept (by simp)
  · exact StoreFits.judgeBoth (h.of_kept (by simp))

theorem endPass (h : StoreFits s) (i : TableId) (crc : Half) (diagnostic : Bool) :
    StoreFits (endPass i crc diagnostic s) := by
  have hreported : ∀ (x : Table) (b : Bool) (f : DetailFlag),
      StoreFits (if b then Machine.report f (s.setTable i x) else s.setTable i x) := fun x b f => by
    split <;> exact h.of_kept (by simp)
  unfold Machine.endPass
  dsimp only
  split
  · exact hreported _ _ _
  · split
    · exact hreported _ _ _
    · exact (hreported _ _ _).judgeBoth

theorem midnight (h : StoreFits s) : StoreFits (midnight s) :=
  StoreFits.setFolio (s := { s with clock := { s.clock with minute := 0, day := s.clock.day + 1 } })
    (h.of_kept ⟨rfl, rfl⟩) _

theorem clockMinute (h : StoreFits s) : StoreFits (clockMinute s) := by
  unfold Machine.clockMinute
  split
  · exact h.midnight
  · exact h.of_kept ⟨rfl, rfl⟩

theorem timeMessage (h : StoreFits s) (args : List Byte) : StoreFits (timeMessage args s) := by
  have hset : ∀ clock, StoreFits { s with clock := clock } := fun clock => h.of_kept ⟨rfl, rfl⟩
  unfold Machine.timeMessage
  dsimp only
  split
  · exact hset _
  · exact (hset _).setFolio _

theorem takeMinute (h : StoreFits s) (bought : List Half) (taker : MinuteTaker) :
    StoreFits (takeMinute bought s taker) := by
  cases taker with
  | clock => exact h.clockMinute
  | keys => exact h.of_kept (t := keysMinute s) (by simp)
  | watchdog => exact h.of_kept (t := watchdogMinute s) (by simp)
  | lock => exact h.lockMinute
  | windows => exact foldl bought (fun seq _ _ hu => hu.windowMinute seq) h
  | preview seq => exact h.previewMinute seq

theorem minute (h : StoreFits s) (order : List MinuteTaker) : StoreFits (minute order s) :=
  foldl _ (fun taker _ _ hu => hu.takeMinute _ taker) (h.of_kept ⟨rfl, rfl⟩)

theorem second (h : StoreFits s) (order : List MinuteTaker) : StoreFits (second order s) := by
  unfold Machine.second
  split
  · exact h.minute order
  · exact h.of_kept ⟨rfl, rfl⟩

/-! ### The folio's messages and the line port (R62 to R66, R146, R149) -/

theorem checkInMessage (h : StoreFits s) (args : List Byte) : StoreFits (checkInMessage args s).1 := by
  have hopened : ∀ f l, StoreFits { s with folio := f, previewed := [], lock := l } := fun _ _ =>
    h.of_kept ⟨rfl, rfl⟩
  unfold Machine.checkInMessage
  (repeat' split)
  · exact h
  · exact h
  · exact h
  · exact ((((hopened _ _).listSlot (by decide)).listSlot (by decide)).report _).judgeBoth

theorem checkOutMessage (h : StoreFits s) (args : List Byte) : StoreFits (checkOutMessage args s).1 := by
  have hclosed : ∀ f, StoreFits { s with folio := f } := fun _ => h.of_kept ⟨rfl, rfl⟩
  have hlocked : ∀ {u}, StoreFits u → StoreFits (lockCheckOut u) := fun {u} hu => by
    have hwritten : StoreFits { u with lock := u.lock.checkOut } := hu.of_kept ⟨rfl, rfl⟩
    unfold lockCheckOut
    dsimp only
    split
    · exact hwritten
    · exact hwritten.listSlot (by decide)
  unfold Machine.checkOutMessage
  split
  · exact ((hlocked ((hclosed _).listSlot (by decide)).closeLog).report _).judgeBoth
  · exact h

theorem folioEvent (h : StoreFits s) (f : Folio) : StoreFits (folioEvent f s) := by
  unfold Machine.folioEvent
  split
  · exact h
  · exact (h.setFolio f).judgeBoth

theorem holdMessage (h : StoreFits s) (args : List Byte) : StoreFits (holdMessage args s).1 := by
  unfold Machine.holdMessage
  dsimp only
  (repeat' split)
  · exact h
  · exact h
  all_goals exact h.folioEvent _

theorem packagesMessage (h : StoreFits s) (args : List Byte) : StoreFits (packagesMessage args s).1 := by
  unfold Machine.packagesMessage
  split
  · exact h
  · exact h.folioEvent _

theorem bringOnline (h : StoreFits s) (setting : Nat) : StoreFits (bringOnline setting s) := by
  unfold Machine.bringOnline
  dsimp only
  split
  · exact h.of_kept ⟨rfl, rfl⟩
  · exact StoreFits.setFolio (h.of_kept (by simp)) _

end StoreFits

/-- An owner of a message changes nothing that a slot holds, and keeps the store's figures (R146). -/
theorem messageKind_store {kind : Byte} {m : MessageKind} (hm : messageKind kind = some m) (payload : List Byte)
    (s : State) :
    (m.act payload s).1.store.slots = s.store.slots ∧ (StoreFits s → StoreFits (m.act payload s).1) := by
  have hstands : ∀ {t}, t.log = s.log ∧ t.store = s.store →
      t.store.slots = s.store.slots ∧ (StoreFits s → StoreFits t) := fun {t} h => by
    have ⟨_, hstore⟩ := h
    exact ⟨by rw [hstore], fun hs => hs.of_kept h⟩
  unfold messageKind at hm
  obtain rfl | hm := row_or_later hm
  · exact hstands ⟨rfl, rfl⟩
  obtain rfl | hm := row_or_later hm
  · exact ⟨timeMessage_slots payload s, fun h => h.timeMessage payload⟩
  obtain rfl | hm := row_or_later hm
  · exact hstands (t := keyMessage payload s) (by simp)
  obtain rfl | hm := row_or_later hm
  · exact hstands (t := keyClearMessage payload s) (by simp)
  obtain rfl | hm := row_or_later hm
  · exact hstands (t := tableEntryMessage payload s) (by simp)
  obtain rfl | hm := row_or_later hm
  · exact ⟨tableCommitMessage_slots payload s, fun h => h.tableCommitMessage payload⟩
  obtain rfl | hm := row_or_later hm
  · exact ⟨checkInMessage_slots payload s, fun h => h.checkInMessage payload⟩
  obtain rfl | hm := row_or_later hm
  · exact ⟨checkOutMessage_slots payload s, fun h => h.checkOutMessage payload⟩
  obtain rfl | hm := row_or_later hm
  · exact ⟨holdMessage_slots payload s, fun h => h.holdMessage payload⟩
  obtain rfl | hm := row_or_later hm
  · exact ⟨packagesMessage_slots payload s, fun h => h.packagesMessage payload⟩
  obtain rfl | hm := row_or_later hm
  · exact ⟨rfl, fun h => h.collectRecords _⟩
  obtain rfl | hm := row_or_later hm
  · exact ⟨releaseThrough_slots _ s, fun h => h.releaseThrough _⟩
  obtain rfl | hm := row_or_later hm
  · exact ⟨voidSeq_slots _ s, fun h => h.voidSeq _⟩
  obtain rfl | hm := row_or_later hm
  · exact ⟨lockMessage_slots payload s, fun h => h.lockMessage payload⟩
  cases hm

end Sys2Proof.Machine
end

