-- ==== Sys2Proof/Proofs/StoreInvariant.lean ====
section
/-!
HEADLINE. Every step keeps the store sound, and none but a completed write and a loss of power changes what a slot holds:
the set port's commands, the paths' events, the store's own events, and the dispatch over all rows (R131 to R134).
-/
namespace Sys2Proof.Machine

/-! ### What a row keeps (R131, R134, R159) -/

/-- The store keeps its figures, and every event has ended. -/
def StoreEnded (s : State) : Prop := StoreFits s ∧ s.settled = true

/-- From `s` to `t` no slot changes what it holds, and a store whose events have ended is left so. -/
structure StoreKept (s t : State) : Prop where
  slots : t.store.slots = s.store.slots
  ended : StoreEnded s → StoreEnded t

section
variable {s t u : State}

theorem endEvent_storeEnded (h : StoreFits s) : StoreEnded (endEvent s) := ⟨h.endEvent, settled_endEvent s⟩

namespace StoreKept

theorem refl (s : State) : StoreKept s s := ⟨rfl, id⟩

theorem trans (h : StoreKept s t) (k : StoreKept t u) : StoreKept s u := ⟨k.slots.trans h.slots, k.ended ∘ h.ended⟩

/-- Neither the log nor the store is written, and no RESET command begins to wait. -/
theorem of_kept (h : t.log = s.log ∧ t.store = s.store) (hbusy : t.port.busy = .reset → s.port.busy = .reset) :
    StoreKept s t := by
  obtain ⟨hlog, hstore⟩ := h
  refine ⟨by rw [hstore], fun ⟨hfits, hsettled⟩ => ⟨hfits.of_kept ⟨hlog, hstore⟩, ?_⟩⟩
  rw [settled_iff] at hsettled ⊢
  obtain ⟨hwrites, hwaits⟩ := hsettled
  rw [hstore]
  exact ⟨hwrites, fun ⟨hb, hrest⟩ => hwaits ⟨hbusy hb, hrest⟩⟩

theorem of_port (h : t.log = s.log ∧ t.store = s.store ∧ t.port = s.port) : StoreKept s t := by
  obtain ⟨hlog, hstore, hport⟩ := h
  exact of_kept ⟨hlog, hstore⟩ fun hb => hport ▸ hb

/-- Changes that list slots, and the end of their event (R134). -/
theorem of_event (hslots : t.store.slots = s.store.slots) (hfits : StoreFits s → StoreFits t) :
    StoreKept s (endEvent t) := ⟨by simp [hslots], fun ⟨h, _⟩ => endEvent_storeEnded (hfits h)⟩

theorem placeReply (h : StoreKept s t) (code : Byte) (r : ResultCode) (data : List Byte) :
    StoreKept s (placeReply code r data t) := h.trans (.of_kept (by simp) id)

end StoreKept

/-! ### Commands of the set port (R155) -/

theorem placeReply_storeKept (code : Byte) (r : ResultCode) (data : List Byte) (s : State) :
    StoreKept s (placeReply code r data s) := (StoreKept.refl s).placeReply _ _ _

theorem clearFlagsCommand_storeKept (args : List Byte) (s : State) : StoreKept s (clearFlagsCommand args s) := by
  have hstatus : ∀ st, StoreFits s → StoreFits { s with status := st } := fun st h => h.of_kept ⟨rfl, rfl⟩
  unfold clearFlagsCommand
  dsimp only
  refine StoreKept.placeReply (.of_event ?_ fun h => ?_) _ _ _
  · split <;> simp
  · split
    · exact (hstatus _ h).setFolio _
    · exact hstatus _ h

theorem selectCommand_storeKept (args : List Byte) (s : State) : StoreKept s (selectCommand args s) := by
  unfold selectCommand
  dsimp only
  (repeat' split)
  · exact placeReply_storeKept _ _ _ s
  · exact StoreKept.placeReply (.of_port (by simp)) _ _ _
  · exact placeReply_storeKept _ _ _ s
  · exact StoreKept.placeReply (.of_event (by simp) fun h => (h.setPath _ _).judge _) _ _ _

theorem engineTestCommand_storeKept (args : List Byte) (s : State) : StoreKept s (engineTestCommand args s) := by
  unfold engineTestCommand
  dsimp only
  split
  · exact placeReply_storeKept _ _ _ s
  · exact .of_kept (by simp) (by simp [placeReply, setBusy])

/-- An accepted ORDER ends its event (R94, R95). -/
theorem acceptOrder_storeKept (o : OfferEntry) (f : Folio) (c : Charge) (s : State) :
    StoreKept s (acceptOrder o f c s) := by
  refine ⟨by simp, fun ⟨h, _⟩ => ⟨h.acceptOrder o f c, ?_⟩⟩
  unfold acceptOrder
  dsimp only
  split <;> exact settled_endEvent _

theorem orderCommand_storeKept (args : List Byte) (s : State) : StoreKept s (orderCommand args s) := by
  unfold orderCommand refuseOrder
  dsimp only
  repeat' split
  case h_2 => exact acceptOrder_storeKept _ _ _ s
  all_goals exact placeReply_storeKept _ _ _ s

/-- A change of the lock record, the end of its event and the reply to a PIN command (R108). -/
theorem lockReply_storeKept (code : Byte) (r : ResultCode) (hslots : t.store.slots = s.store.slots)
    (hfits : StoreFits s → StoreFits t) : StoreKept s (lockReply code r (endEvent t)) :=
  (StoreKept.of_event hslots hfits).placeReply _ _ _

theorem enterPinCommand_storeKept (args : List Byte) (s : State) : StoreKept s (enterPinCommand args s) := by
  unfold enterPinCommand
  dsimp only
  (repeat' split)
  · exact placeReply_storeKept _ _ _ s
  · exact placeReply_storeKept _ _ _ s
  · exact lockReply_storeKept _ _ (by simp) fun h => h.applyLock _
  · exact lockReply_storeKept _ _ (by simp) fun h => h.countWrong

theorem acceptLock_storeKept (w : Waiting) (code : Byte) (l : Lock) (s : State) :
    StoreKept s (acceptLock w code l s) :=
  .of_event (by simp) fun h => ((h.applyLock l).listSlot (k := lockSlot) (by decide)).acceptStore _ _ _

theorem setPinCommand_storeKept (args : List Byte) (s : State) : StoreKept s (setPinCommand args s) := by
  unfold setPinCommand
  dsimp only
  (repeat' split)
  · exact placeReply_storeKept _ _ _ s
  · exact acceptLock_storeKept _ _ _ s
  · exact acceptLock_storeKept _ _ _ s
  · exact lockReply_storeKept _ _ (by simp) fun h => h.countWrong

theorem setCeilingCommand_storeKept (args : List Byte) (s : State) : StoreKept s (setCeilingCommand args s) := by
  unfold setCeilingCommand
  dsimp only
  (repeat' split)
  · exact placeReply_storeKept _ _ _ s
  · exact acceptLock_storeKept _ _ _ s
  · exact acceptLock_storeKept _ _ _ s
  · exact lockReply_storeKept _ _ (by simp) fun h => h.countWrong

theorem relockCommand_storeKept (args : List Byte) (s : State) : StoreKept s (relockCommand args s) := by
  unfold relockCommand
  split
  · exact placeReply_storeKept _ _ _ s
  · exact lockReply_storeKept _ _ (by simp) fun h => h.applyLock _

theorem setRoomCommand_storeKept (args : List Byte) (s : State) : StoreKept s (setRoomCommand args s) := by
  have hroom : ∀ room, StoreFits s → StoreFits { s with room := room } := fun room h => h.of_kept ⟨rfl, rfl⟩
  unfold setRoomCommand
  dsimp only
  (repeat' split)
  · exact placeReply_storeKept _ _ _ s
  · exact placeReply_storeKept _ _ _ s
  · exact .of_event (by simp) fun h => ((hroom _ h).listSlot (by decide)).acceptStore _ _ _

theorem resetCommand_storeKept (args : List Byte) (s : State) : StoreKept s (resetCommand args s) :=
  .of_event (by simp) fun h => h.of_kept (by simp)

/-- Every command of the table. -/
theorem setCommand_storeKept {code : Byte} {c : SetCommand} (hc : setCommand code = some c) (args : List Byte)
    (s : State) : StoreKept s (c.run args s) := by
  unfold setCommand at hc
  obtain rfl | hc := row_or_later hc
  · exact .refl s
  obtain rfl | hc := row_or_later hc
  · exact placeReply_storeKept _ _ _ s
  obtain rfl | hc := row_or_later hc
  · exact clearFlagsCommand_storeKept args s
  obtain rfl | hc := row_or_later hc
  · exact .of_kept ⟨rfl, rfl⟩ id
  obtain rfl | hc := row_or_later hc
  · exact selectCommand_storeKept args s
  obtain rfl | hc := row_or_later hc
  · dsimp only [readPathCommand]
    split <;> exact placeReply_storeKept _ _ _ s
  obtain rfl | hc := row_or_later hc
  · exact engineTestCommand_storeKept args s
  obtain rfl | hc := row_or_later hc
  · dsimp only [readChannelCommand]
    split <;> exact placeReply_storeKept _ _ _ s
  obtain rfl | hc := row_or_later hc
  · dsimp only [readOfferCommand]
    split <;> exact placeReply_storeKept _ _ _ s
  obtain rfl | hc := row_or_later hc
  · dsimp only [tableTestCommand]
    split
    · exact placeReply_storeKept _ _ _ s
    · exact StoreKept.placeReply (.of_port (by simp)) _ _ _
  obtain rfl | hc := row_or_later hc
  · exact orderCommand_storeKept args s
  obtain rfl | hc := row_or_later hc
  · exact placeReply_storeKept _ _ _ s
  obtain rfl | hc := row_or_later hc
  · dsimp only [readRecordCommand]
    (repeat' split) <;> exact placeReply_storeKept _ _ _ s
  obtain rfl | hc := row_or_later hc
  · exact enterPinCommand_storeKept args s
  obtain rfl | hc := row_or_later hc
  · exact setPinCommand_storeKept args s
  obtain rfl | hc := row_or_later hc
  · exact setCeilingCommand_storeKept args s
  obtain rfl | hc := row_or_later hc
  · exact relockCommand_storeKept args s
  obtain rfl | hc := row_or_later hc
  · exact setRoomCommand_storeKept args s
  obtain rfl | hc := row_or_later hc
  · exact placeReply_storeKept _ _ _ s
  obtain rfl | hc := row_or_later hc
  · exact resetCommand_storeKept args s
  cases hc

theorem setFrame_storeKept (code : Byte) (args : List Byte) (s : State) : StoreKept s (setFrame code args s) := by
  have hport : ∀ port : SetPort, port.busy = s.port.busy → StoreKept s { s with port := port } := fun port hb =>
    .of_kept ⟨rfl, rfl⟩ fun h => hb ▸ h
  by_cases hrun : s.phase ≠ .running ∨ s.port.frame = .abandoned
  · rw [setFrame_notTaken hrun]
    exact hport _ rfl
  · obtain ⟨hphase, hframe⟩ := not_or.1 hrun
    rw [not_not] at hphase
    cases hd : s.port.busy.discardsFrame code with
    | true =>
      rw [setFrame_discarded hphase hframe hd]
      exact hport _ rfl
    | false =>
      have hover : StoreKept s (s.frameOver (1 + args.length)) := hport _ rfl
      rw [setFrame_taken hphase hframe hd]
      refine hover.trans ?_
      unfold takeCommand SetCommand.take
      (repeat' split)
      · exact placeReply_storeKept _ _ _ _
      · exact placeReply_storeKept _ _ _ _
      · exact setCommand_storeKept ‹_› _ _

/-! ### The line port (R143 to R149) -/

theorem addressedFrame_storeKept (address : Half) (kind : Byte) (payload : List Byte) (s : State) :
    StoreKept s (addressedFrame address kind payload s) := by
  have hact : ∀ u, (addressedAct kind payload u).1.store.slots = u.store.slots ∧
      (StoreFits u → StoreFits (addressedAct kind payload u).1) := fun u => by
    unfold addressedAct
    (repeat' split)
    · exact ⟨rfl, id⟩
    · exact ⟨rfl, id⟩
    · exact messageKind_store ‹_› _ u
  obtain ⟨hslots, hfits⟩ := hact (bringOnline (s.settingAfter kind payload) s)
  exact .of_event (by simpa using hslots) fun h => (hfits (h.bringOnline _)).of_kept ⟨rfl, rfl⟩

theorem soundFrame_storeKept (address : Half) (kind : Byte) (payload : List Byte) (s : State) :
    StoreKept s (soundFrame address kind payload s) := by
  unfold soundFrame broadcastFrame
  (repeat' split)
  · exact .refl s
  · exact .refl s
  · obtain ⟨hslots, hfits⟩ := messageKind_store ‹_› payload s
    exact .of_event hslots hfits
  · exact .refl s
  · exact addressedFrame_storeKept _ _ _ s
  · exact .refl s

theorem frameArrives_storeKept (bytes : List Byte) (tooLong framingError : Bool) (s : State) :
    StoreKept s (frameArrives bytes tooLong framingError s) := by
  have hidle : StoreKept s (setReceiver .idle s) := .of_port ⟨rfl, rfl, rfl⟩
  unfold frameArrives
  dsimp only
  (repeat' split)
  · exact hidle.trans (.of_port ⟨rfl, rfl, rfl⟩)
  · exact hidle
  · exact hidle.trans (soundFrame_storeKept _ _ _ _)

theorem wholeFrame_storeKept (bytes : List Byte) (tooLong framingError : Bool) (s : State) :
    StoreKept s (wholeFrame bytes tooLong framingError s) := by
  unfold wholeFrame
  (repeat' split)
  · exact .of_port ⟨rfl, rfl, rfl⟩
  · exact frameArrives_storeKept _ _ _ s
  · exact frameArrives_storeKept _ _ _ s
  · exact .refl s
  · exact .refl s

theorem lineIdle_storeKept (s : State) : StoreKept s (lineIdle s) := by
  unfold lineIdle
  split
  · exact .of_port ⟨rfl, rfl, rfl⟩
  · exact .refl s
  · exact frameArrives_storeKept _ _ _ s
  · exact .refl s

/-! ### The paths, the engine and the scans (R1, R13, R16, R27, R52) -/

theorem inputStrobe_storeKept (p : PathId) (mark : Bool) (b : Byte) (s : State) :
    StoreKept s (inputStrobe p mark b s) := by
  unfold inputStrobe cellComplete
  dsimp only
  (repeat' split) <;> exact .of_port (by simp)

theorem treatCell_storeKept (p : PathId) (c : Cell) (s : State) : StoreKept s (treatCell p c s) := by
  have hcheck : StoreKept s (keyCheck p c s) := by
    unfold keyCheck
    split <;> exact .of_port (by simp)
  unfold treatCell leaveCell
  (repeat' split)
  case h_2.isTrue | h_8.isTrue | h_9.isTrue => exact hcheck
  all_goals exact .of_port (by simp)

theorem takeCell_storeKept (p : PathId) (s : State) : StoreKept s (takeCell p s) := by
  unfold takeCell
  dsimp only
  (repeat' split)
  · exact StoreKept.trans (.of_port (by simp)) (treatCell_storeKept p _ _)
  · exact .of_port (by simp)
  · exact .refl s
  · exact .refl s

theorem cellLeft_storeKept (p : PathId) (s : State) : StoreKept s (cellLeft p s) := by
  unfold cellLeft
  dsimp only
  (repeat' split) <;> exact .of_port (by simp)

/-- The engine's completion can clear BUSY, and sets it to nothing (R27, R33). -/
theorem completeGrant_storeKept (s : State) : StoreKept s (completeGrant s) := by
  unfold completeGrant
  dsimp only
  (repeat' split)
  · exact .refl s
  · exact .of_port (by simp)
  · exact .of_kept (by simp) (by simp [finishTest, placeReply, setBusy])

theorem scanStep_storeKept (i : TableId) (s : State) : StoreKept s (scanStep i s) := by
  unfold scanStep
  dsimp only
  (repeat' split)
  · exact .refl s
  · exact .of_event (by simp) fun h => h.endPass _ _ _
  · exact .of_port (by simp)

theorem whenRunning_storeKept {f : State → State} (hslots : ∀ u, (f u).store.slots = u.store.slots)
    (hfits : ∀ u, StoreFits u → StoreFits (f u)) (s : State) : StoreKept s (whenRunning f s) := by
  unfold whenRunning
  split
  · exact .of_event (hslots s) (hfits s)
  · exact .refl s

theorem whenLineRuns_storeKept {f : State → State} (hf : ∀ u, StoreKept u (f u)) (s : State) :
    StoreKept s (whenLineRuns f s) := by
  unfold whenLineRuns
  split
  · exact hf s
  · exact .refl s

/-! ### The store's own events, the check and the supply (R134, R137 to R140, R159) -/

/-- A completed write leaves the 51 slots, and the command that it releases waits no more (R134, R135). -/
theorem completeWrite_storeEnded (h : StoreEnded s) : StoreEnded (completeWrite s) := by
  have ⟨hfits, _⟩ := h
  have hreleased : ∀ w {u}, StoreFits u → StoreFits (releaseWaiting w u) := fun w u hu => by
    unfold releaseWaiting
    (repeat' split)
    case h_1.isTrue => exact hu.of_kept (by simp)
    all_goals exact hu
  have hbegun : ∀ {u}, StoreFits u → StoreFits (beginCheck u) := fun {u} hu => by
    unfold beginCheck
    split
    · exact hu.of_kept ⟨rfl, rfl⟩
    all_goals exact hu
  unfold completeWrite
  split
  · exact h
  · rename_i w _
    have hstored : StoreFits (storeImage w s) :=
      ⟨hfits.placed, by simpa [storeImage] using hfits.slots, hfits.distinct, hfits.listed, nofun, hfits.damaged⟩
    exact endEvent_storeEnded (hbegun (hreleased w hstored))

theorem resetEvent_storeEnded (h : StoreEnded s) : StoreEnded (resetEvent s) := by
  have ⟨hfits, _⟩ := h
  unfold resetEvent
  (repeat' split)
  · exact completeWrite_storeEnded h
  · exact endEvent_storeEnded hfits
  · exact h

/-- The slots found damaged lie among the slots read, one place for each at most (R131, R140). -/
theorem readRecords_damaged : ∀ (slots : List Slot) (k : Nat) (kept : List Record),
    (∀ j ∈ (readRecords k slots kept).2, j < k + slots.length) ∧ (readRecords k slots kept).2.length ≤ slots.length
  | [], k, kept => ⟨nofun, le_rfl⟩
  | slot :: rest, k, kept => by
    have hrest : ∀ kept', (∀ j ∈ (readRecords (k + 1) rest kept').2, j < k + (slot :: rest).length) ∧
        (readRecords (k + 1) rest kept').2.length ≤ rest.length := fun kept' => by
      obtain ⟨hbound, hlength⟩ := readRecords_damaged rest (k + 1) kept'
      exact ⟨fun j hj => by have := hbound j hj; simp only [List.length_cons]; omega, hlength⟩
    have hskipped : ∀ kept', (∀ j ∈ k :: (readRecords (k + 1) rest kept').2, j < k + (slot :: rest).length) ∧
        (k :: (readRecords (k + 1) rest kept').2).length ≤ (slot :: rest).length := fun kept' => by
      obtain ⟨hbound, hlength⟩ := hrest kept'
      exact ⟨List.forall_mem_cons.2 ⟨by simp, hbound⟩, Nat.succ_le_succ hlength⟩
    have hpassed : ∀ kept', (∀ j ∈ (readRecords (k + 1) rest kept').2, j < k + (slot :: rest).length) ∧
        (readRecords (k + 1) rest kept').2.length ≤ (slot :: rest).length := fun kept' =>
      ⟨(hrest kept').1, (hrest kept').2.trans (Nat.le_succ _)⟩
    rcases slot with (_ | r | _ | _ | _) | _
    case intact.free => exact hpassed kept
    case intact.record =>
      unfold readRecords
      split
      · exact hskipped kept
      · exact hpassed _
    all_goals exact hskipped kept

/-- At most the 51 slots are damaged, each of them one of the 51 (R138). -/
theorem damagedSlots_bound (st : Store) : (∀ k ∈ st.damagedSlots, k < 51) ∧ st.damagedSlots.length ≤ 51 := by
  obtain ⟨hbound, hlength⟩ := readRecords_damaged (st.slots.take logCapacity) 0 []
  have htaken : (st.slots.take logCapacity).length ≤ 48 := List.length_take_le _ _
  have hone : ∀ (b : Bool) k, k < 51 → (∀ j ∈ if b then [k] else [], j < 51) ∧
      (if b then [k] else []).length ≤ 1 := fun b k hk => by cases b <;> simp [hk]
  obtain ⟨hfolio, hfolio'⟩ := hone st.folioImage.isNone folioSlot (by decide)
  obtain ⟨hlock, hlock'⟩ := hone st.lockImage.isNone lockSlot (by decide)
  obtain ⟨hconfig, hconfig'⟩ := hone st.configImage.isNone configSlot (by decide)
  unfold Store.damagedSlots
  simp only [List.length_append]
  refine ⟨fun k hk => ?_, by omega⟩
  simp only [List.mem_append, or_assoc] at hk
  rcases hk with hk | hk | hk | hk
  · have := hbound k hk
    omega
  · exact hfolio k hk
  · exact hlock k hk
  · exact hconfig k hk

/-- The slots that the rebuild of the log lists are record slots (R105). -/
theorem changedSlots_lt {k : Nat} (h : k ∈ changedSlots s) : k < logCapacity := by
  obtain ⟨r, hr, rfl⟩ := List.mem_map.1 h
  obtain ⟨-, -, hbound, -⟩ := readRecords_places (s.store.slots.take logCapacity) 0 [] List.nodup_nil List.nodup_nil
    (fun _ hn => absurd hn List.not_mem_nil)
  exact (hbound r (mem_of_mem_logOrder (List.mem_of_mem_filter hr))).trans_le (by simp)

theorem completeCheck_storeKept (s : State) : StoreKept s (completeCheck s) := by
  refine ⟨by simp, fun ⟨h, _⟩ => ?_⟩
  obtain ⟨hbound, hcount⟩ := damagedSlots_bound s.store
  obtain ⟨-, -, -, hplaced⟩ := rebuildCopies_logSound s
  have hcopies : StoreFits (rebuildCopies s) := ⟨hplaced, h.slots, h.distinct, h.listed, h.written, hcount⟩
  have hreported : ∀ b f {u}, StoreFits u → StoreFits (reportIf b f u) := fun b f u hu => by
    unfold reportIf
    split
    · exact hu.report f
    · exact hu
  have hslots : ∀ k ∈ s.store.damagedSlots ++ changedSlots s, k < 51 := fun k hk =>
    (List.mem_append.1 hk).elim (hbound k) fun hk => lt_slots_of_recordSlot (changedSlots_lt hk)
  have hlisted := fun b f b' f' b'' f'' =>
    (hreported b f (hreported b' f' (hreported b'' f'' hcopies))).listSlots hslots
  unfold completeCheck
  dsimp only
  refine endEvent_storeEnded ?_
  split
  · exact (hlisted _ _ _ _ _ _).listSlot (by decide)
  · exact hlisted _ _ _ _ _ _

/-- Power-on and pin reset leave the 51 slots, an empty log and nothing listed; a write that goes on is of a slot
(R137, R138). -/
theorem reset_storeEnded (h : StoreFits s) (hlog : t.log = []) (hslots : t.store.slots.length = s.store.slots.length)
    (hdirty : t.store.dirty = []) (hwrite : ∀ w, t.store.write = some w → ∃ v, s.store.write = some v ∧ v.slot = w.slot)
    (hdamaged : t.store.damagedCount = 0) (hbusy : t.port.busy = .clear) : StoreEnded t := by
  refine ⟨⟨by simp [hlog], hslots.trans h.slots, by simp [hdirty], by simp [hdirty], fun w hw => ?_, by simp [hdamaged]⟩,
    (settled_iff t).2 ⟨.inl hdirty, by simp [hbusy]⟩⟩
  obtain ⟨v, hv, he⟩ := hwrite w hw
  exact he ▸ h.written v hv

theorem losePower_storeEnded (phase : Phase) (h : StoreFits s) : StoreEnded { losePower s with phase := phase } := by
  refine reset_storeEnded h rfl ?_ rfl nofun rfl rfl
  change (tearWrite s.store).length = _
  unfold tearWrite
  split <;> simp

theorem takeReset_storeKept (s : State) : StoreKept s (takeReset s) := by
  refine ⟨rfl, fun ⟨h, _⟩ => reset_storeEnded h rfl rfl rfl (fun w hw => ?_) rfl rfl⟩
  obtain ⟨v, hv, rfl⟩ := Option.map_eq_some_iff.1 hw
  exact ⟨v, hv, rfl⟩

/-! ### Every row, and the step -/

/-- A part whose events have ended is left so by every row; and the slots hold what they held, unless the row is a
completion, in its own row or as RESET takes effect, or a loss of power (R131, R134, R137). -/
theorem exec_store (c : Instr) (s : State) : ∃ t, exec c s = .next t ∧ (StoreEnded s → StoreEnded t) ∧
    (c ≠ .slotWriteComplete → c ≠ .resetTakesEffect → c ≠ .powerLoss → c ≠ .powerOnReset →
      t.store.slots = s.store.slots) := by
  have hkept : ∀ {t}, StoreKept s t → ∃ u, (Host.Outcome.next t : Host.Outcome State Fault Refusal) = .next u ∧
      (StoreEnded s → StoreEnded u) ∧ (c ≠ .slotWriteComplete → c ≠ .resetTakesEffect → c ≠ .powerLoss →
        c ≠ .powerOnReset → u.store.slots = s.store.slots) := fun h => ⟨_, rfl, h.ended, fun _ _ _ _ => h.slots⟩
  have hwhen : ∀ {f : State → State}, (∀ u, (f u).store.slots = u.store.slots ∧ (StoreFits u → StoreFits (f u))) →
      StoreKept s (whenRunning f s) := fun h => whenRunning_storeKept (fun u => (h u).1) (fun u => (h u).2) s
  have hline : ∀ {f : State → State}, (∀ u, StoreKept u (f u)) → StoreKept s (whenLineRuns f s) :=
    fun hf => whenLineRuns_storeKept hf s
  have hcond : ∀ {q : Prop} [Decidable q] {t : State}, StoreKept s t → StoreKept s (if q then t else s) :=
    fun {q _ t} ht => by
      split
      · exact ht
      · exact .refl s
  have hshare : ∀ {q : Prop} [Decidable q] {u t : State},
      t.store.slots = u.store.slots ∧ (StoreFits u → StoreFits t) →
      (if q then t else u).store.slots = u.store.slots ∧ (StoreFits u → StoreFits (if q then t else u)) :=
    fun {q _ u t} ht => by
      split
      · exact ht
      · exact ⟨rfl, id⟩
  cases hset : setPortFrame c with
  | some frame =>
    rw [exec_setFrame hset]
    exact hkept (setFrame_storeKept _ _ s)
  | none =>
  cases hmessage : linePortFrame c with
  | some frame =>
    rw [exec_messageFrame hmessage]
    exact hkept (hline fun u => wholeFrame_storeKept _ _ _ u)
  | none =>
  cases c with
  | cellArrives p b => exact hkept (inputStrobe_storeKept p false b s)
  | cellInputStrobe p mark b => exact hkept (inputStrobe_storeKept p mark b s)
  | cellTake p => exact hkept (hcond (takeCell_storeKept p s))
  | cellLeaves p => exact hkept (cellLeft_storeKept p s)
  | engineComplete => exact hkept (completeGrant_storeKept s)
  | slotWriteComplete => exact ⟨_, rfl, completeWrite_storeEnded, fun h => absurd rfl h⟩
  | resetTakesEffect => exact ⟨_, rfl, resetEvent_storeEnded, fun _ h => absurd rfl h⟩
  | setFrameStart =>
    refine hkept ?_
    unfold frameStart
    split <;> exact .of_kept ⟨rfl, rfl⟩ id
  | setFrameDiscarded frame =>
    cases frame with
    | nil => exact hkept (t := closeFrame s) (.of_kept ⟨rfl, rfl⟩ id)
    | cons code args => cases hset
  | lineIdleDetected => exact hkept (hline lineIdle_storeKept)
  | lineFrameIgnored bytes framingError tooLong => exact hkept (hline fun u => wholeFrame_storeKept _ _ _ u)
  | lineCharacterArrives b stopLow =>
    refine hkept (hline fun u => ?_)
    unfold characterArrives
    split <;> exact .of_port ⟨rfl, rfl, rfl⟩
  | replyTransmitStart =>
    refine hkept (hline fun u => ?_)
    unfold startReply
    split <;> exact .of_port ⟨rfl, rfl, rfl⟩
  | replyTransmitEnd =>
    refine hkept (hline fun u => ?_)
    unfold endReply
    split <;> exact .of_port ⟨rfl, rfl, rfl⟩
  | secondTick order => exact hkept (hwhen fun u => ⟨second_slots order u, fun h => h.second order⟩)
  | minuteOfTheTimebase order => exact hkept (hwhen fun u => ⟨minute_slots order u, fun h => h.minute order⟩)
  | midnightDayChange => exact hkept (hwhen fun u => hshare ⟨midnight_slots u, fun h => h.midnight⟩)
  | previewLapse seq =>
    exact hkept (hwhen fun u => ⟨lastPreviewMinute_slots _ seq u, fun h => h.lastPreviewMinute _ seq⟩)
  | autoCharge seq =>
    exact hkept (hwhen fun u => ⟨lastPreviewMinute_slots _ seq u, fun h => h.lastPreviewMinute _ seq⟩)
  | windowEnd seq => exact hkept (hwhen fun u => ⟨lastWindowMinute_slots seq u, fun h => h.lastWindowMinute seq⟩)
  | keyLifeExpiry context parity =>
    refine hkept (hwhen fun u => ?_)
    unfold expireHalf
    split
    · exact hshare ⟨by simp, fun h => h.of_kept (by simp)⟩
    · exact ⟨rfl, id⟩
  | unlockExpiry => exact hkept (hwhen fun u => hshare ⟨expireUnlock_slots u, fun h => h.expireUnlock⟩)
  | lockoutEnd => exact hkept (hwhen fun u => hshare ⟨endLockout_slots u, fun h => h.applyLock _⟩)
  | watchdogExpiry => exact hkept (hwhen fun u => hshare ⟨by simp, fun h => h.of_kept (by simp)⟩)
  | scanStep table => exact hkept (hcond (scanStep_storeKept table s))
  | liveTableUpset table index entry =>
    refine hkept (hcond ?_)
    unfold upset
    exact hcond (.of_port (by simp))
  | powerLoss => exact ⟨_, rfl, fun ⟨h, _⟩ => losePower_storeEnded .off h, fun _ _ h => absurd rfl h⟩
  | powerOnReset => exact ⟨_, rfl, fun ⟨h, _⟩ => losePower_storeEnded .checking h, fun _ _ _ h => absurd rfl h⟩
  | pinReset =>
    refine hkept ?_
    split
    · exact .refl s
    · exact takeReset_storeKept s
  | pinResetRelease => exact hkept (hcond (.of_port ⟨rfl, rfl, rfl⟩))
  | startUpCheckComplete => exact hkept (hcond (completeCheck_storeKept s))
  | unknownCommand | nop | readStatus | clearFlags | setMasks | select | readPath | engineTest | readChannel | readOffer
  | tableTest | order | readFolio | readRecord | enterPin | setPin | setCeiling | relock | setRoom | readTime
  | reset => cases hset
  | lineUnknownKind | poll | time | key | keyClear | tableEntry | tableCommit | checkIn | checkOut | hold | packages
  | collect | release | void | lock => cases hmessage

/-- Taking a command off the queue is nothing to the store, and every row leaves it with its events ended. -/
theorem step_storeEnded (h : StoreEnded s) (hstep : step s = .next t) : StoreEnded t := by
  unfold step at hstep
  split at hstep
  · cases hstep
    exact h
  · rename_i c rest _
    have hqueue : StoreKept s { s with pending := rest } := .of_port ⟨rfl, rfl, rfl⟩
    obtain ⟨u, he, hu, -⟩ := exec_store c { s with pending := rest }
    rw [he] at hstep
    cases hstep
    exact hu (hqueue.ended h)

end

/-- Settles O60: with the record slots of a sound log, a sound store is one that keeps its figures with every event ended,
which every row leaves so; and the log stays sound. -/
theorem stepKeepsStoreSound : Obligations.StepKeepsStoreSound := fun s t hlog hstore hstep => by
  obtain ⟨hkept, -⟩ := stepKeepsLogAndPreviews
  have hended := step_storeEnded ((storeSound_iff hlog).1 hstore) hstep
  exact (storeSound_iff (hkept s t hlog hstep)).2 hended

end Sys2Proof.Machine
end

