-- ==== Sys2Proof/Proofs/StoreStatements.lean ====
section
/-!
HEADLINE. SET_ROOM (R141), the completion of a slot write and the images (R131 to R136), and the supply and the resets
(R137, R138, R142, R160).
-/
namespace Sys2Proof.Machine

/-! ### SET_ROOM (R141) -/

section
variable {args : List Byte} {s : State} {n : Nat}

theorem exec_setRoom (h : s.takesCommand) (hn : 2 ≤ args.length) :
    exec (.setRoom args) s = .next (setRoomCommand args (s.frameOver (1 + args.length))) := by
  rw [exec_command (c := .setRoom args) (k := ⟨0x40, 2, setRoomCommand⟩) rfl h rfl hn (by decide)]
  simp only [setRoomCommand, natAt_take (args := args) (i := 0) (k := 2) (n := 47) (by decide)]

theorem setRoomCommand_broadcast (h : (BitVec.ofNat 16 (natAt args 0 2) : Half) = 0xFFFF) :
    setRoomCommand args s = placeReply 0x40 .badArg [] s := if_pos h

theorem setRoomCommand_open (h : (BitVec.ofNat 16 (natAt args 0 2) : Half) ≠ 0xFFFF) (hopen : s.folio.state ≠ .closed) :
    setRoomCommand args s = placeReply 0x40 .folioOpen [] s := by
  unfold setRoomCommand
  dsimp only
  rw [if_neg h, if_pos ((isOpen_iff s.folio).2 hopen)]

/-- The address taken, the configuration slot listed and the command in flight, before the event's end (R141). -/
def State.roomTaken (s : State) (address : Half) : State :=
  acceptStore .setRoom 0x40 [] (listSlot configSlot { s with room := address })

theorem setRoomCommand_takes (h : (BitVec.ofNat 16 (natAt args 0 2) : Half) ≠ 0xFFFF)
    (hclosed : s.folio.state = .closed) :
    setRoomCommand args s = startWrite (s.roomTaken (BitVec.ofNat 16 (natAt args 0 2))) := by
  have hopen : ¬s.folio.isOpen = true := fun hopen => (isOpen_iff s.folio).1 hopen hclosed
  have hbusy : (s.roomTaken (BitVec.ofNat 16 (natAt args 0 2))).port.busy ≠ .reset := nofun
  unfold setRoomCommand
  dsimp only
  rw [if_neg h, if_neg hopen, ← endEvent_notReset hbusy]
  rfl

/-- Settles O24: the tests of R141 in order, and the accepted command as the address taken and the event's end, which
begins a write at most. -/
theorem setRoomTakesAddress : Obligations.SetRoomTakesAddress := by
  intro args s h _ hn
  rw [exec_setRoom h hn]
  refine ⟨fun hb => ?_, fun hb hopen => ?_, fun hb hclosed => ?_⟩
  · rw [setRoomCommand_broadcast hb, placeReply_frameOver]
  · rw [setRoomCommand_open hb (by simpa using hopen), placeReply_frameOver]
  · refine ⟨_, congrArg _ (setRoomCommand_takes hb (by simpa using hclosed)), ?_, ?_, ?_, ?_⟩
    · simp [State.roomTaken]
    · exact listed_startWrite (mem_listSlot configSlot _)
    · simp [State.roomTaken, acceptStore, placeReply, setBusy, State.frameOver, State.replied, Frame.replace]
    · simp [State.roomTaken]

end

/-! ### The completion of a write (R95, R134, R135) -/

section
variable {s : State} {w : SlotWrite}

@[simp] theorem storeImage_store (w : SlotWrite) (s : State) :
    (storeImage w s).store = { s.store with slots := s.store.slots.set w.slot (.intact w.image), write := none } := rfl

theorem startWrite_dirty (h : s.store.write = none) : (startWrite s).store.dirty = s.store.dirty.tail := by
  cases hd : s.store.dirty with
  | nil => rw [startWrite_empty hd, hd, List.tail_nil]
  | cons k rest => rw [startWrite_begins h hd, List.tail_cons]

theorem waitsOn_iff (b : Busy) (k : Nat) : b.waitsOn k = true ↔ ∃ c, b = .store c ∧ c.slot = k := by
  cases b <;> simp [Busy.waitsOn]

/-- The completion is no other command's to answer (R135). -/
theorem releaseWaiting_unanswered (h : w.releases = false ∨ ∀ c, s.port.busy = .store c → c.slot ≠ w.slot) :
    releaseWaiting w s = s := by
  unfold releaseWaiting
  split
  · rename_i c hb
    refine if_neg fun hr => ?_
    simp only [Bool.and_eq_true, beq_iff_eq] at hr
    obtain ⟨hrel, hslot⟩ := hr
    exact h.elim (fun hn => by simp [hn] at hrel) (fun hn => hn c hb hslot)
  all_goals rfl

theorem releaseWaiting_releases {c : Waiting} (hw : w.releases = true) (hb : s.port.busy = .store c)
    (hc : c.slot = w.slot) : releaseWaiting w s = finishWaiting c s := by
  simp [releaseWaiting, hb, hw, hc]

/-- The write releases the command that waits on its slot, or the set port stands (R135). -/
theorem releaseWaiting_cases (w : SlotWrite) (s : State) :
    releaseWaiting w s = s ∨ ∃ c, s.port.busy = .store c ∧ releaseWaiting w s = finishWaiting c s := by
  by_cases h : w.releases = false ∨ ∀ c, s.port.busy = .store c → c.slot ≠ w.slot
  · exact .inl (releaseWaiting_unanswered h)
  · obtain ⟨hw, hc⟩ := not_or.1 h
    push Not at hc
    obtain ⟨c, hb, hc⟩ := hc
    exact .inr ⟨c, hb, releaseWaiting_releases (by simpa using hw) hb hc⟩

@[simp] theorem releaseWaiting_keeps (w : SlotWrite) (s : State) :
    (releaseWaiting w s).phase = s.phase ∧ (releaseWaiting w s).pathA = s.pathA ∧
    (releaseWaiting w s).pathB = s.pathB ∧ (releaseWaiting w s).engine = s.engine ∧
    (releaseWaiting w s).keys = s.keys ∧ (releaseWaiting w s).channels = s.channels ∧
    (releaseWaiting w s).offers = s.offers ∧ (releaseWaiting w s).folio = s.folio ∧
    (releaseWaiting w s).log = s.log ∧ (releaseWaiting w s).nextSeq = s.nextSeq ∧
    (releaseWaiting w s).previewed = s.previewed ∧ (releaseWaiting w s).lock = s.lock ∧
    (releaseWaiting w s).seconds = s.seconds ∧ (releaseWaiting w s).clock = s.clock ∧
    (releaseWaiting w s).store = s.store ∧ (releaseWaiting w s).room = s.room ∧
    (releaseWaiting w s).line = s.line ∧ (releaseWaiting w s).status = s.status ∧
    (releaseWaiting w s).choice = s.choice ∧ (releaseWaiting w s).pending = s.pending := by
  obtain h | ⟨c, -, h⟩ := releaseWaiting_cases w s <;> rw [h] <;> simp

/-- What the set port holds once a waiting command has been answered (R95, R113, R141). -/
theorem finishWaiting_answers (c : Waiting) (s : State) :
    (finishWaiting c s).port.busy = .clear ∧ (finishWaiting c s).port.ready = true ∧
      (finishWaiting c s).port.slot = some (match c with
        | .order seq _ billed waived window =>
          { code := 0x20, result := .ok, data := be 2 seq.toNat ++ be 3 billed ++ be 3 waived ++ be 2 window }
        | .setPin => { code := 0x31, result := .ok, data := lockReport s.lock }
        | .setCeiling => { code := 0x32, result := .ok, data := lockReport s.lock }
        | .setRoom => { code := 0x40, result := .ok, data := be 2 s.room.toNat }) := by
  cases c <;> exact ⟨rfl, rfl, rfl⟩

theorem beginCheck_of_running (h : s.phase = .running) : beginCheck s = s := by
  unfold beginCheck
  rw [h]

/-- While no RESET command waits, a completion stores the image, releases the command that waits for it and begins the
next write (R134, R135). -/
theorem completeWrite_running (hphase : s.phase = .running) (hw : s.store.write = some w) (hb : s.port.busy ≠ .reset) :
    completeWrite s = startWrite (releaseWaiting w (storeImage w s)) := by
  have hbusy : (releaseWaiting w (storeImage w s)).port.busy ≠ .reset := by
    obtain h | ⟨c, -, h⟩ := releaseWaiting_cases w (storeImage w s)
    · rwa [h]
    · obtain ⟨hclear, -⟩ := finishWaiting_answers c (storeImage w s)
      rw [h, hclear]
      exact nofun
  have hrunning : (releaseWaiting w (storeImage w s)).phase = .running := by simpa [storeImage] using hphase
  simp only [completeWrite, hw]
  rw [beginCheck_of_running hrunning, endEvent_notReset hbusy]

/-! ### The images (R131, R132, R136) -/

/-- The stored window is the multiple of 15 that the window's minutes reach (R136). -/
theorem storedWindow_spec (m : Nat) : storedWindow m % 15 = 0 ∧ m ≤ storedWindow m ∧ storedWindow m < m + 15 := by
  unfold storedWindow
  omega

theorem captureImage_folio (s : State) : captureImage s 48 = .folio s.folio s.nextSeq := rfl

theorem captureImage_lock (s : State) : captureImage s 49 = .lock { s.lock with minutes := 0 } := rfl

theorem captureImage_config (s : State) : captureImage s 50 = .config s.room := rfl

/-- The image of a record slot is that of the record which occupies it (R132). -/
theorem captureImage_recordSlot {k : Nat} (hk : k < logCapacity) :
    captureImage s k = ((s.log.find? (fun r => r.slot == k)).map fun r => SlotImage.record r.stored).getD .free := by
  have hfolio : k ≠ folioSlot := by simp only [logCapacity, folioSlot] at *; omega
  have hlock : k ≠ lockSlot := by simp only [logCapacity, lockSlot] at *; omega
  have hconfig : k ≠ configSlot := by simp only [logCapacity, configSlot] at *; omega
  simp only [captureImage, if_neg hfolio, if_neg hlock, if_neg hconfig]
  cases s.log.find? (fun r => r.slot == k) <;> rfl

theorem captureImage_free {k : Nat} (hk : k < logCapacity) (h : ∀ r ∈ s.log, r.slot ≠ k) : captureImage s k = .free := by
  have hnone : s.log.find? (fun r => r.slot == k) = none := List.find?_eq_none.2 fun r hr => by simpa using h r hr
  rw [captureImage_recordSlot hk, hnone, Option.map_none, Option.getD_none]

theorem captureImage_record (h : LogSound s) {r : Record} (hr : r ∈ s.log) :
    captureImage s r.slot = .record r.stored := by
  obtain ⟨-, -, hslots, hplaced⟩ := h
  obtain ⟨x, hx⟩ := Option.isSome_iff_exists.1
    (List.find?_isSome.2 ⟨r, hr, beq_self_eq_true r.slot⟩ : (s.log.find? (fun x => x.slot == r.slot)).isSome = true)
  have hsame : x = r := List.inj_on_of_nodup_map hslots (List.mem_of_find?_eq_some hx) hr
    (by simpa using List.find?_some hx)
  rw [captureImage_recordSlot (hplaced r hr), hx, hsame, Option.map_some, Option.getD_some]

theorem stored_of_bought {r : Record} {m : Nat} (h : r.state = .bought m) :
    r.stored = { r with state := .bought (storedWindow m) } := by
  simp [Record.stored, h]

theorem stored_of_not_bought {r : Record} (h : ∀ m, r.state ≠ .bought m) : r.stored = r := by
  unfold Record.stored
  split
  · exact absurd ‹_› (h _)
  all_goals rfl

/-- Settles O51: the slots from what every row keeps, the completion as the image stored, the command released and the
next write begun, and each image from the working copy it is made of. -/
theorem slotWritesCaptureAndRelease : Obligations.SlotWritesCaptureAndRelease := by
  refine ⟨fun c s t h1 h2 h3 h4 hexec => ?_, fun s w hphase hw hb => ?_, fun s hlog => ?_⟩
  · obtain ⟨u, hu, -, hslots⟩ := exec_store c s
    cases hu.symm.trans hexec
    exact hslots h1 h2 h3 h4
  · have hnone : (releaseWaiting w (storeImage w s)).store.write = none := by simp
    have hdirty : (releaseWaiting w (storeImage w s)).store.dirty = s.store.dirty := by simp
    refine ⟨startWrite (releaseWaiting w (storeImage w s)),
      congrArg Host.Outcome.next (completeWrite_running hphase hw hb), by simp, ?_, fun hd => ?_, fun k rest hd => ?_,
      fun hn => ?_, fun c hrel hbusy hc => ?_, by simp [storeImage]⟩
    · rw [startWrite_dirty hnone, hdirty]
    · rw [startWrite_empty (hdirty.trans hd), hnone]
    · rw [startWrite_begins hnone (hdirty.trans hd)]
      exact ⟨_, rfl, rfl, captureImage_congr (by simp [storeImage]) (by simp [storeImage]) (by simp [storeImage])
        (by simp [storeImage]) (by simp [storeImage]) k, waitsOn_iff _ k⟩
    · rw [releaseWaiting_unanswered (by exact hn)]
      simp [storeImage]
    · rw [releaseWaiting_releases hrel (by exact hbusy) hc]
      simp only [startWrite_keeps]
      exact finishWaiting_answers c (storeImage w s)
  · refine ⟨captureImage_folio s, captureImage_lock s, captureImage_config s, fun k hk hfree => captureImage_free hk hfree,
      fun r hr => ⟨fun m hm => ?_, fun hm => ?_⟩⟩
    · exact ⟨storedWindow m, by rw [captureImage_record hlog hr, stored_of_bought hm], storedWindow_spec m⟩
    · rw [captureImage_record hlog hr, stored_of_not_bought hm]

end

/-! ### Supply and reset (R137, R138, R142, R160) -/

section
variable {s : State}

/-- A frame in progress is abandoned, and SSEL high stays high (R160). -/
theorem abandon_eq (f : Frame) : f.abandon = if f = .idle then .idle else .abandoned := by cases f <;> rfl

/-- While nothing waits, listed or as a command, a completion stores the image and may begin the check (R137, R138). -/
theorem completeWrite_quiet {w : SlotWrite} (hw : s.store.write = some w) (hd : s.store.dirty = [])
    (hb : s.port.busy = .clear) : completeWrite s = beginCheck (storeImage w s) := by
  have hreleased : releaseWaiting w (storeImage w s) = storeImage w s :=
    releaseWaiting_unanswered (.inr fun c hc => by simp [storeImage, hb] at hc)
  have hkept : (beginCheck (storeImage w s)).store.dirty = [] ∧ (beginCheck (storeImage w s)).port.busy = .clear := by
    unfold beginCheck
    split <;> simp [storeImage, hd, hb]
  obtain ⟨hempty, hclear⟩ := hkept
  simp only [completeWrite, hw]
  rw [hreleased, endEvent_settled ((settled_iff _).2 ⟨.inl hempty, by simp [hclear]⟩)]

/-- Settles O52: each event of the supply and of RESETN is one state written out, and a completion of the write that a
reset left in flight begins the check if RESETN has risen. -/
theorem supplyAndPinReset : Obligations.SupplyAndPinReset := by
  refine ⟨fun s => ⟨?_, ?_, fun hoff => congrArg _ (if_pos hoff)⟩,
    fun s => ⟨fun hon => ?_, fun hreset => ?_, fun w hreset hw hd hb => ?_, fun w hreleased hw hd hb => ?_⟩⟩
  · rw [← abandon_eq]
    cases hw : s.store.write <;> simp only [exec, execPowerLoss, losePower, volatileReset, tearWrite, hw] <;> rfl
  · rw [← abandon_eq]
    cases hw : s.store.write <;> simp only [exec, execPowerOnReset, applyPower, losePower, volatileReset, tearWrite, hw] <;> rfl
  · rw [← abandon_eq]
    exact congrArg _ (if_neg hon)
  · simp only [exec, execPinResetRelease, if_pos hreset, releaseReset]
    cases s.store.write <;> simp
  · simp only [exec, execSlotWriteComplete, completeWrite_quiet hw hd hb]
    simp [beginCheck, storeImage, hreset]
  · simp only [exec, execSlotWriteComplete, completeWrite_quiet hw hd hb]
    simp [beginCheck, storeImage, hreleased]

end

end Sys2Proof.Machine
end

