-- ==== Sys2Proof/Proofs/StartUpSlots.lean ====
section
/-!
SUPPORT. What the start-up check reads from the slots: the records that they give back, and the damaged slots
(R131, R138, R140).
-/
namespace Sys2Proof.Machine

variable {st : Store} {k j : Nat} {r x : Record} {kept : List Record}

/-! ### The images of the folio, the lock and the configuration slot (R131) -/

theorem folioImage_eq_some (f : Folio) (next : Half) : st.folioImage = some (f, next) ↔
    st.slots[48]? = some (.intact (.folio f next)) ∧ f.legal = true := by
  unfold Store.folioImage
  split
  next g n h =>
    rw [h, Option.ite_none_right_eq_some]
    refine ⟨?_, ?_⟩
    · rintro ⟨hlegal, he⟩
      cases he
      exact ⟨rfl, hlegal⟩
    · rintro ⟨he, hlegal⟩
      cases he
      exact ⟨hlegal, rfl⟩
  next h => exact ⟨nofun, fun ⟨hslot, _⟩ => absurd hslot (h f next)⟩

theorem lockImage_eq_some (l : Lock) : st.lockImage = some l ↔
    st.slots[49]? = some (.intact (.lock l)) ∧ l.legal = true := by
  unfold Store.lockImage
  split
  next m h =>
    rw [h, Option.ite_none_right_eq_some]
    refine ⟨?_, ?_⟩
    · rintro ⟨hlegal, he⟩
      cases he
      exact ⟨rfl, hlegal⟩
    · rintro ⟨he, hlegal⟩
      cases he
      exact ⟨hlegal, rfl⟩
  next h => exact ⟨nofun, fun ⟨hslot, _⟩ => absurd hslot (h l)⟩

theorem configImage_eq_some (room : Half) : st.configImage = some room ↔
    st.slots[50]? = some (.intact (.config room)) ∧ room ≠ 0xFFFF := by
  unfold Store.configImage
  split
  next m h =>
    rw [h, Option.ite_none_left_eq_some]
    refine ⟨?_, ?_⟩
    · rintro ⟨hlegal, he⟩
      cases he
      exact ⟨rfl, hlegal⟩
    · rintro ⟨he, hlegal⟩
      cases he
      exact ⟨hlegal, rfl⟩
  next h => exact ⟨nofun, fun ⟨hslot, _⟩ => absurd hslot (h room)⟩

theorem slotGood_recordSlot (hk : k < 48) :
    st.slotGood k ↔ st.slots[k]? = some (.intact .free) ∨ ∃ r, st.givesRecord k r := by
  have h48 : k ≠ 48 := by omega
  have h49 : k ≠ 49 := by omega
  have h50 : k ≠ 50 := by omega
  simp [Store.slotGood, hk, h48, h49, h50]

theorem slotGood_folio : st.slotGood 48 ↔ ∃ p, st.folioImage = some p := by
  simp [Store.slotGood, folioImage_eq_some]

theorem slotGood_lock : st.slotGood 49 ↔ ∃ l, st.lockImage = some l := by
  simp [Store.slotGood, lockImage_eq_some]

theorem slotGood_config : st.slotGood 50 ↔ ∃ room, st.configImage = some room := by
  simp [Store.slotGood, configImage_eq_some]

/-! ### The records that the record slots give back (R131, R140) -/

theorem Store.givesRecord.unique (h : st.givesRecord k r) (hx : st.givesRecord k x) : x = r := by
  obtain ⟨-, hslot, -, -⟩ := h
  obtain ⟨-, hslot', -, -⟩ := hx
  simpa using hslot'.symm.trans hslot

/-- Of the record slots that carry a number with a legal image, the first gives its record back. -/
theorem exists_givesRecord (j : Nat) (hj : j < 48) {x : Record} (hx : st.slots[j]? = some (.intact (.record x)))
    (hlegal : x.legal = true) : ∃ i r, i ≤ j ∧ st.givesRecord i r ∧ r.seq = x.seq := by
  by_cases hfirst : ∀ i y, i < j → st.slots[i]? = some (.intact (.record y)) → y.legal = true → y.seq ≠ x.seq
  · exact ⟨j, x, le_rfl, ⟨hj, hx, hlegal, hfirst⟩, rfl⟩
  · push Not at hfirst
    obtain ⟨i, y, hi, hy, hylegal, hseq⟩ := hfirst
    obtain ⟨i', r, hi', hgives, hr⟩ := exists_givesRecord i (hi.trans hj) hy hylegal
    exact ⟨i', r, hi'.trans hi.le, hgives, hr.trans hseq⟩
termination_by j

/-- `kept` holds the records that the slots below `k` give back, each in its own slot. -/
def Store.GivenBelow (st : Store) (k : Nat) (kept : List Record) : Prop :=
  ∀ x, x ∈ kept ↔ ∃ j r, j < k ∧ st.givesRecord j r ∧ x = { r with slot := j }

namespace Store.GivenBelow

theorem skip (h : st.GivenBelow k kept) (hn : ∀ r, ¬st.givesRecord k r) : st.GivenBelow (k + 1) kept := fun x => by
  rw [h x]
  refine ⟨fun ⟨j, r, hj, hr⟩ => ⟨j, r, Nat.lt_succ_of_lt hj, hr⟩, fun ⟨j, r, hj, hr, hx⟩ => ?_⟩
  have hne : j ≠ k := fun he => hn r (he ▸ hr)
  exact ⟨j, r, by omega, hr, hx⟩

theorem keep (h : st.GivenBelow k kept) (hr : st.givesRecord k r) :
    st.GivenBelow (k + 1) (kept ++ [{ r with slot := k }]) := fun x => by
  rw [List.mem_append, List.mem_singleton, h x]
  constructor
  · rintro (⟨j, y, hj, hy⟩ | hx)
    · exact ⟨j, y, Nat.lt_succ_of_lt hj, hy⟩
    · exact ⟨k, r, Nat.lt_succ_self k, hr, hx⟩
  · rintro ⟨j, y, hj, hy, hx⟩
    rcases Nat.lt_succ_iff_lt_or_eq.1 hj with hj | rfl
    · exact .inl ⟨j, y, hj, hy, hx⟩
    · exact .inr (hr.unique hy ▸ hx)

/-- A record slot is passed over exactly if it does not give its record back (R131, R140). -/
theorem givesRecord_iff (h : st.GivenBelow k kept) (hk : k < 48) (hslot : st.slots[k]? = some (.intact (.record r))) :
    st.givesRecord k r ↔ ¬(!r.legal || kept.any (fun x => x.seq == r.seq)) = true := by
  simp only [Bool.or_eq_true, Bool.not_eq_true', Bool.not_eq_false, List.any_eq_true, beq_iff_eq, not_or, not_exists,
    not_and]
  constructor
  · rintro ⟨-, -, hlegal, hfirst⟩
    refine ⟨hlegal, fun x hx => ?_⟩
    obtain ⟨j, y, hj, ⟨-, hy, hylegal, -⟩, rfl⟩ := (h x).1 hx
    exact hfirst j y hj hy hylegal
  · rintro ⟨hlegal, hnew⟩
    refine ⟨hk, hslot, hlegal, fun j x hj hx hxlegal hseq => ?_⟩
    obtain ⟨i, y, hi, hy, hyseq⟩ := exists_givesRecord j (hj.trans hk) hx hxlegal
    exact hnew _ ((h _).2 ⟨i, y, hi.trans_lt hj, hy, rfl⟩) (hyseq.trans hseq)

end Store.GivenBelow

open Classical in
/-- Reading the record slots from `k` on collects the records that they give back and the slots that are not good. -/
theorem readRecords_spec : ∀ (slots : List Slot) (k : Nat) (kept : List Record), k + slots.length = 48 →
    (∀ j slot, slots[j]? = some slot → st.slots[k + j]? = some slot) → st.GivenBelow k kept →
    st.GivenBelow 48 (readRecords k slots kept).1 ∧
      (readRecords k slots kept).2 = (List.range' k slots.length).filter fun j => decide ¬st.slotGood j
  | [], k, kept, hlength, _, h => by
    obtain rfl : k = 48 := hlength
    exact ⟨h, rfl⟩
  | slot :: rest, k, kept, hlength, hslots, h => by
    have hk : k < 48 := by
      rw [List.length_cons] at hlength
      omega
    have hslot : st.slots[k]? = some slot := hslots 0 slot rfl
    have hread : ∀ kept', st.GivenBelow (k + 1) kept' → _ := fun kept' => readRecords_spec rest (k + 1) kept'
      (by rw [← hlength, List.length_cons]; omega)
      (fun j slot hj => by rw [← hslots (j + 1) slot hj]; congr 1; omega)
    have hgood := slotGood_recordSlot (st := st) hk
    rw [hslot] at hgood
    have hpassed : st.slotGood k → (List.range' k (slot :: rest).length).filter (fun j => decide ¬st.slotGood j) =
        (List.range' (k + 1) rest.length).filter fun j => decide ¬st.slotGood j := fun hg => by
      rw [List.length_cons, List.range'_succ, List.filter_cons_of_neg (by simpa using hg)]
    have hfound : ¬st.slotGood k → (List.range' k (slot :: rest).length).filter (fun j => decide ¬st.slotGood j) =
        k :: (List.range' (k + 1) rest.length).filter fun j => decide ¬st.slotGood j := fun hg => by
      rw [List.length_cons, List.range'_succ, List.filter_cons_of_pos (by simpa using hg)]
    have hbad : (∀ r, ¬st.givesRecord k r) → slot ≠ .intact .free →
        st.GivenBelow 48 (readRecords (k + 1) rest kept).1 ∧ k :: (readRecords (k + 1) rest kept).2 =
          (List.range' k (slot :: rest).length).filter fun j => decide ¬st.slotGood j := fun hnone hfree => by
      obtain ⟨hgiven, hrest⟩ := hread kept (h.skip hnone)
      have hnot : ¬st.slotGood k := by
        rw [hgood]
        rintro (he | ⟨r, hr⟩)
        · exact hfree (Option.some.inj he)
        · exact hnone r hr
      exact ⟨hgiven, by rw [hfound hnot, hrest]⟩
    have hnorecord : (∀ r, slot ≠ .intact (.record r)) → ∀ r, ¬st.givesRecord k r := fun hn r ⟨_, hr, _⟩ =>
      hn r (Option.some.inj (hslot.symm.trans hr))
    rcases slot with (_ | r | _ | _ | _) | _
    case intact.free =>
      obtain ⟨hgiven, hrest⟩ := hread kept (h.skip (hnorecord nofun))
      exact ⟨hgiven, by rw [hpassed (hgood.2 (.inl rfl)), ← hrest]; rfl⟩
    case intact.record =>
      unfold readRecords
      by_cases hr : st.givesRecord k r
      · rw [if_neg ((h.givesRecord_iff hk hslot).1 hr), hpassed (hgood.2 (.inr ⟨r, hr⟩))]
        exact hread _ (h.keep hr)
      · rw [if_pos (not_not.1 fun hn => hr ((h.givesRecord_iff hk hslot).2 hn))]
        refine hbad (fun x hx => ?_) nofun
        have ⟨_, hx', _⟩ := hx
        cases hslot.symm.trans hx'
        exact hr hx
    all_goals exact hbad (hnorecord nofun) nofun

/-- The records that the slots give back, in slot order. -/
def Store.givenRecords (st : Store) : List Record := (readRecords 0 (st.slots.take logCapacity) []).1

open Classical in
theorem readRecords_store (h : st.slots.length = 51) : st.GivenBelow 48 st.givenRecords ∧
    (readRecords 0 (st.slots.take logCapacity) []).2 = (List.range 48).filter fun j => decide ¬st.slotGood j := by
  have hlength : (st.slots.take logCapacity).length = 48 := by simp [h, logCapacity]
  have hread := readRecords_spec (st := st) (st.slots.take logCapacity) 0 [] (by omega)
    (fun j slot hj => by
      rw [List.getElem?_take] at hj
      split at hj
      · rwa [Nat.zero_add]
      · cases hj)
    (fun x => by simp)
  rwa [hlength, ← List.range_eq_range'] at hread

theorem mem_givenRecords (h : st.slots.length = 51) :
    x ∈ st.givenRecords ↔ ∃ k r, st.givesRecord k r ∧ x = { r with slot := k } := by
  obtain ⟨hgiven, -⟩ := readRecords_store h
  rw [hgiven x]
  refine ⟨fun ⟨k, r, _, hr⟩ => ⟨k, r, hr⟩, fun ⟨k, r, hr, hx⟩ => ?_⟩
  have ⟨hk, _⟩ := hr
  exact ⟨k, r, hk, hr, hx⟩

theorem givenRecords_nodup (st : Store) : (st.givenRecords.map (·.seq)).Nodup := by
  obtain ⟨hseqs, -⟩ := readRecords_places (st.slots.take logCapacity) 0 [] List.nodup_nil List.nodup_nil
    (fun _ hn => absurd hn List.not_mem_nil)
  exact hseqs

theorem mem_givenSeqs (h : st.slots.length = 51) (q : Half) :
    q ∈ st.givenRecords.map (·.seq) ↔ ∃ k r, st.givesRecord k r ∧ r.seq = q := by
  rw [List.mem_map]
  constructor
  · rintro ⟨x, hx, rfl⟩
    obtain ⟨k, r, hr, rfl⟩ := (mem_givenRecords h).1 hx
    exact ⟨k, r, hr, rfl⟩
  · rintro ⟨k, r, hr, rfl⟩
    exact ⟨_, (mem_givenRecords h).2 ⟨k, r, hr, rfl⟩, rfl⟩

/-- The check lists the slots that are not good, in slot order (R138, R140). -/
theorem damagedSlots_eq_badSlots (h : st.slots.length = 51) : st.damagedSlots = st.badSlots := by
  classical
  obtain ⟨-, hrecords⟩ := readRecords_store h
  have hone : ∀ {α : Type} (o : Option α) (j : Nat), (st.slotGood j ↔ ∃ a, o = some a) →
      (if o.isNone then [j] else []) = [j].filter fun j => decide ¬st.slotGood j := by
    intro α o j hgood
    cases o <;> simp_all
  have hrange : List.range 51 = List.range 48 ++ [48] ++ [49] ++ [50] := rfl
  unfold Store.damagedSlots Store.badSlots
  rw [hrecords, hone _ folioSlot slotGood_folio, hone _ lockSlot slotGood_lock, hone _ configSlot slotGood_config, hrange]
  simp only [List.filter_append]

theorem badSlots_nodup (st : Store) : st.badSlots.Nodup := List.nodup_range.filter _

end Sys2Proof.Machine
end

