-- ==== Sys2Proof/Proofs/StartUpLog.lean ====
section
/-!
SUPPORT. What the start-up check makes of the records that the slots give back: the next sequence number, the log and
its order, the previewed-title set (R105, R140).
-/
namespace Sys2Proof.Machine

/-! ### The next sequence number rebuilt (R140) -/

section
variable {seqs : List Half} {q : Half}

/-- No number of the list comes after this one in wrap order (R140). -/
def latestIn (seqs : List Half) (a : Half) : Bool := seqs.all fun b => !comesAfter b a

theorem latestIn_iff (a : Half) :
    latestIn seqs a = true ↔ ∀ b ∈ seqs, ¬(1 ≤ (b - a).toNat ∧ (b - a).toNat ≤ 32767) := by
  simp only [latestIn, comesAfter, List.all_eq_true, Bool.not_eq_true', ← Bool.not_eq_true, Bool.and_eq_true,
    decide_eq_true_eq]

/-- The one latest number, if there is just one, is followed (R140). -/
theorem rebuiltNext_latest (hn : seqs.Nodup) (hq : ∀ a, a ∈ seqs ∧ latestIn seqs a = true ↔ a = q) :
    rebuiltNext seqs = q + 1 := by
  have hmem : ∀ a, a ∈ seqs.filter (latestIn seqs) ↔ a ∈ [q] := fun a => by
    rw [List.mem_filter, hq, List.mem_singleton]
  have hone : seqs.filter (latestIn seqs) = [q] :=
    List.perm_singleton.1 ((List.perm_ext_iff_of_nodup (hn.filter _) (List.nodup_singleton q)).2 hmem)
  have hfilter : seqs.filter (fun a => seqs.all fun b => !comesAfter b a) = [q] := hone
  unfold rebuiltNext
  rw [hfilter]

/-- The running maximum of numbers that `q` bounds is `q` once `q` has been met. -/
theorem foldl_max_toNat (hmax : ∀ b ∈ seqs, b.toNat ≤ q.toNat) {m : Nat} (hm : m ≤ q.toNat)
    (hq : m = q.toNat ∨ q ∈ seqs) : seqs.foldl (fun m q => max m q.toNat) m = q.toNat := by
  induction seqs generalizing m with
  | nil => exact hq.resolve_right List.not_mem_nil
  | cons b rest ih =>
    obtain ⟨hb, hrest⟩ := List.forall_mem_cons.1 hmax
    refine ih hrest (max_le hm hb) ?_
    rcases hq with rfl | hq
    · exact .inl (max_eq_left hb)
    · rcases List.mem_cons.1 hq with rfl | hq
      · exact .inl (max_eq_right hm)
      · exact .inr hq

/-- Where no number, or more than one, is the latest, the greatest number is followed (R140). -/
theorem rebuiltNext_greatest (hnone : ∀ a, ¬∀ b, b ∈ seqs ∧ latestIn seqs b = true ↔ b = a) (hq : q ∈ seqs)
    (hmax : ∀ b ∈ seqs, b.toNat ≤ q.toNat) : rebuiltNext seqs = q + 1 := by
  unfold rebuiltNext
  split
  next a ha =>
    have hfilter : seqs.filter (latestIn seqs) = [a] := ha
    refine absurd (fun b => ?_) (hnone a)
    rw [← List.mem_filter, hfilter, List.mem_singleton]
  next =>
    have hne : seqs.isEmpty = false := by
      rw [List.isEmpty_eq_false_iff]
      exact List.ne_nil_of_mem hq
    rw [hne, foldl_max_toNat hmax (Nat.zero_le _) (.inr hq), BitVec.ofNat_toNat, BitVec.setWidth_eq]
    rfl

end

section
variable {st : Store} {q : Half}

theorem latestSeq_iff (h : st.slots.length = 51) : st.latestSeq q ↔
    q ∈ st.givenRecords.map (·.seq) ∧ latestIn (st.givenRecords.map (·.seq)) q = true := by
  rw [latestIn_iff, mem_givenSeqs h]
  refine and_congr_right fun _ => ⟨fun hlatest b hb => ?_, fun hlatest k r hr => ?_⟩
  · obtain ⟨k, r, hr, rfl⟩ := (mem_givenSeqs h b).1 hb
    exact hlatest k r hr
  · exact hlatest _ ((mem_givenSeqs h _).2 ⟨k, r, hr, rfl⟩)

/-- Some number is the one latest exactly if `latestSeq` holds of it and of no other. -/
theorem one_latest_iff (h : st.slots.length = 51) :
    (∀ a, a ∈ st.givenRecords.map (·.seq) ∧ latestIn (st.givenRecords.map (·.seq)) a = true ↔ a = q) ↔
      st.latestSeq q ∧ ∀ q', st.latestSeq q' → q' = q := by
  simp only [← latestSeq_iff h]
  refine ⟨fun hone => ⟨(hone q).2 rfl, fun q' => (hone q').1⟩, fun ⟨hq, hone⟩ a => ⟨hone a, ?_⟩⟩
  rintro rfl
  exact hq

theorem rebuiltNext_none (h : st.slots.length = 51) (hnone : ∀ k r, ¬st.givesRecord k r) :
    rebuiltNext (st.givenRecords.map (·.seq)) = 0 := by
  have hnil : st.givenRecords = [] := List.eq_nil_iff_forall_not_mem.2 fun x hx => by
    obtain ⟨k, r, hr, -⟩ := (mem_givenRecords h).1 hx
    exact hnone k r hr
  rw [hnil]
  rfl

theorem rebuiltNext_latestSeq (h : st.slots.length = 51) (hq : st.latestSeq q) (hone : ∀ q', st.latestSeq q' → q' = q) :
    rebuiltNext (st.givenRecords.map (·.seq)) = q + 1 :=
  rebuiltNext_latest (givenRecords_nodup st) ((one_latest_iff h).2 ⟨hq, hone⟩)

theorem rebuiltNext_greatestSeq (h : st.slots.length = 51)
    (hnone : ¬∃ q, st.latestSeq q ∧ ∀ q', st.latestSeq q' → q' = q) {k : Nat} {r : Record} (hr : st.givesRecord k r)
    (hmax : ∀ j x, st.givesRecord j x → x.seq.toNat ≤ r.seq.toNat) :
    rebuiltNext (st.givenRecords.map (·.seq)) = r.seq + 1 :=
  rebuiltNext_greatest (fun a ha => hnone ⟨a, (one_latest_iff h).1 ha⟩) ((mem_givenSeqs h _).2 ⟨k, r, hr, rfl⟩)
    fun b hb => by
      obtain ⟨j, x, hx, rfl⟩ := (mem_givenSeqs h b).1 hb
      exact hmax j x hx

end

/-! ### The log's order (R140) -/

section
variable {next : Half} {records : List Record}

theorem distanceBack_inj {a b : Half} (h : distanceBack next a = distanceBack next b) : a = b := by
  unfold distanceBack at h
  split at h <;> split at h <;> bv_omega

theorem mem_logOrder {r : Record} : r ∈ logOrder next records ↔ r ∈ records := (logOrder_perm next records).mem_iff

theorem insertByDistance_perm (next : Half) (r : Record) : ∀ l, (insertByDistance next r l).Perm (r :: l)
  | [] => .refl _
  | x :: rest => by
    unfold insertByDistance
    split
    · exact .refl _
    · exact ((insertByDistance_perm next r rest).cons x).trans (.swap r x rest)

theorem insertByDistance_sorted (r : Record) {l : List Record}
    (hl : l.Pairwise fun a b => distanceBack next b.seq ≤ distanceBack next a.seq) :
    (insertByDistance next r l).Pairwise fun a b => distanceBack next b.seq ≤ distanceBack next a.seq := by
  induction l with
  | nil => exact List.pairwise_singleton _ r
  | cons x rest ih =>
    obtain ⟨hx, hrest⟩ := List.pairwise_cons.1 hl
    unfold insertByDistance
    split
    next hlt =>
      refine List.pairwise_cons.2 ⟨List.forall_mem_cons.2 ⟨hlt.le, fun y hy => (hx y hy).trans hlt.le⟩, hl⟩
    next hle =>
      refine List.pairwise_cons.2 ⟨fun y hy => ?_, ih hrest⟩
      rcases List.mem_cons.1 ((insertByDistance_perm next r rest).mem_iff.1 hy) with rfl | hy
      · exact not_lt.1 hle
      · exact hx y hy

/-- The log stands by distance back from the next sequence number, the greatest first (R140). -/
theorem logOrder_sorted (hn : (records.map (·.seq)).Nodup) :
    (logOrder next records).Pairwise fun a b => distanceBack next b.seq < distanceBack next a.seq := by
  have hle : (logOrder next records).Pairwise fun a b => distanceBack next b.seq ≤ distanceBack next a.seq := by
    induction records with
    | nil => exact .nil
    | cons r rest ih => exact insertByDistance_sorted r (ih (List.nodup_cons.1 hn).2)
  have hne : (logOrder next records).Pairwise fun a b => a.seq ≠ b.seq :=
    List.pairwise_map.1 (((logOrder_perm next records).map _).nodup_iff.2 hn)
  exact (hle.and hne).imp fun ⟨hab, hseq⟩ => hab.lt_of_ne fun he => hseq (distanceBack_inj he).symm

end

/-! ### A record at the end of the check (R105, R140) -/

section
variable {r x : Record} {f : Folio}

theorem current_iff : r.current f = true ↔ f.state ≠ .closed ∧ r.folio = f.number := by
  simp [Record.current, isOpen_iff]

/-- What the check makes of an active record of an earlier stay (R105). -/
theorem closed_of_active (h : r.final = false) :
    r.closed = { r with state := if r.state = .preview then .lapsed else .ended } := by
  rcases record_cases r with hp | ⟨w, hw⟩ | hf
  · simp [Record.closed, hp]
  · simp [Record.closed, hw]
  · simp [h] at hf

/-- A final record, or one of an earlier stay, leaves the log if it is released (R105). -/
theorem rebuilt_of_released (hreleased : r.released = true) (h : r.final = true ∨ r.current f = false) :
    r.rebuilt f = (none, true) := by
  unfold Record.rebuilt
  rcases h with h | h <;> simp [h, hreleased]

theorem rebuilt_of_final (h : r.final = true) (hreleased : r.released = false) : r.rebuilt f = (some r, false) := by
  simp [Record.rebuilt, h, hreleased]

theorem rebuilt_of_current (h : r.final = false) (hcurrent : r.current f = true) : r.rebuilt f = (some r, false) := by
  simp [Record.rebuilt, h, hcurrent]

theorem rebuilt_of_active (h : r.final = false) (hcurrent : r.current f = false) (hreleased : r.released = false) :
    r.rebuilt f = (some r.closed, true) := by
  simp [Record.rebuilt, h, hcurrent, hreleased]

/-- What the check leaves of a record that stays in the log (R105). -/
theorem rebuilt_eq_some (h : (r.rebuilt f).1 = some x) :
    (x = r ∧ (r.final = true ∧ r.released = false ∨ r.final = false ∧ r.current f = true)) ∨
      (x = r.closed ∧ r.final = false ∧ r.released = false) := by
  unfold Record.rebuilt at h
  (repeat' split at h) <;> simp_all

theorem rebuilt_seq (h : (r.rebuilt f).1 = some x) : x.seq = r.seq := by
  obtain ⟨hseq, -⟩ := closed_keeps r
  obtain ⟨rfl, -⟩ | ⟨rfl, -⟩ := rebuilt_eq_some h
  · rfl
  · exact hseq

/-- An active record that stays in the log is one of the current folio (R105). -/
theorem rebuilt_active (h : (r.rebuilt f).1 = some x) (hx : x.final = false) : x.current f = true := by
  obtain ⟨rfl, ⟨hfinal, -⟩ | ⟨-, hcurrent⟩⟩ | ⟨rfl, -⟩ := rebuilt_eq_some h
  · simp [hx] at hfinal
  · exact hcurrent
  · simp [closed_final] at hx

/-- No record stays in the log that is released and final (R101, R105). -/
theorem rebuilt_unsettled (h : (r.rebuilt f).1 = some x) : ¬(x.released = true ∧ x.final = true) := by
  obtain ⟨-, -, hreleased⟩ := closed_keeps r
  obtain ⟨rfl, ⟨-, hstays⟩ | ⟨hstays, -⟩⟩ | ⟨rfl, -, hstays⟩ := rebuilt_eq_some h <;> simp_all

/-- The rebuild changes a record's state at most, an active one to LAPSED or ENDED (R105). -/
theorem rebuilt_fields (h : (r.rebuilt f).1 = some x) : x = { r with state := x.state } ∧
    (x.state = r.state ∨ r.state = .preview ∧ x.state = .lapsed ∨ (∃ w, r.state = .bought w) ∧ x.state = .ended) := by
  obtain ⟨rfl, -⟩ | ⟨rfl, hactive, -⟩ := rebuilt_eq_some h
  · exact ⟨rfl, .inl rfl⟩
  · rcases record_cases r with hp | ⟨w, hw⟩ | hf
    · simp [Record.closed, hp]
    · simp [Record.closed, hw]
    · simp [hactive] at hf

end

/-! ### The previewed-title set (R105) -/

section
variable {f : Folio} {title : Word}

theorem rebuiltTitles_cons (r : Record) (rest : List Record) : rebuiltTitles f (r :: rest) =
    if r.current f && r.origin == .preview && !(rebuiltTitles f rest).contains r.title then
      r.title :: rebuiltTitles f rest
    else rebuiltTitles f rest := rfl

theorem mem_rebuiltTitles (log : List Record) : title ∈ rebuiltTitles f log ↔
    ∃ r ∈ log, r.title = title ∧ r.origin = .preview ∧ r.current f = true := by
  induction log with
  | nil => simp [rebuiltTitles]
  | cons r rest ih =>
    rw [List.exists_mem_cons_iff, ← ih, rebuiltTitles_cons]
    split
    next hnew =>
      simp only [Bool.and_eq_true, beq_iff_eq] at hnew
      obtain ⟨⟨hcurrent, horigin⟩, -⟩ := hnew
      simp [hcurrent, horigin, eq_comm]
    next hold =>
      refine ⟨.inr, ?_⟩
      rintro (⟨rfl, horigin, hcurrent⟩ | hrest)
      · simpa [horigin, hcurrent] using hold
      · exact hrest

theorem rebuiltTitles_nodup (f : Folio) (log : List Record) : (rebuiltTitles f log).Nodup := by
  induction log with
  | nil => exact List.nodup_nil
  | cons r rest ih =>
    rw [rebuiltTitles_cons]
    split
    next hnew => exact List.nodup_cons.2 ⟨by simp_all, ih⟩
    next => exact ih

end

end Sys2Proof.Machine
end

