-- ==== Sys2Proof/Proofs/StartUpCheck.lean ====
section
/-!
HEADLINE. The start-up check rebuilds the working copies from the slots (R81, R105, R121, R138 to R140).
-/
namespace Sys2Proof.Machine

/-! ### Reports and listings one after the other -/

section
variable {s : State}

@[simp] theorem reportIf_keeps (b : Bool) (f : DetailFlag) (s : State) :
    (reportIf b f s).phase = s.phase ∧ (reportIf b f s).pathA = s.pathA ∧ (reportIf b f s).pathB = s.pathB ∧
    (reportIf b f s).engine = s.engine ∧ (reportIf b f s).keys = s.keys ∧ (reportIf b f s).channels = s.channels ∧
    (reportIf b f s).offers = s.offers ∧ (reportIf b f s).folio = s.folio ∧ (reportIf b f s).log = s.log ∧
    (reportIf b f s).nextSeq = s.nextSeq ∧ (reportIf b f s).previewed = s.previewed ∧
    (reportIf b f s).lock = s.lock ∧ (reportIf b f s).seconds = s.seconds ∧ (reportIf b f s).clock = s.clock ∧
    (reportIf b f s).store = s.store ∧ (reportIf b f s).room = s.room ∧ (reportIf b f s).line = s.line ∧
    (reportIf b f s).port = s.port ∧ (reportIf b f s).choice = s.choice ∧ (reportIf b f s).pending = s.pending := by
  unfold reportIf
  split <;> simp

/-- A flag is set by its own report, and by no other (R161). -/
theorem reportIf_detail (b : Bool) (f : DetailFlag) (s : State) (k : Nat) :
    (reportIf b f s).status.detail.getLsbD k = (s.status.detail.getLsbD k || (b && k == f.bit)) := by
  cases b
  · simp [reportIf]
  · by_cases hk : k = f.bit
    · subst hk
      simpa [reportIf] using report_sets f s
    · have hother : (k == f.bit) = false := beq_eq_false_iff_ne.2 hk
      simpa [reportIf, hother] using report_detail_ne f s hk

@[simp] theorem listSlots_keeps (ks : List Nat) (s : State) :
    (listSlots ks s).phase = s.phase ∧ (listSlots ks s).pathA = s.pathA ∧ (listSlots ks s).pathB = s.pathB ∧
    (listSlots ks s).engine = s.engine ∧ (listSlots ks s).keys = s.keys ∧ (listSlots ks s).channels = s.channels ∧
    (listSlots ks s).offers = s.offers ∧ (listSlots ks s).folio = s.folio ∧ (listSlots ks s).log = s.log ∧
    (listSlots ks s).nextSeq = s.nextSeq ∧ (listSlots ks s).previewed = s.previewed ∧
    (listSlots ks s).lock = s.lock ∧ (listSlots ks s).seconds = s.seconds ∧ (listSlots ks s).clock = s.clock ∧
    (listSlots ks s).room = s.room ∧ (listSlots ks s).line = s.line ∧ (listSlots ks s).port = s.port ∧
    (listSlots ks s).status = s.status ∧ (listSlots ks s).choice = s.choice ∧ (listSlots ks s).pending = s.pending ∧
    (listSlots ks s).store.write = s.store.write ∧ (listSlots ks s).store.damagedCount = s.store.damagedCount := by
  unfold listSlots
  induction ks generalizing s with
  | nil => simp
  | cons k rest ih =>
    obtain ⟨-, hwrite, hdamaged⟩ := listSlot_store k s
    rw [List.foldl_cons]
    simpa [hwrite, hdamaged] using ih (listSlot k s)

theorem listSlots_append (ks js : List Nat) (s : State) : listSlots (ks ++ js) s = listSlots js (listSlots ks s) :=
  List.foldl_append

theorem dirty_prefix_listSlot (k : Nat) (s : State) : s.store.dirty <+: (listSlot k s).store.dirty := by
  unfold listSlot
  split
  · exact List.prefix_rfl
  · exact List.prefix_append _ _

theorem dirty_prefix_listSlots (ks : List Nat) (s : State) : s.store.dirty <+: (listSlots ks s).store.dirty := by
  induction ks generalizing s with
  | nil => exact List.prefix_rfl
  | cons k rest ih => exact (dirty_prefix_listSlot k s).trans (ih (listSlot k s))

theorem mem_listSlots {ks : List Nat} {k : Nat} (h : k ∈ ks) (s : State) : k ∈ (listSlots ks s).store.dirty := by
  induction ks generalizing s with
  | nil => exact absurd h List.not_mem_nil
  | cons j rest ih =>
    rcases List.mem_cons.1 h with rfl | h
    · exact (dirty_prefix_listSlots rest (listSlot k s)).subset (mem_listSlot k s)
    · exact ih h (listSlot j s)

/-- Slots that differ from one another and from those listed join the list's tail in their order (R133). -/
theorem listSlots_new {ks : List Nat} {s : State} (h : (s.store.dirty ++ ks).Nodup) :
    (listSlots ks s).store.dirty = s.store.dirty ++ ks := by
  induction ks generalizing s with
  | nil => exact (List.append_nil _).symm
  | cons k rest ih =>
    have hk : k ∉ s.store.dirty := fun hk => List.disjoint_of_nodup_append h hk List.mem_cons_self
    have hdirty : (listSlot k s).store.dirty = s.store.dirty ++ [k] := by simp [listSlot, hk]
    have happend : s.store.dirty ++ k :: rest = (listSlot k s).store.dirty ++ rest := by simp [hdirty]
    rw [happend] at h ⊢
    exact ih h

/-- The write that begins is of the head of the list (R134). -/
theorem startWrite_queue (h : s.store.write = none) :
    ((startWrite s).store.write.map (·.slot)).toList ++ (startWrite s).store.dirty = s.store.dirty := by
  cases hd : s.store.dirty with
  | nil => simp [startWrite_empty hd, h, hd]
  | cons k rest => simp [startWrite_begins h hd]

theorem startWrite_damagedCount (s : State) : (startWrite s).store.damagedCount = s.store.damagedCount := by
  unfold startWrite
  split <;> rfl

end

/-! ### The check as one state (R138) -/

section
variable {s : State}

/-- The working copies rebuilt and the flags reported, before the slots are listed (R138 to R140). -/
def State.checked (s : State) : State :=
  reportIf (decide (logNearFull ≤ (rebuildCopies s).log.length)) .logNearFull
    (reportIf s.store.folioImage.isNone .folioSlotLost
      (reportIf (decide (0 < s.store.damagedSlots.length)) .damagedSlot (rebuildCopies s)))

/-- The slots that the check lists, in its order (R138, log 13). -/
def State.checkListing (s : State) : List Nat :=
  s.store.damagedSlots ++ changedSlots s ++ if s.store.heldUnlock then [lockSlot] else []

theorem completeCheck_eq (h : s.port.busy = .clear) :
    completeCheck s = startWrite (listSlots s.checkListing s.checked) := by
  have hbusy : (listSlots s.checkListing s.checked).port.busy ≠ .reset := by
    simp [State.checked, rebuildCopies, h]
  rw [← endEvent_notReset hbusy]
  unfold State.checkListing completeCheck
  split <;> simp [listSlots_append, State.checked] <;> rfl

theorem exec_startUpCheckComplete (h : s.phase = .checking) :
    exec .startUpCheckComplete s = .next (completeCheck s) := congrArg Host.Outcome.next (if_pos h)

/-- The check writes the working copies, the store and the status alone (R138). -/
theorem completeCheck_keeps (h : s.port.busy = .clear) :
    (completeCheck s).phase = .running ∧ (completeCheck s).pathA = s.pathA ∧ (completeCheck s).pathB = s.pathB ∧
    (completeCheck s).engine = s.engine ∧ (completeCheck s).keys = s.keys ∧ (completeCheck s).channels = s.channels ∧
    (completeCheck s).offers = s.offers ∧ (completeCheck s).seconds = s.seconds ∧ (completeCheck s).clock = s.clock ∧
    (completeCheck s).line = s.line ∧ (completeCheck s).port = s.port ∧ (completeCheck s).choice = s.choice ∧
    (completeCheck s).pending = s.pending := by
  rw [completeCheck_eq h]
  simp [State.checked, rebuildCopies]

/-- The working copies after the check are those that the slots give. -/
theorem completeCheck_copies (h : s.port.busy = .clear) :
    (completeCheck s).folio = (s.store.folioImage.map (·.1)).getD Folio.default ∧
    (completeCheck s).nextSeq =
      (s.store.folioImage.map (·.2)).getD (rebuiltNext (s.store.givenRecords.map (·.seq))) ∧
    (completeCheck s).log = (logOrder (completeCheck s).nextSeq s.store.givenRecords).filterMap
      (fun r => (r.rebuilt (completeCheck s).folio).1) ∧
    (completeCheck s).previewed = rebuiltTitles (completeCheck s).folio (completeCheck s).log ∧
    (completeCheck s).lock = (s.store.lockImage.getD Lock.default).rebuilt ∧
    (completeCheck s).room = s.store.configImage.getD 0 ∧
    (completeCheck s).store.damagedCount = s.store.damagedSlots.length := by
  rw [completeCheck_eq h, startWrite_damagedCount]
  simp only [startWrite_keeps, listSlots_keeps, State.checked, reportIf_keeps]
  exact ⟨rfl, rfl, rfl, rfl, rfl, rfl, rfl⟩

theorem completeCheck_detail (h : s.port.busy = .clear) (k : Nat) :
    (completeCheck s).status.detail.getLsbD k =
      (s.status.detail.getLsbD k || (decide (0 < s.store.damagedSlots.length) && k == 10) ||
        (s.store.folioImage.isNone && k == 11) || (decide (40 ≤ (completeCheck s).log.length) && k == 17)) := by
  have hlog : (completeCheck s).log = (rebuildCopies s).log := by simp [completeCheck_eq h, State.checked]
  rw [hlog, completeCheck_eq h]
  simp only [startWrite_keeps, listSlots_keeps, State.checked, reportIf_detail]
  rfl

/-- The slots that the check lists wait, or the write of the first has begun. -/
theorem completeCheck_listed (h : s.port.busy = .clear) {k : Nat} (hk : k ∈ s.checkListing) :
    (completeCheck s).listed k := by
  rw [completeCheck_eq h]
  exact listed_startWrite (mem_listSlots hk _)

/-- The damaged slots stand at the head of the list, in slot order (R138). -/
theorem completeCheck_queue (h : s.port.busy = .clear) (hdirty : s.store.dirty = []) (hwrite : s.store.write = none)
    (hn : s.store.damagedSlots.Nodup) :
    s.store.damagedSlots <+:
      ((completeCheck s).store.write.map (·.slot)).toList ++ (completeCheck s).store.dirty := by
  have hstore : s.checked.store.write = none ∧ s.checked.store.dirty = [] := by
    simp [State.checked, rebuildCopies, hwrite, hdirty]
  obtain ⟨hnone, hempty⟩ := hstore
  have hhead : (listSlots s.store.damagedSlots s.checked).store.dirty = s.store.damagedSlots := by
    rw [listSlots_new (by rwa [hempty]), hempty, List.nil_append]
  rw [completeCheck_eq h, startWrite_queue (by simp [hnone]), State.checkListing, List.append_assoc, listSlots_append]
  conv_lhs => rw [← hhead]
  exact dirty_prefix_listSlots _ _

/-- The slot of a record that the rebuild changes or removes is listed (R105). -/
theorem completeCheck_changed (h : s.port.busy = .clear) {r : Record} (hr : r ∈ s.store.givenRecords)
    (hchanged : (r.rebuilt (completeCheck s).folio).2 = true) : (completeCheck s).listed r.slot := by
  obtain ⟨hfolio, -⟩ := completeCheck_copies h
  refine completeCheck_listed h (List.mem_append_left _ (List.mem_append_right _ (List.mem_map.2 ⟨r, ?_, rfl⟩)))
  exact List.mem_filter.2 ⟨mem_logOrder.2 hr, by rwa [hfolio] at hchanged⟩

theorem mem_completeCheck_log (h : s.port.busy = .clear) (x : Record) : x ∈ (completeCheck s).log ↔
    ∃ r ∈ s.store.givenRecords, (r.rebuilt (completeCheck s).folio).1 = some x := by
  obtain ⟨-, -, hlog, -⟩ := completeCheck_copies h
  rw [hlog]
  simp [List.mem_filterMap, mem_logOrder]

/-! ### The images, and what stands for a damaged one (R81, R121, R138 to R140) -/

theorem completeCheck_folioSlot (h : s.port.busy = .clear) {f : Folio} {next : Half}
    (hslot : s.store.slots[48]? = some (.intact (.folio f next))) (hlegal : f.legal = true) :
    (completeCheck s).folio = f ∧ (completeCheck s).nextSeq = next ∧
      (completeCheck s).status.detail.getLsbD 11 = s.status.detail.getLsbD 11 := by
  obtain ⟨hfolio, hnext, -⟩ := completeCheck_copies h
  have himage := (folioImage_eq_some f next).2 ⟨hslot, hlegal⟩
  rw [hfolio, hnext, completeCheck_detail h, himage]
  exact ⟨rfl, rfl, by simp⟩

theorem completeCheck_folioLost (h : s.port.busy = .clear) (hbad : ¬s.store.slotGood 48) :
    (completeCheck s).folio = Folio.default ∧ (completeCheck s).status.detail.getLsbD 11 = true ∧
      (completeCheck s).nextSeq = rebuiltNext (s.store.givenRecords.map (·.seq)) := by
  obtain ⟨hfolio, hnext, -⟩ := completeCheck_copies h
  have himage : s.store.folioImage = none :=
    Option.eq_none_iff_forall_ne_some.2 fun p hp => hbad (slotGood_folio.2 ⟨p, hp⟩)
  rw [hfolio, hnext, completeCheck_detail h, himage]
  exact ⟨rfl, by simp, rfl⟩

theorem completeCheck_lockSlot (h : s.port.busy = .clear) {l : Lock}
    (hslot : s.store.slots[49]? = some (.intact (.lock l))) (hlegal : l.legal = true) :
    (completeCheck s).lock = l.rebuilt ∧ (l.state = .unlocked → (completeCheck s).listed 49) := by
  obtain ⟨-, -, -, -, hlock, -⟩ := completeCheck_copies h
  have himage := (lockImage_eq_some l).2 ⟨hslot, hlegal⟩
  refine ⟨by rw [hlock, himage, Option.getD_some], fun hunlocked => completeCheck_listed h ?_⟩
  have hheld : s.store.heldUnlock = true := by simp [Store.heldUnlock, himage, hunlocked]
  simp [State.checkListing, hheld, lockSlot]

theorem completeCheck_lockLost (h : s.port.busy = .clear) (hbad : ¬s.store.slotGood 49) :
    (completeCheck s).lock = Lock.default := by
  obtain ⟨-, -, -, -, hlock, -⟩ := completeCheck_copies h
  have himage : s.store.lockImage = none :=
    Option.eq_none_iff_forall_ne_some.2 fun l hl => hbad (slotGood_lock.2 ⟨l, hl⟩)
  rw [hlock, himage]
  rfl

theorem completeCheck_roomSlot (h : s.port.busy = .clear) {room : Half}
    (hslot : s.store.slots[50]? = some (.intact (.config room))) (hroom : room ≠ 0xFFFF) :
    (completeCheck s).room = room := by
  obtain ⟨-, -, -, -, -, hcopy, -⟩ := completeCheck_copies h
  rw [hcopy, (configImage_eq_some room).2 ⟨hslot, hroom⟩, Option.getD_some]

theorem completeCheck_roomLost (h : s.port.busy = .clear) (hbad : ¬s.store.slotGood 50) :
    (completeCheck s).room = 0 := by
  obtain ⟨-, -, -, -, -, hcopy, -⟩ := completeCheck_copies h
  rw [hcopy, Option.eq_none_iff_forall_ne_some.2 fun room hroom => hbad (slotGood_config.2 ⟨room, hroom⟩),
    Option.getD_none]

/-! ### The damaged slots (R138, R140) -/

theorem completeCheck_damaged (h : s.port.busy = .clear) (hlength : s.store.slots.length = 51) {k : Nat}
    (hk : k ∈ s.store.badSlots) :
    (completeCheck s).status.detail.getLsbD 10 = true ∧ (completeCheck s).listed k := by
  rw [← damagedSlots_eq_badSlots hlength] at hk
  refine ⟨?_, completeCheck_listed h (List.mem_append_left _ (List.mem_append_left _ hk))⟩
  simp [completeCheck_detail h, List.length_pos_of_mem hk]

theorem completeCheck_undamaged (h : s.port.busy = .clear) (hlength : s.store.slots.length = 51)
    (hnone : s.store.badSlots = []) :
    (completeCheck s).status.detail.getLsbD 10 = s.status.detail.getLsbD 10 := by
  rw [← damagedSlots_eq_badSlots hlength] at hnone
  rw [completeCheck_detail h]
  simp [hnone]

/-! ### The log (R105, R140) -/

theorem completeCheck_logSound (h : s.port.busy = .clear) : LogSound (completeCheck s) := by
  have hlog : (completeCheck s).log = (rebuildCopies s).log := by simp [completeCheck_eq h, State.checked]
  have hsound := rebuildCopies_logSound s
  unfold LogSound at hsound ⊢
  rwa [hlog]

/-- No record of the log has the number of one that left it (R105). -/
theorem completeCheck_left (h : s.port.busy = .clear) {r : Record} (hr : r ∈ s.store.givenRecords)
    (hleft : (r.rebuilt (completeCheck s).folio).1 = none) : ∀ x ∈ (completeCheck s).log, x.seq ≠ r.seq := by
  intro x hx hseq
  obtain ⟨y, hy, hstays⟩ := (mem_completeCheck_log h x).1 hx
  have hsame : y = r :=
    List.inj_on_of_nodup_map (givenRecords_nodup _) hy hr ((rebuilt_seq hstays).symm.trans hseq)
  rw [hsame, hleft] at hstays
  cases hstays

/-- A record given back that is released, and final or of an earlier stay, leaves the log (R105). -/
theorem completeCheck_gone (h : s.port.busy = .clear) {r : Record} (hr : r ∈ s.store.givenRecords)
    (hreleased : r.released = true) (hover : r.final = true ∨ r.current (completeCheck s).folio = false) :
    (∀ x ∈ (completeCheck s).log, x.seq ≠ r.seq) ∧ (completeCheck s).listed r.slot := by
  have hrebuilt := rebuilt_of_released hreleased hover
  exact ⟨completeCheck_left h hr (by rw [hrebuilt]), completeCheck_changed h hr (by rw [hrebuilt])⟩

theorem completeCheck_stays (h : s.port.busy = .clear) {r x : Record} {b : Bool} (hr : r ∈ s.store.givenRecords)
    (hx : r.rebuilt (completeCheck s).folio = (some x, b)) : x ∈ (completeCheck s).log :=
  (mem_completeCheck_log h x).2 ⟨r, hr, by rw [hx]⟩

/-- Every record of the log is one that its slot gives back, its state changed at most (R105, R140). -/
theorem completeCheck_given (h : s.port.busy = .clear) (hlength : s.store.slots.length = 51) {r : Record}
    (hr : r ∈ (completeCheck s).log) :
    ∃ r0, s.store.givesRecord r.slot r0 ∧ r = { r0 with slot := r.slot, state := r.state } ∧
      (r.state = r0.state ∨ r0.state = .preview ∧ r.state = .lapsed ∨
        (∃ w, r0.state = .bought w) ∧ r.state = .ended) := by
  obtain ⟨y, hy, hstays⟩ := (mem_completeCheck_log h r).1 hr
  obtain ⟨k, r0, hr0, rfl⟩ := (mem_givenRecords hlength).1 hy
  obtain ⟨hfields, hstate⟩ := rebuilt_fields hstays
  have hslot : r.slot = k := by rw [hfields]
  rw [hslot]
  exact ⟨r0, hr0, hfields, hstate⟩

theorem completeCheck_sorted (h : s.port.busy = .clear) : (completeCheck s).log.Pairwise fun older newer =>
    distanceBack (completeCheck s).nextSeq newer.seq < distanceBack (completeCheck s).nextSeq older.seq := by
  obtain ⟨-, -, hlog, -⟩ := completeCheck_copies h
  rw [hlog]
  refine (logOrder_sorted (givenRecords_nodup _)).filterMap _ fun a b hab x hx y hy => ?_
  rw [rebuilt_seq hx, rebuilt_seq hy]
  exact hab

/-- Settles O53: each working copy from the image of its slot, the listing from the damaged slots on, and the log from
what the check makes of each record that the slots give back. -/
theorem startUpRebuildsWorkingCopies : Obligations.StartUpRebuildsWorkingCopies := by
  refine ⟨fun s hphase hdirty hwrite hb hlength => ?_, fun s hphase _ _ hb hlength => ?_⟩
  · have hbad := damagedSlots_eq_badSlots hlength
    obtain ⟨hrunning, -⟩ := completeCheck_keeps hb
    obtain ⟨-, -, -, -, -, -, hcount⟩ := completeCheck_copies hb
    refine ⟨completeCheck s, exec_startUpCheckComplete hphase, hrunning, fun f next => completeCheck_folioSlot hb,
      fun hlost => ?_, fun l => completeCheck_lockSlot hb, completeCheck_lockLost hb, fun room => completeCheck_roomSlot hb,
      completeCheck_roomLost hb, by rw [hcount, hbad], ?_, fun k hk => completeCheck_damaged hb hlength hk,
      completeCheck_undamaged hb hlength, completeCheck_slots s, ?_⟩
    · obtain ⟨hfolio, hflag, hnext⟩ := completeCheck_folioLost hb hlost
      rw [hnext]
      exact ⟨hfolio, hflag, rebuiltNext_none hlength, fun q => rebuiltNext_latestSeq hlength,
        fun hnone k r => rebuiltNext_greatestSeq hlength hnone⟩
    · rw [← hbad]
      exact completeCheck_queue hb hdirty hwrite (hbad ▸ badSlots_nodup _)
    · simp only [completeCheck_keeps hb]
  · obtain ⟨-, -, -, htitles, -⟩ := completeCheck_copies hb
    have hlog := mem_completeCheck_log hb
    refine ⟨completeCheck s, exec_startUpCheckComplete hphase, completeCheck_logSound hb, fun k r0 hr0 => ?_,
      fun r => completeCheck_given hb hlength, fun r hr hactive => ?_, fun r hr => ?_,
      completeCheck_sorted hb, fun title => ?_, ?_, fun hnear => ?_⟩
    · intro r closed current gone
      have hr : r ∈ s.store.givenRecords := (mem_givenRecords hlength).2 ⟨k, r0, hr0, rfl⟩
      have hnot : ¬current → r.current (completeCheck s).folio = false := fun hn =>
        Bool.eq_false_iff.2 fun hc => hn (current_iff.1 hc)
      refine ⟨fun hf hreleased => completeCheck_gone hb hr hreleased (.inl hf),
        fun hf hkept => completeCheck_stays hb hr (rebuilt_of_final hf hkept),
        fun hf hc => completeCheck_stays hb hr (rebuilt_of_current hf (current_iff.2 hc)),
        fun hf hc hreleased => completeCheck_gone hb hr hreleased (.inr (hnot hc)), fun hf hc hkept => ?_⟩
      have hrebuilt := rebuilt_of_active hf (hnot hc) hkept
      have hclosed : r.closed = closed := closed_of_active hf
      exact ⟨hclosed ▸ completeCheck_stays hb hr hrebuilt, completeCheck_changed hb hr (by rw [hrebuilt])⟩
    · obtain ⟨y, -, hstays⟩ := (hlog r).1 hr
      exact current_iff.1 (rebuilt_active hstays hactive)
    · obtain ⟨y, -, hstays⟩ := (hlog r).1 hr
      exact rebuilt_unsettled hstays
    · rw [htitles, mem_rebuiltTitles]
      simp only [current_iff]
    · rw [htitles]
      exact rebuiltTitles_nodup _ _
    · simp [completeCheck_detail hb, hnear]

end

end Sys2Proof.Machine
end

