-- ==== Sys2Proof/Proofs/LinePortLaws.lean ====
section
/-!
SUPPORT. The receiver and the transmitter (R143, R147), what each check of R144 does with a frame, the kind table (R146,
11), and the presence update with the event of an addressed frame (R76, R146 to R149).
-/
namespace Sys2Proof.Machine

/-! ### A frame at an IDLE receiver (R143, R144) -/

/-- A message row at an IDLE receiver goes to checks 3 and 4. -/
theorem exec_soundFrame {c : Instr} {address : Half} {kind : Byte} {payload : List Byte} {s : State}
    (hc : linePortFrame c = some (address, kind, payload)) (h : s.takesMessage) (hl : payload.length ≤ 120) :
    exec c s = .next (soundFrame address kind payload s) := by
  obtain ⟨hphase, hidle⟩ := h
  rw [exec_messageFrame hc, whenLineRuns, if_pos hphase,
    messageFrame_idle hidle hl (checkFrame_lineFrameBytes _ _ _ hl)]

section
variable {bytes : List Byte} {tooLong framingError : Bool} {s : State}

/-- The arrival itself sets the receiver to IDLE, so it does not read what the receiver held. -/
theorem frameArrives_setReceiver (r : Receiver) :
    frameArrives bytes tooLong framingError (setReceiver r s) = frameArrives bytes tooLong framingError s := rfl

theorem frameArrives_sound {address : Half} {kind : Byte} {payload : List Byte}
    (hc : checkFrame bytes tooLong framingError = .sound address kind payload) :
    frameArrives bytes tooLong framingError s = soundFrame address kind payload (setReceiver .idle s) := by
  simp only [frameArrives, hc]

theorem frameArrives_ignored {counted : Bool} (h : s.line.receiver = .idle)
    (hc : checkFrame bytes tooLong framingError = .ignored counted) :
    frameArrives bytes tooLong framingError s = if counted then countLineError s else s := by
  simp only [frameArrives, setReceiver_idle h, hc]

/-- A run of at most 126 characters at an IDLE receiver is the arrival of the frame they make. -/
theorem exec_lineFrameIgnored (h : s.takesMessage) (hl : bytes.length ≤ 126) :
    exec (.lineFrameIgnored bytes framingError tooLong) s = .next (frameArrives bytes tooLong framingError s) := by
  obtain ⟨hphase, hidle⟩ := h
  have htake : bytes.take maxLineFrame = bytes := List.take_of_length_le hl
  have hfits : decide (maxLineFrame < bytes.length) = false := decide_eq_false (Nat.not_lt.2 hl)
  refine congrArg _ ((if_pos hphase).trans ?_)
  simp only [wholeFrame, hidle, htake, hfits, Bool.or_false]

end

/-! ### Checks 1 and 2 (R144, R145) -/

section
variable {bytes : List Byte} {tooLong framingError : Bool}

theorem shapeSound_iff : shapeSound bytes tooLong framingError = true ↔
    tooLong = false ∧ framingError = false ∧ 6 ≤ bytes.length ∧ byteAt bytes 3 ≤ 120 ∧
      bytes.length = 6 + byteAt bytes 3 := by
  simp [shapeSound, maxPayload, and_assoc]

/-- A frame of wrong shape is counted only with a framing error. -/
theorem checkFrame_shapeless (h : ¬shapeSound bytes tooLong framingError = true) :
    checkFrame bytes tooLong framingError = .ignored framingError := if_pos (by simpa using h)

theorem checkFrame_damaged (h : shapeSound bytes tooLong framingError = true)
    (hcrc : (crc16 (bytes.take (bytes.length - 2))).toNat ≠ natAt bytes (bytes.length - 2) 2) :
    checkFrame bytes tooLong framingError = .ignored true := (if_neg (by simp [h])).trans (if_pos hcrc)

end

/-! ### The kind table (R146, 11) -/

/-- The kinds of message with whether each is a broadcast kind and the payload bytes of its fixed arguments (11). -/
def kindTable : List (Byte × Bool × Nat) :=
  [(0x01, false, 1), (0x02, true, 4), (0x03, true, 12), (0x04, true, 1), (0x05, true, 2), (0x06, true, 4),
    (0x10, false, 24), (0x11, false, 0), (0x12, false, 1), (0x13, false, 1), (0x14, false, 2), (0x15, false, 2),
    (0x16, false, 2), (0x17, false, 2)]

theorem messageKind_row : ∀ row ∈ kindTable,
    (messageKind row.1).map (fun m => (m.broadcast, m.needs)) = some row.2 := by decide

/-- No reply kind stands among the kinds of message (R144, check 3). -/
theorem kindTable_noReply : ∀ row ∈ kindTable, replyKind row.1 = false := by decide

theorem messageKind_unknown {kind : Byte} (h : kind ∉ kindTable.map (·.1)) : messageKind kind = none := by
  simp only [kindTable, List.map_cons, List.map_nil, List.mem_cons, List.not_mem_nil, or_false, not_or] at h
  simp only [messageKind, h, if_false]

section
variable {kind : Byte} {m : MessageKind}

theorem messageKind_of_mem {b : Bool} {n : Nat} (h : (kind, b, n) ∈ kindTable) :
    ∃ m, messageKind kind = some m ∧ m.broadcast = b ∧ m.needs = n := by
  obtain ⟨m, hm, hrow⟩ := Option.map_eq_some_iff.1 (messageKind_row _ h)
  obtain ⟨hb, hn⟩ := Prod.mk.inj hrow
  exact ⟨m, hm, hb, hn⟩

theorem mem_of_messageKind (hm : messageKind kind = some m) : (kind, m.broadcast, m.needs) ∈ kindTable := by
  by_cases h : kind ∈ kindTable.map (·.1)
  · obtain ⟨⟨k, row⟩, hrow, rfl⟩ := List.mem_map.1 h
    have hfields := messageKind_row _ hrow
    rw [hm] at hfields
    obtain rfl : (m.broadcast, m.needs) = row := Option.some.inj hfields
    exact hrow
  · rw [messageKind_unknown h] at hm
    cases hm

end

/-! ### Checks 3 and 4 (R144) -/

section
variable {address : Half} {kind : Byte} {payload : List Byte} {s : State}

theorem soundFrame_reply (h : replyKind kind = true) : soundFrame address kind payload s = s := if_pos h

/-- A frame for another room is ignored. -/
theorem soundFrame_elsewhere (hb : address ≠ broadcastAddress) (h : ¬s.answersTo address) :
    soundFrame address kind payload s = s := by
  have hother : ¬(address = s.room ∧ s.room ≠ 0) := fun ⟨hroom, hnonzero⟩ => h ⟨hroom, hroom ▸ hnonzero, hb⟩
  rw [soundFrame, if_neg hb, if_neg hother, ite_self]

theorem soundFrame_addressed (hr : replyKind kind = false) (h : s.answersTo address) :
    soundFrame address kind payload s = addressedFrame address kind payload s := by
  obtain ⟨hroom, hnonzero, hsingle⟩ := h
  rw [soundFrame, hr, if_neg (by decide), if_neg hsingle, if_pos ⟨hroom, hroom ▸ hnonzero⟩]

/-- A broadcast is handed to an owner only if its kind is a broadcast kind with all its fixed arguments (R146). -/
theorem broadcastFrame_untaken (h : ∀ n, (kind, true, n) ∈ kindTable → payload.length < n) :
    broadcastFrame kind payload s = s := by
  unfold broadcastFrame
  split
  · rfl
  · next m hm =>
    refine if_neg fun htaken => ?_
    obtain ⟨hb, hn⟩ := Bool.and_eq_true_iff.1 htaken
    have hshort := h m.needs (hb ▸ mem_of_messageKind hm)
    exact absurd (of_decide_eq_true hn) (Nat.not_le.2 hshort)

theorem soundFrame_untaken (h : ∀ n, (kind, true, n) ∈ kindTable → payload.length < n) :
    soundFrame broadcastAddress kind payload s = s := by
  simp [soundFrame, broadcastFrame_untaken h]

end

/-! ### The presence update (R76, R149) -/

section
variable (setting : Nat) {s : State}

theorem bringOnline_line (s : State) :
    (bringOnline setting s).line = { s.line with setting := setting, watchdog := setting, online := true } := by
  unfold bringOnline
  dsimp only
  split <;> simp

/-- While ONLINE the update writes the line port alone. -/
theorem bringOnline_online (h : s.line.online = true) : { bringOnline setting s with line := s.line } = s := by
  simp [bringOnline, h]

/-- The return from OFFLINE: LINE_BACK is reported and the folio unit takes an offline spend of 0. -/
theorem bringOnline_offline (h : s.line.online = false) :
    bringOnline setting s = setFolio { s.folio with offlineSpend := 0 }
      (report .lineBack { s with line := { s.line with setting := setting, watchdog := setting, online := true } }) :=
  if_neg (by simp [h])

theorem offlineSpend_folio_eq {f : Folio} : { f with offlineSpend := 0 } = f ↔ f.offlineSpend = 0 :=
  ⟨fun h => (congrArg Folio.offlineSpend h).symm, fun h => by rw [← h]⟩

/-- The return from OFFLINE lists the folio slot exactly where the offline spend was not 0 (R61, R76). -/
theorem bringOnline_offline_store (h : s.line.online = false) :
    (s.folio.offlineSpend ≠ 0 → folioSlot ∈ (bringOnline setting s).store.dirty) ∧
      (s.folio.offlineSpend = 0 → (bringOnline setting s).store = s.store) := by
  rw [bringOnline_offline setting h]
  refine ⟨fun hspent => setFolio_listed ?_, fun hzero => ?_⟩
  · simpa [offlineSpend_folio_eq] using hspent
  · rw [offlineSpend_folio_eq.2 hzero]
    simp [setFolio]

theorem setFolio_damagedCount (f : Folio) (s : State) :
    (setFolio f s).store.damagedCount = s.store.damagedCount := by
  unfold setFolio
  split
  · rfl
  · obtain ⟨-, -, hcount⟩ := listSlot_store folioSlot { s with folio := f }
    exact hcount

/-- The presence update changes no count of the record store. -/
@[simp] theorem bringOnline_damagedCount (s : State) :
    (bringOnline setting s).store.damagedCount = s.store.damagedCount := by
  cases h : s.line.online with
  | true => exact congrArg (fun t => t.store.damagedCount) (bringOnline_online setting h)
  | false =>
    rw [bringOnline_offline setting h, setFolio_damagedCount]
    simp

/-- The receiver is as idle after the presence update, and the part runs as before it. -/
theorem takesMessage_bringOnline (h : s.takesMessage) : (bringOnline setting s).takesMessage := by
  obtain ⟨hphase, hidle⟩ := h
  exact ⟨by simpa using hphase, by simpa [bringOnline_line] using hidle⟩

end

/-! ### The event of an addressed frame (R146, R147) -/

section
variable {c : Instr} {address : Half} {kind : Byte} {payload : List Byte} {s : State}

/-- An addressed frame is the presence update, its owner's act, the reply that waits and the end of the event. -/
theorem exec_addressedFrame (hc : linePortFrame c = some (address, kind, payload)) (h : s.takesMessage)
    (ha : s.answersTo address) (hl : payload.length ≤ 120) (hr : replyKind kind = false) :
    let r := addressedAct kind payload (bringOnline (s.settingAfter kind payload) s)
    exec c s = .next (endEvent (r.1.replying address r.2.1 r.2.2)) := by
  intro r
  rw [exec_soundFrame hc h hl, soundFrame_addressed hr ha]
  rfl

/-- The last POLL's setting stands at a frame that is no POLL with its argument. -/
theorem settingAfter_stands (h : kind = 0x01 → payload.length < 1) : s.settingAfter kind payload = s.line.setting :=
  if_neg fun ⟨hkind, hlength⟩ => absurd (h hkind) (Nat.not_lt.2 hlength)

/-- The reply is nothing to the record store, nor to a RESET command that takes effect: it may as well be formed after
the end of the event. -/
theorem endEvent_replying_comm (reply : List Byte) (s : State) :
    endEvent (s.replying address kind reply) = (endEvent s).replying address kind reply := by
  have hwrite : ∀ t : State,
      startWrite (t.replying address kind reply) = (startWrite t).replying address kind reply := by
    intro t
    unfold startWrite
    simp only [replying_keeps]
    split <;> rfl
  have hreset : ∀ t : State,
      resetEffect (t.replying address kind reply) = (resetEffect t).replying address kind reply := by
    intro t
    unfold resetEffect listSlot
    simp only [replying_keeps]
    (repeat' split) <;> rfl
  unfold endEvent
  simp only [hwrite]
  rw [show ((startWrite s).replying address kind reply).resetDue = (startWrite s).resetDue from rfl]
  split
  · rw [hreset, hwrite]
  · rfl

end

end Sys2Proof.Machine
end

