-- ==== Sys2Proof/Proofs/LinePortStatements.lean ====
section
/-!
PROOFS. Line frames without effect (R143 to R146), the receiver and the transmitter (R143, R147), POLL (R148, R149), and
the addressed frames that reach no owner or one of a broadcast kind (R146).
-/
namespace Sys2Proof.Machine

/-! ### The frame's layout (R144, 11) -/

/-- Settles O26: each field stands at its place, and the check value over the bytes before it. -/
theorem lineFrameReadsBack : Obligations.LineFrameReadsBack := fun address kind payload hl =>
  ⟨lineFrameBytes_length address kind payload, checkFrame_lineFrameBytes address kind payload hl⟩

/-! ### Frames without effect (R143 to R146, R151) -/

section
variable {c : Instr} {address : Half} {kind : Byte} {payload : List Byte} {s : State}

/-- The broadcast kinds of the kind table, as pairs of kind and payload bytes needed. -/
theorem broadcast_rows : ∀ row ∈ kindTable, row.2.1 = true →
    (row.1, row.2.2) ∈ [((0x02 : Byte), 4), (0x03, 12), (0x04, 1), (0x05, 2), (0x06, 4)] := by decide

/-- The four ways in which a sound frame reaches no owner and gets no reply (R144, R146). -/
theorem soundFrame_ownerless
    (h : (address ≠ 0xFFFF ∧ ¬s.answersTo address) ∨ kind = 0x80 ∨ kind = 0x81 ∨ kind = 0x82 ∨
      (address = 0xFFFF ∧
        ∀ n, (kind, n) ∈ [((0x02 : Byte), 4), (0x03, 12), (0x04, 1), (0x05, 2), (0x06, 4)] → payload.length < n)) :
    soundFrame address kind payload s = s := by
  rcases h with ⟨hsingle, hother⟩ | rfl | rfl | rfl | ⟨rfl, hshort⟩
  · exact soundFrame_elsewhere hsingle hother
  · exact soundFrame_reply rfl
  · exact soundFrame_reply rfl
  · exact soundFrame_reply rfl
  · exact soundFrame_untaken fun n hrow => hshort n (broadcast_rows _ hrow rfl)

/-- A message row at a receiver that takes no frame now (R143, R151). -/
theorem exec_message_untaken (hc : linePortFrame c = some (address, kind, payload)) :
    (s.phase ≠ .running → exec c s = .next s) ∧ (s.line.receiver = .deaf → exec c s = .next s) ∧
      (s.phase = .running → s.line.receiver = .waiting → exec c s = .next (setReceiver .idle s)) := by
  rw [exec_messageFrame hc]
  refine ⟨fun hphase => congrArg _ (if_neg hphase), fun hdeaf => ?_, fun hphase hwaiting => ?_⟩
  · have hframe : messageFrame address kind payload s = s := by simp only [messageFrame, wholeFrame, hdeaf]
    rw [whenLineRuns, hframe, ite_self]
  · refine congrArg _ ((if_pos hphase).trans ?_)
    simp only [messageFrame, wholeFrame, hwaiting]

end

/-- Settles O27: a sound frame by checks 3 and 4, a message row by the receiver's state, and a damaged frame by checks 1
and 2. -/
theorem lineFramesWithoutEffect : Obligations.LineFramesWithoutEffect := by
  refine ⟨fun c address kind payload s hc hl h hno => ?_, fun c address kind payload s hc => ?_, ?_⟩
  · rw [exec_soundFrame hc h hl, soundFrame_ownerless hno]
  · exact exec_message_untaken hc
  · intro bytes framingError tooLong s h hl counted n shape
    have ⟨_, hidle⟩ := h
    rw [exec_lineFrameIgnored h hl]
    refine ⟨fun hshape hfe => ?_, fun hfe => ?_, fun hshape hcrc => ?_⟩
    · rw [frameArrives_ignored hidle (checkFrame_shapeless (mt shapeSound_iff.1 hshape)), hfe]
      rfl
    · have hshapeless : ¬shapeSound bytes tooLong framingError = true := fun hsound => by
        obtain ⟨-, hclear, -⟩ := shapeSound_iff.1 hsound
        exact absurd hfe (by simp [hclear])
      rw [frameArrives_ignored hidle (checkFrame_shapeless hshapeless), hfe]
      rfl
    · rw [frameArrives_ignored hidle (checkFrame_damaged (shapeSound_iff.2 hshape) hcrc)]
      rfl

/-! ### The receiver and the transmitter (R143, R147) -/

section
variable {s : State} (hphase : s.phase = .running)
include hphase

theorem exec_lineCharacterArrives (b : Byte) (low : Bool) :
    exec (.lineCharacterArrives b low) s = .next (characterArrives b low s) := congrArg _ (if_pos hphase)

theorem exec_lineIdleDetected : exec .lineIdleDetected s = .next (lineIdle s) := congrArg _ (if_pos hphase)

/-- The silence after a frame being received is that frame's arrival. -/
theorem exec_lineIdleDetected_receiving {bytes : List Byte} {tooLong framingError : Bool}
    (hr : s.line.receiver = .receiving bytes tooLong framingError) :
    exec .lineIdleDetected s = .next (frameArrives bytes tooLong framingError s) := by
  rw [exec_lineIdleDetected hphase, lineIdle, hr]

theorem exec_replyTransmitStart : exec .replyTransmitStart s = .next (startReply s) := congrArg _ (if_pos hphase)

theorem exec_replyTransmitEnd : exec .replyTransmitEnd s = .next (endReply s) := congrArg _ (if_pos hphase)

end

/-- A 127th character is discarded and marks the frame; a character before it joins. -/
theorem joinFrame_cases (bytes : List Byte) (tooLong framingError : Bool) (b : Byte) (low : Bool) :
    (bytes.length < 126 →
      joinFrame bytes tooLong framingError b low = .receiving (bytes ++ [b]) tooLong (framingError || low)) ∧
    (126 ≤ bytes.length → joinFrame bytes tooLong framingError b low = .receiving bytes true (framingError || low)) :=
  ⟨fun h => if_neg (Nat.not_le.2 h), fun h => if_pos h⟩

/-- Settles O28: a character and the silence by the receiver's state, a frame assembled character by character as the
same frame at an IDLE receiver, and the reply by the transmitter's state. -/
theorem receiverAndTransmitterFollowTheLine : Obligations.ReceiverAndTransmitterFollowTheLine := by
  refine ⟨?_, fun c address kind payload s hc hl hphase hr => ?_, fun bytes tooLong framingError s hphase hl hr => ?_,
    fun s r hphase => ⟨fun hwaiting => ?_, fun hsending => ?_⟩⟩
  · intro b low s hphase receiving
    rw [exec_lineCharacterArrives hphase, exec_lineIdleDetected hphase]
    refine ⟨?_, fun hidle => ?_, fun bytes tl fe hr => ?_, fun hwaiting => ?_, ?_⟩
    · rintro (hwaiting | hdeaf)
      · simp only [characterArrives, hwaiting]
      · simp only [characterArrives, hdeaf]
    · simp only [characterArrives, hidle]
      rfl
    · obtain ⟨hjoins, hbeyond⟩ := joinFrame_cases bytes tl fe b low
      simp only [characterArrives, hr]
      exact ⟨fun h => by rw [hjoins h]; rfl, fun h => by rw [hbeyond h]; rfl⟩
    · simp only [lineIdle, hwaiting]
      rfl
    · rintro (hidle | hdeaf)
      · simp only [lineIdle, hidle]
      · simp only [lineIdle, hdeaf]
  · have hidle : (setReceiver .idle s).takesMessage := ⟨hphase, rfl⟩
    calc exec .lineIdleDetected s = .next (frameArrives (lineFrameBytes address kind payload) false false s) :=
          exec_lineIdleDetected_receiving hphase hr
      _ = .next (soundFrame address kind payload (setReceiver .idle s)) :=
          congrArg _ (frameArrives_sound (checkFrame_lineFrameBytes address kind payload hl))
      _ = exec c (setReceiver .idle s) := (exec_soundFrame hc hidle hl).symm
  · have hidle : (setReceiver .idle s).takesMessage := ⟨hphase, rfl⟩
    calc exec .lineIdleDetected s = .next (frameArrives bytes tooLong framingError s) :=
          exec_lineIdleDetected_receiving hphase hr
      _ = exec (.lineFrameIgnored bytes framingError tooLong) (setReceiver .idle s) := by
          rw [exec_lineFrameIgnored hidle hl, frameArrives_setReceiver]
  · rw [exec_replyTransmitStart hphase, startReply, hwaiting]
    exact ⟨_, rfl, rfl, by simp [Line.ltxe, hwaiting], rfl⟩
  · rw [exec_replyTransmitEnd hphase, endReply, hsending]
    exact ⟨_, rfl, rfl, rfl⟩

/-! ### POLL (R148, R149) -/

/-- The STATUS payload, the states' codes and the reportable records written out (11). -/
theorem statusPayload_eq (s : State) : s.statusPayload =
    [match s.folio.state with | .closed => (0 : Byte) | .opened => 1 | .held => 2] ++ be 4 s.folio.number.toNat ++
      be 4 s.folio.total ++ be 4 s.folio.daySpend ++
      be 1 ((s.log.filter (fun r => r.state != .preview && !r.collected)).length) ++ be 1 s.log.length ++
      be 1 s.store.damagedCount ++ be 4 s.line.errors.toNat ++
      [match s.lock.state with | .locked => (0 : Byte) | .unlocked => 1 | .lockout => 2] ++
      [s.channels.generation, s.offers.generation] := by
  have hreportable : s.uncollected = (s.log.filter (fun r => r.state != .preview && !r.collected)).length := rfl
  rw [State.statusPayload, hreportable]
  cases s.folio.state <;> cases s.lock.state <;> simp [FolioState.code, LockState.code]

/-- The presence update writes no field that STATUS reports. -/
theorem statusPayload_bringOnline (setting : Nat) (s : State) :
    (bringOnline setting s).statusPayload = s.statusPayload := by
  simp [State.statusPayload, State.uncollected, bringOnline_line]

theorem settingAfter_poll {payload : List Byte} (h : 1 ≤ payload.length) (s : State) :
    s.settingAfter 0x01 payload = max 1 (min (byteAt payload 0) 60) := if_pos ⟨rfl, h⟩

theorem addressedAct_poll {payload : List Byte} (h : 1 ≤ payload.length) (s : State) :
    addressedAct 0x01 payload s = (s, (0x81, s.statusPayload)) := if_neg (Nat.not_lt.2 h)

/-- Settles O29: the presence update by the state it finds, and POLL as that update with its own setting, whose STATUS
reports fields that the update does not write. -/
theorem pollReportsAfterPresenceUpdate : Obligations.PollReportsAfterPresenceUpdate := by
  constructor
  · intro setting s u
    refine ⟨bringOnline_line setting s, bringOnline_online setting, fun hoffline => ?_⟩
    have hu : u = setFolio { s.folio with offlineSpend := 0 } _ := bringOnline_offline setting hoffline
    have hstatus : u.status = s.status.report .lineBack := by
      rw [hu]
      simp only [setFolio_keeps]
      rfl
    obtain ⟨hlists, hstands⟩ := bringOnline_offline_store setting hoffline
    refine ⟨hstatus, ?_, ?_, hlists, hstands, by simp [u]⟩
    · rw [hstatus]
      exact report_sets .lineBack s
    · rw [hu, setFolio_folio]
  · intro address payload s h ha hn hl u
    have hexec := exec_addressedFrame (c := .poll address payload) rfl h ha hl rfl
    rw [settingAfter_poll hn, addressedAct_poll hn, statusPayload_bringOnline, statusPayload_eq] at hexec
    exact hexec

/-! ### Addressed frames (R146, R147, R149) -/

section
variable {c : Instr} {address : Half} {kind : Byte} {payload : List Byte} {s : State}

/-- A kind that the table names, with fewer payload bytes than its fixed arguments take. -/
theorem addressedAct_short {b : Bool} {n : Nat} (hrow : (kind, b, n) ∈ kindTable) (hshort : payload.length < n)
    (s : State) : addressedAct kind payload s = (s, ack kind .badArg) := by
  obtain ⟨m, hm, -, rfl⟩ := messageKind_of_mem hrow
  simp only [addressedAct, hm, if_pos hshort]

theorem addressedAct_unknown (h : messageKind kind = none) (s : State) :
    addressedAct kind payload s = (s, ack kind .unknownCommand) := by
  simp only [addressedAct, h]

theorem mem_of_replyKind (h : replyKind kind = true) : kind ∈ lineKinds := by
  simp only [replyKind, Bool.or_eq_true, beq_iff_eq] at h
  obtain (rfl | rfl) | rfl := h <;> decide

/-- An addressed frame of a kind outside the table of kinds is answered ACK(UNKNOWN_COMMAND). -/
theorem exec_unknownKind (hc : linePortFrame c = some (address, kind, payload)) (h : s.takesMessage)
    (ha : s.answersTo address) (hl : payload.length ≤ 120) (hkind : kind ∉ lineKinds) :
    exec c s = .next (endEvent ((bringOnline s.line.setting s).replying address 0x80 [kind, 0x04])) := by
  have hlisted : ∀ k ∈ kindTable.map (·.1), k ∈ lineKinds := by decide
  have hreply : replyKind kind = false := Bool.eq_false_iff.2 (mt mem_of_replyKind hkind)
  have hpoll : kind = 0x01 → payload.length < 1 := by
    rintro rfl
    exact absurd (by decide) hkind
  rw [exec_addressedFrame hc h ha hl hreply, settingAfter_stands hpoll,
    addressedAct_unknown (messageKind_unknown (mt (hlisted kind) hkind))]
  rfl

/-- An addressed frame too short for its kind is answered ACK(BAD_ARG). -/
theorem exec_short {b : Bool} {n : Nat} (hc : linePortFrame c = some (address, kind, payload)) (h : s.takesMessage)
    (ha : s.answersTo address) (hl : payload.length ≤ 120) (hrow : (kind, b, n) ∈ kindTable)
    (hshort : payload.length < n) :
    exec c s = .next (endEvent ((bringOnline s.line.setting s).replying address 0x80 [kind, 0x03])) := by
  have hpoll : ∀ row ∈ kindTable, row.1 = 0x01 → row.2.2 = 1 := by decide
  rw [exec_addressedFrame hc h ha hl (kindTable_noReply _ hrow), addressedAct_short hrow hshort,
    settingAfter_stands fun hkind => hpoll _ hrow hkind ▸ hshort]
  rfl

/-- A broadcast kind in a frame addressed to this room acts as the broadcast does after the presence update, and the
reply is ACK(OK) (R146). -/
theorem exec_addressed_broadcast {cb : Instr} {f : List Byte → State → State} {n : Nat}
    (hc : linePortFrame c = some (address, kind, payload)) (hcb : linePortFrame cb = some (0xFFFF, kind, payload))
    (h : s.takesMessage) (ha : s.answersTo address) (hl : payload.length ≤ 120)
    (hm : messageKind kind = some { broadcast := true, needs := n, act := silently kind f }) (hn : n ≤ payload.length) :
    ∃ t, exec cb (bringOnline s.line.setting s) = .next t ∧
      exec c s = .next (t.replying address 0x80 [kind, 0x00]) := by
  have hrow : (kind, true, n) ∈ kindTable := mem_of_messageKind hm
  have hsingle : ∀ row ∈ kindTable, row.2.1 = true → row.1 ≠ 0x01 := by decide
  have hr := kindTable_noReply _ hrow
  have hpoll := hsingle _ hrow rfl
  refine ⟨_, exec_broadcast hcb (takesMessage_bringOnline _ h) hl hr hm rfl hn, ?_⟩
  rw [exec_addressed hc h ha hl hr hpoll hm hn, ← endEvent_replying_comm]
  rfl

end

/-- Settles O30: the refusals by the kind table, and each broadcast kind as its own broadcast after the presence
update. -/
theorem addressedFramesAnswered : Obligations.AddressedFramesAnswered := by
  constructor
  · intro c address kind payload s hc hl h ha u
    refine ⟨exec_unknownKind hc h ha hl, fun n hn hshort => ?_⟩
    have hrows : ∀ p ∈ [((0x01 : Byte), 1), (0x02, 4), (0x03, 12), (0x04, 1), (0x05, 2), (0x06, 4), (0x10, 24),
        (0x12, 1), (0x13, 1), (0x14, 2), (0x15, 2), (0x16, 2), (0x17, 2)], ∃ b, (p.1, b, p.2) ∈ kindTable := by decide
    obtain ⟨b, hrow⟩ := hrows _ hn
    exact exec_short hc h ha hl hrow hshort
  · intro address payload s h ha hl u same
    exact ⟨exec_addressed_broadcast rfl rfl h ha hl rfl, exec_addressed_broadcast rfl rfl h ha hl rfl,
      exec_addressed_broadcast rfl rfl h ha hl rfl, exec_addressed_broadcast rfl rfl h ha hl rfl,
      exec_addressed_broadcast rfl rfl h ha hl rfl⟩

end Sys2Proof.Machine
end

