-- ==== Sys2Proof/Proofs/SetPortFrames.lean ====
section
/-!
PROOFS. What a frame of the set port captures and returns (R153, R154), what NOP delivers (R156), the frames that are
not taken (R153, R155, R160), and the commands that are answered unread (R155, cases 2 and 3).
-/
namespace Sys2Proof.Machine

/-! ### The presence byte (R154) -/

/-- The bits of a number below 256, read off the sum of their weights. -/
theorem getLsbD_weights (b7 b6 b5 b4 b3 b2 b1 b0 : Bool) :
    let x : Byte := BitVec.ofNat 8 (128 * b7.toNat + 64 * b6.toNat + 32 * b5.toNat + 16 * b4.toNat + 8 * b3.toNat
      + 4 * b2.toNat + 2 * b1.toNat + b0.toNat)
    x.getLsbD 7 = b7 ∧ x.getLsbD 6 = b6 ∧ x.getLsbD 5 = b5 ∧ x.getLsbD 4 = b4 ∧ x.getLsbD 3 = b3 ∧ x.getLsbD 2 = b2 ∧
      x.getLsbD 1 = b1 ∧ x.getLsbD 0 = b0 := by
  have hbits : 128 * b7.toNat + 64 * b6.toNat + 32 * b5.toNat + 16 * b4.toNat + 8 * b3.toNat + 4 * b2.toNat
      + 2 * b1.toNat + b0.toNat =
      Nat.bit b0 (Nat.bit b1 (Nat.bit b2 (Nat.bit b3 (Nat.bit b4 (Nat.bit b5 (Nat.bit b6 (Nat.bit b7 0))))))) := by
    simp only [Nat.bit_val]
    omega
  rw [hbits]
  simp only [BitVec.getLsbD_ofNat, Nat.testBit_bit_succ, Nat.testBit_bit_zero]
  simp

/-- The eight fields of the presence byte, each at its bit (R154, 11). -/
theorem presence_fields (s : State) :
    s.presence.getLsbD 7 = s.status.attn ∧ s.presence.getLsbD 6 = s.port.ready ∧
      s.presence.getLsbD 5 = decide (s.port.busy ≠ .clear) ∧ s.presence.getLsbD 4 = s.line.online ∧
      s.presence.getLsbD 3 = decide (s.folio.state = .opened ∨ s.folio.state = .held) ∧
      s.presence.getLsbD 2 = decide (s.lock.state = .unlocked) ∧
      s.presence.getLsbD 1 = (s.channels.bad || s.offers.bad) ∧ s.presence.getLsbD 0 = s.store.write.isSome := by
  have hbusy : (s.port.busy != .clear) = decide (s.port.busy ≠ .clear) := by
    cases s.port.busy <;> rfl
  have hopen : s.folio.isOpen = decide (s.folio.state = .opened ∨ s.folio.state = .held) := by
    unfold Folio.isOpen
    cases s.folio.state <;> rfl
  have hunlocked : (s.lock.state == .unlocked) = decide (s.lock.state = .unlocked) := by
    cases s.lock.state <;> rfl
  rw [← hbusy, ← hopen, ← hunlocked]
  exact getLsbD_weights _ _ _ _ _ _ _ _

/-! ### A frame's beginning (R153, R154) -/

/-- What a frame that begins now captures; the port drives only once the start-up check is complete (R153, R154). -/
def State.capture (s : State) : Capture where
  presence := s.presence
  reply := s.port.slot
  replaced := false
  driven := decide (s.phase = .running)

section
variable {s : State}

theorem frameStart_captures (h : s.phase = .running ∨ s.phase = .checking ∨ s.phase = .released) :
    frameStart s = { s with port := { s.port with frame := .begun s.capture } } := by
  rcases h with h | h | h <;> simp [frameStart, State.capture, h]

theorem frameStart_inReset (h : s.phase = .inReset) :
    frameStart s = { s with port := { s.port with frame := .abandoned } } := by
  simp [frameStart, h]

theorem frameStart_off (h : s.phase = .off) : frameStart s = s := by
  simp [frameStart, h]

end

/-! ### The bytes a frame returns (R153, R154) -/

section
variable {c : Capture}

theorem byteOut_undriven (h : c.driven = false) (n : Nat) : c.byteOut n = none := by
  simp [Capture.byteOut, h]

theorem byteOut_presence (h : c.driven = true) : c.byteOut 0 = some c.presence := by
  simp [Capture.byteOut, h]

/-- After the presence byte an empty slot is returned as 0x00. -/
theorem byteOut_empty (h : c.driven = true) (hr : c.reply = none) {n : Nat} (hn : 1 ≤ n) : c.byteOut n = some 0 := by
  have hne : n ≠ 0 := by omega
  simp [Capture.byteOut, h, hr, hne]

/-- After the presence byte stand the captured reply's bytes, and then 0x00. -/
theorem byteOut_reply {r : Reply} (h : c.driven = true) (hr : c.reply = some r) (n : Nat) :
    c.byteOut (n + 1) = some (r.bytes.getD n 0) := by
  simp [Capture.byteOut, h, hr]

end

/-- Settles O4: the beginning of a frame by the part's phase, and the bytes that what it captured returns. -/
theorem frameStartCapturesPresenceAndReply : Obligations.FrameStartCapturesPresenceAndReply := by
  refine ⟨fun s => ⟨fun h => ?_, fun h => ?_, fun h => ?_⟩, fun c n => ⟨fun h => byteOut_undriven h n, fun h => ?_⟩⟩
  · exact ⟨s.capture, congrArg _ (frameStart_captures h), rfl, rfl, rfl, presence_fields s⟩
  · exact congrArg _ (frameStart_inReset h)
  · exact congrArg _ (frameStart_off h)
  · refine ⟨byteOut_presence h, fun hr => byteOut_empty h hr, fun r hr => ⟨byteOut_reply h hr 0, byteOut_reply h hr 1,
      fun b hb => ?_, fun hn => ?_⟩⟩
    · rw [show 3 + n = (n + 2) + 1 by omega, byteOut_reply h hr]
      simp [Reply.bytes, hb]
    · obtain ⟨m, rfl⟩ : ∃ m, n = (m + 2) + 1 := ⟨n - 3, by omega⟩
      have hpast : r.data.length ≤ m := by omega
      rw [byteOut_reply h hr]
      simp [Reply.bytes, hpast]

/-! ### What the end of a frame delivers (R156) -/

section
variable {s : State} {c : Capture}

theorem openFrame_begun (hf : s.port.frame = .begun c) : (openFrame s).port.frame = .begun c := by
  simp [openFrame, hf]

/-- A row with no frame begun captures at its own event (log 3). -/
theorem openFrame_alone (hp : s.phase = .running) (hf : s.port.frame = .idle) :
    (openFrame s).port.frame = .begun s.capture := by
  simp [openFrame, hf, frameStart_captures (.inl hp)]

/-- A captured reply is delivered if the port drove, the slot still holds it, and the presence byte and every byte of
the reply were clocked out. -/
theorem delivers_reply (hf : (openFrame s).port.frame = .begun c) {r : Reply} (hr : c.reply = some r) (n : Nat) :
    s.delivers n = (c.driven && !c.replaced && decide (3 + r.data.length ≤ min 48 n)) := by
  have hlength : 1 + r.bytes.length = 3 + r.data.length := by
    simp only [Reply.bytes, List.length_cons]
    omega
  simp only [State.delivers, hf, Frame.delivers, hr, hlength, setFrameBytes]

theorem delivers_empty (hf : (openFrame s).port.frame = .begun c) (hr : c.reply = none) (n : Nat) :
    s.delivers n = false := by
  simp only [State.delivers, hf, Frame.delivers, hr]

/-- NOP ends its frame, and that is all it does (R156). -/
theorem exec_nop {args : List Byte} (h : s.takesCommand) : exec (.nop args) s = .next (s.frameOver (1 + args.length)) :=
  exec_command (k := { code := 0x00, needs := 0, run := nopCommand }) rfl h rfl (Nat.zero_le _) (Nat.zero_le _)

end

/-- Settles O5: NOP leaves the state whose frame is over, by what its frame or the row alone captured. -/
theorem nopDeliversCapturedReply : Obligations.NopDeliversCapturedReply := by
  intro args s h
  have hnop := exec_nop (args := args) h
  obtain ⟨hp, -, -⟩ := h
  refine ⟨fun c r hf hr => ?_, fun c hf hr => ?_, fun r hf hr => ?_, fun hf hr => ?_⟩
  · rw [hnop, State.frameOver, delivers_reply (openFrame_begun hf) hr]
  · rw [hnop, State.frameOver, delivers_empty (openFrame_begun hf) hr, Bool.not_false, Bool.and_true]
  · rw [hnop, State.frameOver, delivers_reply (openFrame_alone hp hf) hr, ← hf]
    simp [State.capture, hp]
  · rw [hnop, State.frameOver, delivers_empty (openFrame_alone hp hf) hr, Bool.not_false, Bool.and_true, ← hf]

/-! ### Frames that are not taken (R153, R155, R158, R160) -/

/-- While BUSY is set only RESET with cause STORE is taken (R155, R158). -/
theorem discardsFrame_busy {b : Busy} {code : Byte} (hb : b ≠ .clear) (h : ¬(code = 0x7F ∧ ∃ w, b = .store w)) :
    b.discardsFrame code = true := by
  cases b with
  | clear => exact absurd rfl hb
  | store w => exact bne_iff_ne.2 fun hcode => h ⟨hcode, w, rfl⟩
  | engine => rfl
  | reset => rfl

/-- Settles O6: a frame that BUSY discards, and a frame that a reset or a part that does not run leaves untaken. -/
theorem framesNotTakenChangeNothingElse : Obligations.FramesNotTakenChangeNothingElse := by
  intro c code args s hc
  rw [exec_setFrame hc]
  exact ⟨fun hp hf hb h => congrArg _ (setFrame_discarded hp hf (discardsFrame_busy hb h)),
    fun h => congrArg _ (setFrame_notTaken h)⟩

/-! ### Frames answered without effect (R155, cases 2 and 3) -/

/-- The commands that take arguments, with the bytes they need after the command byte (11). -/
def commandArguments : List (Byte × Nat) :=
  [(0x02, 5), (0x03, 5), (0x10, 2), (0x11, 1), (0x12, 24), (0x18, 1), (0x19, 1), (0x1A, 1), (0x20, 1), (0x22, 1),
    (0x30, 4), (0x31, 8), (0x32, 5), (0x40, 2)]

theorem setCommand_row : ∀ row ∈ commandArguments,
    (setCommand row.1).map (fun k => (k.code, k.needs)) = some row := by decide

theorem setCommand_unknown {code : Byte} (h : code ∉ setCodes) : setCommand code = none := by
  simp only [setCodes, List.mem_cons, List.not_mem_nil, or_false, not_or] at h
  simp only [setCommand, h, if_false]

section
variable {code : Byte} {args : List Byte} {s : State}

/-- A frame that is taken is judged by its code and its kept bytes when it is over (R155). -/
theorem setFrame_takesCommand (h : s.takesCommand) :
    setFrame code args s = takeCommand code (args.take 47) (s.frameOver (1 + args.length)) := by
  obtain ⟨hp, hf, hb⟩ := h
  exact setFrame_taken hp hf (hb ▸ clear_discards code)

theorem setFrame_unknown (h : s.takesCommand) (hcode : code ∉ setCodes) :
    setFrame code args s = s.replied code .unknownCommand [] := by
  rw [setFrame_takesCommand h, takeCommand, setCommand_unknown hcode]
  exact placeReply_frameOver code .unknownCommand [] _ s

theorem setFrame_short {k : SetCommand} (h : s.takesCommand) (hk : setCommand code = some k)
    (hshort : args.length < k.needs) : setFrame code args s = s.replied k.code .badArg [] := by
  have hkept : (args.take 47).length < k.needs := (List.length_take_le' 47 args).trans_lt hshort
  rw [setFrame_takesCommand h, takeCommand, hk]
  exact (if_pos hkept).trans (placeReply_frameOver k.code .badArg [] _ s)

end

/-- Settles O7: the command table names no command for the code, or one that needs more bytes than the frame holds. -/
theorem framesAnsweredWithoutEffect : Obligations.FramesAnsweredWithoutEffect := by
  refine ⟨fun code args s h hcode => congrArg _ (setFrame_unknown h hcode), fun c code n args s h hc hrow hshort => ?_⟩
  obtain ⟨k, hk, hfields⟩ := Option.map_eq_some_iff.1 (setCommand_row (code, n) hrow)
  obtain ⟨rfl, rfl⟩ := Prod.mk.inj hfields
  rw [exec_setFrame hc, setFrame_short h hk hshort]

end Sys2Proof.Machine
end

