-- ==== Sys2Proof/Proofs/ResetStatement.lean ====
section
/-!
PROOFS. The RESET command: its taking, its wait for the record store, and its effect (R21, R122, R134, R158, R159).
-/
namespace Sys2Proof.Machine

/-! ### What the effect writes (R21, R122, R159) -/

section
variable {s : State}

theorem resetEffect_lock (s : State) : (resetEffect s).lock = s.lock.resetCommand := by
  unfold resetEffect
  dsimp only
  split <;> simp

theorem resetEffect_port (s : State) :
    (resetEffect s).port =
      { s.port with slot := none, ready := false, busy := .clear, frame := s.port.frame.replace } := by
  unfold resetEffect
  dsimp only
  split <;> simp

/-- The effect lists the lock slot when it ends an unlock (R122). -/
theorem resetEffect_lists (h : s.lock.state = .unlocked) : lockSlot ∈ (resetEffect s).store.dirty := by
  rw [resetEffect, if_pos h]
  exact mem_listSlot _ _

theorem resetEffect_store (h : s.lock.state ≠ .unlocked) : (resetEffect s).store = s.store := by
  rw [resetEffect, if_neg h]

/-- A cell that the engine does not hold is discarded (R21). -/
theorem resetCommand_discards {x : Path} (h : x.inEngine = false) : x.resetCommand.progress = none := by
  rcases hg : x.progress with _ | ⟨c, _ | _ | _⟩ <;> simp_all [Path.resetCommand, Path.inEngine]

/-- What the record store has still to write, and what the set port holds, do not change what the effect does. -/
theorem resetTookEffect_resetEffect (store : Store) {port : SetPort} (h : port.discards = s.port.discards) :
    resetTookEffect s (startWrite (resetEffect { s with store := store, port := port })) := by
  refine ⟨fun p => ?_, ?_, ?_, ?_, ?_, ?_, ?_⟩
  · have hpath : (startWrite (resetEffect { s with store := store, port := port })).path p =
        (s.path p).resetCommand := by
      obtain ⟨hpaths, -⟩ := resetEffect_writes { s with store := store, port := port }
      rw [path_startWrite, hpaths]
      cases p <;> rfl
    rw [hpath]
    exact ⟨rfl, rfl, rfl, rfl, rfl, rfl, rfl, rfl, fun c d hg => by simp [Path.resetCommand, hg],
      resetCommand_discards, rfl, rfl, rfl, rfl, rfl, rfl⟩
  · simp only [startWrite_keeps, resetEffect_lock]
    rfl
  all_goals simp [resetEffect_port, h]

/-! ### The event at which nothing is left to write (R159) -/

/-- A waiting RESET command with nothing left to write takes effect at the end of the event. -/
theorem endEvent_resetDue (hb : s.port.busy = .reset) (hd : s.store.dirty = []) (hw : s.store.write = none) :
    endEvent s = startWrite (resetEffect s) := by
  have hdue : s.resetDue = true := by simp [State.resetDue, hb, hd, hw]
  rw [endEvent, startWrite_empty hd]
  exact if_pos hdue

/-- The store after the effect: the lock slot listed by the end of an unlock, and otherwise nothing new. -/
theorem resetEffect_leaves_store (hd : s.store.dirty = []) :
    (s.lock.state = .unlocked → (startWrite (resetEffect s)).listed lockSlot) ∧
      (s.lock.state ≠ .unlocked → (startWrite (resetEffect s)).store = s.store) := by
  refine ⟨fun h => listed_startWrite (resetEffect_lists h), fun h => ?_⟩
  have hstore := resetEffect_store h
  rw [startWrite_empty (by rw [hstore, hd]), hstore]

end

/-! ### The taking of the command (R158) -/

/-- The RESET command waits: its frame is over, the slot holds RESET PENDING, and BUSY has cause RESET (R158). -/
def State.awaitingReset (s : State) : State :=
  { s with port := { s.port with
      frame := .idle, slot := some { code := 0x7F, result := .pending, data := [] }, ready := true, busy := .reset } }

section
variable {s : State} {args : List Byte}

/-- Neither a clear BUSY nor one of cause STORE discards RESET (R155, R158). -/
theorem reset_notDiscarded {b : Busy} (h : b = .clear ∨ ∃ w, b = .store w) : b.discardsFrame 0x7F = false := by
  obtain rfl | ⟨w, rfl⟩ := h <;> rfl

/-- The RESET command begins to wait, and the event ends. -/
theorem exec_reset (hp : s.phase = .running) (hf : s.port.frame ≠ .abandoned)
    (hb : s.port.busy = .clear ∨ ∃ w, s.port.busy = .store w) :
    exec (.reset args) s = .next (endEvent s.awaitingReset) :=
  congrArg _ (setFrame_taken hp hf (reset_notDiscarded hb))

/-- Out of an ended event nothing is listed while no write is in flight (R134). -/
theorem dirty_of_settled (hs : s.settled = true) (hw : s.store.write = none) : s.store.dirty = [] := by
  obtain ⟨hd | hwrite, -⟩ := (settled_iff s).1 hs
  · exact hd
  · simp [hw] at hwrite

/-- While a write is in flight the RESET command goes on waiting (R159). -/
theorem endEvent_awaitingReset_writing (hw : s.store.write ≠ none) : endEvent s.awaitingReset = s.awaitingReset := by
  have hsome : s.awaitingReset.store.write.isSome = true := Option.isSome_iff_ne_none.2 hw
  rw [endEvent_writing fun _ => hsome, startWrite_busy hsome]

end

/-! ### The completion of the last write (R134, R159) -/

section
variable {s : State} {w : SlotWrite}

/-- The last write's completion stores its image, releases no command, and lets the RESET command take effect. -/
theorem completeWrite_reset (hp : s.phase = .running) (hb : s.port.busy = .reset) (hd : s.store.dirty = [])
    (hw : s.store.write = some w) : completeWrite s = startWrite (resetEffect (storeImage w s)) := by
  have hunanswered : releaseWaiting w (storeImage w s) = storeImage w s :=
    releaseWaiting_unanswered (.inr fun c hc => nomatch hb.symm.trans hc)
  simp only [completeWrite, hw]
  rw [hunanswered, beginCheck_of_running (s := storeImage w s) hp,
    endEvent_resetDue (s := storeImage w s) hb hd rfl]

/-- Both rows of R159's event are that completion (log 7). -/
theorem resetEvent_completes (hb : s.port.busy = .reset) (hd : s.store.dirty = []) (hw : s.store.write = some w) :
    resetEvent s = completeWrite s := by
  rw [resetEvent, if_pos ⟨hb, hd⟩, hw]

end

/-- Settles O25: the command waits behind a write in flight, and takes effect at its taking or the last completion. -/
theorem resetWaitsThenTakesEffect : Obligations.ResetWaitsThenTakesEffect := by
  refine ⟨fun args s hp hf hs hb => ⟨fun hw => ?_, fun hw => ?_⟩, fun s w hp hb hd hw => ?_⟩
  · rw [exec_reset hp hf hb, endEvent_awaitingReset_writing hw]
    rfl
  · have hd : s.awaitingReset.store.dirty = [] := dirty_of_settled (s := s) hs hw
    obtain ⟨hlisted, hstands⟩ := resetEffect_leaves_store hd
    refine ⟨startWrite (resetEffect s.awaitingReset), ?_, resetTookEffect_resetEffect s.store rfl, ?_, hlisted, hstands⟩
    · rw [exec_reset hp hf hb, endEvent_resetDue rfl hd hw]
    · simp [resetEffect_port, State.awaitingReset, Frame.replace]
  · have hcomplete := completeWrite_reset hp hb hd hw
    obtain ⟨hlisted, hstands⟩ := resetEffect_leaves_store (s := storeImage w s) hd
    refine ⟨startWrite (resetEffect (storeImage w s)), congrArg Host.Outcome.next ?_, resetTookEffect_resetEffect _ rfl,
      congrArg Host.Outcome.next hcomplete, by simp [storeImage], hlisted, fun hlocked => ?_⟩
    · exact (resetEvent_completes hb hd hw).trans hcomplete
    · rw [hstands hlocked]
      exact ⟨hd, rfl⟩

end Sys2Proof.Machine
end

