-- ==== Sys2Proof/Proofs/StatusLaws.lean ====
section
/-!
PROOFS. The status unit, one group at a time: the flag table (11), what a report sets (R161), which groups are live, and
what CLEAR_FLAGS and SET_MASKS leave of a group's combined flag (R162, R163).
-/
namespace Sys2Proof.Machine

/-! ### The flag table (11) -/

theorem DetailFlag.mark_eq_twoPow (f : DetailFlag) : f.mark = BitVec.twoPow 20 f.bit := rfl

theorem DetailFlag.bit_lt (f : DetailFlag) : f.bit < 20 := by cases f <;> decide

theorem DetailFlag.getLsbD_mark (f : DetailFlag) (k : Nat) : f.mark.getLsbD k = decide (k = f.bit) := by
  rw [f.mark_eq_twoPow, BitVec.getLsbD_twoPow, decide_eq_true f.bit_lt, Bool.true_and]
  exact decide_eq_decide.2 eq_comm

theorem Group.getLsbD_details (f : DetailFlag) (g : Group) : g.details.getLsbD f.bit = decide (f.group = g) := by
  cases f <;> cases g <;> rfl

/-- The bit of a group's combined flag (11). -/
def Group.bit : Group → Nat
  | .line => 0
  | .table => 1
  | .path => 2
  | .store => 3
  | .lock => 4
  | .bill => 5

theorem Group.mark_eq_twoPow (g : Group) : g.mark = BitVec.twoPow 6 g.bit := by cases g <;> rfl

theorem Group.bit_lt (g : Group) : g.bit < 6 := by cases g <;> decide

theorem Group.mark_ne_zero (g : Group) : g.mark ≠ 0#6 := by cases g <;> decide

/-- No two groups share a combined flag. -/
theorem Group.getLsbD_mark (h g : Group) : h.mark.getLsbD g.bit = decide (h = g) := by
  cases h <;> cases g <;> rfl

/-- A word cut down to a group's combined flag is decided by the flag's bit. -/
theorem Group.and_mark (x : BitVec 6) (g : Group) : x &&& g.mark = if x.getLsbD g.bit then g.mark else 0 := by
  rw [g.mark_eq_twoPow, BitVec.and_twoPow]
  rfl

theorem Group.and_mark_ne_zero {x : BitVec 6} {g : Group} : x &&& g.mark ≠ 0 ↔ x.getLsbD g.bit = true := by
  rw [g.and_mark]
  split <;> simp_all [g.mark_ne_zero]

/-! ### Reports (R161) -/

/-- A report sets the combined flag of its group unless its mask is set, and touches no other group. -/
theorem report_combined_and_mark (st : Status) (f : DetailFlag) (g : Group) :
    (st.report f).combined &&& g.mark =
      if f.group = g ∧ st.detailMask.getLsbD f.bit = false then g.mark else st.combined &&& g.mark := by
  unfold Status.report
  cases st.detailMask.getLsbD f.bit with
  | true => simp
  | false =>
    by_cases hgroup : f.group = g <;> simp [g.and_mark, Group.getLsbD_mark, hgroup]

/-! ### Live groups (R162, R163) -/

theorem getLsbD_liveMark (st : Status) (h g : Group) :
    (st.liveMark h).getLsbD g.bit = (decide (h = g) && decide (st.detail &&& ~~~st.detailMask &&& g.details ≠ 0)) := by
  unfold Status.liveMark
  split <;> by_cases hg : h = g <;> simp_all [Group.getLsbD_mark]

/-- A group is live when it holds a set, unmasked detail flag. -/
theorem getLsbD_live (st : Status) (g : Group) :
    st.live.getLsbD g.bit = decide (st.detail &&& ~~~st.detailMask &&& g.details ≠ 0) := by
  simp only [Status.live, BitVec.getLsbD_or, getLsbD_liveMark]
  cases g <;> simp

/-! ### CLEAR_FLAGS and SET_MASKS at one group (R162, R163) -/

/-- A named combined flag is cleared unless its group is live (R162). -/
theorem clearCombined_and_mark (st : Status) (named : BitVec 6) (g : Group) :
    (st.clearCombined named).combined &&& g.mark =
      if named &&& g.mark ≠ 0 ∧ st.detail &&& ~~~st.detailMask &&& g.details = 0 then 0
      else st.combined &&& g.mark := by
  have hbit : (st.clearCombined named).combined.getLsbD g.bit =
      (st.combined.getLsbD g.bit && (!named.getLsbD g.bit || st.live.getLsbD g.bit)) := by
    simp [Status.clearCombined, g.bit_lt]
  rw [g.and_mark (st.clearCombined named).combined, hbit, getLsbD_live]
  simp only [Group.and_mark_ne_zero]
  by_cases hnamed : named.getLsbD g.bit = true
  · by_cases hlive : st.detail &&& ~~~st.detailMask &&& g.details = 0#20 <;> simp [hnamed, hlive, g.and_mark]
  · simp [hnamed, g.and_mark]

/-- The clearing of a named combined flag is refused while its group is live (R162). -/
theorem refusedMarks_and_mark (st : Status) (named : BitVec 6) (g : Group) :
    st.refusedMarks named &&& g.mark =
      if named &&& g.mark ≠ 0 ∧ st.detail &&& ~~~st.detailMask &&& g.details ≠ 0 then st.combined &&& g.mark
      else 0 := by
  have hbit : (st.refusedMarks named).getLsbD g.bit =
      (st.combined.getLsbD g.bit && named.getLsbD g.bit && st.live.getLsbD g.bit) := by
    simp [Status.refusedMarks]
  rw [g.and_mark (st.refusedMarks named), hbit, getLsbD_live]
  simp only [Group.and_mark_ne_zero]
  by_cases hnamed : named.getLsbD g.bit = true
  · by_cases hlive : st.detail &&& ~~~st.detailMask &&& g.details = 0#20 <;> simp [hnamed, hlive, g.and_mark]
  · simp [hnamed]

/-- New masks set the combined flag of each group then live, and clear none (R163). -/
theorem setMasks_and_mark (st : Status) (detailMask : BitVec 20) (attnMask : BitVec 6) (g : Group) :
    (st.setMasks detailMask attnMask).combined &&& g.mark =
      if st.detail &&& ~~~detailMask &&& g.details ≠ 0 then g.mark else st.combined &&& g.mark := by
  have hbit : (st.setMasks detailMask attnMask).combined.getLsbD g.bit =
      (st.combined.getLsbD g.bit || decide (st.detail &&& ~~~detailMask &&& g.details ≠ 0)) := by
    rw [Status.setMasks, BitVec.getLsbD_or, getLsbD_live]
  rw [g.and_mark (st.setMasks detailMask attnMask).combined, hbit]
  by_cases hlive : st.detail &&& ~~~detailMask &&& g.details = 0#20 <;> simp [hlive, g.and_mark]

/-- The ATTN line is asserted while a combined flag stands whose position in the ATTN mask is set (R164). -/
theorem attn_iff (st : Status) : st.attn = true ↔ st.combined &&& st.attnMask ≠ 0 := bne_iff_ne

end Sys2Proof.Machine
end

