-- ==== Sys2Proof/Proofs/StatusStatements.lean ====
section
/-!
PROOFS. The commands of the status unit and READ_FOLIO: what they answer, and all they change (R74, R80, R162 to R164).
-/
namespace Sys2Proof.Machine

/-! ### READ_STATUS and READ_FOLIO (R80, R164) -/

/-- Settles O9: neither command takes an argument, and each reply is read off the state as it stood. -/
theorem readStatusAndReadFolioReport : Obligations.ReadStatusAndReadFolioReport := by
  refine fun args s h => ⟨?_, ?_⟩
  · rw [exec_command (k := ⟨0x01, 0, readStatusCommand⟩) rfl h rfl (Nat.zero_le _) (by decide)]
    rfl
  · rw [exec_command (k := ⟨0x21, 0, readFolioCommand⟩) rfl h rfl (Nat.zero_le _) (by decide)]
    rfl

section
variable {args : List Byte} {s : State}

/-! ### SET_MASKS (R163) -/

theorem exec_setMasks (h : s.takesCommand) (hn : 5 ≤ args.length) :
    exec (.setMasks args) s = .next (setMasksCommand args (s.frameOver (1 + args.length))) := by
  rw [exec_command (c := .setMasks args) (k := ⟨0x03, 5, setMasksCommand⟩) rfl h rfl hn (by decide)]
  simp only [setMasksCommand, natAt_take (show 0 + 4 ≤ 47 by decide), byteAt_take (show 4 < 47 by decide)]

/-! ### CLEAR_FLAGS (R74, R162) -/

/-- The status unit after a clearing of these detail flags and combined flags (R162). -/
def Status.afterClear (st : Status) (details : BitVec 20) (marks : BitVec 6) : Status :=
  (st.clearDetails details).clearCombined marks

/-- The folio record after a clearing of these detail flags: CAP_REACHED takes the mark with it (R74). -/
def Folio.afterClear (f : Folio) (details : BitVec 20) : Folio :=
  if details.getLsbD 16 then { f with capMark := false } else f

/-- All that CLEAR_FLAGS writes before its event ends. -/
def State.clearedFlags (s : State) (details : BitVec 20) (marks : BitVec 6) : State :=
  setFolio (s.folio.afterClear details) { s with status := s.status.afterClear details marks }

theorem setFolio_same (s : State) : setFolio s.folio s = s := if_pos rfl

/-- The folio record is written where CAP_REACHED is named, and stands otherwise. -/
theorem clearedFlags_eq (s : State) (details : BitVec 20) (marks : BitVec 6) :
    s.clearedFlags details marks =
      let u : State := { s with status := s.status.afterClear details marks }
      if details.getLsbD 16 then setFolio { u.folio with capMark := false } u else u := by
  unfold State.clearedFlags Folio.afterClear
  split
  · rfl
  · exact setFolio_same { s with status := s.status.afterClear details marks }

/-- CLEAR_FLAGS writes, ends its event, and replies. -/
theorem exec_clearFlags (h : s.takesCommand) (hn : 5 ≤ args.length) :
    let details : BitVec 20 := BitVec.ofNat 20 (natAt args 0 4)
    let marks : BitVec 6 := BitVec.ofNat 6 (byteAt args 4)
    exec (.clearFlags args) s =
      .next (placeReply 0x02 .ok
        (be 1 (s.status.afterClear details marks).combined.toNat ++
          be 1 ((s.status.clearDetails details).refusedMarks marks).toNat)
        (endEvent ((s.frameOver (1 + args.length)).clearedFlags details marks))) := by
  rw [exec_command (c := .clearFlags args) (k := ⟨0x02, 5, clearFlagsCommand⟩) rfl h rfl hn (by decide)]
  simp only [clearFlagsCommand, natAt_take (show 0 + 4 ≤ 47 by decide), byteAt_take (show 4 < 47 by decide),
    clearedFlags_eq]
  rfl

/-- The event has left these flags and this folio record: the folio slot is listed where the record has changed, and
nothing else has changed. -/
structure FlagsCleared (st : Status) (f : Folio) (s t : State) : Prop where
  status : t.status = st
  folio : t.folio = f
  listed : f ≠ s.folio → t.listed folioSlot
  store : f = s.folio → t.store = s.store
  port : t.port = s.port
  rest : { t with status := s.status, folio := s.folio, store := s.store } = s

theorem endEvent_clearedFlags (hs : s.settled = true) (details : BitVec 20) (marks : BitVec 6) :
    FlagsCleared (s.status.afterClear details marks) (s.folio.afterClear details) s
      (endEvent (s.clearedFlags details marks)) := by
  have hwritten : State.settled { s with status := s.status.afterClear details marks } = true := hs
  have hend : endEvent (s.clearedFlags details marks) = startWrite (s.clearedFlags details marks) :=
    endEvent_of_lists hwritten (setFolio_lists _ _)
  refine ⟨by simp [State.clearedFlags], by simp [State.clearedFlags], fun hne => ?_, fun heq => ?_, ?_, ?_⟩
  · rw [hend]
    exact listed_startWrite (setFolio_listed (s := { s with status := _ }) hne)
  · have hstands : s.clearedFlags details marks = { s with status := s.status.afterClear details marks } := if_pos heq
    rw [hstands, endEvent_settled hwritten]
  · rw [hend]
    simp [State.clearedFlags]
  · rw [hend]
    simp [State.clearedFlags]

end

/-- Settles O13: group by group the combined flags follow the flags then live, and the folio record is all else that the
event writes. -/
theorem clearFlagsClears : Obligations.ClearFlagsClears := by
  intro args s h hs hn
  have hexec := exec_clearFlags h hn
  dsimp only at hexec
  generalize BitVec.ofNat 20 (natAt args 0 4) = details at hexec ⊢
  generalize BitVec.ofNat 6 (byteAt args 4) = marks at hexec ⊢
  have hover : (s.frameOver (1 + args.length)).settled = true := hs
  obtain ⟨hstatus, hfolio, hlisted, hstore, hport, hrest⟩ := endEvent_clearedFlags hover details marks
  generalize endEvent ((s.frameOver (1 + args.length)).clearedFlags details marks) = t at *
  refine ⟨_, (s.status.clearDetails details).refusedMarks marks, hexec, congrArg Status.detail hstatus,
    (congrArg Status.detailMask hstatus :), (congrArg Status.attnMask hstatus :), fun g => ?_, hfolio,
    fun hne => hlisted fun heq => hne (hfolio.trans heq), fun heq => hstore (hfolio.symm.trans heq), ?_,
    congrArg (fun u : State => { u with port := s.port }) hrest⟩
  · simp only [placeReply_keeps, hstatus]
    exact ⟨clearCombined_and_mark (s.status.clearDetails details) marks g,
      refusedMarks_and_mark (s.status.clearDetails details) marks g⟩
  · simp only [placeReply, hport, hstatus]
    rfl

/-- Settles O14: SET_MASKS writes the status unit alone; its combined flags, like a report's, are read at one group at a
time; and the flag table is read off the model's. -/
theorem setMasksReplacesMasks : Obligations.SetMasksReplacesMasks := by
  refine ⟨fun args s h hn => ?_, fun f st => ?_, rfl, rfl, Group.getLsbD_details⟩
  · refine ⟨(s.status.setMasks (BitVec.ofNat 20 (natAt args 0 4)) (BitVec.ofNat 6 (byteAt args 4))).combined, ?_,
      attn_iff _, setMasks_and_mark s.status _ _⟩
    rw [exec_setMasks h hn]
    rfl
  · exact ⟨rfl, f.getLsbD_mark, rfl, rfl, report_combined_and_mark st f⟩

end Sys2Proof.Machine
end

