-- ==== Sys2Proof/Proofs/QueueLaws.lean ====
section
/-!
SUPPORT. The queue of waiting commands stands outside the part (log 16): the commands of the set port and the events of
the paths, the store, the clocks, the tables and the line port leave it as it is. For the operations under them see
Laws/KeepsOps.lean to Laws/KeepsBlocks.lean.
-/
namespace Sys2Proof.Machine

/-- An event that has an effect under a condition only. -/
theorem pending_ite {c : Prop} [Decidable c] {s t u : State} (ht : t.pending = s.pending) (hu : u.pending = s.pending) :
    (if c then t else u).pending = s.pending := by
  split <;> assumption

/-! ### Commands of the set port (R155) -/

@[simp] theorem lockReply_pending (code : Byte) (r : ResultCode) (s : State) :
    (lockReply code r s).pending = s.pending := by
  simp [lockReply]

@[simp] theorem clearFlagsCommand_pending (args : List Byte) (s : State) :
    (clearFlagsCommand args s).pending = s.pending := by
  unfold clearFlagsCommand
  dsimp only
  split <;> simp

@[simp] theorem selectCommand_pending (args : List Byte) (s : State) : (selectCommand args s).pending = s.pending := by
  unfold selectCommand
  dsimp only
  (repeat' split) <;> simp

@[simp] theorem readPathCommand_pending (args : List Byte) (s : State) :
    (readPathCommand args s).pending = s.pending := by
  unfold readPathCommand
  split <;> simp

@[simp] theorem engineTestCommand_pending (args : List Byte) (s : State) :
    (engineTestCommand args s).pending = s.pending := by
  unfold engineTestCommand
  dsimp only
  split <;> simp

@[simp] theorem readChannelCommand_pending (args : List Byte) (s : State) :
    (readChannelCommand args s).pending = s.pending := by
  unfold readChannelCommand
  dsimp only
  split <;> simp

@[simp] theorem readOfferCommand_pending (args : List Byte) (s : State) :
    (readOfferCommand args s).pending = s.pending := by
  unfold readOfferCommand
  dsimp only
  split <;> simp

@[simp] theorem tableTestCommand_pending (args : List Byte) (s : State) :
    (tableTestCommand args s).pending = s.pending := by
  unfold tableTestCommand
  split <;> simp

@[simp] theorem acceptOrder_pending (o : OfferEntry) (f : Folio) (c : Charge) (s : State) :
    (acceptOrder o f c s).pending = s.pending := by
  unfold acceptOrder
  dsimp only
  split <;> simp

/-- Each check of an ORDER that fails replies alone (R93). -/
@[simp] theorem orderCommand_pending (args : List Byte) (s : State) : (orderCommand args s).pending = s.pending := by
  unfold orderCommand refuseOrder
  dsimp only
  (repeat' split) <;> simp

@[simp] theorem readRecordCommand_pending (args : List Byte) (s : State) :
    (readRecordCommand args s).pending = s.pending := by
  unfold readRecordCommand
  dsimp only
  (repeat' split) <;> simp

@[simp] theorem acceptLock_pending (w : Waiting) (code : Byte) (l : Lock) (s : State) :
    (acceptLock w code l s).pending = s.pending := by
  simp [acceptLock]

@[simp] theorem enterPinCommand_pending (args : List Byte) (s : State) :
    (enterPinCommand args s).pending = s.pending := by
  unfold enterPinCommand
  dsimp only
  (repeat' split) <;> simp

@[simp] theorem setPinCommand_pending (args : List Byte) (s : State) : (setPinCommand args s).pending = s.pending := by
  unfold setPinCommand
  dsimp only
  (repeat' split) <;> simp

@[simp] theorem setCeilingCommand_pending (args : List Byte) (s : State) :
    (setCeilingCommand args s).pending = s.pending := by
  unfold setCeilingCommand
  dsimp only
  (repeat' split) <;> simp

@[simp] theorem relockCommand_pending (args : List Byte) (s : State) : (relockCommand args s).pending = s.pending := by
  unfold relockCommand
  split <;> simp

@[simp] theorem setRoomCommand_pending (args : List Byte) (s : State) :
    (setRoomCommand args s).pending = s.pending := by
  unfold setRoomCommand
  dsimp only
  (repeat' split) <;> simp

/-- Every command of the table leaves the queue as it is (11). -/
theorem setCommand_pending {code : Byte} {c : SetCommand} (hc : setCommand code = some c) (args : List Byte)
    (s : State) : (c.run args s).pending = s.pending := by
  unfold setCommand at hc
  obtain rfl | hc := row_or_later hc
  · rfl
  obtain rfl | hc := row_or_later hc
  · simp [readStatusCommand]
  obtain rfl | hc := row_or_later hc
  · exact clearFlagsCommand_pending args s
  obtain rfl | hc := row_or_later hc
  · simp [setMasksCommand]
  obtain rfl | hc := row_or_later hc
  · exact selectCommand_pending args s
  obtain rfl | hc := row_or_later hc
  · exact readPathCommand_pending args s
  obtain rfl | hc := row_or_later hc
  · exact engineTestCommand_pending args s
  obtain rfl | hc := row_or_later hc
  · exact readChannelCommand_pending args s
  obtain rfl | hc := row_or_later hc
  · exact readOfferCommand_pending args s
  obtain rfl | hc := row_or_later hc
  · exact tableTestCommand_pending args s
  obtain rfl | hc := row_or_later hc
  · exact orderCommand_pending args s
  obtain rfl | hc := row_or_later hc
  · simp [readFolioCommand]
  obtain rfl | hc := row_or_later hc
  · exact readRecordCommand_pending args s
  obtain rfl | hc := row_or_later hc
  · exact enterPinCommand_pending args s
  obtain rfl | hc := row_or_later hc
  · exact setPinCommand_pending args s
  obtain rfl | hc := row_or_later hc
  · exact setCeilingCommand_pending args s
  obtain rfl | hc := row_or_later hc
  · exact relockCommand_pending args s
  obtain rfl | hc := row_or_later hc
  · exact setRoomCommand_pending args s
  obtain rfl | hc := row_or_later hc
  · simp [readTimeCommand]
  obtain rfl | hc := row_or_later hc
  · simp [resetCommand]
  cases hc

theorem takeCommand_pending (code : Byte) (args : List Byte) (s : State) :
    (takeCommand code args s).pending = s.pending := by
  unfold takeCommand SetCommand.take
  split
  · simp
  · exact pending_ite (by simp) (setCommand_pending ‹_› args s)

theorem frameStart_pending (s : State) : (frameStart s).pending = s.pending := by
  unfold frameStart
  split <;> rfl

/-- A frame that ends is not taken, discarded, or taken (R153, R155, R160). -/
theorem setFrame_pending (code : Byte) (args : List Byte) (s : State) : (setFrame code args s).pending = s.pending := by
  by_cases hrun : s.phase ≠ .running ∨ s.port.frame = .abandoned
  · rw [setFrame_notTaken hrun]
  · obtain ⟨hphase, hframe⟩ := not_or.1 hrun
    rw [not_not] at hphase
    cases hd : s.port.busy.discardsFrame code with
    | true => rw [setFrame_discarded hphase hframe hd]
    | false =>
      rw [setFrame_taken hphase hframe hd, takeCommand_pending]
      simp

/-! ### The paths' events (R1 to R3, R13, R14, R16) -/

@[simp] theorem cellComplete_pending (p : PathId) (c : Cell) (s : State) :
    (cellComplete p c s).pending = s.pending := by
  unfold cellComplete
  dsimp only
  (repeat' split) <;> simp

theorem inputStrobe_pending (p : PathId) (mark : Bool) (b : Byte) (s : State) :
    (inputStrobe p mark b s).pending = s.pending := by
  unfold inputStrobe
  dsimp only
  (repeat' split) <;> simp

@[simp] theorem keyCheck_pending (p : PathId) (c : Cell) (s : State) : (keyCheck p c s).pending = s.pending := by
  unfold keyCheck
  split <;> simp

@[simp] theorem treatCell_pending (p : PathId) (c : Cell) (s : State) : (treatCell p c s).pending = s.pending := by
  unfold treatCell leaveCell
  (repeat' split) <;> simp

theorem takeCell_pending (p : PathId) (s : State) : (takeCell p s).pending = s.pending := by
  unfold takeCell
  dsimp only
  (repeat' split) <;> simp

theorem cellLeft_pending (p : PathId) (s : State) : (cellLeft p s).pending = s.pending := by
  unfold cellLeft
  dsimp only
  split <;> simp

/-! ### The record store's events and the start-up check (R134, R138, R159) -/

theorem completeWrite_pending (s : State) : (completeWrite s).pending = s.pending := by
  have hchecking : ∀ u, (beginCheck u).pending = u.pending := fun u => by
    unfold beginCheck
    split <;> rfl
  unfold completeWrite
  split
  · rfl
  · simp [hchecking, storeImage]

theorem resetEvent_pending (s : State) : (resetEvent s).pending = s.pending := by
  unfold resetEvent
  split
  · split
    · exact completeWrite_pending s
    · simp
  · rfl

theorem completeCheck_pending (s : State) : (completeCheck s).pending = s.pending := by
  unfold completeCheck
  dsimp only
  split <;> simp [rebuildCopies]

/-! ### The minute and its single shares (R37, R90 to R92, R123) -/

@[simp] theorem windowsMinute_pending (bought : List Half) (s : State) :
    (windowsMinute bought s).pending = s.pending := by
  unfold windowsMinute
  induction bought generalizing s with
  | nil => rfl
  | cons seq bought ih => simpa using ih (windowMinute seq s)

theorem takeMinute_pending (bought : List Half) (s : State) (taker : MinuteTaker) :
    (takeMinute bought s taker).pending = s.pending := by
  cases taker <;> simp [takeMinute]

theorem takeMinutes_pending (bought : List Half) : ∀ (takers : List MinuteTaker) (s : State),
    (takers.foldl (takeMinute bought) s).pending = s.pending
  | [], _ => rfl
  | taker :: takers, s =>
    (takeMinutes_pending bought takers (takeMinute bought s taker)).trans (takeMinute_pending bought s taker)

theorem minute_pending (order : List MinuteTaker) (s : State) : (minute order s).pending = s.pending :=
  takeMinutes_pending _ _ _

theorem second_pending (order : List MinuteTaker) (s : State) : (second order s).pending = s.pending :=
  pending_ite (minute_pending order s) rfl

theorem lastPreviewMinute_pending (policy : Policy) (seq : Half) (s : State) :
    (lastPreviewMinute policy seq s).pending = s.pending := by
  unfold lastPreviewMinute
  (repeat' split) <;> simp

theorem lastWindowMinute_pending (seq : Half) (s : State) : (lastWindowMinute seq s).pending = s.pending := by
  unfold lastWindowMinute
  (repeat' split) <;> simp

theorem expireHalf_pending (context : Nat) (parity : Parity) (s : State) :
    (expireHalf context parity s).pending = s.pending := by
  unfold expireHalf
  (repeat' split) <;> simp

/-- A share of a minute, in a part that runs (R124). -/
theorem whenRunning_pending {f : State → State} (hf : ∀ u, (f u).pending = u.pending) (s : State) :
    (whenRunning f s).pending = s.pending :=
  pending_ite (by simp [hf]) rfl

/-! ### The tables' events (R46, R52) -/

theorem scanStep_pending (t : TableId) (s : State) : (scanStep t s).pending = s.pending := by
  unfold scanStep
  dsimp only
  (repeat' split) <;> simp

theorem upset_pending (t : TableId) (index : Nat) (entry : List Byte) (s : State) :
    (upset t index entry s).pending = s.pending := by
  unfold upset
  dsimp only
  split <;> simp

/-! ### The line port (R62 to R66, R143 to R147) -/

@[simp] theorem checkInMessage_pending (args : List Byte) (s : State) :
    (checkInMessage args s).1.pending = s.pending := by
  unfold checkInMessage acceptCheckIn
  (repeat' split) <;> simp

@[simp] theorem checkOutMessage_pending (args : List Byte) (s : State) :
    (checkOutMessage args s).1.pending = s.pending := by
  unfold checkOutMessage
  split
  · simp [acceptCheckOut_eq]
  · rfl

@[simp] theorem folioEvent_pending (f : Folio) (s : State) : (folioEvent f s).pending = s.pending :=
  pending_ite rfl (by simp)

@[simp] theorem holdMessage_pending (args : List Byte) (s : State) : (holdMessage args s).1.pending = s.pending := by
  unfold holdMessage
  dsimp only
  (repeat' split) <;> simp

@[simp] theorem packagesMessage_pending (args : List Byte) (s : State) :
    (packagesMessage args s).1.pending = s.pending := by
  unfold packagesMessage
  split <;> simp

/-- Whatever an owner of a message does, it leaves the queue as it is (R146). -/
theorem messageKind_pending {kind : Byte} {m : MessageKind} (h : messageKind kind = some m) (payload : List Byte)
    (s : State) : (m.act payload s).1.pending = s.pending := by
  unfold messageKind at h
  obtain rfl | h := row_or_later h
  · rfl
  obtain rfl | h := row_or_later h
  · simp [silently]
  obtain rfl | h := row_or_later h
  · simp [silently]
  obtain rfl | h := row_or_later h
  · simp [silently]
  obtain rfl | h := row_or_later h
  · simp [silently]
  obtain rfl | h := row_or_later h
  · simp [silently]
  obtain rfl | h := row_or_later h
  · exact checkInMessage_pending payload s
  obtain rfl | h := row_or_later h
  · exact checkOutMessage_pending payload s
  obtain rfl | h := row_or_later h
  · exact holdMessage_pending payload s
  obtain rfl | h := row_or_later h
  · exact packagesMessage_pending payload s
  obtain rfl | h := row_or_later h
  · simp [collectMessage]
  obtain rfl | h := row_or_later h
  · simp [acked, releaseMessage]
  obtain rfl | h := row_or_later h
  · simp [acked, voidMessage]
  obtain rfl | h := row_or_later h
  · simp [acked]
  cases h

theorem addressedFrame_pending (address : Half) (kind : Byte) (payload : List Byte) (s : State) :
    (addressedFrame address kind payload s).pending = s.pending := by
  have hact : ∀ u, (addressedAct kind payload u).1.pending = u.pending := fun u => by
    unfold addressedAct
    split
    · rfl
    · split
      · rfl
      · exact messageKind_pending ‹_› payload u
  simp [addressedFrame, hact]

theorem broadcastFrame_pending (kind : Byte) (payload : List Byte) (s : State) :
    (broadcastFrame kind payload s).pending = s.pending := by
  unfold broadcastFrame
  split
  · rfl
  · exact pending_ite (by simp [messageKind_pending ‹_›]) rfl

theorem soundFrame_pending (address : Half) (kind : Byte) (payload : List Byte) (s : State) :
    (soundFrame address kind payload s).pending = s.pending :=
  pending_ite rfl (pending_ite (broadcastFrame_pending kind payload s)
    (pending_ite (addressedFrame_pending address kind payload s) rfl))

theorem frameArrives_pending (bytes : List Byte) (tooLong framingError : Bool) (s : State) :
    (frameArrives bytes tooLong framingError s).pending = s.pending := by
  unfold frameArrives
  dsimp only
  split
  · exact pending_ite rfl rfl
  · exact soundFrame_pending _ _ _ _

theorem wholeFrame_pending (bytes : List Byte) (tooLong framingError : Bool) (s : State) :
    (wholeFrame bytes tooLong framingError s).pending = s.pending := by
  unfold wholeFrame
  split
  · rfl
  · exact frameArrives_pending _ _ _ s
  · exact pending_ite (frameArrives_pending _ _ _ s) rfl
  · rfl

theorem lineIdle_pending (s : State) : (lineIdle s).pending = s.pending := by
  unfold lineIdle
  split
  · rfl
  · rfl
  · exact frameArrives_pending _ _ _ s
  · rfl

theorem characterArrives_pending (b : Byte) (stopLow : Bool) (s : State) :
    (characterArrives b stopLow s).pending = s.pending := by
  unfold characterArrives
  split <;> rfl

theorem startReply_pending (s : State) : (startReply s).pending = s.pending := by
  unfold startReply
  split <;> rfl

theorem endReply_pending (s : State) : (endReply s).pending = s.pending := by
  unfold endReply
  split <;> rfl

/-- An event of the line, in a part that runs (R151). -/
theorem whenLineRuns_pending {f : State → State} (hf : ∀ u, (f u).pending = u.pending) (s : State) :
    (whenLineRuns f s).pending = s.pending :=
  pending_ite (hf s) rfl

end Sys2Proof.Machine
end

