-- ==== Sys2Proof/Proofs/CommandStatements.lean ====
section
/-!
HEADLINE. A step runs the command at the front of the queue, and every command is answered with a next state that leaves
the queue alone (spec/00_scope.md, "Events and order"; logs 1 and 2).
-/
namespace Sys2Proof.Machine

/-- Settles O1: the two cases of the queue. -/
theorem stepRunsFrontCommand : Obligations.StepRunsFrontCommand := by
  refine fun s => ⟨fun c rest hqueue => ?_, fun hqueue => ?_⟩
  · unfold step
    rw [hqueue]
  · unfold step
    rw [hqueue]

/-- Settles O2, row by row: the ends of set port frames, the message frames, and the rest one by one. -/
theorem everyCommandCompletes : Obligations.EveryCommandCompletes := by
  intro c s
  cases hset : setPortFrame c with
  | some frame => exact ⟨_, exec_setFrame hset, setFrame_pending _ _ s⟩
  | none =>
  cases hline : linePortFrame c with
  | some frame => exact ⟨_, exec_messageFrame hline, whenLineRuns_pending (wholeFrame_pending _ _ _) s⟩
  | none =>
  cases c with
  | cellArrives p b => exact ⟨_, rfl, inputStrobe_pending p false b s⟩
  | cellInputStrobe p mark b => exact ⟨_, rfl, inputStrobe_pending p mark b s⟩
  | cellTake p => exact ⟨_, rfl, pending_ite (takeCell_pending p s) rfl⟩
  | cellLeaves p => exact ⟨_, rfl, cellLeft_pending p s⟩
  | engineComplete => exact ⟨completeGrant s, rfl, by simp⟩
  | slotWriteComplete => exact ⟨_, rfl, completeWrite_pending s⟩
  | resetTakesEffect => exact ⟨_, rfl, resetEvent_pending s⟩
  | setFrameStart => exact ⟨_, rfl, frameStart_pending s⟩
  | setFrameDiscarded frame =>
    cases frame with
    | nil => exact ⟨closeFrame s, rfl, rfl⟩
    | cons code args => cases hset
  | lineIdleDetected => exact ⟨_, rfl, whenLineRuns_pending lineIdle_pending s⟩
  | lineFrameIgnored bytes framingError tooLong =>
    exact ⟨_, rfl, whenLineRuns_pending (wholeFrame_pending _ _ _) s⟩
  | lineCharacterArrives b stopLow => exact ⟨_, rfl, whenLineRuns_pending (characterArrives_pending b stopLow) s⟩
  | replyTransmitStart => exact ⟨_, rfl, whenLineRuns_pending startReply_pending s⟩
  | replyTransmitEnd => exact ⟨_, rfl, whenLineRuns_pending endReply_pending s⟩
  | secondTick order => exact ⟨_, rfl, whenRunning_pending (second_pending order) s⟩
  | minuteOfTheTimebase order => exact ⟨_, rfl, whenRunning_pending (minute_pending order) s⟩
  | midnightDayChange => exact ⟨_, rfl, whenRunning_pending (fun u => pending_ite (by simp) rfl) s⟩
  | previewLapse seq => exact ⟨_, rfl, whenRunning_pending (lastPreviewMinute_pending .confirm seq) s⟩
  | autoCharge seq => exact ⟨_, rfl, whenRunning_pending (lastPreviewMinute_pending .auto seq) s⟩
  | windowEnd seq => exact ⟨_, rfl, whenRunning_pending (lastWindowMinute_pending seq) s⟩
  | keyLifeExpiry context parity => exact ⟨_, rfl, whenRunning_pending (expireHalf_pending context parity) s⟩
  | unlockExpiry => exact ⟨_, rfl, whenRunning_pending (fun u => pending_ite (by simp) rfl) s⟩
  | lockoutEnd => exact ⟨_, rfl, whenRunning_pending (fun u => pending_ite (by simp) rfl) s⟩
  | watchdogExpiry => exact ⟨_, rfl, whenRunning_pending (fun u => pending_ite (by simp) rfl) s⟩
  | scanStep table => exact ⟨_, rfl, pending_ite (scanStep_pending table s) rfl⟩
  | liveTableUpset table index entry => exact ⟨_, rfl, pending_ite (upset_pending table index entry s) rfl⟩
  | powerLoss => exact ⟨losePower s, rfl, rfl⟩
  | powerOnReset => exact ⟨applyPower s, rfl, rfl⟩
  | pinReset => exact ⟨_, rfl, pending_ite rfl rfl⟩
  | pinResetRelease => exact ⟨_, rfl, pending_ite rfl rfl⟩
  | startUpCheckComplete => exact ⟨_, rfl, pending_ite (completeCheck_pending s) rfl⟩
  | unknownCommand | nop | readStatus | clearFlags | setMasks | select | readPath | engineTest | readChannel | readOffer
  | tableTest | order | readFolio | readRecord | enterPin | setPin | setCeiling | relock | setRoom | readTime
  | reset => cases hset
  | lineUnknownKind | poll | time | key | keyClear | tableEntry | tableCommit | checkIn | checkOut | hold | packages
  | collect | release | void | lock => cases hline

end Sys2Proof.Machine
end

