-- ==== Sys2Proof/Proofs/ResetInvariants.lean ====
section
/-!
HEADLINE. The state right after power-on reset satisfies every invariant that the steps keep, the slots as delivered
(R20, R34, R40, R59, R124, R130, R131, R151).
-/
namespace Sys2Proof.Machine

/-- A path after reset holds no cell (R20). -/
theorem Path.reset_sound : Path.reset.sound := ⟨Nat.zero_le _, nofun, nofun, Nat.zero_le _⟩

/-- A table after reset has its entries, all of zero bytes and not written, and is not scanned (R59). -/
theorem Table.reset_sound (t : TableId) : (Table.reset t.size t.entryBytes).sound t := by
  have hentries : ∀ e ∈ List.replicate t.size (List.replicate t.entryBytes (0 : Byte)), e.length = t.entryBytes :=
    fun e he => by simp [List.eq_of_mem_replicate he]
  exact ⟨by simp [Table.reset], by simp [Table.reset], by simp [Table.reset], hentries, hentries, nofun⟩

/-- Every key half is EMPTY after reset (R34). -/
theorem reset_keysSound : KeysSound State.reset := by
  refine ⟨rfl, fun c hc p key life hl => ?_⟩
  rw [List.eq_of_mem_replicate hc] at hl
  cases p <;> cases hl

theorem Lock.default_sound : Lock.default.sound :=
  (Lock.sound_iff _).2 (Lock.rebuilt_inRange (l := Lock.default) Lock.default_legal)

/-- The reset state keeps the ledger of any rule: its folio record is the default one, in the working copy and in the
folio slot, and it holds no purchase record (R131). -/
theorem delivered_ledger {F : Folio → Prop} {R : Record → Prop} (rule : LedgerRule F R) :
    Ledger F R State.reset where
  folio := rule.default
  log := nofun
  images i hi := by
    have hdelivered : i = .free ∨ i = .folio Folio.default 0 ∨ i = .lock Lock.default ∨ i = .config 0 := by
      simpa [mem_images, State.reset, Store.delivered] using hi
    obtain rfl | rfl | rfl | rfl := hdelivered
    · trivial
    · exact rule.default
    · trivial
    · trivial

/-- No service is selected after reset (R20). -/
theorem reset_previewSound : PreviewSound State.reset :=
  ⟨fun p h => absurd h (by cases p <;> nofun), fun _ p => by cases p <;> rfl⟩

theorem reset_storeFits : StoreFits State.reset where
  placed := nofun
  slots := rfl
  distinct := List.nodup_nil
  listed := nofun
  written := nofun
  damaged := Nat.zero_le _

theorem reset_logSound : LogSound State.reset := ⟨Nat.zero_le _, List.nodup_nil, List.nodup_nil, nofun⟩

/-- Nothing waits to be sent on the line, and the part is OFFLINE, after reset (R151). -/
theorem reset_lineSound : LineSound State.reset :=
  ⟨iff_of_false nofun (not_not.2 rfl), iff_of_false nofun (not_not.2 rfl), by decide, by decide, by decide, nofun⟩

/-- Settles O55, invariant by invariant; the reset state is its own volatile reset. -/
theorem resetSatisfiesInvariants : Obligations.ResetSatisfiesInvariants :=
  ⟨⟨Path.reset_sound, Path.reset_sound⟩, volatileReset_sound State.reset, reset_keysSound,
    ⟨Table.reset_sound .channel, Table.reset_sound .offer⟩, (moneySound_iff _).2 (delivered_ledger money_rule),
    (chargesBalance_iff _).2 (delivered_ledger charges_rule), reset_logSound, reset_previewSound, Lock.default_sound,
    ⟨Nat.zero_le _, Nat.zero_le _⟩, reset_lineSound, (storeSound_iff reset_logSound).2 ⟨reset_storeFits, rfl⟩⟩

end Sys2Proof.Machine
end
